-- ==== Sys2Proof/Word.lean ====
section
/-! DEFINITION. The word types of the Scefoim G4 and the sparse map type. -/

namespace Sys2Proof

/-- A register or a memory-mapped register (R160, R162). -/
abbrev Word := BitVec 64

/-- One byte of storage (R104). -/
abbrev Byte := BitVec 8

/-- An instruction lane or a 32-bit memory word (R151). -/
abbrev Lane := BitVec 32

/-- Sparse data by number: pairs of key and value. -/
abbrev NMap (α : Type) := List (Nat × α)

end Sys2Proof
end

