-- ==== Sys2Proof/Config.lean ====
section
/-! DEFINITION. What the manual leaves open and the model leaves free: constants without a body.
Nothing in Lean can evaluate them, so a claim about the machine holds whatever they are (notes/assumptions/2.md).
A fresh value is a constant applied to the counter `ticks` of the state. -/

namespace Sys2Proof.Config

/-- A word that the manual does not give, fresh for each count. -/
opaque freeWord : Nat → Word

/-- Which entry of a full TLB a fill displaces (R95): the replacement order is not given. -/
opaque tlbVictim : Nat → Nat

/-- The set of a group TLB that holds a page, by partition and page base (R95): 8 ways are given, the choice of the set is not. -/
opaque tlbSet : Nat → Nat → Nat

/-- What a read of HBM returns under another key than the one it was written with (R102): the two keys' identities, the
address, and the 64-byte unit as stored. -/
opaque misread : Nat → Nat → Nat → List Byte → Byte

/-- What a byte of a lost HBM stack reads as (R379): the address and the count of free values. -/
opaque lostByte : Nat → Nat → Byte

/-- The measurement of a firmware image (R439, R440). -/
opaque measure : List Byte → List Byte

/-- The check of a firmware image's signature (R439, R440). -/
opaque signatureGood : List Byte → Bool

/-- The attestation quote over its inputs (R441). -/
opaque quote : List Byte → List Byte

/-- The row of an HBM stack that an address lies in (R380): the size and order of rows are not given. -/
opaque hbmRow : Nat → Nat

/-- Length, leaf index and save-layout version of a firmware image (R439): its form is not given. -/
opaque imageLen : Nat
opaque imageLeaf : List Byte → Nat
opaque imageLayout : List Byte → Nat

/-- The successor certificate that leaf 2^20 − 1 signs, by generation (R442). -/
opaque successor : Nat → List Byte

end Sys2Proof.Config
end

