-- ==== Sys2Proof/Syntax.lean ====
section
/-! DEFINITION. The steps of the Scefoim G4 as syntax: one constructor of `Instr` for each row of the opcode table.
A tile instruction carries its decoded operands. An event carries the agent that acts and what comes from outside. -/

namespace Sys2Proof

/-- The four engines of a tile, numbered 0 to 3 in this order (R161). -/
inductive Eng where
  | e | a | m | y
  deriving DecidableEq, Repr

/-- Token control of a lane (R156). -/
inductive Tk where
  | none | wait | signal | both
  deriving DecidableEq, Repr

/-- The read-only sources 48 to 60 (R161). -/
inductive Ro where
  | zero | col | row | rwid | rhgt | rgn | args | nwalk | tix | peer | cyc | ones | eng
  deriving DecidableEq, Repr

/-- A register field (R161): a private register, an exchange register or a read-only source. -/
inductive Reg where
  | r (n : Fin 32)
  | x (n : Fin 16)
  | ro (k : Ro)
  deriving DecidableEq, Repr

/-- Integer conditions (R186). -/
inductive Cond where
  | eq | ne | lt | ge | ltu | geu | gt | le
  deriving DecidableEq, Repr

/-- Floating-point conditions (R197). -/
inductive FCond where
  | eq | lt | le | un | ne
  deriving DecidableEq, Repr

/-- Scalar floating-point formats (R195). -/
inductive FFmt where
  | f32 | f16 | bf16
  deriving DecidableEq, Repr

/-- Rounding modes of the E engine (R195). -/
inductive Rnd where
  | rne | rtz
  deriving DecidableEq, Repr

/-- Rounding modes with stochastic rounding (R70). -/
inductive RMode where
  | rne | rtz | sr
  deriving DecidableEq, Repr

/-- Kinds of FCVT (R196). -/
inductive CvtKind where
  | f32 | f16 | bf16 | i64 | u64
  deriving DecidableEq, Repr

/-- Which half MUL writes (R183). -/
inductive MulHi where
  | low | hiS | hiU
  deriving DecidableEq, Repr

/-- What CNT counts (R188). -/
inductive CntMode where
  | pop | lz | tz
  deriving DecidableEq, Repr

/-- How PCMP combines (R198). -/
inductive Combine where
  | set | and | or
  deriving DecidableEq, Repr

/-- The operations of PLOG (R198). -/
inductive PlogOp where
  | and | or | xor | andn
  deriving DecidableEq, Repr

/-- Access sizes (R159). -/
inductive Size where
  | b | h | w | d
  deriving DecidableEq, Repr

/-- The five scopes, narrowest first (R5). -/
inductive Scope where
  | tile | group | yard | device | system
  deriving DecidableEq, Repr

/-- The five memory spaces (R77). -/
inductive Space where
  | t | p | g | y | d
  deriving DecidableEq, Repr

/-- Ordering of a load (R192). -/
inductive LdOrd where
  | plain | acq | sync
  deriving DecidableEq, Repr

/-- Ordering of a store (R192). -/
inductive StOrd where
  | plain | rel
  deriving DecidableEq, Repr

/-- Ordering of an atomic (R289). -/
inductive AmoOrd where
  | plain | acq | rel | acqrel
  deriving DecidableEq, Repr

/-- Operations of an atomic (R289). -/
inductive AmoOp where
  | swap | add | and | or | xor | min | max | minu | maxu | cas | fadd
  deriving DecidableEq, Repr

/-- The extension lane of a memory form: byte offset and scope code (R158, R159). -/
structure MemExt where
  off : BitVec 24
  scope : Scope
  deriving DecidableEq, Repr

/-- The extension lane of an atomic (R289). -/
structure AmoExt where
  off : BitVec 24
  ord : AmoOrd
  scope : Scope
  deriving DecidableEq, Repr

/-- The extension lane of BQS (R203). -/
structure BqsExt where
  index : Fin 32
  chan : Bool
  mask : BitVec 5
  sense : Bool
  deriving DecidableEq, Repr

/-- The extension lane of a matrix command (R266). -/
structure MatExt where
  id : BitVec 8
  p1 : BitVec 8
  p2 : BitVec 8
  deriving DecidableEq, Repr

/-- The count of a ring operation: 1 to 63 in the lane, or a register (R235). -/
inductive RingCnt where
  | imm (n : BitVec 6)
  | reg (s : Reg)
  deriving DecidableEq, Repr

/-- The spaces of LDRP and LDOP (R281). -/
inductive PlaneSp where
  | t | g | y | d
  deriving DecidableEq, Repr

/-- The spaces of a completion counter (R297). -/
inductive CntSp where
  | g | y | d
  deriving DecidableEq, Repr

/-- Encapsulated messages between devices (R349), with the parts of the header and the body that they use. -/
structure UalMsg where
  sdev : Nat
  seq : Nat
  handle : Nat
  ttgt : Nat
  trgn : Nat
  tinc : Nat
  tsco : Nat
  ok : Bool
  body : List Byte
  deriving DecidableEq, Repr

/-- Why the Signal Box asks for a pre-emption: a request that cannot be placed (R337), a move that makes room for one (R336), or the
swap of a partition, out or back in (R339). -/
inductive PreemptWhy where
  | displace | move | swap | swapIn
  deriving DecidableEq, Repr

/-- A region that is to be pre-empted, and why; for a swap `rgn` is the partition. -/
structure Preemption where
  rgn : Nat
  why : PreemptWhy
  deriving DecidableEq, Repr

/-- A tile that takes its pre-emption trap, and the Yard address of its context block (R53). -/
structure TrapAt where
  tile : Nat
  ctx : Nat
  deriving DecidableEq, Repr

/-- Where a peer's write comes from: its device, and the port that receives it (R349). -/
structure Station where
  dev : Nat
  port : Nat
  deriving DecidableEq, Repr

/-- The steps of the part: every row of the opcode table. -/
inductive Instr where
  -- events: reset, bring-up, samples (R352, R351, R20, R354)
  | reset
  | functionReady (word pos : Nat)
  | thermalSample (samples : List (Nat × Nat × Nat))
  | powerSample (watts : Nat)
  -- management registers (R7, R87, R128, R332, R425)
  | registerWrite (off : Nat) (v : Word)
  | ywinWrite (p m : Nat) (v : Word)
  | channelTableWrite (die c word : Nat) (v : Word)
  | sbpartWrite (p : Nat) (v : Word)
  | partpgWrite (p : Nat) (v : Word)
  | chkstClear (rgn : Nat) (v : Word)
  -- translation (R96 to R101)
  | tlbinvPage (part size : Nat) (va : Word)
  | tlbinvPartition (part : Nat)
  | tlbinvKvIndex (part idx : Nat)
  | tlbInvalidationComplete
  | kvopMap (part dst : Nat)
  | kvopShare (part dst src : Nat)
  | kvopDrop (part dst : Nat)
  | kvopFreeadd (part blk : Nat)
  | kvWrite (part idx off key : Nat) (bytes : List Byte)
  | pageWalk (tile : Nat) (va : Word)
  -- fetch, traps, pre-emption (R153, R382, R206, R50 to R55)
  | fetchBundle (tile : Nat)
  | preciseException (tile : Nat) (eng : Eng)
  | trapEntry (tile : Nat)
  | preemptRequest (ask : Preemption)
  | preemptTrap (place : TrapAt)
  | walkerImageWrite (rgn addr : Nat)
  | regionRestore (rgn px py addr : Nat)
  | regionRetire (rgn : Nat)
  | regionUnretirable (rgn : Nat)
  | watchdogFire (rgn : Nat)
  | walkerStateError (rgn w : Nat)
  | placeRegion (part rgn : Nat)
  -- launch image entries (R34, R245, R247, R85, R130, R223, R36)
  | progEntry (tile : Nat)
  | routeEntry (tile : Nat)
  | opplaneEntry (tile : Nat)
  | ringEntry (tile : Nat)
  | chanEntry (tile : Nat)
  | portEntry (tile : Nat)
  | walkEntry (tile : Nat)
  | lastEntry (tile : Nat)
  | tileStart (tile : Nat)
  -- services and completions
  | nextService (rgn tix : Nat)
  | shuntService (rgn tix : Nat)
  | streamService (tile : Nat)
  | sbarComplete (tile slot : Nat)
  | syncLoadServed (tile : Nat) (eng : Eng)
  | trecvSatisfied (tile : Nat)
  | cwaitSatisfied (tile : Nat)
  | matrixCommandRetire (tile id : Nat)
  | planeLoadComplete (tile : Nat)
  | switchTakesEffect (tile : Nat)
  | groupFire (tile g : Nat)
  | commitToken (tile : Nat)
  | portPrefetch (tile port : Nat)
  | markerTake (tile port : Nat)
  | markerEmit (tile : Nat)
  | planeRefetch (tile plane : Nat)
  -- channels and the Interlocking Unit (R135, R136, R148, R150)
  | channelAccept (tile slot : Nat)
  | channelTake (tile slot : Nat)
  | probeSend (tile : Nat)
  | probeArrival (n : Nat)
  | probeReturn (n : Nat)
  | probeWaitExpiry (tile : Nat)
  | probeFilterExpiry (tile : Nat)
  | growthRequest (n : Nat)
  | growthReply (n : Nat)
  -- collectives (R305, R306)
  | collectiveGrant
  | collectiveTransfer (n : Nat)
  -- the Signal Box (R318 to R331, R410, R434, R437)
  | addressWatchWake (thr : Nat)
  | malformedPacket (thr : Nat)
  | nopPacket (thr : Nat)
  | launch (thr : Nat)
  | waitc (thr : Nat)
  | sigc (thr : Nat)
  | barrier (thr : Nat)
  | jump (thr : Nat)
  | doorbellWrite (q : Nat)
  | hostDoorbellWrite (fn q : Nat)
  | sbqcmdEnable (q : Nat)
  | sbqcmdDisable (q : Nat)
  | sbqcmdKick (q : Nat)
  | sbqcmdPrio (q prio : Nat)
  | sbfcmdResume (q : Nat)
  | sbfcmdCancel (q : Nat)
  | sbfcmdFreeze (q : Nat)
  | sbfcmdClear (q : Nat)
  | schedulerWake
  | ageingStep (q : Nat)
  | minresReached (q : Nat)
  | idleTimeout (thr : Nat)
  | sbThreadFault (thr : Nat)
  | schedulerThreadFault
  | sbHeartbeatTimeout
  -- security (R439 to R442, R353)
  | fwStage (src : Nat)
  | fwActivate
  | fwCommit
  | fwAbort
  | attestationRequest (addr : Nat)
  | keyGenerate (slot : Nat)
  | keyErase (slot : Nat)
  -- host and links (R342, R443, R345, R349, R445, R371, R380)
  | bar4Read (fn off n : Nat)
  | bar4Write (fn off : Nat) (bytes : List Byte) (poisoned : Bool)
  | bar4Atomicop (fn off : Nat) (op : AmoOp) (dbl : Bool) (src cmp : Word)
  | completionTimeout (n : Nat)
  | pcieLinkDown
  | peerRead (dev pa n key : Nat)
  | peerWrite (src : Station) (pa key : Nat) (bytes : List (Option Byte))
  | peerAtomic (dev pa key : Nat) (op : AmoOp) (dbl : Bool) (src cmp : Word)
  | record (msg : UalMsg)
  | accept (msg : UalMsg)
  | token (msg : UalMsg)
  | probe (msg : UalMsg)
  | grow (msg : UalMsg)
  | growreply (msg : UalMsg)
  | ualPortDown (p : Nat)
  | meshLinkLost (link : Nat)
  | hbmRowRepair (pa : Nat)
  -- shared integer subset (R183 to R189)
  | nop (tk : Tk) (ign : BitVec 23)
  | add (tk : Tk) (d s1 s2 : Reg) (w : Bool)
  | sub (tk : Tk) (d s1 s2 : Reg) (w : Bool)
  | mul (tk : Tk) (d s1 s2 : Reg) (hi : MulHi) (w : Bool)
  | and (tk : Tk) (d s1 s2 : Reg)
  | or (tk : Tk) (d s1 s2 : Reg)
  | xor (tk : Tk) (d s1 s2 : Reg)
  | shl (tk : Tk) (d s1 s2 : Reg) (w : Bool)
  | shr (tk : Tk) (d s1 s2 : Reg) (arith w : Bool)
  | min (tk : Tk) (d s1 s2 : Reg) (u : Bool)
  | max (tk : Tk) (d s1 s2 : Reg) (u : Bool)
  | cmp (tk : Tk) (c : Cond) (d s1 s2 : Reg)
  | sel (tk : Tk) (d s1 s2 : Reg)
  | bfx (tk : Tk) (d s1 : Reg) (pos : BitVec 6) (len : BitVec 5)
  | bfi (tk : Tk) (d s1 : Reg) (pos : BitVec 6) (len : BitVec 5)
  | addi (tk : Tk) (d s1 : Reg) (imm : BitVec 11) (ext : Option Lane)
  | andi (tk : Tk) (d s1 : Reg) (imm : BitVec 11) (ext : Option Lane)
  | ori (tk : Tk) (d s1 : Reg) (imm : BitVec 11) (ext : Option Lane)
  | xori (tk : Tk) (d s1 : Reg) (imm : BitVec 11) (ext : Option Lane)
  | shli (tk : Tk) (d s1 : Reg) (n : BitVec 6) (w : Bool)
  | shri (tk : Tk) (d s1 : Reg) (n : BitVec 6) (arith w : Bool)
  | li (tk : Tk) (d : Reg) (imm : BitVec 17) (ext : Option Lane)
  | lih (tk : Tk) (d : Reg) (imm : BitVec 17) (ext : Option Lane)
  | cnt (tk : Tk) (d s1 : Reg) (mode : CntMode) (w : Bool) (ign : BitVec 6)
  | tsel (tk : Tk) (src : Reg) (imm : BitVec 17)
  -- loads and stores (R190 to R193)
  | ldT (tk : Tk) (d base idx : Reg) (sz : Size) (zx : Bool) (ord : LdOrd) (ext : Option MemExt)
  | ldP (tk : Tk) (d base idx : Reg) (sz : Size) (zx : Bool) (ord : LdOrd) (ext : Option MemExt)
  | ldG (tk : Tk) (d base idx : Reg) (sz : Size) (zx : Bool) (ord : LdOrd) (ext : Option MemExt)
  | ldY (tk : Tk) (d base idx : Reg) (sz : Size) (zx : Bool) (ord : LdOrd) (ext : Option MemExt)
  | ldD (tk : Tk) (d base idx : Reg) (sz : Size) (zx : Bool) (ord : LdOrd) (ext : Option MemExt)
  | stT (tk : Tk) (src base idx : Reg) (sz : Size) (ord : StOrd) (ext : Option MemExt)
  | stP (tk : Tk) (src base idx : Reg) (sz : Size) (ord : StOrd) (ext : Option MemExt)
  | stG (tk : Tk) (src base idx : Reg) (sz : Size) (ord : StOrd) (ext : Option MemExt)
  | stY (tk : Tk) (src base idx : Reg) (sz : Size) (ord : StOrd) (ext : Option MemExt)
  | stD (tk : Tk) (src base idx : Reg) (sz : Size) (ord : StOrd) (ext : Option MemExt)
  -- E engine control (R198 to R203)
  | br (tk : Tk) (pub : BitVec 3) (kIgn : BitVec 3) (off : BitVec 17)
  | bt (tk : Tk) (pub : BitVec 3) (k : Fin 8) (off : BitVec 17)
  | bf (tk : Tk) (pub : BitVec 3) (k : Fin 8) (off : BitVec 17)
  | call (tk : Tk) (pub : BitVec 3) (kIgn : BitVec 3) (off : BitVec 17)
  | jr (tk : Tk) (link : Option Reg) (s1 : Reg)
  | pcmp (tk : Tk) (c : Cond) (comb : Combine) (k : Fin 8) (s1 s2 : Reg)
  | pcmpi (tk : Tk) (c : Cond) (k : Fin 8) (s1 : Reg) (imm : BitVec 11) (ext : Option Lane)
  | plog (tk : Tk) (op : PlogOp) (k ka kb : Fin 8)
  | pget (tk : Tk) (d : Reg)
  | pset (tk : Tk) (mask vals : BitVec 8)
  | pub (tk : Tk) (pub : BitVec 3) (k : Fin 8) (ign : BitVec 17)
  | bqs (tk : Tk) (pub : BitVec 3) (off : BitVec 17) (ext : BqsExt)
  -- division and floating point (R194 to R197)
  | div (tk : Tk) (d s1 s2 : Reg) (u w : Bool)
  | rem (tk : Tk) (d s1 s2 : Reg) (u w : Bool)
  | fadd (tk : Tk) (d s1 s2 : Reg) (fmt : FFmt) (rnd : Rnd)
  | fsub (tk : Tk) (d s1 s2 : Reg) (fmt : FFmt) (rnd : Rnd)
  | fmul (tk : Tk) (d s1 s2 : Reg) (fmt : FFmt) (rnd : Rnd)
  | fma (tk : Tk) (d s1 s2 s3 : Reg) (fmt : FFmt) (rnd : Rnd)
  | fcvt (tk : Tk) (d s1 : Reg) (dst src : CvtKind) (rnd : Rnd)
  | fcmp (tk : Tk) (c : FCond) (fmt : FFmt) (k : Fin 8) (s1 s2 : Reg)
  -- system instructions (R204 to R209)
  | trap (tk : Tk) (ign : BitVec 6) (code : BitVec 17)
  | rfe (tk : Tk) (ign : BitVec 6)
  | mfs (tk : Tk) (d : Reg) (n : Fin 64)
  | mts (tk : Tk) (src : Reg) (n : Fin 64)
  | icsync (tk : Tk) (ign : BitVec 6)
  | fence (tk : Tk) (ign : BitVec 6) (scope : Scope)
  | endTile (tk : Tk) (ign : BitVec 6)
  | folA (tk : Tk) (off : BitVec 17)
  -- streams (R214)
  | sld (tk : Tk) (slot : Fin 16) (ra rb : Reg) (sp : Space) (sc : Scope) (cc : Bool) (ring : Fin 32) (clamp : Bool)
  | sst (tk : Tk) (slot : Fin 16) (ra rb : Reg) (sp : Space) (sc : Scope) (cc : Bool) (ring : Fin 32) (clamp : Bool)
  | sgath (tk : Tk) (slot : Fin 16) (ra rb : Reg) (sp : Space) (sc : Scope) (cc : Bool) (ring : Fin 32)
      (roww : BitVec 6) (rstr : BitVec 20)
  | sscat (tk : Tk) (slot : Fin 16) (ra rb : Reg) (sp : Space) (sc : Scope) (cc : Bool) (ring : Fin 32)
      (roww : BitVec 6) (rstr : BitVec 20)
  | srec (tk : Tk) (slot : Fin 16) (ra : Reg) (sc : Scope) (cc : Bool) (src dst : Fin 32)
  | smc (tk : Tk) (slot : Fin 16) (ra rb : Reg) (sp : Space) (sc : Scope) (cc : Bool) (ring : Fin 32) (clamp : Bool)
      (mask : BitVec 16)
  | scpy (tk : Tk) (slot : Fin 16) (ra rb : Reg) (sp : Space) (sc : Scope) (cc : Bool) (dsp : Space)
  | schr (tk : Tk) (slot : Fin 16) (ra : Reg) (sc : Scope) (cc : Bool) (ring : Fin 32) (port : Fin 16)
  | schw (tk : Tk) (slot : Fin 16) (ra : Reg) (sc : Scope) (cc : Bool) (ring : Fin 32) (port : Fin 16) (commit : Bool)
  | sbar (tk : Tk) (slot : Fin 16) (sc : Scope) (cc : Bool)
  | swait (tk : Tk) (slot : Fin 16) (ra : Reg) (sc : Scope)
  | stash (tk : Tk) (slot : Fin 16) (ra rb : Reg) (sc : Scope) (cc : Bool) (restore ctx : Bool)
  | scnt (tk : Tk) (slot : Fin 16) (ra rb : Reg) (sp : CntSp)
  | sstat (tk : Tk) (slot : Fin 16) (d : Reg)
  | wfill (tk : Tk) (d : Reg) (c : RingCnt) (ring : Fin 32)
  | wfree (tk : Tk) (d : Reg) (c : RingCnt) (ring : Fin 32)
  | rpop (tk : Tk) (d : Reg) (c : RingCnt) (ring : Fin 32)
  | radv (tk : Tk) (d : Reg) (c : RingCnt) (ring : Fin 32)
  -- matrix engine (R266 to R283)
  | mma (tk : Tk) (ringA ringB : Fin 32) (keepA keepB : Bool) (ext : MatExt)
  | mmaT (tk : Tk) (ringA ringB : Fin 32) (keepA keepB : Bool) (ext : MatExt)
  | zacc (tk : Tk) (ext : MatExt)
  | ldacc (tk : Tk) (s1 s2 : Reg) (add : Bool) (ext : MatExt)
  | drain (tk : Tk) (s1 : Reg) (rm : RMode) (zafter : Bool) (ext : MatExt)
  | qnt (tk : Tk) (s1 : Reg) (rm : RMode) (zafter : Bool) (ext : MatExt)
  | mwait (tk : Tk) (id : BitVec 8)
  | mwaitAll (tk : Tk)
  | folM (tk : Tk) (off : BitVec 17)
  | ldrp (tk : Tk) (sp : PlaneSp) (s1 s2 : Reg)
  | ldop (tk : Tk) (sp : PlaneSp) (s1 s2 : Reg)
  | swop (tk : Tk) (d : Reg) (oslot : BitVec 2) (now : Bool) (align : BitVec 6)
  | pwr (tk : Tk) (s1 s2 : Reg)
  -- synchronisation engine (R289 to R311)
  | amoT (tk : Tk) (d s1 s2 : Reg) (op : AmoOp) (dbl : Bool) (ext : Option AmoExt)
  | amoP (tk : Tk) (d s1 s2 : Reg) (op : AmoOp) (dbl : Bool) (ext : Option AmoExt)
  | amoG (tk : Tk) (d s1 s2 : Reg) (op : AmoOp) (dbl : Bool) (ext : Option AmoExt)
  | amoY (tk : Tk) (d s1 s2 : Reg) (op : AmoOp) (dbl : Bool) (ext : Option AmoExt)
  | amoD (tk : Tk) (d s1 s2 : Reg) (op : AmoOp) (dbl : Bool) (ext : AmoExt)
  | folY (tk : Tk) (off : BitVec 17)
  | arrive (tk : Tk) (src : Fin 32) (bar : Fin 8)
  | wait (tk : Tk) (bar : Fin 8)
  | tsend (tk : Tk) (tgt far : Reg) (inc : BitVec 3) (borne : Bool) (slot : Fin 16) (sc : Scope)
  | trecv (tk : Tk) (d s1 : Reg) (c : BitVec 8) (sc : Scope)
  | next (tk : Tk)
  | shunt (tk : Tk)
  | beat (tk : Tk)
  | cadd (tk : Tk) (d s1 s2 : Reg) (sc : Scope) (sp : CntSp)
  | cwait (tk : Tk) (d s1 s2 : Reg) (sc : Scope) (sp : CntSp)
  | clst (tk : Tk) (ctl s1 s2 : Reg)
  | clstat (tk : Tk) (d s1 : Reg)
  | clstatWait (tk : Tk) (d s1 : Reg)
  | clstatFree (tk : Tk) (ign : BitVec 6) (s1 : Reg)
  | xsave (tk : Tk) (s1 : Reg)
  | xrest (tk : Tk) (s1 : Reg)
  | fsave (tk : Tk) (s1 : Reg)
  | frest (tk : Tk) (s1 : Reg)
  | qsave (tk : Tk) (s1 : Reg)
  | qrest (tk : Tk) (s1 : Reg)
  | bsave (tk : Tk) (s1 s2 : Reg)
  | brest (tk : Tk) (s1 s2 : Reg)
  -- completions from links (R443, R444, R379)
  | pcieCompletion (n : Nat) (poisoned : Bool)
  | peerCompletion (n : Nat) (data : List Byte) (err : Bool)
  | hbmStackLost (k : Nat)
  deriving DecidableEq, Repr

end Sys2Proof
end

