-- ==== Sys2Proof/WellFormed.lean ====
section
/-! DEFINITION. Which tile instructions have an encoding: the limits that the entries put on fields (R387, R388). -/

namespace Sys2Proof

/-- A register field that may be written: private or exchange (R388). -/
def Reg.isDest : Reg → Bool
  | .r _ => true
  | .x _ => true
  | .ro _ => false

/-- A field limited to 0–31 (R388). -/
def Reg.isPrivate : Reg → Bool
  | .r _ => true
  | _ => false

/-- An extension of a plain access carries scope code 0; an ordered access needs its extension (R192, R387). -/
def wfLoadExt (ord : LdOrd) (ext : Option MemExt) : Bool :=
  match ord, ext with
  | .plain, none => true
  | .plain, some e => e.scope == .tile
  | .acq, none => false
  | .acq, some _ => true
  | .sync, none => true
  | .sync, some e => e.scope == .tile

/-- As for loads: release needs its extension (R192). -/
def wfStoreExt (ord : StOrd) (ext : Option MemExt) : Bool :=
  match ord, ext with
  | .plain, none => true
  | .plain, some e => e.scope == .tile
  | .rel, none => false
  | .rel, some _ => true

/-- A load form: a destination, no zero extension of a double, synchronising only in space T (R159, R192). -/
def wfLoad (isT : Bool) (d : Reg) (sz : Size) (zx : Bool) (ord : LdOrd) (ext : Option MemExt) : Bool :=
  d.isDest && !(zx && sz == .d) && wfLoadExt ord ext && (isT || ord != .sync)

/-- An atomic: destination, CAS limits D to 0–31, no double .fadd, scope 0 when plain (R289). -/
def wfAmo (d : Reg) (op : AmoOp) (dbl : Bool) (ext : Option AmoExt) : Bool :=
  d.isDest && (op != .cas || d.isPrivate) && !(op == .fadd && dbl)
    && match ext with
       | none => true
       | some e => e.ord != .plain || e.scope == .tile

/-- A ring count: the lane's own count is not 0 (R235). -/
def RingCnt.wf : RingCnt → Bool
  | .imm n => n != 0
  | .reg _ => true

/-- A matrix command's id is 1–255 (R266). -/
def MatExt.wf (e : MatExt) : Bool := e.id != 0

/-- BQS: a channel port is 0–15 (R203). -/
def BqsExt.wf (e : BqsExt) : Bool := !e.chan || e.index.val < 16

/-- Special registers that exist (R162): 24–31 and 40–63 are reserved. -/
def sregExists (n : Fin 64) : Bool := n.val < 24 || (32 ≤ n.val && n.val < 40)

/-- The instructions that have an encoding. Events have none and are well formed. -/
def Instr.wf : Instr → Bool
  | .add _ d _ _ _ | .sub _ d _ _ _ => d.isDest
  | .mul _ d _ _ hi w => d.isDest && !(w && hi != .low)
  | .and _ d _ _ | .or _ d _ _ | .xor _ d _ _ => d.isDest
  | .shl _ d _ _ _ => d.isDest
  | .shr _ d _ _ _ _ => d.isDest
  | .min _ d _ _ _ | .max _ d _ _ _ => d.isDest
  | .cmp _ _ d _ _ => d.isDest
  | .sel _ d _ _ => d.isPrivate
  | .bfx _ d _ _ _ => d.isDest
  | .bfi _ d _ _ _ => d.isPrivate
  | .addi _ d _ _ _ | .andi _ d _ _ _ | .ori _ d _ _ _ | .xori _ d _ _ _ => d.isDest
  | .shli _ d _ _ _ => d.isDest
  | .shri _ d _ _ _ _ => d.isDest
  | .li _ d _ _ => d.isDest
  | .lih _ d _ _ => d.isPrivate
  | .cnt _ d _ _ _ _ => d.isDest
  | .ldT _ d _ _ sz zx ord ext => wfLoad true d sz zx ord ext
  | .ldP _ d _ _ sz zx ord ext | .ldG _ d _ _ sz zx ord ext | .ldY _ d _ _ sz zx ord ext
  | .ldD _ d _ _ sz zx ord ext => wfLoad false d sz zx ord ext
  | .stT _ _ _ _ _ ord ext | .stP _ _ _ _ _ ord ext | .stG _ _ _ _ _ ord ext | .stY _ _ _ _ _ ord ext
  | .stD _ _ _ _ _ ord ext => wfStoreExt ord ext
  | .jr _ link _ => match link with | none => true | some d => d.isDest
  | .pget _ d => d.isDest
  | .bqs _ _ _ e => e.wf
  | .div _ d _ _ _ _ | .rem _ d _ _ _ _ => d.isDest
  | .fadd _ d _ _ _ _ | .fsub _ d _ _ _ _ | .fmul _ d _ _ _ _ => d.isDest
  | .fma _ d _ _ _ _ _ => d.isDest
  | .fcvt _ d _ _ _ _ => d.isDest
  | .mfs _ d n => d.isDest && sregExists n
  | .mts _ _ n => sregExists n
  | .sgath _ _ _ _ _ _ _ _ roww _ | .sscat _ _ _ _ _ _ _ _ roww _ => roww != 0
  | .smc _ _ _ _ _ _ _ _ _ mask => mask != 0
  | .sstat _ _ d => d.isDest
  | .wfill _ d c _ | .wfree _ d c _ | .rpop _ d c _ | .radv _ d c _ => d.isDest && c.wf
  | .mma _ ra rb _ _ e | .mmaT _ ra rb _ _ e => ra != rb && e.wf
  | .zacc _ e => e.wf
  | .ldacc _ _ _ _ e => e.wf
  | .drain _ _ _ _ e | .qnt _ _ _ _ e => e.wf
  | .mwait _ id => id != 0
  | .swop _ d _ now al => d.isDest && !(now && al != 0)
  | .amoT _ d _ _ op dbl ext | .amoP _ d _ _ op dbl ext | .amoG _ d _ _ op dbl ext
  | .amoY _ d _ _ op dbl ext => wfAmo d op dbl ext
  | .amoD _ d _ _ op dbl ext => wfAmo d op dbl (some ext)
  | .trecv _ d _ c _ => d.isDest && c != 0
  | .cadd _ d _ _ _ _ | .cwait _ d _ _ _ _ => d.isDest
  | .clstat _ d _ | .clstatWait _ d _ => d.isDest
  | _ => true

end Sys2Proof
end

