-- ==== Sys2Proof/Decode.lean ====
section
/-! DEFINITION. From instruction lanes to instructions and back (R156 to R159, R183 to R311).
The engine comes from the header's nibble (R151), so `decodeLane` takes it; a lane and its extension lane give an
instruction, or the exception that R386 to R388 name. Events have no encoding. -/

namespace Sys2Proof

/-- What decode finds in a lane: an instruction, an unassigned code (R386), or a field its entry does not allow (R387);
`sysOnly` marks a system-only use, whose PRIV ranks above ILLFIELD (R383). -/
inductive Dec where
  | ok (i : Instr)
  | illOp
  | illField (sysOnly : Bool)
  deriving DecidableEq, Repr

/-! ### Field codes -/

/-- The engine's number (R161). -/
def Eng.num : Eng → Nat
  | .e => 0 | .a => 1 | .m => 2 | .y => 3

/-- The engine of a number (R163). -/
def Eng.ofNum (n : Nat) : Eng :=
  if n % 4 = 0 then .e else if n % 4 = 1 then .a else if n % 4 = 2 then .m else .y

/-- TK bits (R156). -/
def Tk.bits : Tk → BitVec 2
  | .none => 0 | .wait => 1 | .signal => 2 | .both => 3

/-- TK of its bits (R156). -/
def Tk.ofBits (b : BitVec 2) : Tk :=
  if b = 0 then .none else if b = 1 then .wait else if b = 2 then .signal else .both

/-- Number of a read-only source above 48 (R161). -/
def Ro.code : Ro → BitVec 6
  | .zero => 48 | .col => 49 | .row => 50 | .rwid => 51 | .rhgt => 52 | .rgn => 53 | .args => 54 | .nwalk => 55
  | .tix => 56 | .peer => 57 | .cyc => 58 | .ones => 59 | .eng => 60

/-- The read-only source of a field value 48–60 (R161). -/
def Ro.ofCode (b : BitVec 6) : Option Ro :=
  if b = 48 then some .zero else if b = 49 then some .col else if b = 50 then some .row else if b = 51 then some .rwid
  else if b = 52 then some .rhgt else if b = 53 then some .rgn else if b = 54 then some .args
  else if b = 55 then some .nwalk else if b = 56 then some .tix else if b = 57 then some .peer
  else if b = 58 then some .cyc else if b = 59 then some .ones else if b = 60 then some .eng else none

/-- A register field's bits (R161). -/
def Reg.bits : Reg → BitVec 6
  | .r n => BitVec.ofNat 6 n.val
  | .x n => BitVec.ofNat 6 (32 + n.val)
  | .ro k => k.code

/-- A source field (R161); 61–63 are reserved (R388). -/
def srcReg (b : BitVec 6) : Option Reg :=
  if h : b.toNat < 32 then some (.r ⟨b.toNat, h⟩)
  else if h : b.toNat - 32 < 16 then some (.x ⟨b.toNat - 32, h⟩)
  else (Ro.ofCode b).map .ro

/-- A destination field: 0–47 (R388). -/
def dstReg (b : BitVec 6) : Option Reg :=
  match srcReg b with
  | some r => if r.isDest then some r else none
  | none => none

/-- A field limited to 0–31 (R388). -/
def privReg (b : BitVec 6) : Option Reg :=
  if h : b.toNat < 32 then some (.r ⟨b.toNat, h⟩) else none

/-- Guard of a fixed field. -/
def need (c : Bool) : Option Unit := if c then some () else none

/-- No extension lane may follow (R158). -/
def noExt (x : Option Lane) : Option Unit := need x.isNone

/-- Code of a Cond (R186). -/
def Cond.code : Cond → BitVec 3
  | .eq => 0
  | .ne => 1
  | .lt => 2
  | .ge => 3
  | .ltu => 4
  | .geu => 5
  | .gt => 6
  | .le => 7

/-- The Cond of a code; other codes are illegal (R186). -/
def Cond.ofCode (b : BitVec 3) : Option Cond :=
  if b = 0 then some .eq else if b = 1 then some .ne else if b = 2 then some .lt else if b = 3 then some .ge else
  if b = 4 then some .ltu else if b = 5 then some .geu else if b = 6 then some .gt else if b = 7 then some .le else none

/-- Code of a FCond (R197). -/
def FCond.code : FCond → BitVec 3
  | .eq => 0
  | .lt => 1
  | .le => 2
  | .un => 3
  | .ne => 4

/-- The FCond of a code; other codes are illegal (R197). -/
def FCond.ofCode (b : BitVec 3) : Option FCond :=
  if b = 0 then some .eq else if b = 1 then some .lt else if b = 2 then some .le else if b = 3 then some .un else if b = 4 then some .ne else none

/-- Code of a FFmt (R195). -/
def FFmt.code : FFmt → BitVec 2
  | .f32 => 0
  | .f16 => 1
  | .bf16 => 2

/-- The FFmt of a code; other codes are illegal (R195). -/
def FFmt.ofCode (b : BitVec 2) : Option FFmt :=
  if b = 0 then some .f32 else if b = 1 then some .f16 else if b = 2 then some .bf16 else none

/-- Code of a Rnd (R195). -/
def Rnd.code : Rnd → BitVec 2
  | .rne => 0
  | .rtz => 1

/-- The Rnd of a code; other codes are illegal (R195). -/
def Rnd.ofCode (b : BitVec 2) : Option Rnd :=
  if b = 0 then some .rne else if b = 1 then some .rtz else none

/-- Code of a RMode (R70). -/
def RMode.code : RMode → BitVec 2
  | .rne => 0
  | .rtz => 1
  | .sr => 2

/-- The RMode of a code; other codes are illegal (R70). -/
def RMode.ofCode (b : BitVec 2) : Option RMode :=
  if b = 0 then some .rne else if b = 1 then some .rtz else if b = 2 then some .sr else none

/-- Code of a CvtKind (R196). -/
def CvtKind.code : CvtKind → BitVec 3
  | .f32 => 0
  | .f16 => 1
  | .bf16 => 2
  | .i64 => 3
  | .u64 => 4

/-- The CvtKind of a code; other codes are illegal (R196). -/
def CvtKind.ofCode (b : BitVec 3) : Option CvtKind :=
  if b = 0 then some .f32 else if b = 1 then some .f16 else if b = 2 then some .bf16 else if b = 3 then some .i64 else
  if b = 4 then some .u64 else none

/-- Code of a MulHi (R183). -/
def MulHi.code : MulHi → BitVec 2
  | .low => 0
  | .hiS => 1
  | .hiU => 2

/-- The MulHi of a code; other codes are illegal (R183). -/
def MulHi.ofCode (b : BitVec 2) : Option MulHi :=
  if b = 0 then some .low else if b = 1 then some .hiS else if b = 2 then some .hiU else none

/-- Code of a CntMode (R188). -/
def CntMode.code : CntMode → BitVec 2
  | .pop => 0
  | .lz => 1
  | .tz => 2

/-- The CntMode of a code; other codes are illegal (R188). -/
def CntMode.ofCode (b : BitVec 2) : Option CntMode :=
  if b = 0 then some .pop else if b = 1 then some .lz else if b = 2 then some .tz else none

/-- Code of a Combine (R198). -/
def Combine.code : Combine → BitVec 2
  | .set => 0
  | .and => 1
  | .or => 2

/-- The Combine of a code; other codes are illegal (R198). -/
def Combine.ofCode (b : BitVec 2) : Option Combine :=
  if b = 0 then some .set else if b = 1 then some .and else if b = 2 then some .or else none

/-- Code of a PlogOp (R198). -/
def PlogOp.code : PlogOp → BitVec 2
  | .and => 0
  | .or => 1
  | .xor => 2
  | .andn => 3

/-- The PlogOp of a code; other codes are illegal (R198). -/
def PlogOp.ofCode (b : BitVec 2) : Option PlogOp :=
  if b = 0 then some .and else if b = 1 then some .or else if b = 2 then some .xor else if b = 3 then some .andn else none

/-- Code of a Size (R159). -/
def Size.code : Size → BitVec 2
  | .b => 0
  | .h => 1
  | .w => 2
  | .d => 3

/-- The Size of a code; other codes are illegal (R159). -/
def Size.ofCode (b : BitVec 2) : Option Size :=
  if b = 0 then some .b else if b = 1 then some .h else if b = 2 then some .w else if b = 3 then some .d else none

/-- Code of a Scope (R29). -/
def Scope.code : Scope → BitVec 3
  | .tile => 0
  | .group => 1
  | .yard => 2
  | .device => 3
  | .system => 4

/-- The Scope of a code; other codes are illegal (R29). -/
def Scope.ofCode (b : BitVec 3) : Option Scope :=
  if b = 0 then some .tile else if b = 1 then some .group else if b = 2 then some .yard else if b = 3 then some .device else
  if b = 4 then some .system else none

/-- Code of a Space (R157). -/
def Space.code : Space → BitVec 3
  | .t => 0
  | .p => 1
  | .g => 2
  | .y => 3
  | .d => 4

/-- The Space of a code; other codes are illegal (R157). -/
def Space.ofCode (b : BitVec 3) : Option Space :=
  if b = 0 then some .t else if b = 1 then some .p else if b = 2 then some .g else if b = 3 then some .y else if b = 4 then some .d else none

/-- Code of a AmoOrd (R289). -/
def AmoOrd.code : AmoOrd → BitVec 2
  | .plain => 0
  | .acq => 1
  | .rel => 2
  | .acqrel => 3

/-- The AmoOrd of a code; other codes are illegal (R289). -/
def AmoOrd.ofCode (b : BitVec 2) : Option AmoOrd :=
  if b = 0 then some .plain else if b = 1 then some .acq else if b = 2 then some .rel else if b = 3 then some .acqrel else none

/-- Code of a AmoOp (R289). -/
def AmoOp.code : AmoOp → BitVec 4
  | .swap => 0
  | .add => 1
  | .and => 2
  | .or => 3
  | .xor => 4
  | .min => 5
  | .max => 6
  | .minu => 7
  | .maxu => 8
  | .cas => 9
  | .fadd => 10

/-- The AmoOp of a code; other codes are illegal (R289). -/
def AmoOp.ofCode (b : BitVec 4) : Option AmoOp :=
  if b = 0 then some .swap else if b = 1 then some .add else if b = 2 then some .and else if b = 3 then some .or else
  if b = 4 then some .xor else if b = 5 then some .min else if b = 6 then some .max else if b = 7 then some .minu else
  if b = 8 then some .maxu else if b = 9 then some .cas else if b = 10 then some .fadd else none

/-- ORD of a load (R192). -/
def LdOrd.code : LdOrd → BitVec 2
  | .plain => 0 | .acq => 1 | .sync => 3

/-- The load ordering of ORD; 2 is illegal (R192). -/
def LdOrd.ofCode (b : BitVec 2) : Option LdOrd :=
  if b = 0 then some .plain else if b = 1 then some .acq else if b = 3 then some .sync else none

/-- ORD of a store (R192). -/
def StOrd.code : StOrd → BitVec 2
  | .plain => 0 | .rel => 2

/-- The store ordering of ORD; 1 and 3 are illegal (R192). -/
def StOrd.ofCode (b : BitVec 2) : Option StOrd :=
  if b = 0 then some .plain else if b = 2 then some .rel else none

/-- Space code of LDRP and LDOP (R281). -/
def PlaneSp.code : PlaneSp → BitVec 3
  | .t => 0 | .g => 2 | .y => 3 | .d => 4

/-- The plane space of a code (R281). -/
def PlaneSp.ofCode (b : BitVec 3) : Option PlaneSp :=
  if b = 0 then some .t else if b = 2 then some .g else if b = 3 then some .y else if b = 4 then some .d else none

/-- Space code of CADD and CWAIT (R297). -/
def CntSp.code : CntSp → BitVec 2
  | .g => 0 | .y => 1 | .d => 2

/-- The counter space of a code (R297). -/
def CntSp.ofCode (b : BitVec 2) : Option CntSp :=
  if b = 0 then some .g else if b = 1 then some .y else if b = 2 then some .d else none

/-- SP field of SCNT: 2 G, 3 Y, 4 D (R214). -/
def CntSp.spCode : CntSp → BitVec 3
  | .g => 2 | .y => 3 | .d => 4

/-- The counter space of SCNT's SP field (R214). -/
def CntSp.ofSpCode (b : BitVec 3) : Option CntSp :=
  if b = 2 then some .g else if b = 3 then some .y else if b = 4 then some .d else none

/-! ### Fields of a lane (R156, R157) -/

def fTk (w : Lane) : Tk := Tk.ofBits (w.extractLsb' 30 2)
def fOp (w : Lane) : BitVec 7 := w.extractLsb' 23 7
def fD (w : Lane) : BitVec 6 := w.extractLsb' 17 6
def fS1 (w : Lane) : BitVec 6 := w.extractLsb' 11 6
def fS2 (w : Lane) : BitVec 6 := w.extractLsb' 5 6
def fFn (w : Lane) : BitVec 5 := w.extractLsb' 0 5
def fImm11 (w : Lane) : BitVec 11 := w.extractLsb' 0 11
def fImm17 (w : Lane) : BitVec 17 := w.extractLsb' 0 17
def fPub (w : Lane) : BitVec 3 := w.extractLsb' 20 3
def fK (w : Lane) : BitVec 3 := w.extractLsb' 17 3
def fSlot (w : Lane) : BitVec 4 := w.extractLsb' 19 4
def fRa (w : Lane) : BitVec 6 := w.extractLsb' 13 6
def fRb (w : Lane) : BitVec 6 := w.extractLsb' 7 6
def fSp (w : Lane) : BitVec 3 := w.extractLsb' 4 3
def fSc (w : Lane) : BitVec 3 := w.extractLsb' 1 3
def fCc (w : Lane) : Bool := w.getLsbD 0

/-- Extension of a plain or ordered access: EXT[31:8], [7:3] zero, [2:0] scope (R158). -/
def memExt (x : Lane) : Option MemExt := do
  need (x.extractLsb' 3 5 == 0)
  let s ← Scope.ofCode (x.extractLsb' 0 3)
  return ⟨x.extractLsb' 8 24, s⟩

/-- The optional extension of a memory form. -/
def optMemExt (x : Option Lane) : Option (Option MemExt) :=
  match x with
  | none => some none
  | some x => (memExt x).map some

/-- Extension of an atomic (R289). -/
def amoExt (x : Lane) : Option AmoExt := do
  need (x.extractLsb' 5 3 == 0)
  let s ← Scope.ofCode (x.extractLsb' 0 3)
  let o ← AmoOrd.ofCode (x.extractLsb' 3 2)
  return ⟨x.extractLsb' 8 24, o, s⟩

/-- The optional extension of an atomic. -/
def optAmoExt (x : Option Lane) : Option (Option AmoExt) :=
  match x with
  | none => some none
  | some x => (amoExt x).map some

/-- Extension of a matrix command (R266). -/
def matExt (x : Option Lane) : Option MatExt := do
  let x ← x
  need (x.extractLsb' 24 8 == 0)
  return ⟨x.extractLsb' 0 8, x.extractLsb' 8 8, x.extractLsb' 16 8⟩

/-- Extension of BQS (R203). -/
def bqsExt (x : Option Lane) : Option BqsExt := do
  let x ← x
  need (x.extractLsb' 12 20 == 0)
  return ⟨(x.extractLsb' 0 5).toFin, x.getLsbD 5, x.extractLsb' 6 5, x.getLsbD 11⟩

/-- The count of a ring operation: IMM11[10:5], or S1 when it is 0; S1 is otherwise 48 (R235). -/
def ringCnt (w : Lane) : Option RingCnt :=
  if w.extractLsb' 5 6 = 0 then (srcReg (fS1 w)).map .reg
  else if fS1 w = 48 then some (.imm (w.extractLsb' 5 6)) else none

/-- Keep an instruction only if it meets the limits of its entry. -/
def checked (i : Instr) : Option Instr := if i.wf then some i else none

/-! ### Instruction groups -/

/-- RR form with a destination and two sources, no extension. -/
def rr3 (w : Lane) (x : Option Lane) : Option (Reg × Reg × Reg) := do
  noExt x
  let d ← dstReg (fD w)
  let a ← srcReg (fS1 w)
  let b ← srcReg (fS2 w)
  return (d, a, b)

/-- Immediate RI form with an optional extension. -/
def ri2 (w : Lane) : Option (Reg × Reg) := do
  let d ← dstReg (fD w)
  let a ← srcReg (fS1 w)
  return (d, a)

/-- Load form (R159): D, base, index, size, ZX, ORD, extension. -/
def loadForm (w : Lane) (x : Option Lane) : Option (Reg × Reg × Reg × Size × Bool × LdOrd × Option MemExt) := do
  let d ← dstReg (fD w)
  let a ← srcReg (fS1 w)
  let b ← srcReg (fS2 w)
  let sz ← Size.ofCode (w.extractLsb' 0 2)
  let o ← LdOrd.ofCode (w.extractLsb' 3 2)
  let e ← optMemExt x
  return (d, a, b, sz, w.getLsbD 2, o, e)

/-- Store form (R159): data, base, index, size, ORD, extension. -/
def storeForm (w : Lane) (x : Option Lane) : Option (Reg × Reg × Reg × Size × StOrd × Option MemExt) := do
  let d ← srcReg (fD w)
  let a ← srcReg (fS1 w)
  let b ← srcReg (fS2 w)
  let sz ← Size.ofCode (w.extractLsb' 0 2)
  need (!w.getLsbD 2)
  let o ← StOrd.ofCode (w.extractLsb' 3 2)
  let e ← optMemExt x
  return (d, a, b, sz, o, e)

/-- Stream form (R214): slot, RA, RB, scope. -/
def streamForm (w : Lane) : Option (Fin 16 × Reg × Reg × Scope) := do
  let a ← srcReg (fRa w)
  let b ← srcReg (fRb w)
  let s ← Scope.ofCode (fSc w)
  return ((fSlot w).toFin, a, b, s)

/-- A required extension lane whose bits from `n` up are zero. -/
def extBelow (n : Nat) (x : Option Lane) : Option Lane := do
  let x ← x
  need ((x >>> n) == 0)
  return x

/-- Atomic form (R289). -/
def amoForm (w : Lane) : Option (Reg × Reg × Reg × AmoOp × Bool) := do
  let d ← dstReg (fD w)
  let a ← srcReg (fS1 w)
  let b ← srcReg (fS2 w)
  let o ← AmoOp.ofCode (w.extractLsb' 0 4)
  return (d, a, b, o, w.getLsbD 4)

/-- Wrap the outcome of a group's decoder. -/
def dec (sysOnly : Bool) (o : Option Instr) : Dec :=
  match o with
  | some i => .ok i
  | none => .illField sysOnly

/-- MTS to these registers is system-only (R389). -/
def mtsPriv (n : Nat) : Bool := (4 ≤ n && n < 24) || (32 ≤ n && n < 40)

/-- Codes of the codes that all four spaces have (R167, R170, R171); none if unassigned there. -/
def decBase (op : Nat) (w : Lane) (x : Option Lane) : Option Dec :=
  match op with
  | 0x01 => some <| dec false do
      noExt x
      return .nop (fTk w) (w.extractLsb' 0 23)
  | 0x02 => some <| dec false do
      let (d, a, b) ← rr3 w x
      need (w.extractLsb' 1 4 == 0)
      return .add (fTk w) d a b (w.getLsbD 0)
  | 0x10 => some <| dec false do
      let (d, a) ← ri2 w
      return .addi (fTk w) d a (fImm11 w) x
  | 0x16 => some <| dec false do
      let d ← dstReg (fD w)
      return .li (fTk w) d (fImm17 w) x
  | 0x17 => some <| dec false do
      let d ← privReg (fD w)
      return .lih (fTk w) d (fImm17 w) x
  | 0x1F => some <| dec false do
      noExt x
      let s ← srcReg (fD w)
      return .tsel (fTk w) s (fImm17 w)
  | _ => none

/-- Codes of the rest of the shared subset of E and A (R167); none if unassigned there. -/
def decInt (op : Nat) (w : Lane) (x : Option Lane) : Option Dec :=
  match op with
  | 0x03 => some <| dec false do
      let (d, a, b) ← rr3 w x
      need (w.extractLsb' 1 4 == 0)
      return .sub (fTk w) d a b (w.getLsbD 0)
  | 0x04 => some <| dec false do
      let (d, a, b) ← rr3 w x
      need (w.extractLsb' 3 2 == 0)
      let h ← MulHi.ofCode (w.extractLsb' 1 2)
      checked (.mul (fTk w) d a b h (w.getLsbD 0))
  | 0x05 => some <| dec false do
      let (d, a, b) ← rr3 w x
      need (fFn w == 0)
      return .and (fTk w) d a b
  | 0x06 => some <| dec false do
      let (d, a, b) ← rr3 w x
      need (fFn w == 0)
      return .or (fTk w) d a b
  | 0x07 => some <| dec false do
      let (d, a, b) ← rr3 w x
      need (fFn w == 0)
      return .xor (fTk w) d a b
  | 0x08 => some <| dec false do
      let (d, a, b) ← rr3 w x
      need (w.extractLsb' 1 4 == 0)
      return .shl (fTk w) d a b (w.getLsbD 0)
  | 0x09 => some <| dec false do
      let (d, a, b) ← rr3 w x
      need (w.extractLsb' 2 3 == 0)
      return .shr (fTk w) d a b (w.getLsbD 1) (w.getLsbD 0)
  | 0x0A => some <| dec false do
      let (d, a, b) ← rr3 w x
      need (w.extractLsb' 2 3 == 0 && !w.getLsbD 0)
      return .min (fTk w) d a b (w.getLsbD 1)
  | 0x0B => some <| dec false do
      let (d, a, b) ← rr3 w x
      need (w.extractLsb' 2 3 == 0 && !w.getLsbD 0)
      return .max (fTk w) d a b (w.getLsbD 1)
  | 0x0C => some <| dec false do
      let (d, a, b) ← rr3 w x
      need (w.extractLsb' 3 2 == 0)
      let c ← Cond.ofCode (w.extractLsb' 0 3)
      return .cmp (fTk w) c d a b
  | 0x0D => some <| dec false do
      let (d, a, b) ← rr3 w x
      need (fFn w == 0)
      checked (.sel (fTk w) d a b)
  | 0x0E => some <| dec false do
      noExt x
      let (d, a) ← ri2 w
      return .bfx (fTk w) d a (w.extractLsb' 0 6) (w.extractLsb' 6 5)
  | 0x0F => some <| dec false do
      noExt x
      let (d, a) ← ri2 w
      checked (.bfi (fTk w) d a (w.extractLsb' 0 6) (w.extractLsb' 6 5))
  | 0x11 => some <| dec false do
      let (d, a) ← ri2 w
      return .andi (fTk w) d a (fImm11 w) x
  | 0x12 => some <| dec false do
      let (d, a) ← ri2 w
      return .ori (fTk w) d a (fImm11 w) x
  | 0x13 => some <| dec false do
      let (d, a) ← ri2 w
      return .xori (fTk w) d a (fImm11 w) x
  | 0x14 => some <| dec false do
      noExt x
      let (d, a) ← ri2 w
      need (w.extractLsb' 8 3 == 0 && !w.getLsbD 6)
      return .shli (fTk w) d a (w.extractLsb' 0 6) (w.getLsbD 7)
  | 0x15 => some <| dec false do
      noExt x
      let (d, a) ← ri2 w
      need (w.extractLsb' 8 3 == 0)
      return .shri (fTk w) d a (w.extractLsb' 0 6) (w.getLsbD 6) (w.getLsbD 7)
  | 0x18 => some <| dec false do
      noExt x
      let d ← dstReg (fD w)
      let a ← srcReg (fS1 w)
      need (w.extractLsb' 3 2 == 0)
      let m ← CntMode.ofCode (w.extractLsb' 0 2)
      return .cnt (fTk w) d a m (w.getLsbD 2) (fS2 w)
  | 0x20 => some <| dec false do
      let (d, a, b, sz, zx, o, e) ← loadForm w x
      checked (.ldT (fTk w) d a b sz zx o e)
  | 0x21 => some <| dec false do
      let (d, a, b, sz, zx, o, e) ← loadForm w x
      checked (.ldP (fTk w) d a b sz zx o e)
  | 0x22 => some <| dec false do
      let (d, a, b, sz, zx, o, e) ← loadForm w x
      checked (.ldG (fTk w) d a b sz zx o e)
  | 0x23 => some <| dec false do
      let (d, a, b, sz, zx, o, e) ← loadForm w x
      checked (.ldY (fTk w) d a b sz zx o e)
  | 0x24 => some <| dec false do
      let (d, a, b, sz, zx, o, e) ← loadForm w x
      checked (.ldD (fTk w) d a b sz zx o e)
  | 0x28 => some <| dec false do
      let (d, a, b, sz, o, e) ← storeForm w x
      checked (.stT (fTk w) d a b sz o e)
  | 0x29 => some <| dec false do
      let (d, a, b, sz, o, e) ← storeForm w x
      checked (.stP (fTk w) d a b sz o e)
  | 0x2A => some <| dec false do
      let (d, a, b, sz, o, e) ← storeForm w x
      checked (.stG (fTk w) d a b sz o e)
  | 0x2B => some <| dec false do
      let (d, a, b, sz, o, e) ← storeForm w x
      checked (.stY (fTk w) d a b sz o e)
  | 0x2C => some <| dec false do
      let (d, a, b, sz, o, e) ← storeForm w x
      checked (.stD (fTk w) d a b sz o e)
  | _ => none

/-- Codes of the E space from 0x30 (R168); none if unassigned there. DESIGN CHOICE: TRAP, RFE, ICSYNC, FENCE and END have a D field that their
entries do not name; it takes any value (notes/assumptions/89.md). -/
def decE (op : Nat) (w : Lane) (x : Option Lane) : Option Dec :=
  match op with
  | 0x30 => some <| dec false do
      noExt x
      return .br (fTk w) (fPub w) (fK w) (fImm17 w)
  | 0x31 => some <| dec false do
      noExt x
      return .bt (fTk w) (fPub w) (fK w).toFin (fImm17 w)
  | 0x32 => some <| dec false do
      noExt x
      return .bf (fTk w) (fPub w) (fK w).toFin (fImm17 w)
  | 0x33 => some <| dec false do
      noExt x
      return .call (fTk w) (fPub w) (fK w) (fImm17 w)
  | 0x34 => some <| dec false do
      noExt x
      let a ← srcReg (fS1 w)
      need (fS2 w == 48 && w.extractLsb' 1 4 == 0)
      if w.getLsbD 0 then do { let d ← dstReg (fD w); return .jr (fTk w) (some d) a } else do { need (fD w == 0); return .jr (fTk w) none a }
  | 0x38 => some <| dec false do
      noExt x
      let a ← srcReg (fS1 w)
      let b ← srcReg (fS2 w)
      need (w.extractLsb' 20 3 == 0)
      let c ← Cond.ofCode (w.extractLsb' 0 3)
      let m ← Combine.ofCode (w.extractLsb' 3 2)
      return .pcmp (fTk w) c m (fK w).toFin a b
  | 0x39 => some <| dec false do
      let a ← srcReg (fS1 w)
      let c ← Cond.ofCode (fPub w)
      return .pcmpi (fTk w) c (fK w).toFin a (fImm11 w) x
  | 0x3A => some <| dec false do
      noExt x
      need (w.extractLsb' 20 3 == 0 && w.extractLsb' 14 3 == 0 && w.extractLsb' 8 3 == 0 && w.extractLsb' 2 3 == 0)
      let o ← PlogOp.ofCode (w.extractLsb' 0 2)
      return .plog (fTk w) o (fK w).toFin (w.extractLsb' 11 3).toFin (w.extractLsb' 5 3).toFin
  | 0x3B => some <| dec false do
      noExt x
      let d ← dstReg (fD w)
      need (fImm17 w == 0)
      return .pget (fTk w) d
  | 0x3C => some <| dec false do
      noExt x
      need (fD w == 0 && !w.getLsbD 16)
      return .pset (fTk w) (w.extractLsb' 8 8) (w.extractLsb' 0 8)
  | 0x3D => some <| dec false do
      noExt x
      return .pub (fTk w) (fPub w) (fK w).toFin (fImm17 w)
  | 0x40 => some <| dec false do
      let e ← bqsExt x
      need (fK w == 0)
      checked (.bqs (fTk w) (fPub w) (fImm17 w) e)
  | 0x44 => some <| dec false do
      let (d, a, b) ← rr3 w x
      need (w.extractLsb' 2 3 == 0)
      return .div (fTk w) d a b (w.getLsbD 1) (w.getLsbD 0)
  | 0x45 => some <| dec false do
      let (d, a, b) ← rr3 w x
      need (w.extractLsb' 2 3 == 0)
      return .rem (fTk w) d a b (w.getLsbD 1) (w.getLsbD 0)
  | 0x46 => some <| dec false do
      let (d, a, b) ← rr3 w x
      need (!w.getLsbD 4)
      let f ← FFmt.ofCode (w.extractLsb' 0 2)
      let r ← Rnd.ofCode (w.extractLsb' 2 2)
      return .fadd (fTk w) d a b f r
  | 0x47 => some <| dec false do
      let (d, a, b) ← rr3 w x
      need (!w.getLsbD 4)
      let f ← FFmt.ofCode (w.extractLsb' 0 2)
      let r ← Rnd.ofCode (w.extractLsb' 2 2)
      return .fsub (fTk w) d a b f r
  | 0x48 => some <| dec false do
      let (d, a, b) ← rr3 w x
      need (!w.getLsbD 4)
      let f ← FFmt.ofCode (w.extractLsb' 0 2)
      let r ← Rnd.ofCode (w.extractLsb' 2 2)
      return .fmul (fTk w) d a b f r
  | 0x49 => some <| dec false do
      let x ← extBelow 6 x
      let d ← dstReg (fD w)
      let a ← srcReg (fS1 w)
      let b ← srcReg (fS2 w)
      let c ← srcReg (x.extractLsb' 0 6)
      need (!w.getLsbD 4)
      let f ← FFmt.ofCode (w.extractLsb' 0 2)
      let r ← Rnd.ofCode (w.extractLsb' 2 2)
      return .fma (fTk w) d a b c f r
  | 0x4A => some <| dec false do
      noExt x
      let d ← dstReg (fD w)
      let a ← srcReg (fS1 w)
      need (w.extractLsb' 8 3 == 0)
      let k ← CvtKind.ofCode (w.extractLsb' 0 3)
      let s ← CvtKind.ofCode (w.extractLsb' 5 3)
      let r ← Rnd.ofCode (w.extractLsb' 3 2)
      return .fcvt (fTk w) d a k s r
  | 0x4B => some <| dec false do
      noExt x
      let a ← srcReg (fS1 w)
      let b ← srcReg (fS2 w)
      need (w.extractLsb' 20 3 == 0)
      let f ← FFmt.ofCode (w.extractLsb' 0 2)
      let c ← FCond.ofCode (w.extractLsb' 2 3)
      return .fcmp (fTk w) c f (fK w).toFin a b
  | 0x50 => some <| dec false do
      noExt x
      return .trap (fTk w) (fD w) (fImm17 w)
  | 0x51 => some <| dec true do
      noExt x
      need (fImm17 w == 0)
      return .rfe (fTk w) (fD w)
  | 0x52 => some <| dec false do
      noExt x
      let d ← dstReg (fD w)
      if h : (fImm17 w).toNat < 64 then checked (.mfs (fTk w) d ⟨(fImm17 w).toNat, h⟩) else none
  | 0x53 => some <| dec (mtsPriv (fImm17 w).toNat) do
      noExt x
      let s ← srcReg (fD w)
      if h : (fImm17 w).toNat < 64 then checked (.mts (fTk w) s ⟨(fImm17 w).toNat, h⟩) else none
  | 0x54 => some <| dec false do
      noExt x
      need (fImm17 w == 0)
      return .icsync (fTk w) (fD w)
  | 0x55 => some <| dec false do
      noExt x
      need (w.extractLsb' 3 14 == 0)
      let s ← Scope.ofCode (w.extractLsb' 0 3)
      return .fence (fTk w) (fD w) s
  | 0x56 => some <| dec false do
      noExt x
      need (fImm17 w == 0)
      return .endTile (fTk w) (fD w)
  | _ => none

/-- Codes of the A space from 0x30 (R169); none if unassigned there. -/
def decA (op : Nat) (w : Lane) (x : Option Lane) : Option Dec :=
  match op with
  | 0x30 => some <| dec false do
      noExt x
      need (fPub w == 0 && fK w == 0)
      return .folA (fTk w) (fImm17 w)
  | 0x40 => some <| dec false do
      let x ← extBelow 6 x
      let (s, a, b, c) ← streamForm w
      let sp ← Space.ofCode (fSp w)
      return .sld (fTk w) s a b sp c (fCc w) (x.extractLsb' 0 5).toFin (x.getLsbD 5)
  | 0x41 => some <| dec false do
      let x ← extBelow 6 x
      let (s, a, b, c) ← streamForm w
      let sp ← Space.ofCode (fSp w)
      return .sst (fTk w) s a b sp c (fCc w) (x.extractLsb' 0 5).toFin (x.getLsbD 5)
  | 0x42 => some <| dec false do
      let x ← x
      need (!x.getLsbD 5)
      let (s, a, b, c) ← streamForm w
      let sp ← Space.ofCode (fSp w)
      checked (.sgath (fTk w) s a b sp c (fCc w) (x.extractLsb' 0 5).toFin (x.extractLsb' 6 6) (x.extractLsb' 12 20))
  | 0x43 => some <| dec false do
      let x ← x
      need (!x.getLsbD 5)
      let (s, a, b, c) ← streamForm w
      let sp ← Space.ofCode (fSp w)
      checked (.sscat (fTk w) s a b sp c (fCc w) (x.extractLsb' 0 5).toFin (x.extractLsb' 6 6) (x.extractLsb' 12 20))
  | 0x44 => some <| dec false do
      let x ← extBelow 10 x
      let (s, a, _, c) ← streamForm w
      need (fRb w == 48 && fSp w == 0)
      return .srec (fTk w) s a c (fCc w) (x.extractLsb' 0 5).toFin (x.extractLsb' 5 5).toFin
  | 0x45 => some <| dec false do
      let x ← x
      need (x.extractLsb' 6 10 == 0)
      let (s, a, b, c) ← streamForm w
      let sp ← Space.ofCode (fSp w)
      checked (.smc (fTk w) s a b sp c (fCc w) (x.extractLsb' 0 5).toFin (x.getLsbD 5) (x.extractLsb' 16 16))
  | 0x46 => some <| dec false do
      let x ← extBelow 3 x
      let (s, a, b, c) ← streamForm w
      let sp ← Space.ofCode (fSp w)
      let ds ← Space.ofCode (x.extractLsb' 0 3)
      return .scpy (fTk w) s a b sp c (fCc w) ds
  | 0x47 => some <| dec false do
      let x ← extBelow 9 x
      let (s, a, _, c) ← streamForm w
      need (fRb w == 48 && fSp w == 5)
      return .schr (fTk w) s a c (fCc w) (x.extractLsb' 0 5).toFin (x.extractLsb' 5 4).toFin
  | 0x48 => some <| dec false do
      let x ← extBelow 10 x
      let (s, a, _, c) ← streamForm w
      need (fRb w == 48 && fSp w == 5)
      return .schw (fTk w) s a c (fCc w) (x.extractLsb' 0 5).toFin (x.extractLsb' 5 4).toFin (x.getLsbD 9)
  | 0x49 => some <| dec false do
      noExt x
      let (s, _, _, c) ← streamForm w
      need (fRa w == 48 && fRb w == 48 && fSp w == 0)
      return .sbar (fTk w) s c (fCc w)
  | 0x4A => some <| dec false do
      noExt x
      let (s, a, _, c) ← streamForm w
      need (fRb w == 48 && fSp w == 0 && !fCc w)
      return .swait (fTk w) s a c
  | 0x4B => some <| dec true do
      let x ← extBelow 2 x
      let (s, a, b, c) ← streamForm w
      need (fSp w == 3)
      return .stash (fTk w) s a b c (fCc w) (x.getLsbD 0) (x.getLsbD 1)
  | 0x4C => some <| dec false do
      noExt x
      let (s, a, b, _) ← streamForm w
      need (fSc w == 0 && !fCc w)
      let sp ← CntSp.ofSpCode (fSp w)
      return .scnt (fTk w) s a b sp
  | 0x4D => some <| dec false do
      noExt x
      let d ← dstReg (fRa w)
      need (fRb w == 48 && fSp w == 0 && fSc w == 0 && !fCc w)
      return .sstat (fTk w) (fSlot w).toFin d
  | 0x50 => some <| dec false do
      noExt x
      let d ← dstReg (fD w)
      let c ← ringCnt w
      return .wfill (fTk w) d c (w.extractLsb' 0 5).toFin
  | 0x51 => some <| dec false do
      noExt x
      let d ← dstReg (fD w)
      let c ← ringCnt w
      return .wfree (fTk w) d c (w.extractLsb' 0 5).toFin
  | 0x52 => some <| dec false do
      noExt x
      let d ← dstReg (fD w)
      let c ← ringCnt w
      return .rpop (fTk w) d c (w.extractLsb' 0 5).toFin
  | 0x53 => some <| dec false do
      noExt x
      let d ← dstReg (fD w)
      let c ← ringCnt w
      return .radv (fTk w) d c (w.extractLsb' 0 5).toFin
  | _ => none

/-- Codes of the M space (R170); none if unassigned there. -/
def decM (op : Nat) (w : Lane) (x : Option Lane) : Option Dec :=
  match op with
  | 0x20 => some <| dec false do
      noExt x
      need (fD w == 0 && w.extractLsb' 3 2 == 0)
      let a ← srcReg (fS1 w)
      let b ← srcReg (fS2 w)
      let s ← PlaneSp.ofCode (w.extractLsb' 0 3)
      return .ldrp (fTk w) s a b
  | 0x21 => some <| dec false do
      noExt x
      need (fD w == 0 && w.extractLsb' 3 2 == 0)
      let a ← srcReg (fS1 w)
      let b ← srcReg (fS2 w)
      let s ← PlaneSp.ofCode (w.extractLsb' 0 3)
      return .ldop (fTk w) s a b
  | 0x22 => some <| dec false do
      noExt x
      let d ← dstReg (fD w)
      need (w.extractLsb' 9 8 == 0)
      checked (.swop (fTk w) d (w.extractLsb' 0 2) (w.getLsbD 2) (w.extractLsb' 3 6))
  | 0x23 => some <| dec false do
      noExt x
      need (fD w == 0 && fFn w == 0)
      let a ← srcReg (fS1 w)
      let b ← srcReg (fS2 w)
      return .pwr (fTk w) a b
  | 0x30 => some <| dec false do
      let e ← matExt x
      need (fD w == 0 && !w.getLsbD 16 && !w.getLsbD 10 && w.extractLsb' 2 3 == 0)
      checked (.mma (fTk w) (w.extractLsb' 11 5).toFin (w.extractLsb' 5 5).toFin (w.getLsbD 0) (w.getLsbD 1) e)
  | 0x31 => some <| dec false do
      let e ← matExt x
      need (fD w == 0 && !w.getLsbD 16 && !w.getLsbD 10 && w.extractLsb' 2 3 == 0)
      checked (.mmaT (fTk w) (w.extractLsb' 11 5).toFin (w.extractLsb' 5 5).toFin (w.getLsbD 0) (w.getLsbD 1) e)
  | 0x32 => some <| dec false do
      let e ← matExt x
      need (w.extractLsb' 0 23 == 0)
      checked (.zacc (fTk w) e)
  | 0x33 => some <| dec false do
      let e ← matExt x
      need (fD w == 0 && w.extractLsb' 1 4 == 0)
      let a ← srcReg (fS1 w)
      let b ← srcReg (fS2 w)
      checked (.ldacc (fTk w) a b (w.getLsbD 0) e)
  | 0x34 => some <| dec false do
      let e ← matExt x
      need (fD w == 0 && fS2 w == 0 && w.extractLsb' 3 2 == 0)
      let a ← srcReg (fS1 w)
      let r ← RMode.ofCode (w.extractLsb' 0 2)
      checked (.drain (fTk w) a r (w.getLsbD 2) e)
  | 0x35 => some <| dec false do
      let e ← matExt x
      need (fD w == 0 && fS2 w == 0 && w.extractLsb' 3 2 == 0)
      let a ← srcReg (fS1 w)
      let r ← RMode.ofCode (w.extractLsb' 0 2)
      checked (.qnt (fTk w) a r (w.getLsbD 2) e)
  | 0x36 => some <| dec false do
      noExt x
      need (w.extractLsb' 9 14 == 0)
      if w.getLsbD 8 then do { need (w.extractLsb' 0 8 == 0); return .mwaitAll (fTk w) } else checked (.mwait (fTk w) (w.extractLsb' 0 8))
  | 0x37 => some <| dec false do
      noExt x
      need (fPub w == 0 && fK w == 0)
      return .folM (fTk w) (fImm17 w)
  | _ => none

/-- Codes of the Y space (R171); none if unassigned there. DESIGN CHOICE: the D field of the free form of CLSTAT takes any value
(notes/assumptions/89.md). -/
def decY (op : Nat) (w : Lane) (x : Option Lane) : Option Dec :=
  match op with
  | 0x18 => some <| dec false do
      let (d, a, b, o, z) ← amoForm w
      let e ← optAmoExt x
      checked (.amoT (fTk w) d a b o z e)
  | 0x19 => some <| dec false do
      let (d, a, b, o, z) ← amoForm w
      let e ← optAmoExt x
      checked (.amoP (fTk w) d a b o z e)
  | 0x1A => some <| dec false do
      let (d, a, b, o, z) ← amoForm w
      let e ← optAmoExt x
      checked (.amoG (fTk w) d a b o z e)
  | 0x1B => some <| dec false do
      let (d, a, b, o, z) ← amoForm w
      let e ← optAmoExt x
      checked (.amoY (fTk w) d a b o z e)
  | 0x1C => some <| dec false do
      let (d, a, b, o, z) ← amoForm w
      let x ← x
      let e ← amoExt x
      checked (.amoD (fTk w) d a b o z e)
  | 0x1D => some <| dec false do
      noExt x
      need (fPub w == 0 && fK w == 0)
      return .folY (fTk w) (fImm17 w)
  | 0x20 => some <| dec false do
      noExt x
      need (w.extractLsb' 3 14 == 0 && !w.getLsbD 22)
      return .arrive (fTk w) (w.extractLsb' 17 5).toFin (w.extractLsb' 0 3).toFin
  | 0x21 => some <| dec false do
      noExt x
      need (w.extractLsb' 3 20 == 0)
      return .wait (fTk w) (w.extractLsb' 0 3).toFin
  | 0x22 => some <| dec false do
      noExt x
      let d ← srcReg (fD w)
      let a ← srcReg (fS1 w)
      let s ← Scope.ofCode (w.extractLsb' 0 3)
      return .tsend (fTk w) d a (w.extractLsb' 8 3) (w.getLsbD 7) (w.extractLsb' 3 4).toFin s
  | 0x23 => some <| dec false do
      noExt x
      let d ← dstReg (fD w)
      let a ← srcReg (fS1 w)
      let s ← Scope.ofCode (w.extractLsb' 0 3)
      checked (.trecv (fTk w) d a (w.extractLsb' 3 8) s)
  | 0x24 => some <| dec false do
      noExt x
      need (w.extractLsb' 0 23 == 0)
      return .next (fTk w)
  | 0x25 => some <| dec false do
      noExt x
      need (w.extractLsb' 0 23 == 0)
      return .shunt (fTk w)
  | 0x26 => some <| dec false do
      noExt x
      need (w.extractLsb' 0 23 == 0)
      return .beat (fTk w)
  | 0x27 => some <| dec false do
      let x ← extBelow 5 x
      let d ← dstReg (fD w)
      let a ← srcReg (fS1 w)
      let b ← srcReg (fS2 w)
      need (fFn w == 0)
      let s ← Scope.ofCode (x.extractLsb' 0 3)
      let p ← CntSp.ofCode (x.extractLsb' 3 2)
      return .cadd (fTk w) d a b s p
  | 0x28 => some <| dec false do
      let x ← extBelow 5 x
      let d ← dstReg (fD w)
      let a ← srcReg (fS1 w)
      let b ← srcReg (fS2 w)
      need (fFn w == 0)
      let s ← Scope.ofCode (x.extractLsb' 0 3)
      let p ← CntSp.ofCode (x.extractLsb' 3 2)
      return .cwait (fTk w) d a b s p
  | 0x29 => some <| dec false do
      noExt x
      need (fFn w == 0)
      let d ← srcReg (fD w)
      let a ← srcReg (fS1 w)
      let b ← srcReg (fS2 w)
      return .clst (fTk w) d a b
  | 0x2A => some <| dec false do
      noExt x
      need (fS2 w == 48 && w.extractLsb' 2 3 == 0)
      let a ← srcReg (fS1 w)
      match (w.extractLsb' 0 2).toNat with
      | 0 => return .clstat (fTk w) (← dstReg (fD w)) a
      | 1 => return .clstatWait (fTk w) (← dstReg (fD w)) a
      | 2 => return .clstatFree (fTk w) (fD w) a
      | _ => none
  | 0x30 => some <| dec true do
      noExt x
      need (fD w == 0 && fFn w == 0 && fS2 w == 48)
      let a ← srcReg (fS1 w)
      return .xsave (fTk w) a
  | 0x31 => some <| dec true do
      noExt x
      need (fD w == 0 && fFn w == 0 && fS2 w == 48)
      let a ← srcReg (fS1 w)
      return .xrest (fTk w) a
  | 0x32 => some <| dec true do
      noExt x
      need (fD w == 0 && fFn w == 0 && fS2 w == 48)
      let a ← srcReg (fS1 w)
      return .fsave (fTk w) a
  | 0x33 => some <| dec true do
      noExt x
      need (fD w == 0 && fFn w == 0 && fS2 w == 48)
      let a ← srcReg (fS1 w)
      return .frest (fTk w) a
  | 0x34 => some <| dec true do
      noExt x
      need (fD w == 0 && fFn w == 0 && fS2 w == 48)
      let a ← srcReg (fS1 w)
      return .qsave (fTk w) a
  | 0x35 => some <| dec true do
      noExt x
      need (fD w == 0 && fFn w == 0 && fS2 w == 48)
      let a ← srcReg (fS1 w)
      return .qrest (fTk w) a
  | 0x36 => some <| dec true do
      noExt x
      need (fD w == 0 && fFn w == 0)
      let a ← srcReg (fS1 w)
      let b ← srcReg (fS2 w)
      return .bsave (fTk w) a b
  | 0x37 => some <| dec true do
      noExt x
      need (fD w == 0 && fFn w == 0)
      let a ← srcReg (fS1 w)
      let b ← srcReg (fS2 w)
      return .brest (fTk w) a b
  | _ => none

/-- Try one table, then the next; a code that no table assigns raises ILLOP (R386). -/
def decodeLane (g : Eng) (w : Lane) (x : Option Lane) : Dec :=
  let op := (fOp w).toNat
  match decBase op w x with
  | some r => r
  | none =>
    match g with
    | .e => ((decInt op w x).or (decE op w x)).getD .illOp
    | .a => ((decInt op w x).or (decA op w x)).getD .illOp
    | .m => (decM op w x).getD .illOp
    | .y => (decY op w x).getD .illOp

/-! ### The encoder -/

/-- One bit. -/
def bit (b : Bool) : BitVec 1 := BitVec.ofBool b

/-- A number below 8 as three bits. -/
def f3 (n : Fin 8) : BitVec 3 := BitVec.ofFin n

/-- A number below 16 as four bits. -/
def f4 (n : Fin 16) : BitVec 4 := BitVec.ofFin n

/-- A number below 32 as five bits. -/
def f5 (n : Fin 32) : BitVec 5 := BitVec.ofFin n

/-- Base lane of format RR (R157). -/
def encRR (t : Tk) (op : BitVec 7) (d a b : BitVec 6) (fn : BitVec 5) : Lane := t.bits ++ op ++ d ++ a ++ b ++ fn

/-- Base lane of format RI (R157). -/
def encRI (t : Tk) (op : BitVec 7) (d a : BitVec 6) (imm : BitVec 11) : Lane := t.bits ++ op ++ d ++ a ++ imm

/-- Base lane of format I (R157). -/
def encI (t : Tk) (op : BitVec 7) (d : BitVec 6) (imm : BitVec 17) : Lane := t.bits ++ op ++ d ++ imm

/-- Base lane of format B (R157). -/
def encB (t : Tk) (op : BitVec 7) (p k : BitVec 3) (off : BitVec 17) : Lane := t.bits ++ op ++ p ++ k ++ off

/-- Base lane of format S (R157). -/
def encS (t : Tk) (op : BitVec 7) (s : Fin 16) (a b : BitVec 6) (sp : BitVec 3) (sc : Scope) (cc : Bool) : Lane :=
  t.bits ++ op ++ f4 s ++ a ++ b ++ sp ++ sc.code ++ bit cc

/-- Extension lane of a memory form (R158). -/
def MemExt.bits (e : MemExt) : Lane := e.off ++ 0#5 ++ e.scope.code

/-- Extension lane of an atomic (R289). -/
def AmoExt.bits (e : AmoExt) : Lane := e.off ++ 0#3 ++ e.ord.code ++ e.scope.code

/-- Extension lane of a matrix command (R266). -/
def MatExt.bits (e : MatExt) : Lane := 0#8 ++ e.p2 ++ e.p1 ++ e.id

/-- Extension lane of BQS (R203). -/
def BqsExt.bits (e : BqsExt) : Lane := 0#20 ++ bit e.sense ++ e.mask ++ bit e.chan ++ f5 e.index

/-- S1 of a ring operation (R235). -/
def RingCnt.s1 : RingCnt → BitVec 6
  | .imm _ => 48
  | .reg s => s.bits

/-- IMM11[10:5] of a ring operation (R235). -/
def RingCnt.count : RingCnt → BitVec 6
  | .imm n => n
  | .reg _ => 0

/-- The base lane and the extension lane of an instruction; none for an event. -/
def encode : Instr → Option (Lane × Option Lane)
  | .nop t i => some (t.bits ++ 0x01#7 ++ i, none)
  | .add t d a b w => some (encRR t 0x02 d.bits a.bits b.bits (0#4 ++ bit w), none)
  | .sub t d a b w => some (encRR t 0x03 d.bits a.bits b.bits (0#4 ++ bit w), none)
  | .mul t d a b h w => some (encRR t 0x04 d.bits a.bits b.bits (0#2 ++ h.code ++ bit w), none)
  | .and t d a b => some (encRR t 0x05 d.bits a.bits b.bits 0, none)
  | .or t d a b => some (encRR t 0x06 d.bits a.bits b.bits 0, none)
  | .xor t d a b => some (encRR t 0x07 d.bits a.bits b.bits 0, none)
  | .shl t d a b w => some (encRR t 0x08 d.bits a.bits b.bits (0#4 ++ bit w), none)
  | .shr t d a b s w => some (encRR t 0x09 d.bits a.bits b.bits (0#3 ++ bit s ++ bit w), none)
  | .min t d a b u => some (encRR t 0x0A d.bits a.bits b.bits (0#3 ++ bit u ++ 0#1), none)
  | .max t d a b u => some (encRR t 0x0B d.bits a.bits b.bits (0#3 ++ bit u ++ 0#1), none)
  | .cmp t c d a b => some (encRR t 0x0C d.bits a.bits b.bits (0#2 ++ c.code), none)
  | .sel t d a b => some (encRR t 0x0D d.bits a.bits b.bits 0, none)
  | .bfx t d a sp l => some (encRI t 0x0E d.bits a.bits (l ++ sp), none)
  | .bfi t d a sp l => some (encRI t 0x0F d.bits a.bits (l ++ sp), none)
  | .addi t d a i x => some (encRI t 0x10 d.bits a.bits i, x)
  | .andi t d a i x => some (encRI t 0x11 d.bits a.bits i, x)
  | .ori t d a i x => some (encRI t 0x12 d.bits a.bits i, x)
  | .xori t d a i x => some (encRI t 0x13 d.bits a.bits i, x)
  | .shli t d a n w => some (encRI t 0x14 d.bits a.bits (0#3 ++ bit w ++ 0#1 ++ n), none)
  | .shri t d a n s w => some (encRI t 0x15 d.bits a.bits (0#3 ++ bit w ++ bit s ++ n), none)
  | .li t d i x => some (encI t 0x16 d.bits i, x)
  | .lih t d i x => some (encI t 0x17 d.bits i, x)
  | .cnt t d a m w g => some (encRR t 0x18 d.bits a.bits g (0#2 ++ bit w ++ m.code), none)
  | .tsel t s i => some (encI t 0x1F s.bits i, none)
  | .ldT t d a b z u o x => some (encRR t 0x20 d.bits a.bits b.bits (o.code ++ bit u ++ z.code), x.map MemExt.bits)
  | .ldP t d a b z u o x => some (encRR t 0x21 d.bits a.bits b.bits (o.code ++ bit u ++ z.code), x.map MemExt.bits)
  | .ldG t d a b z u o x => some (encRR t 0x22 d.bits a.bits b.bits (o.code ++ bit u ++ z.code), x.map MemExt.bits)
  | .ldY t d a b z u o x => some (encRR t 0x23 d.bits a.bits b.bits (o.code ++ bit u ++ z.code), x.map MemExt.bits)
  | .ldD t d a b z u o x => some (encRR t 0x24 d.bits a.bits b.bits (o.code ++ bit u ++ z.code), x.map MemExt.bits)
  | .stT t d a b z o x => some (encRR t 0x28 d.bits a.bits b.bits (o.code ++ 0#1 ++ z.code), x.map MemExt.bits)
  | .stP t d a b z o x => some (encRR t 0x29 d.bits a.bits b.bits (o.code ++ 0#1 ++ z.code), x.map MemExt.bits)
  | .stG t d a b z o x => some (encRR t 0x2A d.bits a.bits b.bits (o.code ++ 0#1 ++ z.code), x.map MemExt.bits)
  | .stY t d a b z o x => some (encRR t 0x2B d.bits a.bits b.bits (o.code ++ 0#1 ++ z.code), x.map MemExt.bits)
  | .stD t d a b z o x => some (encRR t 0x2C d.bits a.bits b.bits (o.code ++ 0#1 ++ z.code), x.map MemExt.bits)
  | .br t sp k o => some (encB t 0x30 sp k o, none)
  | .bt t sp k o => some (encB t 0x31 sp (f3 k) o, none)
  | .bf t sp k o => some (encB t 0x32 sp (f3 k) o, none)
  | .call t sp k o => some (encB t 0x33 sp k o, none)
  | .jr t l a => some (match l with | none => encRR t 0x34 0 a.bits 48 0 | some d => encRR t 0x34 d.bits a.bits 48 1, none)
  | .pcmp t c m k a b => some (encRR t 0x38 (0#3 ++ f3 k) a.bits b.bits (m.code ++ c.code), none)
  | .pcmpi t c k a i x => some (encRI t 0x39 (c.code ++ f3 k) a.bits i, x)
  | .plog t o k a b => some (encRR t 0x3A (0#3 ++ f3 k) (0#3 ++ f3 a) (0#3 ++ f3 b) (0#3 ++ o.code), none)
  | .pget t d => some (encI t 0x3B d.bits 0, none)
  | .pset t m v => some (encI t 0x3C 0 (0#1 ++ m ++ v), none)
  | .pub t sp k g => some (encB t 0x3D sp (f3 k) g, none)
  | .bqs t sp o x => some (encB t 0x40 sp 0 o, some x.bits)
  | .div t d a b u w => some (encRR t 0x44 d.bits a.bits b.bits (0#3 ++ bit u ++ bit w), none)
  | .rem t d a b u w => some (encRR t 0x45 d.bits a.bits b.bits (0#3 ++ bit u ++ bit w), none)
  | .fadd t d a b f r => some (encRR t 0x46 d.bits a.bits b.bits (0#1 ++ r.code ++ f.code), none)
  | .fsub t d a b f r => some (encRR t 0x47 d.bits a.bits b.bits (0#1 ++ r.code ++ f.code), none)
  | .fmul t d a b f r => some (encRR t 0x48 d.bits a.bits b.bits (0#1 ++ r.code ++ f.code), none)
  | .fma t d a b c f r => some (encRR t 0x49 d.bits a.bits b.bits (0#1 ++ r.code ++ f.code), some (0#26 ++ c.bits))
  | .fcvt t d a k s r => some (encRR t 0x4A d.bits a.bits (0#3 ++ s.code) (r.code ++ k.code), none)
  | .fcmp t c f k a b => some (encRR t 0x4B (0#3 ++ f3 k) a.bits b.bits (c.code ++ f.code), none)
  | .trap t g c => some (encI t 0x50 g c, none)
  | .rfe t g => some (encI t 0x51 g 0, none)
  | .mfs t d n => some (encI t 0x52 d.bits (BitVec.ofNat 17 n.val), none)
  | .mts t s n => some (encI t 0x53 s.bits (BitVec.ofNat 17 n.val), none)
  | .icsync t g => some (encI t 0x54 g 0, none)
  | .fence t g s => some (encI t 0x55 g (0#14 ++ s.code), none)
  | .endTile t g => some (encI t 0x56 g 0, none)
  | .folA t o => some (encB t 0x30 0 0 o, none)
  | .sld t s a b sp c k r l => some (encS t 0x40 s a.bits b.bits sp.code c k, some (0#26 ++ bit l ++ f5 r))
  | .sst t s a b sp c k r l => some (encS t 0x41 s a.bits b.bits sp.code c k, some (0#26 ++ bit l ++ f5 r))
  | .sgath t s a b sp c k r w q => some (encS t 0x42 s a.bits b.bits sp.code c k, some (q ++ w ++ 0#1 ++ f5 r))
  | .sscat t s a b sp c k r w q => some (encS t 0x43 s a.bits b.bits sp.code c k, some (q ++ w ++ 0#1 ++ f5 r))
  | .srec t s a c k i o => some (encS t 0x44 s a.bits 48 0 c k, some (0#22 ++ f5 o ++ f5 i))
  | .smc t s a b sp c k r l m => some (encS t 0x45 s a.bits b.bits sp.code c k, some (m ++ 0#10 ++ bit l ++ f5 r))
  | .scpy t s a b sp c k q => some (encS t 0x46 s a.bits b.bits sp.code c k, some (0#29 ++ q.code))
  | .schr t s a c k r sp => some (encS t 0x47 s a.bits 48 5 c k, some (0#23 ++ f4 sp ++ f5 r))
  | .schw t s a c k r sp m => some (encS t 0x48 s a.bits 48 5 c k, some (0#22 ++ bit m ++ f4 sp ++ f5 r))
  | .sbar t s c k => some (encS t 0x49 s 48 48 0 c k, none)
  | .swait t s a c => some (encS t 0x4A s a.bits 48 0 c false, none)
  | .stash t s a b c k r x => some (encS t 0x4B s a.bits b.bits 3 c k, some (0#30 ++ bit x ++ bit r))
  | .scnt t s a b sp => some (encS t 0x4C s a.bits b.bits sp.spCode .tile false, none)
  | .sstat t s d => some (encS t 0x4D s d.bits 48 0 .tile false, none)
  | .wfill t d c r => some (encRI t 0x50 d.bits c.s1 (c.count ++ f5 r), none)
  | .wfree t d c r => some (encRI t 0x51 d.bits c.s1 (c.count ++ f5 r), none)
  | .rpop t d c r => some (encRI t 0x52 d.bits c.s1 (c.count ++ f5 r), none)
  | .radv t d c r => some (encRI t 0x53 d.bits c.s1 (c.count ++ f5 r), none)
  | .mma t a b k l x => some (encRR t 0x30 0 (0#1 ++ f5 a) (0#1 ++ f5 b) (0#3 ++ bit l ++ bit k), some x.bits)
  | .mmaT t a b k l x => some (encRR t 0x31 0 (0#1 ++ f5 a) (0#1 ++ f5 b) (0#3 ++ bit l ++ bit k), some x.bits)
  | .zacc t x => some (encRR t 0x32 0 0 0 0, some x.bits)
  | .ldacc t a b z x => some (encRR t 0x33 0 a.bits b.bits (0#4 ++ bit z), some x.bits)
  | .drain t a r z x => some (encRR t 0x34 0 a.bits 0 (0#2 ++ bit z ++ r.code), some x.bits)
  | .qnt t a r z x => some (encRR t 0x35 0 a.bits 0 (0#2 ++ bit z ++ r.code), some x.bits)
  | .mwait t i => some (encI t 0x36 0 (0#9 ++ i), none)
  | .mwaitAll t => some (encI t 0x36 0 0x100, none)
  | .folM t o => some (encB t 0x37 0 0 o, none)
  | .ldrp t sp a b => some (encRR t 0x20 0 a.bits b.bits (0#2 ++ sp.code), none)
  | .ldop t sp a b => some (encRR t 0x21 0 a.bits b.bits (0#2 ++ sp.code), none)
  | .swop t d o n l => some (encI t 0x22 d.bits (0#8 ++ l ++ bit n ++ o), none)
  | .pwr t a b => some (encRR t 0x23 0 a.bits b.bits 0, none)
  | .amoT t d a b o z x => some (encRR t 0x18 d.bits a.bits b.bits (bit z ++ o.code), x.map AmoExt.bits)
  | .amoP t d a b o z x => some (encRR t 0x19 d.bits a.bits b.bits (bit z ++ o.code), x.map AmoExt.bits)
  | .amoG t d a b o z x => some (encRR t 0x1A d.bits a.bits b.bits (bit z ++ o.code), x.map AmoExt.bits)
  | .amoY t d a b o z x => some (encRR t 0x1B d.bits a.bits b.bits (bit z ++ o.code), x.map AmoExt.bits)
  | .amoD t d a b o z x => some (encRR t 0x1C d.bits a.bits b.bits (bit z ++ o.code), some x.bits)
  | .folY t o => some (encB t 0x1D 0 0 o, none)
  | .arrive t s b => some (encI t 0x20 (0#1 ++ f5 s) (0#14 ++ f3 b), none)
  | .wait t b => some (encI t 0x21 0 (0#14 ++ f3 b), none)
  | .tsend t d a i b s c => some (encRI t 0x22 d.bits a.bits (i ++ bit b ++ f4 s ++ c.code), none)
  | .trecv t d a n c => some (encRI t 0x23 d.bits a.bits (n ++ c.code), none)
  | .next t => some (encI t 0x24 0 0, none)
  | .shunt t => some (encI t 0x25 0 0, none)
  | .beat t => some (encI t 0x26 0 0, none)
  | .cadd t d a b s sp => some (encRR t 0x27 d.bits a.bits b.bits 0, some (0#27 ++ sp.code ++ s.code))
  | .cwait t d a b s sp => some (encRR t 0x28 d.bits a.bits b.bits 0, some (0#27 ++ sp.code ++ s.code))
  | .clst t d a b => some (encRR t 0x29 d.bits a.bits b.bits 0, none)
  | .clstat t d a => some (encRR t 0x2A d.bits a.bits 48 0, none)
  | .clstatWait t d a => some (encRR t 0x2A d.bits a.bits 48 1, none)
  | .clstatFree t g a => some (encRR t 0x2A g a.bits 48 2, none)
  | .xsave t a => some (encRR t 0x30 0 a.bits 48 0, none)
  | .xrest t a => some (encRR t 0x31 0 a.bits 48 0, none)
  | .fsave t a => some (encRR t 0x32 0 a.bits 48 0, none)
  | .frest t a => some (encRR t 0x33 0 a.bits 48 0, none)
  | .qsave t a => some (encRR t 0x34 0 a.bits 48 0, none)
  | .qrest t a => some (encRR t 0x35 0 a.bits 48 0, none)
  | .bsave t a b => some (encRR t 0x36 0 a.bits b.bits 0, none)
  | .brest t a b => some (encRR t 0x37 0 a.bits b.bits 0, none)
  | _ => none

/-! ### Words of the opcode table

The table gives a row the bits of its base lane but not the nibble that names the engine (R151), and engines share words.
The rows are tried with the most fixed bits first, and the lane is decoded in the first matching row's engine. -/

/-- A row of the opcode table: fixed bits, their values, and the engine whose space the row lies in. -/
structure TableRow where
  mask : Nat
  value : Nat
  eng : Eng
  deriving DecidableEq, Repr

/-- Rows of the opcode table, part 1. -/
def tableRows1 : List TableRow := [
  ⟨0x3FFFFFFF, 0x1B000100, .m⟩,
  ⟨0x3FFFFFFF, 0x12000000, .y⟩,
  ⟨0x3FFFFFFF, 0x12800000, .y⟩,
  ⟨0x3FFFFFFF, 0x13000000, .y⟩,
  ⟨0x3FFFFFF8, 0x10800000, .y⟩,
  ⟨0x3F81FFFF, 0x1D800000, .e⟩,
  ⟨0x3F81FFFF, 0x28800000, .e⟩,
  ⟨0x3F81FFFF, 0x2A000000, .e⟩,
  ⟨0x3F81FFFF, 0x2B000000, .e⟩,
  ⟨0x3FFE07FF, 0x18000600, .y⟩,
  ⟨0x3FFE07FF, 0x18800600, .y⟩,
  ⟨0x3FFE07FF, 0x19000600, .y⟩,
  ⟨0x3FFE07FF, 0x19800600, .y⟩,
  ⟨0x3FFE07FF, 0x1A000600, .y⟩,
  ⟨0x3FFE07FF, 0x1A800600, .y⟩,
  ⟨0x3F87FFF0, 0x24861800, .a⟩,
  ⟨0x3FFFFF00, 0x1B000000, .m⟩,
  ⟨0x3F81FFF8, 0x2A800000, .e⟩,
  ⟨0x3F81FFF8, 0x10000000, .y⟩,
  ⟨0x3F801FFF, 0x26801800, .a⟩,
  ⟨0x3FF1C71C, 0x1D000000, .e⟩,
  ⟨0x3FFE001F, 0x11800000, .m⟩,
  ⟨0x3F8007FF, 0x15000600, .y⟩,
  ⟨0x3F8007FF, 0x15000601, .y⟩,
  ⟨0x3F8007FF, 0x15000602, .y⟩]

/-- Rows of the opcode table, part 2. -/
def tableRows2 : List TableRow := [
  ⟨0x3FFE001F, 0x1B000000, .y⟩,
  ⟨0x3FFE001F, 0x1B800000, .y⟩,
  ⟨0x3F8007FE, 0x1A000600, .e⟩,
  ⟨0x3F801FF1, 0x25001800, .a⟩,
  ⟨0x3FFE0018, 0x10000000, .m⟩,
  ⟨0x3FFE0018, 0x10800000, .m⟩,
  ⟨0x3F81FE00, 0x11000000, .m⟩,
  ⟨0x3FFF0000, 0x1E000000, .e⟩,
  ⟨0x3FFE0000, 0x18000000, .a⟩,
  ⟨0x3FFE0000, 0x1B800000, .m⟩,
  ⟨0x3FFE0000, 0x0E800000, .y⟩,
  ⟨0x3F80001F, 0x02800000, .e⟩,
  ⟨0x3F80001F, 0x03000000, .e⟩,
  ⟨0x3F80001F, 0x03800000, .e⟩,
  ⟨0x3F80001F, 0x06800000, .e⟩,
  ⟨0x3F80001F, 0x14800000, .y⟩,
  ⟨0x3F80001E, 0x01000000, .e⟩,
  ⟨0x3F80001E, 0x01800000, .e⟩,
  ⟨0x3F80001E, 0x04000000, .e⟩,
  ⟨0x3F80001D, 0x05000000, .e⟩,
  ⟨0x3F80001D, 0x05800000, .e⟩,
  ⟨0x3F800740, 0x0A000000, .e⟩,
  ⟨0x3F80000F, 0x26000000, .a⟩,
  ⟨0x3F80001C, 0x04800000, .e⟩,
  ⟨0x3F800700, 0x0A800000, .e⟩]

/-- Rows of the opcode table, part 3. -/
def tableRows3 : List TableRow := [
  ⟨0x3FF00000, 0x1C000000, .e⟩,
  ⟨0x3F80001C, 0x22000000, .e⟩,
  ⟨0x3F80001C, 0x22800000, .e⟩,
  ⟨0x3F800700, 0x25000000, .e⟩,
  ⟨0x3FF00000, 0x25800000, .e⟩,
  ⟨0x3F800018, 0x02000000, .e⟩,
  ⟨0x3F800018, 0x06000000, .e⟩,
  ⟨0x3F800018, 0x0C000000, .e⟩,
  ⟨0x3F800004, 0x14000000, .e⟩,
  ⟨0x3F800004, 0x14800000, .e⟩,
  ⟨0x3F800004, 0x15000000, .e⟩,
  ⟨0x3F800004, 0x15800000, .e⟩,
  ⟨0x3F800004, 0x16000000, .e⟩,
  ⟨0x3F800010, 0x23000000, .e⟩,
  ⟨0x3F800010, 0x23800000, .e⟩,
  ⟨0x3F800010, 0x24000000, .e⟩,
  ⟨0x3F800000, 0x28000000, .a⟩,
  ⟨0x3F800000, 0x00800000, .e⟩,
  ⟨0x3F800000, 0x07000000, .e⟩,
  ⟨0x3F800000, 0x07800000, .e⟩,
  ⟨0x3F800000, 0x08000000, .e⟩,
  ⟨0x3F800000, 0x08800000, .e⟩,
  ⟨0x3F800000, 0x09000000, .e⟩,
  ⟨0x3F800000, 0x09800000, .e⟩,
  ⟨0x3F800000, 0x0B000000, .e⟩]

/-- Rows of the opcode table, part 4. -/
def tableRows4 : List TableRow := [
  ⟨0x3F800000, 0x0B800000, .e⟩,
  ⟨0x3F800000, 0x0F800000, .e⟩,
  ⟨0x3F800000, 0x10000000, .e⟩,
  ⟨0x3F800000, 0x10800000, .e⟩,
  ⟨0x3F800000, 0x11000000, .e⟩,
  ⟨0x3F800000, 0x11800000, .e⟩,
  ⟨0x3F800000, 0x12000000, .e⟩,
  ⟨0x3F800000, 0x18000000, .e⟩,
  ⟨0x3F800000, 0x18800000, .e⟩,
  ⟨0x3F800000, 0x19000000, .e⟩,
  ⟨0x3F800000, 0x19800000, .e⟩,
  ⟨0x3F800000, 0x1C800000, .e⟩,
  ⟨0x3F800000, 0x1E800000, .e⟩,
  ⟨0x3F800000, 0x28000000, .e⟩,
  ⟨0x3F800000, 0x29000000, .e⟩,
  ⟨0x3F800000, 0x29800000, .e⟩,
  ⟨0x3F800000, 0x28800000, .a⟩,
  ⟨0x3F800000, 0x29000000, .a⟩,
  ⟨0x3F800000, 0x29800000, .a⟩,
  ⟨0x3F800000, 0x0C000000, .y⟩,
  ⟨0x3F800000, 0x0C800000, .y⟩,
  ⟨0x3F800000, 0x0D000000, .y⟩,
  ⟨0x3F800000, 0x0D800000, .y⟩,
  ⟨0x3F800000, 0x11000000, .y⟩,
  ⟨0x3F800000, 0x11800000, .y⟩]

/-- All rows that have bits in the table, most fixed bits first. -/
def tableRows : List TableRow := tableRows1 ++ tableRows2 ++ tableRows3 ++ tableRows4

/-- The engine a table word is read in: that of the first matching row whose space decodes it. -/
def tableEng (w : Nat) : Eng :=
  match tableRows.find? (fun r => Nat.land w r.mask == r.value
      && match decodeLane r.eng (BitVec.ofNat 32 w) none with | .ok _ => true | _ => false) with
  | some r => r.eng
  | none => .e

/-- The four bytes of a lane, lowest address first (R2, R151). -/
def laneBytes (w : Lane) : List Byte :=
  [w.extractLsb' 0 8, w.extractLsb' 8 8, w.extractLsb' 16 8, w.extractLsb' 24 8]

/-- The lane that bytes in address order make; missing bytes read zero (R2). -/
def laneOfBytes (bs : List Byte) : Lane :=
  bs.getD 3 0 ++ bs.getD 2 0 ++ bs.getD 1 0 ++ bs.getD 0 0

/-- The decoder on bytes: a lane, and an extension lane if more bytes follow; total on any bytes. -/
def decodeBytes (g : Eng) (bs : List Byte) : Dec :=
  decodeLane g (laneOfBytes bs) (if bs.length ≤ 4 then none else some (laneOfBytes (bs.drop 4)))

/-- The instruction that the decoder reads from a word of the opcode table: its bytes laid out as in memory, read in the
engine of the row that the word belongs to. Words above 32 bits carry the extension lane next. -/
def decodeTableWord (nbits w : Nat) : Option Instr :=
  let lo : Lane := BitVec.ofNat 32 w
  let bs := if nbits ≤ 32 then laneBytes lo else laneBytes lo ++ laneBytes (BitVec.ofNat 32 (w >>> 32))
  match decodeBytes (tableEng (w % 2 ^ 32)) bs with
  | .ok i => some i
  | _ => none

end Sys2Proof
end

