-- ==== Sys2Proof/Machine/Bits.lean ====
section
/-! DEFINITION. Bit fields, byte order, sign extension and the sparse maps that the machine's state is made of. -/

namespace Sys2Proof.Machine

/-! ### Fields of numbers -/

/-- The `n` bits of `v` from bit `lo` upward. -/
def fld (v lo n : Nat) : Nat := (v >>> lo) % 2 ^ n

/-- Bit `i` of `v`. -/
def tb (v i : Nat) : Bool := v.testBit i

/-- `v` with its `n` bits from `lo` upward replaced by those of `x`. -/
def setFld (v lo n x : Nat) : Nat := v - (fld v lo n) <<< lo + (x % 2 ^ n) <<< lo

/-- One bit as a number. -/
def b2n (b : Bool) : Nat := if b then 1 else 0

/-- Low `n` bits with their sign, as an integer. -/
def sxi (v n : Nat) : Int :=
  let x := v % 2 ^ n
  if n = 0 then 0 else if tb x (n - 1) then (x : Int) - (2 ^ n : Nat) else x

/-- Keep the low `n` bits of an integer. -/
def trunc (n : Nat) (v : Int) : Nat := (v % (2 ^ n : Nat)).toNat

/-- Sext(v, n) of R8. -/
def sext (v : Word) (n : Nat) : Word := (v.setWidth n).signExtend 64

/-- Zext(v, n) of R8. -/
def zext (v : Word) (n : Nat) : Word := (v.setWidth n).setWidth 64

/-- A number as a word. -/
def wd (n : Nat) : Word := BitVec.ofNat 64 n

/-- A field of a word. -/
def wfld (v : Word) (lo n : Nat) : Nat := fld v.toNat lo n

/-- Ceiling of a quotient. -/
def cdiv (a b : Nat) : Nat := (a + b - 1) / b

/-! ### Bytes (R2) -/

/-- The number whose bytes, lowest address first, are `bs`. -/
def leNat : List Byte → Nat
  | [] => 0
  | b :: bs => b.toNat + 256 * leNat bs

/-- The low `n` bytes of a number, lowest address first. -/
def natLe : Nat → Nat → List Byte
  | 0, _ => []
  | n + 1, v => BitVec.ofNat 8 v :: natLe n (v / 256)

/-- The numbers `a`, `a + 1`, … of a range of length `n`. -/
def range (a : Nat) : Nat → List Nat
  | 0 => []
  | n + 1 => a :: range (a + 1) n

/-- A list cut into pieces of `n`, at most `fuel` of them. -/
def chunk (n : Nat) : Nat → List α → List (List α)
  | 0, _ => []
  | fuel + 1, l => if l.isEmpty then [] else l.take n :: chunk n fuel (l.drop n)

/-! ### Sparse maps -/

/-- The value at a key. -/
def NMap.find? (m : NMap α) (k : Nat) : Option α :=
  match m with
  | [] => none
  | (j, v) :: r => if j = k then some v else NMap.find? r k

/-- The value at a key, or a default. -/
def NMap.findD (m : NMap α) (k : Nat) (d : α) : α := (NMap.find? m k).getD d

/-- The map without a key. -/
def NMap.erase (m : NMap α) (k : Nat) : NMap α := m.filter (fun p => p.1 != k)

/-- Put a pair before the first larger key. -/
def NMap.place (m : NMap α) (k : Nat) (v : α) : NMap α :=
  match m with
  | [] => [(k, v)]
  | (j, w) :: r => if k ≤ j then (k, v) :: (j, w) :: r else (j, w) :: NMap.place r k v

/-- The map with a key set. -/
def NMap.put (m : NMap α) (k : Nat) (v : α) : NMap α := NMap.place (NMap.erase m k) k v

/-- A list with its element `i` replaced; unchanged beyond its end. -/
def setAt (l : List α) (i : Nat) (v : α) : List α := l.set i v

/-- Element `i` of a list, or a default. -/
def getAt (l : List α) (i : Nat) (d : α) : α := l.getD i d

end Sys2Proof.Machine
end

