-- ==== Sys2Proof/Machine/Float.lean ====
section
/-! DEFINITION. Number formats, exact values and rounding (R59 to R75, R426 to R429).
A finite value is held exactly as a sign, a numerator and a power of two; a rounding takes any exact fraction. -/

namespace Sys2Proof.Machine

/-- The formats that values are converted between (R59, R196, R257). -/
inductive Fmt where
  | fp32 | fp16 | bf16 | int32 | uint32 | int64 | uint64
  | e4m3 | e5m2 | e3m2 | e2m3 | e2m1 | int8 | int4 | t2
  deriving DecidableEq, Repr

/-- A value: not a number, an infinity, or (−1)^neg × m × 2^e. -/
inductive FVal where
  | nan
  | inf (neg : Bool)
  | num (neg : Bool) (m : Nat) (e : Int)
  deriving DecidableEq, Repr

/-- Element width in bits (R59). -/
def Fmt.width : Fmt → Nat
  | .fp32 => 32 | .fp16 => 16 | .bf16 => 16 | .int32 => 32 | .uint32 => 32 | .int64 => 64 | .uint64 => 64
  | .e4m3 => 8 | .e5m2 => 8 | .e3m2 => 6 | .e2m3 => 6 | .e2m1 => 4 | .int8 => 8 | .int4 => 4 | .t2 => 2

/-- Exponent bits, mantissa bits and bias of the floating formats (R62, R63). -/
def Fmt.layout : Fmt → Option (Nat × Nat × Int)
  | .fp32 => some (8, 23, 127) | .fp16 => some (5, 10, 15) | .bf16 => some (8, 7, 127)
  | .e4m3 => some (4, 3, 7) | .e5m2 => some (5, 2, 15) | .e3m2 => some (3, 2, 3)
  | .e2m3 => some (2, 3, 1) | .e2m1 => some (2, 1, 1)
  | _ => none

/-- The formats with infinities and NaNs (R62). -/
def Fmt.ieee : Fmt → Bool
  | .fp32 => true | .fp16 => true | .bf16 => true | _ => false

/-- The narrow formats, which have no code for an infinity or a NaN (R72). -/
def Fmt.narrow : Fmt → Bool
  | .e4m3 => true | .e5m2 => true | .e3m2 => true | .e2m3 => true | .e2m1 => true
  | .int8 => true | .int4 => true | .t2 => true | _ => false

/-- emax of the quantiser (R63, R64). -/
def Fmt.emax : Fmt → Int
  | .e4m3 => 8 | .e5m2 => 16 | .e3m2 => 4 | .e2m3 => 2 | .e2m1 => 2 | .int8 => 6 | .int4 => 2 | _ => 0

/-- The canonical quiet NaN (R62). -/
def Fmt.nan : Fmt → Nat
  | .fp32 => 0x7FC00000 | .fp16 => 0x7E00 | .bf16 => 0x7FC0 | _ => 0

/-- Least and greatest value of an integer format (R64, R70, R196, R257). -/
def Fmt.intRange : Fmt → Int × Int
  | .int8 => (-128, 127) | .int4 => (-8, 7) | .t2 => (-1, 1) | .int32 => (-(2 ^ 31 : Nat), (2 ^ 31 : Nat) - 1)
  | .uint32 => (0, (2 ^ 32 : Nat) - 1) | .int64 => (-(2 ^ 63 : Nat), (2 ^ 63 : Nat) - 1) | .uint64 => (0, (2 ^ 64 : Nat) - 1)
  | _ => (0, 0)

/-- An integer as a value. -/
def FVal.ofInt (i : Int) : FVal := .num (i < 0) i.natAbs 0

/-- The value of a code (R62 to R64). Both codes of a narrow zero read +0. -/
def Fmt.value (f : Fmt) (c : Nat) : FVal :=
  match f.layout with
  | some (eb, mb, bias) =>
    let s := tb c (eb + mb)
    let e := fld c mb eb
    let m := fld c 0 mb
    if f.ieee && e == 2 ^ eb - 1 then if m = 0 then .inf s else .nan
    else if e = 0 then .num (s && (f.ieee || m != 0)) m (1 - bias - mb)
    else .num s (2 ^ mb + m) (e - bias - mb)
  | none =>
    match f with
    | .t2 => .ofInt (if c % 4 = 1 then 1 else if c % 4 = 3 then -1 else 0)
    | .uint32 => .ofInt (c % 2 ^ 32)
    | .uint64 => .ofInt (c % 2 ^ 64)
    | f => .ofInt (sxi c f.width)

/-! ### Exact arithmetic -/

/-- The sign inverted. -/
def FVal.neg : FVal → FVal
  | .nan => .nan
  | .inf s => .inf (!s)
  | .num s m e => .num (!s) m e

/-- The magnitude. -/
def FVal.abs : FVal → FVal
  | .nan => .nan
  | .inf _ => .inf false
  | .num _ m e => .num false m e

/-- Neither infinite nor NaN. -/
def FVal.finite : FVal → Bool
  | .num _ _ _ => true
  | _ => false

/-- A sign and a magnitude as an integer. -/
def signed (s : Bool) (m : Nat) : Int := if s then -(m : Int) else m

/-- The exact sum; an exact zero is +0 unless both operands are −0 (R195). -/
def FVal.add : FVal → FVal → FVal
  | .nan, _ => .nan
  | _, .nan => .nan
  | .inf a, .inf b => if a = b then .inf a else .nan
  | .inf a, .num _ _ _ => .inf a
  | .num _ _ _, .inf b => .inf b
  | .num s m e, .num t n f =>
    let g := min e f
    let r := signed s (m <<< (e - g).toNat) + signed t (n <<< (f - g).toNat)
    if r = 0 then .num (s && t) 0 g else .num (r < 0) r.natAbs g

/-- The exact product. -/
def FVal.mul : FVal → FVal → FVal
  | .nan, _ => .nan
  | _, .nan => .nan
  | .inf a, .inf b => .inf (a != b)
  | .inf a, .num t n _ => if n = 0 then .nan else .inf (a != t)
  | .num s m _, .inf b => if m = 0 then .nan else .inf (s != b)
  | .num s m e, .num t n f => .num (s != t) (m * n) (e + f)

/-- The value times 2^k. -/
def FVal.scale (v : FVal) (k : Int) : FVal :=
  match v with
  | .num s m e => .num s m (e + k)
  | w => w

/-- Order of two values that are not NaN; +0 equals −0 (R197). -/
def FVal.lt (a b : FVal) : Bool :=
  match a, b with
  | .nan, _ => false
  | _, .nan => false
  | .inf s, .inf t => s && !t
  | .inf s, .num _ _ _ => s
  | .num _ _ _, .inf t => !t
  | .num s m e, .num t n f =>
    let g := min e f
    signed s (m <<< (e - g).toNat) < signed t (n <<< (f - g).toNat)

/-- Equality of values; a NaN equals nothing (R197). -/
def FVal.eqv (a b : FVal) : Bool := a != .nan && b != .nan && !a.lt b && !b.lt a

/-! ### Rounding (R70) -/

/-- floor(log2(n / d)) for n and d above 0. -/
def flog2 (n d : Nat) : Int :=
  let e : Int := (Nat.log2 n : Int) - Nat.log2 d
  if (if e < 0 then n <<< (-e).toNat ≥ d else n ≥ d <<< e.toNat) then e else e - 1

/-- One of two neighbours under the mode: `lo` plus `rem / step` lies between lo and lo + 1. -/
def pick (rm : RMode) (rnd lo rem step : Nat) : Nat :=
  if rem = 0 then lo
  else match rm with
    | .rtz => lo
    | .rne => if 2 * rem < step then lo else if 2 * rem > step then lo + 1 else lo + lo % 2
    | .sr => if rem * 65536 / step + rnd ≥ 65536 then lo + 1 else lo

/-- (n / d) / 2^q as a quotient, a remainder and the step between neighbours. -/
def quanta (n d : Nat) (q : Int) : Nat × Nat × Nat :=
  let n' := if q < 0 then n <<< (-q).toNat else n
  let d' := if q < 0 then d else d <<< q.toNat
  (n' / d', n' % d', d')

/-- The code of ±n/d, not zero, rounded to a floating format, with its range rule (R70). -/
def roundFloat (f : Fmt) (eb mb : Nat) (bias : Int) (rm : RMode) (rnd : Nat) (neg : Bool) (n d : Nat) : Nat :=
  let e := max (flog2 n d) (1 - bias)
  let q := e - mb
  let (lo, rem, step) := quanta n d q
  let r := pick rm rnd lo rem step
  let (m, q) := if r ≥ 2 ^ (mb + 1) then (2 ^ mb, q + 1) else (r, q)
  let ef : Int := if m < 2 ^ mb then 0 else q + mb + bias
  let top : Nat := if f.ieee then 2 ^ eb - 2 else 2 ^ eb - 1
  let s := b2n neg <<< (eb + mb)
  if ef > top then
    if f.ieee && rm != .rtz then s + (2 ^ eb - 1) <<< mb else s + top <<< mb + (2 ^ mb - 1)
  else if m = 0 then if f.ieee then s else 0
  else s + ef.toNat <<< mb + m % 2 ^ mb

/-- An integer saturated to a format, as its code (R70). -/
def satInt (f : Fmt) (i : Int) : Nat := trunc f.width (max f.intRange.1 (min f.intRange.2 i))

/-- The code of ±n/d rounded to a format. -/
def roundFrac (f : Fmt) (rm : RMode) (rnd : Nat) (neg : Bool) (n d : Nat) : Nat :=
  match f.layout with
  | some (eb, mb, bias) =>
    if n = 0 then if f.ieee then b2n neg <<< (eb + mb) else 0 else roundFloat f eb mb bias rm rnd neg n d
  | none => satInt f (signed neg (pick rm rnd (n / d) (n % d) d))

/-- The code of an infinity in a format: the largest code of its sign where there is none (R426), the end of the range for
an integer format (R196, R257). -/
def infCode (f : Fmt) (neg : Bool) : Nat :=
  match f.layout with
  | some (eb, mb, _) =>
    let s := b2n neg <<< (eb + mb)
    if f.ieee then s + (2 ^ eb - 1) <<< mb else s + (2 ^ (eb + mb) - 1)
  | none => if neg then satInt f f.intRange.1 else satInt f f.intRange.2

/-- Round(v, f, mode) with the random number a draw gave (R70, R71, R426). -/
def FVal.round (f : Fmt) (rm : RMode) (rnd : Nat) (v : FVal) : Nat :=
  match v with
  | .nan => f.nan
  | .inf s => infCode f s
  | .num s m e => if e < 0 then roundFrac f rm rnd s m (2 ^ (-e).toNat) else roundFrac f rm rnd s (m <<< e.toNat) 1

/-- RoundRNE(v, f) of R8. -/
def rne (f : Fmt) (v : FVal) : Nat := v.round f .rne 0

/-- An FP32 sum rounded to nearest. -/
def fadd32 (a b : Nat) : Nat := rne .fp32 ((Fmt.fp32.value a).add (Fmt.fp32.value b))

/-- A conversion that keeps a NaN's payload: the target holds every value of the source (R62, R196). -/
def widening (src dst : Fmt) : Bool := (src == .fp16 || src == .bf16) && dst == .fp32

/-- A NaN moved to FP32 with its payload (R62). -/
def widenNan (src : Fmt) (c : Nat) : Nat :=
  let mb := if src == .fp16 then 10 else 7
  let w := src.width
  b2n (tb c (w - 1)) <<< 31 + 0x7F800000 + (fld c 0 mb) <<< (23 - mb)

/-- Conversion of a code between formats, rounded once (R62, R70, R196, R257). -/
def convert (src dst : Fmt) (rm : RMode) (rnd c : Nat) : Nat :=
  if src = dst && !dst.narrow then c % 2 ^ src.width
  else
    let v := src.value c
    if v == .nan && widening src dst then widenNan src c else v.round dst rm rnd

/-! ### Roots, reciprocals, powers and logarithms (R256)

A result that is no fraction is held as a fraction with one more bit, set when the value lies strictly above it: the
rounding of R70 then gives the same code as for the exact value. -/

/-- The integer square root, from its bit `i` downward. -/
def isqrtGo (n : Nat) : Nat → Nat → Nat
  | 0, r => r
  | i + 1, r => isqrtGo n i (if (r + 2 ^ i) * (r + 2 ^ i) ≤ n then r + 2 ^ i else r)

/-- floor(√n). -/
def isqrt (n : Nat) : Nat := isqrtGo n (Nat.log2 n / 2 + 1) 0

/-- √(n/d) as a fraction with a sticky bit; 320 fraction bits. -/
def sqrtFrac (n d : Nat) : Nat × Nat :=
  let x := n <<< 640
  let r := isqrt (x / d)
  (2 * r + b2n (r * r * d != x), 2 ^ 321)

/-- Round a fraction with the sign of the operation's result. -/
def roundPair (rm : RMode) (p : Nat × Nat) : Nat := roundFrac .fp32 rm 0 false p.1 p.2

/-- Numerator and denominator of m × 2^e. -/
def fracOf (m : Nat) (e : Int) : Nat × Nat := if e < 0 then (m, 2 ^ (-e).toNat) else (m <<< e.toNat, 1)

/-- 1/A (R256). -/
def frcp (rm : RMode) (a : Nat) : Nat :=
  match Fmt.fp32.value a with
  | .nan => Fmt.fp32.nan
  | .inf s => b2n s <<< 31
  | .num s m e =>
    if m = 0 then infCode .fp32 s
    else let (n, d) := fracOf m e; roundFrac .fp32 rm 0 s d n

/-- √A (R256). -/
def fsqrt (rm : RMode) (a : Nat) : Nat :=
  match Fmt.fp32.value a with
  | .nan => Fmt.fp32.nan
  | .inf s => if s then Fmt.fp32.nan else infCode .fp32 false
  | .num s m e =>
    if m = 0 then b2n s <<< 31
    else if s then Fmt.fp32.nan
    else let (n, d) := fracOf m e; roundPair rm (sqrtFrac n d)

/-- 1/√A (R256). -/
def frsq (rm : RMode) (a : Nat) : Nat :=
  match Fmt.fp32.value a with
  | .nan => Fmt.fp32.nan
  | .inf s => if s then Fmt.fp32.nan else 0
  | .num s m e =>
    if m = 0 then infCode .fp32 s
    else if s then Fmt.fp32.nan
    else let (n, d) := fracOf m e; roundPair rm (sqrtFrac d n)

/-- 2^(b₁/2 + b₂/4 + …) with 256 fraction bits, from the fraction's bits, where `s` is 2^(1/2^i). -/
def exp2Go : Nat → Nat → Nat → Nat → Nat
  | 0, _, _, acc => acc
  | k + 1, f, s, acc =>
    let s' := isqrt (s <<< 256)
    exp2Go k f s' (if tb f k then (acc * s') >>> 256 else acc)

/-- 2^A (R256): exact for integers, else never a representable value nor a midpoint (PRESUMED, notes/assumptions/6.md). -/
def fexp2 (rm : RMode) (a : Nat) : Nat :=
  match Fmt.fp32.value a with
  | .nan => Fmt.fp32.nan
  | .inf s => if s then 0 else infCode .fp32 false
  | .num s m e =>
    let (n, d) := fracOf m e
    let i := signed s n / (d : Int)
    let fr := (signed s n % (d : Int)).toNat
    if i ≥ 128 then roundFrac .fp32 rm 0 false (2 ^ 129) 1
    else if i < -151 then roundFrac .fp32 rm 0 false 1 (2 ^ 152)
    else
      let x := if fr = 0 then 2 ^ 257 else 2 * exp2Go (Nat.log2 d) fr (2 <<< 256) (2 ^ 256) + 1
      let (p, q) := fracOf x (i - 257)
      roundFrac .fp32 rm 0 false p q

/-- Bits of log2 y for y in [1, 2) with 384 fraction bits, by repeated squaring. -/
def log2Go : Nat → Nat → Nat → Nat
  | 0, _, acc => acc
  | k + 1, y, acc =>
    let z := (y * y) >>> 384
    if z ≥ 2 ^ 385 then log2Go k (z / 2) (2 * acc + 1) else log2Go k z (2 * acc)

/-- log2 A (R256): exact for powers of two, else never a representable value nor a midpoint. -/
def flog2Code (rm : RMode) (a : Nat) : Nat :=
  match Fmt.fp32.value a with
  | .nan => Fmt.fp32.nan
  | .inf s => if s then Fmt.fp32.nan else infCode .fp32 false
  | .num s m e =>
    if m = 0 then infCode .fp32 true
    else if s then Fmt.fp32.nan
    else
      let k := Nat.log2 m
      let whole : Int := e + k
      if m = 2 ^ k then (FVal.ofInt whole).round .fp32 rm 0
      else
        let l := log2Go 128 (m <<< (384 - k)) 0
        let r : Int := whole * (2 ^ 129 : Nat) + (2 * l + 1 : Nat)
        roundFrac .fp32 rm 0 (r < 0) r.natAbs (2 ^ 129)

/-! ### Minimum and maximum (R256) -/

/-- −0 below +0; if one operand is NaN, the other; if both are, the canonical NaN. -/
def fminmax (wantMax : Bool) (a b : Nat) : Nat :=
  let x := Fmt.fp32.value a
  let y := Fmt.fp32.value b
  if x == .nan then (if y == .nan then Fmt.fp32.nan else b)
  else if y == .nan then a
  else
    let below := x.lt y || (x.eqv y && tb a 31 && !tb b 31)
    if below == wantMax then b else a

/-! ### Block scales (R65, R66, R75, R427) -/

/-- value × 2^(c − 127) (R65, R66). -/
def FVal.scaled (v : FVal) (c : Nat) : FVal := v.scale (c - 127)

/-- v / 2^(c − 127) (R75). -/
def FVal.unscaled (v : FVal) (c : Nat) : FVal := v.scale (127 - c)

/-- The scale code from the largest magnitude of a block (R75, R427). -/
def scaleCode (f : Fmt) (amax : FVal) : Nat :=
  match amax with
  | .inf _ => 254
  | .nan => 127
  | .num _ m e => if m = 0 then 127 else (max 0 ((Nat.log2 m : Int) + e - f.emax + 127)).toNat

/-- The largest magnitude over the elements that are not NaN, +0 if none (R427). -/
def blockMax (vs : List FVal) : FVal :=
  vs.foldl (fun a v => if v == .nan then a else if a.lt v.abs then v.abs else a) (.num false 0 0)

/-! ### Stochastic rounding (R71) -/

/-- One draw: the number, which is also the new state. -/
def draw (s : Nat) : Nat :=
  let s := if s = 0 then 0xACE1 else s
  if s % 2 = 1 then Nat.xor (s / 2) 0xB400 else s / 2

end Sys2Proof.Machine
end

