-- ==== Sys2Proof/Machine/State.lean ====
section
/-! DEFINITION. The state of the package as plain data: tiles, groups, regions, memory, channels, the front end, and the
stops. Registers with one word for each number are sparse maps; a number that is not listed reads as its reset value. -/

namespace Sys2Proof.Machine

/-! ### A tile: engines and queues -/

/-- What an instruction does beside its destination when it retires. -/
inductive Post where
  /-- Nothing more. -/
  | none
  /-- Transfer control to a bundle (R155). -/
  | jump (target : Nat)
  /-- A branch not taken: younger instructions waited for it (R401). -/
  | pass
  /-- Discard and refetch (R205). -/
  | icsync
  /-- End the tile (R209). -/
  | endTile
  deriving DecidableEq, Repr

/-- What is written when an instruction retires: its destination, predicates, outcomes to publish, and the rest. -/
structure Result where
  dst : Option Reg
  val : Word
  /-- The predicates that it writes, as a mask, and their values. -/
  preds : Option (BitVec 8 × BitVec 8)
  /-- Queues to publish to (bit 0 A, 1 M, 2 Y) and the outcome (R201). -/
  pub : BitVec 3
  out : Bool
  post : Post
  deriving DecidableEq, Repr

/-- What an issued instruction that has not retired waits for. -/
inductive Wait where
  /-- A result that waits for room in a token FIFO (R44); `keep` if a trap lets the instruction retire (R182, R288). -/
  | push (r : Result) (keep : Bool)
  /-- A synchronising load at its bank: location key, bytes, arrival, zero extension (R82, R193). -/
  | syncLoad (key n seq : Nat) (zx : Bool) (d : Reg)
  /-- A read of another agent's memory: request number, bytes, zero extension, acquire (R344, R347). -/
  | remote (req n : Nat) (zx acq : Bool) (d : Reg)
  /-- TSEND to a tile that has not started: region, coordinate, offset, count; its router holds the token (R35, R294). -/
  | token (rid col row off inc : Nat)
  /-- TRECV: word, count, and the tile that is named as the sender (R295). -/
  | trecv (off c : Nat) (snd : Option Nat) (d : Reg)
  /-- CWAIT: space, address, target (R297). -/
  | cwait (sp : CntSp) (addr : Nat) (target : Word) (d : Reg)
  /-- WAIT on a barrier (R293). -/
  | barrier (b : Nat)
  /-- ARRIVE held at the controller: barrier, mask, phase (R293). -/
  | arrive (b mask h : Nat)
  /-- NEXT and SHUNT at the walker block (R298). -/
  | next
  | shunt
  /-- SWAIT on a mask of slots (R231). -/
  | swait (mask : Nat)
  /-- CLSTAT.wait on a tag (R308). -/
  | clstat (tag : Nat) (d : Reg)
  /-- MWAIT on an id, or on everything (R269). -/
  | mwait (id : Option Nat)
  /-- A matrix command (R266). -/
  | matrix (id : Nat)
  /-- LDRP (false) or LDOP (true) from a space and an address, in the mode of its issue (R281, R424). -/
  | plane (op : Bool) (sp : PlaneSp) (addr : Nat) (sys check : Bool)
  /-- PWR on a route slot, until the tile's cycle count reaches a number (R283). -/
  | pwr (slot till : Nat)
  /-- RFE, until every issued instruction has retired (R207). -/
  | rfe
  deriving DecidableEq, Repr

/-- How far a queue entry is: what it took at issue is kept until it retires, so that a trap can undo it (R182). -/
inductive Stat where
  | unissued
  | flight (w : Wait) (signal popped : Option Eng) (xs : List (Nat × Word))
  | retired
  deriving DecidableEq, Repr

/-- What a queue entry holds (R154, R385, R420). -/
inductive Kind where
  | instr (w : Lane) (x : Option Lane)
  | bad
  | xlate (sub info : Nat)
  deriving DecidableEq, Repr

/-- One entry of an instruction queue. -/
structure QEntry where
  bundle : Nat
  lane : Nat
  kind : Kind
  stat : Stat
  deriving DecidableEq, Repr

/-- An engine: private registers (R160), fetch address and the lane it resumes from (R153, R155), queue (R154), the retire
mask that restart still applies (R402), and when fetch last served it. -/
structure EngSt where
  regs : NMap Word
  fetch : Nat
  lane : Nat
  queue : List QEntry
  skip : Nat
  served : Nat
  deriving DecidableEq, Repr

/-- An exchange register (R45). -/
structure XReg where
  val : Word
  full : Bool
  res : Bool
  deriving DecidableEq, Repr

/-- A ring: binding (R85) and counters (R83). -/
structure Ring where
  bound : Bool
  spG : Bool
  isRec : Bool
  logn : Nat
  slot : Nat
  base : Nat
  side : Nat
  sbase : Nat
  claimed : Nat
  filled : Nat
  taken : Nat
  released : Nat
  deriving DecidableEq, Repr

/-- A stream slot: the fields of R236, then what the model keeps of the work in progress: who started it, its mode, its
place in acceptance order, the ring slot in work (elements done, poison), whether it is stopped, and the record read at
acceptance. -/
structure Slot where
  opc : Nat
  act : Bool
  held : Bool
  cc : Bool
  sc : Scope
  sp : Nat
  addpend : Bool
  closed : Bool
  cv : Bool
  csp : CntSp
  nrec : Nat
  rbv : Word
  rav : Word
  pos : Nat
  extv : Lane
  caddr : Word
  cinc : Word
  sys : Bool
  check : Bool
  seq : Nat
  opened : Bool
  done : Nat
  pois : Nat
  stopped : Bool
  joined : Bool
  inFlight : Bool
  nest : List Byte
  deriving DecidableEq, Repr

/-! ### A tile: array and matrix engine -/

/-- A vector of the array (R240): lanes, valid mask, poison mask, version stamp. -/
structure Vec where
  lanes : List Nat
  vld : Nat
  pois : Nat
  rver : Nat
  ovr : Nat
  deriving DecidableEq, Repr

/-- A port descriptor of a route plane, as its 32 bits (R245). -/
abbrev PortDesc := Nat

/-- A resident route plane: source, version, 16 input and 16 output descriptors, route entries that are not zero by
16 × PE + entry (R245, R250). -/
structure RoutePlane where
  sp : Nat
  addr : Nat
  ver : Nat
  inp : List PortDesc
  out : List PortDesc
  rte : NMap Nat
  deriving DecidableEq, Repr

/-- An operator word that is not empty, with its PE (R249). -/
structure OpWord where
  pe : Nat
  word : Nat
  deriving DecidableEq, Repr

/-- A resident opcode plane: source, version, route slot and version it needs, fan-in, eight group descriptors of 256 bits,
operator words (R247, R248). -/
structure OpPlane where
  sp : Nat
  addr : Nat
  ver : Nat
  rslot : Nat
  rver : Nat
  eotn : Nat
  groups : List Nat
  ops : List OpWord
  deriving DecidableEq, Repr

/-- An input port at work (R242): vectors prefetched, how many the current slot has given, and whether it is a marker. -/
structure InPort where
  buf : List Vec
  fetched : Nat
  latched : Nat
  deriving DecidableEq, Repr

/-- An output port at work (R243): a slot is claimed, words written, OUTS used, poison of its blocks, and the descriptor that it was last
written under, which stands in for its plane's once another plane is current (R251). -/
structure OutPort where
  opened : Bool
  words : Nat
  outs : Bool
  pois : Nat
  desc : PortDesc
  deriving DecidableEq, Repr

/-- A firing in flight (R252): its group, opcode slot and stamp, start cycle, latches, the ring slot of each latched port,
vectors it has written to each port, the room it still reserves in link buffers, and whether it has been counted for a value that is
not finite (R427). -/
structure Firing where
  grp : Nat
  oslot : Nat
  rslot : Nat
  rver : Nat
  ovr : Nat
  start : Nat
  latch : NMap (List Vec)
  slotOf : NMap Nat
  lbs : NMap Vec
  wrote : NMap Nat
  lbw : Nat
  odd : Bool
  deriving DecidableEq, Repr

/-- A write to a PE register: the cycle at whose end it lands, the cycle its operator issued in, the vector (R241). -/
structure RegWrite where
  fin : Nat
  issued : Nat
  vec : Vec
  gone : Bool
  deriving DecidableEq, Repr

/-- The array of a tile (R239 to R264). -/
structure Arr where
  routes : NMap RoutePlane
  opps : NMap OpPlane
  cur : Nat
  /-- Pending switch: slot and domain cycle (R282). -/
  swap : Option (Nat × Nat)
  /-- Markers counted (R264), and whether the fan-in was reached. -/
  eotc : Nat
  eotFull : Bool
  /-- The same two as the last commit token left them (R264, R408). -/
  eotKept : Nat × Bool
  /-- Residue mismatches in a row: twice the count, and 1 once the operator has issued again; by 1 + 2 × cycle of the group + 2^8 × group +
  2^16 × PE + 2^24 × opcode slot for an operator, and by 2 × K step + 2^32 × id for a K step (R372). -/
  replays : NMap Nat
  /-- A commit token is due (R262). -/
  commit : Bool
  /-- Dropped by an error, until RFE (R394); no firing until the route version fits (R408). -/
  dropped : Bool
  mismatch : Bool
  /-- Cycle from which each group may fire again (R252, R262). -/
  ready : NMap Nat
  firings : List Firing
  regs : NMap (List RegWrite)
  lbs : NMap (List Vec)
  inps : NMap InPort
  outs : NMap OutPort
  /-- Planes whose copy was struck and is fetched again: route slots 0 and 1, opcode slots as 2 to 5 (R408). -/
  lost : List Nat
  deriving DecidableEq, Repr

/-- An issued, unretired matrix command (R266): id, opcode, the rings it pops, the runs of storage that its drain still writes with the
units to poison, the rings it reads, the number of its K steps, 0 but for a multiply (R274), the storage that each row of a drain goes to,
as (row, location, length), and whether it clears the marks of the rows (R375). -/
structure MCmd where
  id : Nat
  opc : Nat
  ringA : Option Nat
  ringB : Option Nat
  writes : List (Nat × List Byte)
  poisons : List (Nat × Nat)
  reads : List Nat
  ksteps : Nat
  rowRuns : List (Nat × Nat × Nat)
  clears : Bool
  deriving DecidableEq, Repr

/-! ### A tile: the rest -/

/-- A trap that has been raised (R381, R399): CODE, SUB, engine, imprecise, slot, INFO. -/
structure Trap where
  code : Nat
  sub : Nat
  eng : Eng
  impr : Bool
  slot : Option Nat
  info : Nat
  deriving DecidableEq, Repr

/-- Interlocking states (R150, R430). -/
inductive IlState where
  | idle | count | probe | grow | victim
  deriving DecidableEq, Repr

/-- An outward wait edge (R146): the tile it leads to here, or a device; the handle of a channel, whether it is a full edge, and the
slot that waits; KIND as R431 numbers it. -/
structure Edge where
  dest : Option Nat
  dev : Nat
  handle : Nat
  kind : Nat
  slot : Option Nat
  deriving DecidableEq, Repr

/-- A tile's Interlocking engine (R145, R148, R150): whether the tile was blocked in the last cycle; filter entries are origin, epoch,
age; `via` is the edge by which the probe left that came back (R431). -/
structure Il where
  blk : Bool
  st : IlState
  count : Nat
  wait : Nat
  epoch : Nat
  armed : Bool
  cand : Nat
  returned : Bool
  via : Option Edge
  filter : List (Nat × Nat × Nat)
  deriving DecidableEq, Repr

/-- A held translation (R95): partition, base of the page or KV block, its size as a power of two, the leaf, the map index
of a KV block with its physical base and exclusive mark, and the size of its page (R67). -/
structure Tlb where
  part : Nat
  base : Nat
  log : Nat
  leaf : Nat
  kv : Option (Nat × Nat × Bool)
  plog : Nat
  deriving DecidableEq, Repr

/-- An entry of a launch image on its way: its beat in the image, kind, relative tile and bytes (R34, R35). -/
structure ImgEntry where
  beat : Nat
  kind : Nat
  col : Nat
  row : Nat
  bytes : List Byte
  deriving DecidableEq, Repr

/-- A 64-byte line of a peer's memory that a unit has asked for (R102, R345): the number of its request, the unit, device, peer HBM
address and KEY, and once it has come the bytes and whether the peer answered with an error. -/
structure Got where
  no : Nat
  unit : Nat
  dev : Nat
  pa : Nat
  key : Nat
  data : Option (List Byte × Bool)
  deriving DecidableEq, Repr

/-- A tile (R18). -/
structure Tile where
  started : Bool
  ended : Bool
  /-- Address and lane of the END (R406). -/
  endAt : Nat
  /-- Region and relative coordinate (R32). -/
  rgn : Option Nat
  col : Nat
  row : Nat
  walker : Option Nat
  /-- Delivered cycles since the tile started (R161). -/
  cyc : Nat
  e : EngSt
  a : EngSt
  m : EngSt
  y : EngSt
  preds : BitVec 8
  xs : NMap XReg
  /-- Token FIFOs by 4 × from + to (R44). -/
  toks : NMap Nat
  /-- Branch outcomes towards engine 1, 2, 3, oldest first (R46). -/
  boq : NMap (List Bool)
  /-- Special registers by number (R162). -/
  sr : NMap Word
  rings : NMap Ring
  slots : NMap Slot
  lastSlot : Nat
  seqNo : Nat
  /-- Channel ports: handle, and whether the tile writes (R130); and, by port, whether the last record that a home on another package has
  accepted through it had LAST (R142). -/
  chans : NMap (Nat × Bool)
  farLast : NMap Bool
  /-- Rings of the array's input ports, and at 16 up of its output ports (R223). -/
  ports : NMap Nat
  arr : Arr
  /-- FP32 codes of the accumulator by 32 i + j (R276), row poison (R375), retired map (R267), commands in flight. -/
  acc : NMap Nat
  accPois : BitVec 32
  retmap : BitVec 256
  cmds : List MCmd
  /-- Phases of the eight barriers (R293). -/
  ph : NMap Nat
  /-- A trap that waits for entry; traps that wait for RFE (R383, R384); a pending pre-emption with its SUB (R405). -/
  enter : Option Trap
  after : List Trap
  preempt : Option Nat
  /-- Stopped for a save or a freeze (R50, R384). -/
  halted : Bool
  il : Il
  utlb : List Tlb
  /-- Image entries taken (R35), whether LAST was among them, and a failure. -/
  config : List ImgEntry
  gotLast : Bool
  failed : Bool
  /-- A stream moved data since the last cycle (R145). -/
  moved : Bool
  /-- Yard address of the context block of the pre-emption trap under way, and what system code has saved since its entry: the
  address given to XSAVE, FSAVE, QSAVE, BSAVE, the group record, STASH's context and image, by number 0 to 6 (R50, R53). -/
  ctx : Option Nat
  saves : NMap Nat
  /-- Tokens of other packages held at the router until the tile starts: mailbox word and count (R35, R294). -/
  heldTok : List (Nat × Nat)
  /-- Reads of peers' memory by the tile's fetch, plane loads and stream slots. -/
  got : List Got
  deriving DecidableEq, Repr

/-! ### Groups -/

/-- A group barrier (R312). -/
structure Bar where
  p : Nat
  opened : Bool
  mask : Nat
  arr : Nat
  early : Nat
  nmask : Nat
  deriving DecidableEq, Repr

/-- A collective entry (R312). -/
structure Cent where
  granted : Bool
  tag : Nat
  rgn : Nat
  expw : Nat
  soff : Nat
  slen : Nat
  counts : NMap Nat
  deriving DecidableEq, Repr

/-- A physical group (R13): barriers, collective entries, TLB. -/
structure Group where
  bars : NMap Bar
  cents : NMap Cent
  tlb : List Tlb
  deriving DecidableEq, Repr

/-! ### Memory -/

/-- All storage of the package and of host memory by location key (notes/assumptions/5.md): bytes in canonical form, TSP words that
are full (R82), poisoned units (R373), and the key identity of HBM units written so far (R102). -/
structure Store where
  mem : List Host.Cell
  full : List Nat
  poison : List Nat
  ktag : NMap Nat
  deriving DecidableEq, Repr

/-! ### Regions -/

/-- A launch record (R29). -/
structure LaunchRec where
  entry : Nat
  image : Nat
  args : Word
  ccaddr : Nat
  ccinc : Word
  bounds : List Nat
  chunks : List Nat
  width : Nat
  height : Nat
  walkers : Nat
  order : List Nat
  prio : Nat
  tsplog : Nat
  gsplog : Nat
  ccspace : Nat
  ccscope : Nat
  idemp : Bool
  persist : Bool
  siding : Nat
  cadence : Nat
  seed : Nat
  imglen : Nat
  raw : List Byte
  deriving DecidableEq, Repr

/-- Life of a region: its image spreads, it runs, it is being stopped for a save, it is saved. -/
inductive RgnState where
  | configuring | running | stopping | saved
  deriving DecidableEq, Repr

/-- Where the Yard shadow area holds a saved tile: whether it had started, its context block and TSP image (R53), the slots of its
stream commands in the order of their acceptance, which the block has no field for (R230), the tokens that its router holds until it
starts (R35), and the planes that system code has loaded from a die-absolute Yard address, which PLANES has no bit for (R87, R286). -/
structure SavedTile where
  started : Bool
  ctx : Nat
  img : Nat
  order : List Nat
  heldTok : List (Nat × Nat)
  dieAbs : List Nat
  deriving DecidableEq, Repr

/-- What a save keeps of one page: the Yard address of its group record, or the barriers and collective entries themselves where no tile of
the page has started and so no system code has written one, and the GSP (R312, R129). -/
structure SavedPage where
  grec : Option Nat
  bars : NMap Bar
  cents : NMap Cent
  mem : List Host.Cell
  poison : List Nat
  deriving DecidableEq, Repr

/-- A region (R32). -/
structure Region where
  part : Nat
  qid : Nat
  tag : Nat
  pkt : Nat
  lrec : LaunchRec
  px : Nat
  py : Nat
  st : RgnState
  /-- Domain cycles (R251); the duty in force, and the one that the next run of 64 takes (R57, R354). -/
  dom : Nat
  duty : Nat
  dutyNext : Nat
  /-- Watchdog count (R412), and whether anything made progress this cycle. -/
  wd : Nat
  progress : Bool
  /-- Siding budget (R150), and what of it the pool still holds back for the region (R334). -/
  budget : Nat
  reserved : Nat
  /-- Spans of walkers (R37). -/
  spans : NMap (Nat × Nat)
  /-- Current chunk and granting walker by linear tile index (R39). -/
  curr : NMap (Nat × Nat)
  /-- Chunks that each walker still grants again (R52). -/
  regrant : NMap (List Nat)
  frozen : Bool
  /-- Requests that wait (R41): domain cycle of arrival, tile index, NEXT (false) or SHUNT (true). -/
  reqs : List (Nat × Nat × Bool)
  /-- Image entries on each row's way east, by row (R35), and whether the image has been read. -/
  img : NMap (List ImgEntry)
  imgFail : Option (Nat × Nat × Nat)
  notResumable : Bool
  lostWalker : Bool
  killed : Bool
  /-- Pre-emption to be completed: its SUB, and whether the queue's freeze waits for it (R50, R409). -/
  why : Nat
  /-- The origin that a move restores it at (R336). -/
  moveTo : Option (Nat × Nat)
  /-- Number of its placement, and the SB cycle of the save (R337, R338). -/
  placedAt : Nat
  savedAt : Nat
  /-- Its end takes one from OUTST: no ENABLE has cleared the count since it was handed on (R322, R326). -/
  owes : Bool
  layout : Nat
  tiles : NMap SavedTile
  pages : NMap SavedPage
  deriving DecidableEq, Repr

/-! ### Channels, arbiter, probes -/

/-- A channel table entry (R128), with the last remote record accepted (R445), the writer's region and the number of its placement, the
poisoned blocks of each record held, oldest first (R373), and a record of another package that waits for room. -/
structure Chan where
  en : Bool
  home : Bool
  scope : Nat
  logcap : Nat
  part : Nat
  spill : Bool
  closed : Bool
  wbound : Bool
  rbound : Bool
  nseg : Nat
  base : Nat
  gpos : Nat
  wptr : Nat
  rptr : Nat
  swptr : Nat
  srptr : Nat
  wagent : Nat
  ragent : Nat
  recs : Nat
  grows : Nat
  segs : NMap Nat
  lastRemote : Option (Nat × Nat)
  wrgn : Option Nat
  wplaced : Nat
  marks : List Nat
  offered : Option UalMsg
  deriving DecidableEq, Repr

/-- A reservation request at the collective arbiter (R305): region, tag, page mask, range, words expected. -/
structure CReq where
  rgn : Nat
  tag : Nat
  mask : Nat
  soff : Nat
  slen : Nat
  doff : Nat
  expw : Nat
  granted : Bool
  deriving DecidableEq, Repr

/-- A collective transfer on its way (R306): region, receiving tile index, operation, staging offset, words, poisoned words, the
sending tile and slot, and the tag. -/
structure CXfer where
  rgn : Nat
  tix : Nat
  op : Nat
  off : Nat
  words : List Nat
  pois : List Bool
  src : Nat
  slot : Nat
  tag : Nat
  deriving DecidableEq, Repr

/-- A probe on its way to a tile (R147); `via` is the edge by which it left its origin, which its 16 bytes do not hold: one that has
crossed another package has lost it. -/
structure Probe where
  origin : Nat
  epoch : Nat
  hops : Nat
  minid : Nat
  cand : Option Nat
  via : Option Edge
  dest : Nat
  deriving DecidableEq, Repr

/-- A growth request or reply on its way: tile, handle; for a reply whether it is done, and WHY if not (R150). -/
structure Grow where
  tile : Nat
  handle : Nat
  reply : Option Nat
  deriving DecidableEq, Repr

/-- A request that waits for another agent's answer (R344, R345). `unit` says what of the tile, or of the Junction die, waits: 0 the
instruction in the queue, n + 1 slot n, 17 a read that a `Got` stands for; for BAR4 the function. KEY is the key slot that a request
to a peer carries (R102). A plain read of a peer asks for the 64-byte line that holds its bytes (R345). A write to a peer waits for its
completion only (R347). `part` is the partition of a request that no tile
makes (R96). -/
structure Remote where
  tile : Nat
  eng : Eng
  host : Bool
  dev : Nat
  pa : Nat
  n : Nat
  isAtomic : Bool
  op : AmoOp
  src : Word
  cmp : Word
  port : Nat
  key : Nat
  isWrite : Bool
  part : Nat
  unit : Nat
  deriving DecidableEq, Repr

/-- A write sent to a peer's memory (R102, R345, R347): device, peer HBM address, KEY, port, and 64, 128 or 256 bytes of which those
that are enabled are given. -/
structure PeerWr where
  dev : Nat
  pa : Nat
  key : Nat
  port : Nat
  bytes : List (Option Byte)
  deriving DecidableEq, Repr

/-! ### The Signal Box -/

/-- A queue thread (R318): its queue; whether it is blocked on an INVALID header, and since which SB cycle; a kick that it has latched;
SIGA (R438); and the header of the ring packet under way, for the swap that ends it (R435). -/
structure Thr where
  q : Option Nat
  blocked : Bool
  woken : Bool
  since : Nat
  siga : Bool
  hdr : Option Nat
  deriving DecidableEq, Repr

/-- A launch handed to the Marshaller (R333): partition, queue, packet number, tag, record, entry time, order, and whether its end takes
one from OUTST (R322, R326). -/
structure Req where
  part : Nat
  qid : Nat
  pkt : Nat
  tag : Nat
  lrec : LaunchRec
  at_ : Nat
  seq : Nat
  owes : Bool
  deriving DecidableEq, Repr

/-- Firmware, keys and attestation (R353, R439 to R442). -/
structure Sec where
  fwState : Nat
  fwResult : Nat
  nblk : Nat
  layx : Nat
  lays : Nat
  staged : Option (List Byte)
  measx : List Byte
  meass : List Byte
  rollback : Nat
  blocked : List Nat
  /-- Identity of each key slot; 0 is an empty slot. -/
  keys : NMap Nat
  keyNo : Nat
  attResult : Nat
  leaf : Nat
  gen : Nat
  cert : List Byte
  deriving DecidableEq, Repr

/-! ### The whole machine -/

/-- Physical faults that strike from outside (R371 to R373, R403, R408, R432, R433). -/
inductive Upset where
  /-- A corrected error of a class, at a place. -/
  | corrected (cls key : Nat)
  /-- A residue mismatch of the array operator of an opcode slot, at a PE with a group and a cycle; the third in a row is persistent. -/
  | replay (tile oslot pe grp cyc : Nat)
  /-- A unit of memory fails correction; the tile whose access met it, if one did. -/
  | unit (key : Nat) (tile : Option Nat)
  /-- A parity error that no replay clears: SUB, engine, register field or ring; for a ring its counter (0 CLAIMED, 1 FILLED, 2 TAKEN),
  3 for a queue. -/
  | parity (tile sub : Nat) (eng : Eng) (num cnt : Nat)
  /-- A residue mismatch of a K step of the oldest matrix command, in a row of the accumulator; the third in a row is persistent. -/
  | residue (tile kstep row : Nat)
  /-- A plane copy: route slots 0 and 1, opcode slots as 2 to 5. -/
  | plane (tile plane : Nat)
  /-- A held translation of a tile, or of a group, at an address (R371, R423). -/
  | tlb (grp : Bool) (n va : Nat)
  /-- A collective entry of a group; a channel table entry. -/
  | centry (gid e : Nat)
  | chan (c : Nat)
  /-- A probe is lost on its way. -/
  | probeLost (n : Nat)
  /-- The reply to a tile's growth request is lost on its way from another package (R445). -/
  | replyLost (tile : Nat)
  /-- The next read of a host line ends in a poisoned completion, or in none within 50 ms (R443). -/
  | hostRead (line : Nat)
  /-- A die stops working (R379). -/
  | die (d : Nat)
  deriving DecidableEq, Repr

/-- What the next steps are (notes/assumptions/1.md): an engine of a tile runs; pulses of the undivided clock pass,
with the cycles they deliver to every region; the next n entries take place in one cycle, in the order that the rules give them, and the
cycle ends; the service of one slot of a tile's stream engine, and a tile's KV block made its own for such a service; a message that is in
flight leaves again by another port; an entry that waited for a peer's answer takes place again as a unit of the Junction die; an event row
takes place; a fault strikes; the driver points TVEC of a tile (R448); the end of a channel here that another
package's agent writes is bound or released (R131). -/
inductive Act where
  | run (tile : Nat) (eng : Eng)
  | pulses (n : Nat)
  | cycle (n : Nat)
  | cycleEnd
  | serve (tile slot : Nat)
  | own (tile va : Nat)
  | resend (no : Nat)
  | event (i : Instr)
  | upset (u : Upset)
  | tvec (tile : Nat) (v : Word)
  | farWriter (c agent : Nat) (bound : Bool)
  | again (unit : Nat) (a : Act)
  deriving DecidableEq, Repr

/-- An offence in CHECK mode as CHKST records it (R425): region, linear tile index, engine, the register's low word, the address. -/
structure Offence where
  rgn : Nat
  tix : Nat
  eng : Nat
  low : Word
  addr : Word
  deriving DecidableEq, Repr

/-- The state of the package. -/
structure State where
  /-- The model's own: what moves next, the engine that runs otherwise, the count of free values. -/
  agenda : List Act
  cur : Nat × Eng
  ticks : Nat
  /-- Entries of one cycle take place, and the offences of that cycle so far (R383, R425). -/
  inCycle : Bool
  offences : List Offence
  /-- The entry that takes place reads a peer's memory whose bytes have not come: for a unit of a tile, or for the Junction die, of which
  it is the unit `jdUnit`; the lines that the die has asked for, and entries that wait for them (R345). -/
  starved : Bool
  jdStarved : Bool
  jdUnit : Nat
  jdGot : List Got
  deferred : List Act
  /-- Tiles by physical number: tile in group, position from bit 4, die from bit 9 (R149). -/
  tiles : NMap Tile
  /-- Groups by position + 32 × die. -/
  groups : NMap Group
  regions : NMap Region
  st : Store
  /-- Management registers that hold a plain value, by offset (R7). -/
  mgmt : NMap Word
  chans : NMap Chan
  /-- Pool segments in use by partition (R137). -/
  pools : NMap (List Nat)
  creqs : List CReq
  cxfers : List CXfer
  probes : List Probe
  grows : List Grow
  remotes : NMap Remote
  reqNo : Nat
  /-- Number of the next placement; Siding budgets of regions that have retired, by number (R150, R337). -/
  placeNo : Nat
  pastBudgets : NMap Nat
  /-- Invalidations outstanding (R97). -/
  tlbinv : List Word
  /-- Signal Box: threads, requests, saved regions in order of saving, SB cycles, queues in cancel mode, last heartbeat. -/
  threads : NMap Thr
  marsh : List Req
  marshNo : Nat
  /-- Numbers of the launches that each queue has handed on from the ring packet of its last one (R437); partitions that are swapped out (R339); regions whose pre-emption an
  activation holds (R440). -/
  handed : NMap (List Nat)
  swapped : List Nat
  heldStops : List Nat
  sbcyc : Nat
  cancel : List Nat
  heartbeat : Nat
  /-- Location of each watched DOORBELL word by queue (R318), and kicks not yet handled (R327). -/
  watch : NMap Nat
  kicks : List Nat
  /-- Commands written to SBQCMD (false) and SBFCMD (true) that are outstanding (R326, R410). -/
  sbcmds : List (Bool × Word)
  /-- Requests written to KVOP, KEYREQ, FWCTL and ATTREQ that are incomplete, in the order written, by register (R101, R353, R439,
  R441). -/
  jobs : List (Nat × Word)
  sec : Sec
  /-- Error counters by class, sequence number of records, undivided pulses (R376 to R378); interrupts raised. -/
  errcnt : NMap Nat
  errseq : Nat
  jcyc : Nat
  irqs : Nat
  /-- Messages sent to other devices, oldest first: port, KIND, message (R349); answers to the host: 0 and the data, or 1 for Unsupported
  Request (R342). -/
  ualOut : List (Nat × Nat × UalMsg)
  hostOut : List (Nat × Nat)
  /-- Writes and adds sent to peers' memory, oldest first (R345, R347). -/
  peerOut : List PeerWr
  /-- Answers to requests of peers, oldest first: device, error, data (R345, R444). -/
  peerAns : List (Nat × Bool × List Byte)
  /-- Number of the next message write by port; messages of which not every write has arrived: device + 1024 × receiving port,
  next line, bytes so far (R349). -/
  useq : NMap Nat
  winIn : List (Nat × Nat × List Byte)
  /-- Host lines of 64 bytes whose next read by the package brings a poisoned completion or none (R443). -/
  hostBad : List Nat
  /-- Slots of the stream commands that a context block holds, in the order of their acceptance, by the block's location (R118, R234). -/
  orders : NMap (List Nat)
  /-- The controller's repair record, columns as 17 × die + position in the order recorded; HBM rows due for repair; errors of a column or an HBM row
  with the JCYC they came at (R380). -/
  repair : List Nat
  rows : List Nat
  poisonLog : List (Nat × Nat)
  /-- HBM stacks that are lost (R379). -/
  lostStacks : List Nat
  deriving DecidableEq, Repr

/-- Reasons for the machine to stop. No rule of the spec names an event that stops the whole machine, so nothing raises
this one; it stands because the interface asks for the type. Safe. -/
inductive Fault where
  /-- Raised by nothing. -/
  | none
  deriving DecidableEq, Repr

/-- Reasons for an instruction to be refused. -/
inductive Refusal where
  /-- Raised by an arm of exec whose instruction has no meaning yet. Safe: the machine stops where the part goes on. -/
  | notModelled (mnemonic : String)
  deriving DecidableEq, Repr

/-! ### Reset -/

/-- An engine with nothing in it (R36). -/
def EngSt.reset : EngSt := { regs := [], fetch := 0, lane := 0, queue := [], skip := 0, served := 0 }

/-- An exchange register, empty (R36). -/
def XReg.reset : XReg := { val := 0, full := false, res := false }

/-- A ring that no binding names (R85). -/
def Ring.reset : Ring :=
  { bound := false, spG := false, isRec := false, logn := 0, slot := 0, base := 0, side := 0, sbase := 0,
    claimed := 0, filled := 0, taken := 0, released := 0 }

/-- An idle slot (R36, R236). -/
def Slot.reset : Slot :=
  { opc := 0, act := false, held := false, cc := false, sc := .tile, sp := 0, addpend := false, closed := false,
    cv := false, csp := .g, nrec := 0, rbv := 0, rav := 0, pos := 0, extv := 0, caddr := 0, cinc := 0,
    sys := false, check := false, seq := 0, opened := false, done := 0, pois := 0, stopped := false, joined := false,
    inFlight := false, nest := [] }

/-- An array with no plane (R250). -/
def Arr.reset : Arr :=
  { routes := [], opps := [], cur := 0, swap := none, eotc := 0, eotFull := false, eotKept := (0, false), replays := [],
    commit := false, dropped := false, mismatch := false, ready := [], firings := [], regs := [], lbs := [], inps := [], outs := [], lost := [] }

/-- An Interlocking engine (R150). -/
def Il.reset : Il :=
  { blk := false, st := .idle, count := 0, wait := 0, epoch := 0, armed := false, cand := 0, returned := false, via := none,
    filter := [] }

/-- A tile at reset: not started, with the reset values of R36 and R163; TOKSEL.E names the A engine. -/
def Tile.reset : Tile :=
  { started := false, ended := false, endAt := 0, rgn := none, col := 0, row := 0, walker := none, cyc := 0,
    e := EngSt.reset, a := EngSt.reset, m := EngSt.reset, y := EngSt.reset, preds := 1, xs := [], toks := [], boq := [],
    sr := [(0, 5)], rings := [], slots := [], lastSlot := 15, seqNo := 0, chans := [], farLast := [], ports := [], arr := Arr.reset,
    acc := [], accPois := 0, retmap := BitVec.allOnes 256, cmds := [], ph := [], enter := none, after := [],
    preempt := none, halted := false, il := Il.reset, utlb := [], config := [], gotLast := false, failed := false,
    moved := false, ctx := none, saves := [], heldTok := [], got := [] }

/-- A group at reset (R312). -/
def Group.reset : Group := { bars := [], cents := [], tlb := [] }

/-- A barrier at reset. -/
def Bar.reset : Bar := { p := 0, opened := false, mask := 0, arr := 0, early := 0, nmask := 0 }

/-- A channel table entry at reset (R128). -/
def Chan.reset : Chan :=
  { en := false, home := false, scope := 0, logcap := 0, part := 0, spill := false, closed := false, wbound := false,
    rbound := false, nseg := 0, base := 0, gpos := 0, wptr := 0, rptr := 0, swptr := 0, srptr := 0, wagent := 0,
    ragent := 0, recs := 0, grows := 0, segs := [], lastRemote := none, wrgn := none, wplaced := 0, marks := [], offered := none }

/-- A free queue thread. -/
def Thr.reset : Thr := { q := none, blocked := false, woken := false, since := 0, siga := false, hdr := none }

/-- Security state at reset; slot 0 holds a key made at reset (R103). -/
def Sec.reset : Sec :=
  { fwState := 0, fwResult := 0, nblk := 0, layx := 1, lays := 0, staged := none, measx := [], meass := [],
    rollback := 0, blocked := [], keys := [(0, 1)], keyNo := 2, attResult := 0,
    leaf := 0, gen := 0, cert := [] }

/-- Storage with nothing listed. -/
def Store.reset : Store := { mem := [], full := [], poison := [], ktag := [] }

/-- Reset value of a management register by offset: COLMAP (R17), PWRCTL (R354) and COLTHERM (R20); every other one is 0.
COLMAP.RETIRED 31, CEIL 1023, SPARE 1 at position 16 and INUSE 1 at positions 0 to 15 are chosen: the spec gives a dash
(notes/assumptions/4.md). -/
def mgmtReset (off : Nat) : Word :=
  if 0x300 ≤ off && off < 0x310 then 31
  else if off = 0x400 then BitVec.ofNat 64 (2000 + 64 * 2 ^ 24 + 105 * 2 ^ 32)
  else if 0x1000 ≤ off && off < 0x1220 then
    let pos := (off - 0x1000) / 8 % 17
    BitVec.ofNat 64 (1023 * 2 ^ 32 + (if pos = 16 then 2 ^ 49 else 2 ^ 50))
  else 0

/-- The machine right after reset. -/
def State.reset : State :=
  { agenda := [], cur := (0, .e), ticks := 0, inCycle := false, offences := [], starved := false, jdStarved := false, jdUnit := 0,
    jdGot := [], deferred := [], tiles := [], groups := [], regions := [], st := Store.reset, mgmt := [],
    chans := [], pools := [], creqs := [], cxfers := [], probes := [], grows := [], remotes := [], reqNo := 0, placeNo := 0, pastBudgets := [],
    tlbinv := [], threads := [], marsh := [], marshNo := 0, handed := [], swapped := [], heldStops := [],
    sbcyc := 0, cancel := [], heartbeat := 0, watch := [], kicks := [], sbcmds := [], jobs := [],
    sec := Sec.reset, errcnt := [], errseq := 0, jcyc := 0, irqs := 0, ualOut := [], hostOut := [], peerOut := [], peerAns := [], useq := [],
    winIn := [], hostBad := [], orders := [], repair := [],
    rows := [], poisonLog := [], lostStacks := [] }

end Sys2Proof.Machine
end

