-- ==== Sys2Proof/Machine/Ops.lean ====
section
/-! DEFINITION. The named operations over the state: places of the package, storage, error records, registers, tokens, queue
entries, and taking and leaving an exception (R44, R45, R82, R182, R206, R207, R373 to R378, R399 to R402). -/

namespace Sys2Proof.Machine

/-! ### Places (R13 to R16, R149) -/

/-- Die, group and place in the group of a tile, by its physical number. -/
def dieOf (tid : Nat) : Nat := tid / 512
def groupOf (tid : Nat) : Nat := tid / 16
def peerOf (tid : Nat) : Nat := tid % 16

/-- A management register. -/
def mreg (s : State) (off : Nat) : Word := NMap.findD s.mgmt off (mgmtReset off)

/-- Set a management register. -/
def setMreg (s : State) (off : Nat) (v : Word) : State := { s with mgmt := NMap.put s.mgmt off v }

/-- Position that holds a logical page (R15). -/
def posOf (s : State) (die l : Nat) : Nat := if wfld (mreg s (0x300 + 4 * die)) 0 5 = l then 16 else l

/-- Compute die of a package page (R16). -/
def pageDie (px py : Nat) : Nat := 2 * (py / 4) + px / 4

/-- Physical group of a package page: position + 32 × die. -/
def pageGroup (s : State) (px py : Nat) : Nat :=
  posOf s (pageDie px py) (4 * (py % 4) + px % 4) + 32 * pageDie px py

/-- Physical tile of a relative coordinate in a region with origin (px, py). -/
def tileAt (s : State) (px py col row : Nat) : Nat :=
  pageGroup s (px + col / 4) (py + row / 4) * 16 + 4 * (row % 4) + col % 4

/-- Number of this package in the pod (R346). -/
def devNo (s : State) : Nat := wfld (mreg s 0x600) 0 10

/-- Agent identity of a tile (R149). -/
def agentOf (s : State) (tid : Nat) : Nat := tid + devNo s * 2048

/-! ### Tiles, groups, regions -/

def State.tile (s : State) (t : Nat) : Tile := NMap.findD s.tiles t Tile.reset
def State.setTile (s : State) (t : Nat) (v : Tile) : State := { s with tiles := NMap.put s.tiles t v }
def State.updTile (s : State) (t : Nat) (f : Tile → Tile) : State := s.setTile t (f (s.tile t))
def State.group (s : State) (g : Nat) : Group := NMap.findD s.groups g Group.reset
def State.setGroup (s : State) (g : Nat) (v : Group) : State := { s with groups := NMap.put s.groups g v }
def State.region? (s : State) (r : Nat) : Option Region := NMap.find? s.regions r
def State.setRegion (s : State) (r : Nat) (v : Region) : State := { s with regions := NMap.put s.regions r v }

/-- Change a region if it exists. -/
def State.updRegion (s : State) (r : Nat) (f : Region → Region) : State :=
  match s.region? r with
  | some v => s.setRegion r (f v)
  | none => s

/-- The region of a tile. -/
def tileRegion? (s : State) (tid : Nat) : Option Region := (s.tile tid).rgn.bind s.region?

/-- Something of the tile's region made progress (R412). -/
def progress (s : State) (tid : Nat) : State :=
  match (s.tile tid).rgn with
  | some r => s.updRegion r (fun v => { v with progress := true })
  | none => s

/-- Engine of a tile. -/
def Tile.eng (t : Tile) : Eng → EngSt
  | .e => t.e | .a => t.a | .m => t.m | .y => t.y

/-- Tile with an engine replaced. -/
def Tile.setEng (t : Tile) (g : Eng) (v : EngSt) : Tile :=
  match g with
  | .e => { t with e := v } | .a => { t with a := v } | .m => { t with m := v } | .y => { t with y := v }

/-- Change one engine of a tile. -/
def Tile.updEng (t : Tile) (g : Eng) (f : EngSt → EngSt) : Tile := t.setEng g (f (t.eng g))

/-- Partition of a tile: that of its region. -/
def partOf (s : State) (tid : Nat) : Nat := ((tileRegion? s tid).map Region.part).getD 0

/-- Allocations of a tile and its page (R80); the largest where no region holds the tile (notes/assumptions/7.md). -/
def tspLog (s : State) (tid : Nat) : Nat := ((tileRegion? s tid).map (fun r => r.lrec.tsplog)).getD 18
def gspLog (s : State) (tid : Nat) : Nat := ((tileRegion? s tid).map (fun r => r.lrec.gsplog)).getD 22

/-- Width of a region in tiles. -/
def Region.cols (r : Region) : Nat := 4 * r.lrec.width

/-- Number of tiles of a region. -/
def Region.ntiles (r : Region) : Nat := 16 * r.lrec.width * r.lrec.height

/-- Physical tile of a linear tile index (R41). -/
def tileOfTix (s : State) (r : Region) (tix : Nat) : Nat :=
  tileAt s r.px r.py (tix % r.cols) (tix / r.cols)

/-- All physical tiles of a region, in ascending tile index. -/
def regionTiles (s : State) (r : Region) : List Nat := (range 0 r.ntiles).map (tileOfTix s r)

/-- Linear tile index of a tile (R161). -/
def tixOf (s : State) (tid : Nat) : Nat :=
  match tileRegion? s tid with
  | some r => (s.tile tid).row * r.cols + (s.tile tid).col
  | none => 0

/-! ### Location keys (notes/assumptions/5.md) -/

def yardKey (die off : Nat) : Nat := 2 ^ 40 + die * 2 ^ 30 + off
def gspKey (gid off : Nat) : Nat := 2 ^ 41 + gid * 2 ^ 22 + off
def tspKey (tid off : Nat) : Nat := 2 ^ 42 + tid * 2 ^ 18 + off
def hostKey (pa : Nat) : Nat := 2 ^ 52 + pa
def isTsp (k : Nat) : Bool := 2 ^ 42 ≤ k && k < 2 ^ 52
def isHbm (k : Nat) : Bool := k < 2 ^ 40
def isHost (k : Nat) : Bool := 2 ^ 52 ≤ k

/-- The protection unit that holds a location: its first byte and its size (R373). -/
def unitLen (k : Nat) : Nat := if isHbm k then 64 else 8
def unitOf (k : Nat) : Nat := k - k % unitLen k

/-! ### Bytes of storage -/

/-- What the cell list says of an address; 0 if unlisted. -/
def memGet (m : List Host.Cell) (a : Nat) : Byte := NMap.findD m a 0

/-- Write one byte, keeping the canonical form: 0 is not listed. -/
def memSet (m : List Host.Cell) (a : Nat) (b : Byte) : List Host.Cell :=
  if b = 0 then NMap.erase m a else NMap.put m a b

/-- Addresses strictly rising and no listed zero. -/
abbrev Memory.wf (m : List Host.Cell) : Prop := List.Pairwise (fun x y => x.1 < y.1) m ∧ ∀ c ∈ m, c.2 ≠ 0

/-- Add to a rising list of numbers. -/
def setIns (l : List Nat) (a : Nat) : List Nat :=
  match l with
  | [] => [a]
  | b :: r => if a < b then a :: b :: r else if a = b then b :: r else b :: setIns r a

/-- Remove from a list of numbers. -/
def setDel (l : List Nat) (a : Nat) : List Nat := l.filter (· != a)

/-- Write bytes from an address upward. -/
def memSetAll (m : List Host.Cell) (a : Nat) : List Byte → List Host.Cell
  | [] => m
  | b :: bs => memSetAll (memSet m a b) (a + 1) bs

/-- One byte; a poisoned unit reads as zero (R373). -/
def Store.byte (st : Store) (k : Nat) : Byte := if st.poison.contains (unitOf k) then 0 else memGet st.mem k

/-- Bytes of a run. -/
def Store.bytes (st : Store) (k n : Nat) : List Byte := (range k n).map st.byte

/-- A number of n bytes. -/
def Store.num (st : Store) (k n : Nat) : Nat := leNat (st.bytes k n)

/-- Units that a run touches. -/
def unitsOf (k n : Nat) : List Nat :=
  let u := unitLen k
  if n = 0 then [] else (range (k / u) ((k + n - 1) / u - k / u + 1)).map (· * u)

/-- Any poisoned unit in a run. -/
def Store.poisoned (st : Store) (k n : Nat) : Bool := (unitsOf k n).any st.poison.contains

/-- Words of a TSP run (R82). -/
def wordsOf (k n : Nat) : List Nat := if n = 0 then [] else (range (k / 4) ((k + n - 1) / 4 - k / 4 + 1)).map (· * 4)

/-- Mark the TSP words of a run full (R82). -/
def Store.setFull (st : Store) (k n : Nat) : Store :=
  if isTsp k then { st with full := (wordsOf k n).foldl setIns st.full } else st

/-- Mark the TSP words of a run empty (R82). -/
def Store.setEmpty (st : Store) (k n : Nat) : Store :=
  { st with full := (wordsOf k n).foldl setDel st.full }

/-- Units that one request covers wholly (R373). -/
def covered (k n : Nat) : List Nat := (unitsOf k n).filter (fun u => k ≤ u && u + unitLen k ≤ k + n)

/-- One request that writes a run: bytes, full bits, and poison cleared where it covers a unit (R82, R373). -/
def Store.write (st : Store) (k : Nat) (bs : List Byte) : Store :=
  let st' : Store := { st with mem := memSetAll st.mem k bs, poison := (covered k bs.length).foldl setDel st.poison }
  st'.setFull k bs.length

/-- Poison the units of a run (R373). -/
def Store.poisonRun (st : Store) (k n : Nat) : Store := { st with poison := (unitsOf k n).foldl setIns st.poison }

/-- Poisoned units that a run writes only in part (R373). -/
def Store.partialHits (st : Store) (k n : Nat) : Nat :=
  ((unitsOf k n).filter (fun u => st.poison.contains u && !(covered k n).contains u)).length

/-- Clear a run: contents zero, empty, not poisoned (R36, R82). -/
def Store.clear (st : Store) (k n : Nat) : Store :=
  { st with
    mem := st.mem.filter (fun c => !(k ≤ c.1 && c.1 < k + n))
    full := st.full.filter (fun w => !(k ≤ w && w < k + n))
    poison := st.poison.filter (fun u => !(k ≤ u && u < k + n)) }

/-! ### Counters and error records (R376 to R378) -/

/-- Count an event of a class; the count holds at all ones. -/
def count (s : State) (cls : Nat) : State :=
  { s with errcnt := NMap.put s.errcnt cls (min (NMap.findD s.errcnt cls 0 + 1) (2 ^ 48 - 1)) }

/-- Count several events of a class. -/
def countN (s : State) (cls : Nat) : Nat → State
  | 0 => s
  | n + 1 => countN (count s cls) cls n

/-- The identity of the key in a slot (R102, R103). -/
def keyIdent (s : State) (slot : Nat) : Nat := NMap.findD s.sec.keys slot 0

/-- HBM read under a key: units written under another key give what the model leaves free (R102). -/
def hbmByte (s : State) (ident k : Nat) : Byte :=
  if s.lostStacks.contains (k / 2 ^ 36) then Config.lostByte k s.ticks else
  match NMap.find? s.st.ktag (unitOf k) with
  | none => s.st.byte k
  | some w =>
    if w = ident then s.st.byte k
    else if s.st.poison.contains (unitOf k) then 0
    else Config.misread w ident k ((range (unitOf k) 64).map (memGet s.st.mem))

/-- A run of storage, HBM under a key. -/
def readRun (s : State) (ident k n : Nat) : List Byte :=
  (range k n).map (fun a => if isHbm a then hbmByte s ident a else s.st.byte a)

/-- Prepare HBM units for a write under a key: a unit held under another key is first read under this one (R102). -/
def retag (s : State) (ident : Nat) (us : List Nat) : State :=
  us.foldl (fun s u =>
    let st := match NMap.find? s.st.ktag u with
      | some w => if w = ident then s.st
        else { s.st with mem := memSetAll s.st.mem u ((range u 64).map (hbmByte s ident)) }
      | none => s.st
    { s with st := { st with ktag := NMap.put st.ktag u ident } }) s

/-- Doorbell words that a write touches: their queues are to be kicked (R318, R327). -/
def noteKicks (s : State) (k n : Nat) : State :=
  { s with kicks := s.kicks ++ (s.watch.filter (fun w => w.2 < k + n && k < w.2 + 8)).map Prod.fst }

/-- One request that writes a run of storage, HBM under a key; partial writes into poisoned units are counted (R373). -/
def writeRun (s : State) (ident k : Nat) (bs : List Byte) : State :=
  let s := noteKicks s k bs.length
  let s := countN s 17 (s.st.partialHits k bs.length)
  let s := if isHbm k then retag s ident (unitsOf k bs.length) else s
  { s with st := s.st.write k bs }

/-- An error record (R377). -/
structure ErrRec where
  cls : Nat
  sev : Nat
  cycsrc : Nat
  tag : Nat
  src : Nat
  cyc : Nat
  addr : Nat
  rgn : Nat
  qid : Nat
  part : Nat
  detail : List Byte
  deriving DecidableEq, Repr

/-- A record of the Junction die with nothing in it. -/
def ErrRec.base (s : State) (cls sev : Nat) : ErrRec :=
  { cls := cls, sev := sev, cycsrc := 1, tag := 0, src := 0, cyc := s.jcyc, addr := 0, rgn := 0xFFFF, qid := 0xFFFF,
    part := 0, detail := [] }

/-- A record whose source is a tile. -/
def ErrRec.ofTile (s : State) (cls sev tid addr : Nat) (detail : List Byte) : ErrRec :=
  let r := tileRegion? s tid
  { cls := cls, sev := sev, cycsrc := 0, tag := (r.map Region.tag).getD 0, src := agentOf s tid,
    cyc := (s.tile tid).cyc, addr := addr, rgn := (s.tile tid).rgn.getD 0xFFFF, qid := (r.map Region.qid).getD 0xFFFF,
    part := partOf s tid, detail := detail }

/-- The 64 bytes of a record. -/
def ErrRec.bytes (r : ErrRec) (seq : Nat) : List Byte :=
  natLe 8 seq ++ natLe 1 r.cls ++ natLe 1 (r.sev + 4 * r.cycsrc) ++ natLe 2 r.tag ++ natLe 4 r.src ++ natLe 8 r.cyc
    ++ natLe 8 r.addr ++ natLe 2 r.rgn ++ natLe 2 r.qid ++ natLe 1 r.part ++ natLe 11 0
    ++ (r.detail ++ natLe 16 0).take 16

/-- Write a record to the log ring, or drop it; it takes its sequence number either way (R378). DESIGN CHOICE: an address of the ring at
or above 512 GiB wraps; the spec gives it no fate (notes/assumptions/71.md). -/
def logRec (s : State) (r : ErrRec) : State :=
  let cfg := (mreg s 0x200000).toNat
  let logn := fld cfg 3 5
  let widx := (mreg s 0x200008).toNat
  let ridx := (mreg s 0x200010).toNat
  let seq := s.errseq
  let s := { s with errseq := seq + 1 }
  if tb cfg 0 && 4 ≤ logn && logn ≤ 20 && (widx + 2 ^ 64 - ridx) % 2 ^ 64 < 2 ^ logn then
    let s := writeRun s (keyIdent s 0) ((cfg / 256 * 256 + 64 * (widx % 2 ^ logn)) % 2 ^ 39) (r.bytes seq)
    let s := setMreg s 0x200008 (wd (widx + 1))
    if r.sev ≥ fld cfg 1 2 && ridx = widx then { s with irqs := s.irqs + 1 } else s
  else count s 28

/-- Count a class and write its record. -/
def countRec (s : State) (r : ErrRec) : State := logRec (count s r.cls) r

/-! ### Registers (R160, R161, R45) -/

/-- A private register; number 0 reads zero. -/
def Tile.priv (t : Tile) (g : Eng) (n : Nat) : Word := if n = 0 then 0 else NMap.findD (t.eng g).regs n 0

/-- Write a private register; a write to number 0 is discarded. -/
def Tile.setPriv (t : Tile) (g : Eng) (n : Nat) (v : Word) : Tile :=
  if n = 0 then t else t.updEng g (fun e => { e with regs := NMap.put e.regs n v })

/-- An exchange register. -/
def Tile.x (t : Tile) (n : Nat) : XReg := NMap.findD t.xs n XReg.reset
def Tile.setX (t : Tile) (n : Nat) (v : XReg) : Tile := { t with xs := NMap.put t.xs n v }

/-- A special register; system bits live in MODE (R162). -/
def Tile.special (t : Tile) (n : Nat) : Word := NMap.findD t.sr n 0
def Tile.setSpecial (t : Tile) (n : Nat) (v : Word) : Tile := { t with sr := NMap.put t.sr n v }

/-- A tile at reset that keeps its TVEC, which has no reset value: the driver points it before a launch (R36, R162, R448;
notes/assumptions/70.md). -/
def Tile.fresh (t : Tile) : Tile := Tile.reset.setSpecial 5 (t.special 5)

/-- A tile whose region has given its page back: it runs nothing and holds nothing, and its registers, rings and accumulator stay as they
were until a tile starts there (R36, R47, R449). -/
def Tile.left (t : Tile) : Tile :=
  let idle (e : EngSt) : EngSt := { e with queue := [], skip := 0 }
  { t with
    e := idle t.e, a := idle t.a, m := idle t.m, y := idle t.y
    slots := t.slots.map (fun p => (p.1, { p.2 with act := false, held := false, addpend := false, opened := false, inFlight := false }))
    arr := { t.arr with firings := [], swap := none, commit := false }
    started := false, ended := false, rgn := none, walker := none, chans := [], farLast := [], cmds := [], enter := none, after := [], preempt := none
    halted := false, il := Tile.reset.il, utlb := [], config := [], gotLast := false, failed := false, moved := false, ctx := none
    saves := [], heldTok := [], got := [] }

/-- MODE.SYS and MODE.CHECK (R164). -/
def Tile.sys (t : Tile) : Bool := (t.special 4).getLsbD 0
def Tile.check (t : Tile) : Bool := (t.special 4).getLsbD 1

/-- MODE with its three bits. -/
def modeWord (sys check preq : Bool) : Word := wd (b2n sys + 2 * b2n check + 4 * b2n preq)

/-- MODE.SYS set. -/
def Tile.setSys (t : Tile) (b : Bool) : Tile := t.setSpecial 4 (modeWord b t.check t.preempt.isSome)

/-- Pending pre-emption, shown in MODE.PREQ. -/
def Tile.setPreempt (t : Tile) (p : Option Nat) : Tile :=
  ({ t with preempt := p }).setSpecial 4 (modeWord t.sys t.check p.isSome)

/-- A read-only source (R161). -/
def roVal (s : State) (tid : Nat) (g : Eng) (k : Ro) : Word :=
  let t := s.tile tid
  let r := tileRegion? s tid
  match k with
  | .zero => 0
  | .col => wd t.col
  | .row => wd t.row
  | .rwid => wd ((r.map (fun r => r.lrec.width)).getD 0)
  | .rhgt => wd ((r.map (fun r => r.lrec.height)).getD 0)
  | .rgn => wd (t.rgn.getD 0)
  | .args => (r.map (fun r => r.lrec.args)).getD 0
  | .nwalk => wd ((r.map (fun r => r.lrec.walkers)).getD 0)
  | .tix => wd (tixOf s tid)
  | .peer => wd (peerOf tid)
  | .cyc => wd t.cyc
  | .ones => BitVec.allOnes 64
  | .eng => wd g.num

/-- The value read through a register field at issue (R179). -/
def regVal (s : State) (tid : Nat) (g : Eng) (r : Reg) : Word :=
  match r with
  | .r n => (s.tile tid).priv g n.val
  | .x n => ((s.tile tid).x n.val).val
  | .ro k => roVal s tid g k

/-! ### Tokens (R44, R163) -/

/-- Tokens in the FIFO from one engine to another. -/
def Tile.tok (t : Tile) (p q : Eng) : Nat := NMap.findD t.toks (4 * p.num + q.num) 0
def Tile.setTok (t : Tile) (p q : Eng) (n : Nat) : Tile := { t with toks := NMap.put t.toks (4 * p.num + q.num) n }

/-- Partners of an engine (R163). -/
def Tile.waitp (t : Tile) (g : Eng) : Eng := Eng.ofNum (wfld (t.special g.num) 0 2)
def Tile.sigp (t : Tile) (g : Eng) : Eng := Eng.ofNum (wfld (t.special g.num) 2 2)

/-- Does the token field wait, or signal (R156)? -/
def tkWaits : Tk → Bool
  | .wait => true | .both => true | _ => false
def tkSignals : Tk → Bool
  | .signal => true | .both => true | _ => false

/-- Branch outcomes towards an engine (R46). -/
def Tile.outcomes (t : Tile) (g : Eng) : List Bool := NMap.findD t.boq g.num []
def Tile.setOutcomes (t : Tile) (g : Eng) (l : List Bool) : Tile := { t with boq := NMap.put t.boq g.num l }

/-! ### Queue entries -/

def QEntry.isUnissued (q : QEntry) : Bool := match q.stat with | .unissued => true | _ => false
/-- The entry holds an instruction lane, and not a fault of fetch. -/
def QEntry.isInstr (q : QEntry) : Bool := match q.kind with | .instr _ _ => true | _ => false
def QEntry.isRetired (q : QEntry) : Bool := match q.stat with | .retired => true | _ => false
def QEntry.inFlight (q : QEntry) : Bool := match q.stat with | .flight _ _ _ _ => true | _ => false

/-- The entry that the engine would issue next. -/
def nextEntry (t : Tile) (g : Eng) : Option QEntry := (t.eng g).queue.find? QEntry.isUnissued

/-- An RFE of the engine waits for issued instructions to retire (R207). -/
def EngSt.returns (e : EngSt) : Bool :=
  e.queue.any (fun q => match q.stat with | .flight .rfe _ _ _ => true | _ => false)

/-- Every issued instruction of the engine has retired. -/
def EngSt.quiet (e : EngSt) : Bool := !e.queue.any QEntry.inFlight

/-- Queue without the retired entries at its head. -/
def pruneQ (l : List QEntry) : List QEntry := l.dropWhile QEntry.isRetired

/-- Give the first unissued entry a status. -/
def setFirst (l : List QEntry) (st : Stat) : List QEntry :=
  match l with
  | [] => []
  | q :: r => if q.isUnissued then { q with stat := st } :: r else q :: setFirst r st

/-- The engine's next entry takes a status; retired entries leave the head. -/
def Tile.issueAs (t : Tile) (g : Eng) (st : Stat) : Tile :=
  t.updEng g (fun e => { e with queue := pruneQ (setFirst e.queue st) })

/-- The destination an entry in flight will write. -/
def Wait.dst? : Wait → Option Reg
  | .push r _ => r.dst
  | .syncLoad _ _ _ _ d => some d
  | .remote _ _ _ _ d => some d
  | .trecv _ _ _ d => some d
  | .cwait _ _ _ d => some d
  | .clstat _ d => some d
  | _ => none

/-- A transfer of control, which every younger instruction waits for (R401). -/
def Wait.holdsAll : Wait → Bool
  | .push r _ => match r.post with | .none => false | _ => true
  | .rfe => true
  | _ => false

/-- The private register n awaits a write of an older instruction (R179). -/
def pendingReg (e : EngSt) (n : Nat) : Bool :=
  e.queue.any (fun q => match q.stat with
    | .flight w _ _ _ => match w.dst? with | some (.r m) => m.val == n | _ => false
    | _ => false)

/-- Predicates that await a write of an older instruction (R179). -/
def pendingPreds (e : EngSt) : BitVec 8 :=
  e.queue.foldl (fun m q => match q.stat with
    | .flight (.push r _) _ _ _ => match r.preds with | some p => m ||| p.1 | none => m
    | _ => m) 0

/-- An older instruction has an outcome still to publish (R46, R201). -/
def publishes (e : EngSt) : Bool :=
  e.queue.any (fun q => match q.stat with | .flight (.push r _) _ _ _ => r.pub != 0 | _ => false)

/-- An older instruction holds every younger one (R207, R401). -/
def heldBack (e : EngSt) : Bool :=
  e.queue.any (fun q => match q.stat with | .flight w _ _ _ => w.holdsAll | _ => false)

/-! ### Issue and retirement (R44, R45, R179) -/

/-- An older acquire that is not complete holds younger accesses (R110, R113). -/
def heldIn (l : List QEntry) : Bool :=
  l.any (fun q => match q.stat with
    | .flight (.remote _ _ _ acq _) _ _ _ => acq
    | .flight (.syncLoad ..) _ _ _ => true
    | .flight (.trecv ..) _ _ _ => true
    | .flight (.cwait ..) _ _ _ => true
    | .flight (.barrier ..) _ _ _ => true
    | .flight (.swait _) _ _ _ => true
    | .flight (.clstat ..) _ _ _ => true
    | _ => false)
def accHeld (e : EngSt) : Bool := heldIn e.queue

/-- An older access is not performed yet, so that a release, a FENCE or a join waits (R110, R112, R113). -/
def pendingIn (l : List QEntry) : Bool :=
  heldIn l || l.any (fun q => match q.stat with | .flight (.remote ..) _ _ _ | .flight (.token ..) _ _ _ => true | _ => false)
def accPending (e : EngSt) : Bool := pendingIn e.queue

/-- The tile runs instructions: it has started, and no trap, pre-emption, end or halt stands in the way (R50, R206, R405). -/
def Tile.live (t : Tile) : Bool :=
  t.started && (!t.ended || t.sys) && !t.halted && t.enter.isNone && (t.sys || t.preempt.isNone) && !t.e.returns

/-- A source may be read now. -/
def srcReady (t : Tile) (g : Eng) (r : Reg) : Bool :=
  match r with
  | .r n => n.val == 0 || !pendingReg (t.eng g) n.val
  | .x n => let x := t.x n.val; x.full && !x.res
  | .ro _ => true

/-- A destination may be reserved now, given the sources the same instruction reads. -/
def dstReady (t : Tile) (g : Eng) (srcs : List Reg) (r : Reg) : Bool :=
  match r with
  | .r n => n.val == 0 || !pendingReg (t.eng g) n.val
  | .x n => let x := t.x n.val; !x.res && (!x.full || srcs.contains r)
  | .ro _ => true

/-- The wait of the token field is met (R156). -/
def tokReady (t : Tile) (g : Eng) (tk : Tk) : Bool := !tkWaits tk || 0 < t.tok (t.waitp g) g

/-- Every wait of the engine's next instruction is met: it may issue. -/
def canIssue (t : Tile) (g : Eng) (tk : Tk) (srcs : List Reg) (dst : Option Reg) : Bool :=
  t.live && (nextEntry t g).isSome && !heldBack (t.eng g) && tokReady t g tk && srcs.all (srcReady t g)
    && match dst with | none => true | some d => dstReady t g srcs d

/-- Exchange registers among sources, each once, with their values. -/
def xSources (t : Tile) (srcs : List Reg) : List (Nat × Word) :=
  (srcs.filterMap (fun r => match r with | .x n => some n.val | _ => none)).eraseDups.map (fun n => (n, (t.x n).val))

/-- Pop the token that the instruction waits for (R44). -/
def popToken (t : Tile) (g : Eng) (tk : Tk) : Tile :=
  if tkWaits tk then t.setTok (t.waitp g) g (t.tok (t.waitp g) g - 1) else t

/-- Exchange registers that are read become empty (R45). -/
def emptyX (t : Tile) (l : List (Nat × Word)) : Tile := l.foldl (fun t p => t.setX p.1 { t.x p.1 with full := false }) t

/-- An exchange destination is reserved (R45). -/
def reserve (t : Tile) (dst : Option Reg) : Tile :=
  match dst with
  | some (.x n) => t.setX n.val { t.x n.val with res := true }
  | _ => t

/-- Issue: pop the token, consume exchange registers, reserve an exchange destination (R44, R45). -/
def consume (t : Tile) (g : Eng) (tk : Tk) (srcs : List Reg) (dst : Option Reg) : Tile :=
  reserve (emptyX (popToken t g tk) (xSources t srcs)) dst

/-- What the entry keeps while in flight: the partner to signal, the partner popped, the exchange registers read. -/
def flightOf (t : Tile) (g : Eng) (tk : Tk) (srcs : List Reg) (w : Wait) : Stat :=
  .flight w (if tkSignals tk then some (t.sigp g) else none) (if tkWaits tk then some (t.waitp g) else none) (xSources t srcs)

/-- Write a destination; an exchange register becomes full (R45). -/
def writeDst (t : Tile) (g : Eng) (d : Option Reg) (v : Word) : Tile :=
  match d with
  | some (.r n) => t.setPriv g n.val v
  | some (.x n) => t.setX n.val { val := v, full := true, res := false }
  | _ => t

/-- Push an outcome onto each queue named (R201). -/
def publish (t : Tile) (pub : BitVec 3) (out : Bool) : Tile :=
  let t := if pub.getLsbD 0 then t.setOutcomes .a (t.outcomes .a ++ [out]) else t
  let t := if pub.getLsbD 1 then t.setOutcomes .m (t.outcomes .m ++ [out]) else t
  if pub.getLsbD 2 then t.setOutcomes .y (t.outcomes .y ++ [out]) else t

/-- Every named outcome queue has room (R201). -/
def pubRoom (t : Tile) (pub : BitVec 3) : Bool :=
  (!pub.getLsbD 0 || (t.outcomes .a).length < 16) && (!pub.getLsbD 1 || (t.outcomes .m).length < 16)
    && (!pub.getLsbD 2 || (t.outcomes .y).length < 16)

/-- Drop every unissued entry of an engine. -/
def EngSt.discard (e : EngSt) : EngSt := { e with queue := e.queue.filter (fun q => !q.isUnissued) }

/-- Move an engine's fetch to a bundle, discarding what it has not issued (R155). -/
def EngSt.goTo (e : EngSt) (target lane : Nat) : EngSt := { e.discard with fetch := target - target % 32, lane := lane, skip := 0 }

/-- Retire mask of an engine: bit i for the i-th instruction from the oldest unretired one, then the marks `m` that restart has not
applied yet; an entry that is no instruction takes none of them (R400, R402, R420). -/
def retireMask (l : List QEntry) (m : Nat) : Nat :=
  match l with
  | [] => m
  | q :: r => if q.isInstr then b2n q.isRetired + 2 * retireMask r m else m

/-- Refetch from the oldest unissued entry, keeping in the mask what restart still discards; an engine that holds none fetches
on (R205). -/
def EngSt.refetch (e : EngSt) : EngSt :=
  match e.queue.dropWhile (fun q => !q.isUnissued) with
  | q :: r =>
    { e with
      queue := e.queue.takeWhile (fun q => !q.isUnissued), fetch := q.bundle, lane := q.lane
      skip := retireMask (q :: r) e.skip }
  | [] => e

/-- The engines but E. -/
def others : List Eng := [.a, .m, .y]

/-- The four engines in order. -/
def engines : List Eng := [.e, .a, .m, .y]

/-- Reads of peers' memory that a unit of the tile has asked for are given up (R205, R237). -/
def Tile.dropGot (t : Tile) (unit : Nat) : Tile := { t with got := t.got.filter (fun g => g.unit != unit) }

/-- Lines that a unit of the tile has had are given up once they have served it. -/
def Tile.endGot (t : Tile) (unit : Nat) : Tile :=
  { t with got := t.got.filter (fun g => g.unit != unit || g.data.isNone) }

/-- What an instruction does beside its destination when it retires. -/
def applyPost (t : Tile) (g : Eng) (p : Post) : Tile :=
  match p with
  | .none => t
  | .jump a => t.updEng g (fun e => e.goTo a 0)
  | .pass => t
  | .icsync => (engines.foldl (fun t g => t.updEng g EngSt.refetch) t).dropGot 0
  | .endTile => { engines.foldl (fun t g => t.updEng g EngSt.discard) t with ended := true }

/-- New predicates, if the instruction writes them: those of the mask take their values, and k0 reads 1. -/
def writePreds (t : Tile) (p : Option (BitVec 8 × BitVec 8)) : Tile :=
  match p with | some (m, v) => { t with preds := (t.preds &&& ~~~m ||| v &&& m) ||| 1 } | none => t

/-- Push the token that the instruction signals (R44). -/
def pushToken (t : Tile) (g : Eng) (signal : Option Eng) : Tile :=
  match signal with | some p => t.setTok g p (t.tok g p + 1) | none => t

/-- The effects of retirement: destination, predicates, outcomes, token, control (R44, R179, R201). -/
def retireTile (t : Tile) (g : Eng) (r : Result) (signal : Option Eng) : Tile :=
  applyPost (pushToken (publish (writePreds (writeDst t g r.dst r.val) r.preds) r.pub r.out) g signal) g r.post

/-- The FIFO towards the partner has room, if there is one (R8, R44). -/
def sigRoom (t : Tile) (g : Eng) (signal : Option Eng) : Bool :=
  match signal with | some p => t.tok g p < 8 | none => true

/-- A token, an exchange register or a branch outcome waits until the engine's earlier accesses are performed (R113). -/
def joinFree (older : List QEntry) (dst : Option Reg) (pub : BitVec 3) (signal : Option Eng) : Bool :=
  !(signal.isSome || pub != 0 || (match dst with | some (.x _) => true | _ => false)) || !pendingIn older

/-- An instruction may retire with its result, given the older entries of its queue. -/
def mayRetire (t : Tile) (g : Eng) (older : List QEntry) (r : Result) (signal : Option Eng) : Bool :=
  sigRoom t g signal && joinFree older r.dst r.pub signal

/-- A result that only writes a destination. -/
def Result.value (d : Option Reg) (v : Word) : Result :=
  { dst := d, val := v, preds := none, pub := 0, out := false, post := .none }

/-- The partner that a lane's token field signals. -/
def sigOf (t : Tile) (g : Eng) (tk : Tk) : Option Eng := if tkSignals tk then some (t.sigp g) else none

/-- The next instruction retires as it issues. -/
def finishes (t : Tile) (g : Eng) (tk : Tk) (srcs : List Reg) (r : Result) : Bool :=
  let sig := sigOf t g tk
  let t := consume t g tk srcs r.dst
  mayRetire t g (t.eng g).queue r sig

/-- Issue the next instruction with its effect done: it retires, or waits for room in its token FIFO and for the
engine's earlier accesses. -/
def finish (t : Tile) (g : Eng) (tk : Tk) (srcs : List Reg) (r : Result) (keep : Bool) : Tile :=
  let sig := sigOf t g tk
  let st := flightOf t g tk srcs (.push r keep)
  let t' := consume t g tk srcs r.dst
  if finishes t g tk srcs r then retireTile (t'.issueAs g .retired) g r sig else t'.issueAs g st

/-- Issue the next instruction so that it waits. -/
def startWait (t : Tile) (g : Eng) (tk : Tk) (srcs : List Reg) (w : Wait) : Tile :=
  let st := flightOf t g tk srcs w
  (consume t g tk srcs w.dst?).issueAs g st

/-- Replace the k-th entry of a queue's status. -/
def setStat (l : List QEntry) (k : Nat) (st : Stat) : List QEntry :=
  match l, k with
  | [], _ => []
  | q :: r, 0 => { q with stat := st } :: r
  | q :: r, k + 1 => q :: setStat r k st

/-- The k-th entry of an engine's queue, which is in flight, may retire with its result. -/
def completes (t : Tile) (g : Eng) (k : Nat) (r : Result) : Bool :=
  match ((t.eng g).queue[k]?).map QEntry.stat with
  | some (.flight _ sig _ _) => mayRetire t g ((t.eng g).queue.take k) r sig
  | _ => false

/-- Complete the k-th entry of an engine's queue, which is in flight: it retires, or waits for room for its token. -/
def complete (t : Tile) (g : Eng) (k : Nat) (r : Result) (keep : Bool) : Tile :=
  match ((t.eng g).queue[k]?).map QEntry.stat with
  | some (.flight _ sig pop xs) =>
    if completes t g k r then
      let t := t.updEng g (fun e => { e with queue := setStat e.queue k .retired })
      let t := retireTile t g r sig
      t.updEng g (fun e => { e with queue := pruneQ e.queue })
    else t.updEng g (fun e => { e with queue := setStat e.queue k (.flight (.push r keep) sig pop xs) })
  | _ => t

/-! ### Traps (R182, R206, R288, R399 to R406) -/

/-- Undo what a withdrawn instruction took (R182). DESIGN CHOICE: an exchange register that it had emptied gets its value back even if
another engine has filled it since; the spec says nothing of that value (notes/assumptions/95.md). -/
def undo (t : Tile) (g : Eng) (w : Wait) (pop : Option Eng) (xs : List (Nat × Word)) : Tile :=
  let t := match w.dst? with | some (.x n) => t.setX n.val { t.x n.val with res := false } | _ => t
  let t := match w with
    | .next => (range 12 4).foldl (fun t n => t.setX n { t.x n with res := false }) t
    | .shunt => t.setX 15 { t.x 15 with res := false }
    | _ => t
  let t := xs.foldl (fun t p => t.setX p.1 { val := p.2, full := true, res := false }) t
  match pop with | some p => t.setTok p g (t.tok p g + 1) | none => t

/-- How a trap deals with an issued instruction: true if entry waits for it to retire (R182, R285, R288). A request that has been
sent to another agent counts as one that has reached its home (notes/assumptions/66.md). -/
def Wait.stays : Wait → Bool
  | .push _ keep => keep
  | .matrix _ => true
  | .plane .. => true
  | .pwr .. => true
  | .remote .. => true
  | _ => false

/-- Withdraw the entries of an engine that a trap does not wait for: they become unissued again. -/
def withdrawQ (g : Eng) : List QEntry → Tile → List QEntry × Tile
  | [], t => ([], t)
  | q :: r, t =>
    match q.stat with
    | .flight w _ pop xs =>
      if w.stays then
        let (l, t) := withdrawQ g r t
        (q :: l, t)
      else
        let (l, t) := withdrawQ g r (undo t g w pop xs)
        ({ q with stat := .unissued } :: l, t)
    | _ =>
      let (l, t) := withdrawQ g r t
      (q :: l, t)

/-- Withdraw on one engine. -/
def withdraw (t : Tile) (g : Eng) : Tile :=
  let (q, t) := withdrawQ g (t.eng g).queue t
  t.updEng g (fun e => { e with queue := q })

/-- Nothing keeps the trap from entry: every instruction it waits for has retired (R182, R285). -/
def trapReady (t : Tile) : Bool := engines.all (fun g => (t.eng g).quiet) && t.cmds.isEmpty

/-- Number of instructions not fetched yet that restart will discard first, and the mask behind them (R402). -/
def leadingSkips : Nat → Nat → Nat
  | 0, _ => 0
  | fuel + 1, m => if m % 2 = 1 then leadingSkips fuel (m / 2) + 1 else 0

/-- Retire mask of an engine as a trap saves it, with the marks that restart has not applied yet (R400). -/
def EngSt.mask (e : EngSt) : Nat :=
  match pruneQ e.queue with
  | [] => e.skip / 2 ^ leadingSkips 16 e.skip % 2 ^ 16
  | l => retireMask l e.skip % 2 ^ 16

/-- Address and lane of a queue's head, the oldest instruction that has not retired (R155). -/
def headPc (e : EngSt) : Option Nat :=
  match pruneQ e.queue with
  | q :: _ => some (q.bundle + q.lane)
  | [] => none

/-- TCAUSE of a trap (R399). -/
def tcause (tr : Trap) (ended : Bool) : Word :=
  wd (tr.code + tr.sub * 2 ^ 8 + (if tr.impr then 0 else tr.eng.num) * 2 ^ 16 + b2n tr.impr * 2 ^ 18 + b2n ended * 2 ^ 19
    + (tr.slot.getD 0) * 2 ^ 20 + b2n tr.slot.isSome * 2 ^ 24 + tr.info % 2 ^ 32 * 2 ^ 32)

/-- Enter system code: TPC, fault frame, TCAUSE, MODE.SYS, every fetch at TVEC (R206, R399, R400, R406). `pcs` gives the
address of an engine whose queue is empty. -/
def enterTrap (t : Tile) (tr : Trap) (pcs : Eng → Nat) : Tile :=
  let pc (g : Eng) : Nat := if t.ended then t.endAt else (headPc (t.eng g)).getD (pcs g)
  let mask (g : Eng) : Nat := if t.ended then 0 else (t.eng g).mask
  let t' := engines.foldl (fun u g => (u.setSpecial (6 + g.num) (wd (pc g))).setSpecial (11 + g.num) (wd (pc g))) t
  let t' := t'.setSpecial 15 (wd (mask .e + mask .a * 2 ^ 16 + mask .m * 2 ^ 32 + mask .y * 2 ^ 48))
  let t' := t'.setSpecial 10 (tcause tr t.ended)
  let tvec := (t.special 5).toNat
  let t' := engines.foldl (fun u g => u.updEng g (fun e =>
    { e with queue := [], fetch := tvec - tvec % 32, lane := 0, skip := 0 })) t'
  { ((t'.setSys true).dropGot 0) with enter := none, il := { t'.il with blk := false }, ctx := none, saves := [] }

/-- Which retire mask restart applies to an engine (R402). -/
def restartMask (t : Tile) (g : Eng) : Nat :=
  if t.special (6 + g.num) = t.special (11 + g.num) then wfld (t.special 15) (16 * g.num) 16 else 0

/-- Return from system code: each fetch at its TPC with its mask, MODE.SYS clear; an ended tile stays ended (R207, R402,
R406). -/
def leaveTrap (t : Tile) : Tile :=
  let ended := (t.special 10).getLsbD 19
  let t := engines.foldl (fun u g => u.updEng g (fun e =>
    let pc := (t.special (6 + g.num)).toNat
    { e with queue := [], fetch := pc - pc % 32, lane := pc % 8, skip := restartMask t g })) t
  { ((t.setSys false).dropGot 0) with ended := ended || t.ended }

/-! ### Barriers and END (R209, R293) -/

/-- A barrier of a group. -/
def Group.bar (g : Group) (b : Nat) : Bar := NMap.findD g.bars b Bar.reset

/-- Peer indices of a group whose tiles have executed END, as a mask. -/
def endedMask (s : State) (gid : Nat) : Nat :=
  (range 0 16).foldl (fun m q => if (s.tile (gid * 16 + q)).ended then m + 2 ^ q else m) 0

/-- The loop of R293: phases that are complete are closed. -/
def closePhases (ended : Nat) : Nat → Bar → Bar
  | 0, b => b
  | n + 1, b =>
    if b.opened && Nat.land b.mask (Nat.lor b.arr ended) == b.mask then
      closePhases ended n { p := (b.p + 1) % 256, opened := b.early != 0, mask := b.nmask, arr := b.early, early := 0,
                            nmask := b.nmask }
    else b

/-- Close complete phases of every barrier of a group. -/
def settleBars (s : State) (gid : Nat) : State :=
  let g := s.group gid
  let m := endedMask s gid
  if g.bars.isEmpty then s
  else s.setGroup gid { g with bars := g.bars.map (fun p => (p.1, closePhases m 3 p.2)) }

/-- What END does beyond the tile: its chunk retires, barriers count it as arrived, MODE.SYS clears (R209, R293, R406). -/
def noteEnd (s : State) (tid : Nat) (was : Bool) : State :=
  let t := s.tile tid
  if t.ended && !was then
    let s := match t.rgn with
      | some r => s.updRegion r (fun v => { v with curr := NMap.erase v.curr (t.row * v.cols + t.col) })
      | none => s
    settleBars (s.setTile tid (t.setSys false)) (groupOf tid)
  else s

/-- The tile moves on, and its region makes progress if an instruction has retired (R412). -/
def settleTile (s : State) (tid : Nat) (t : Tile) (retires : Bool) : State :=
  let s' := noteEnd (s.setTile tid t) tid (s.tile tid).ended
  if retires then progress s' tid else s'

/-- Issue the next instruction of an engine with its effect done. -/
def finishS (s : State) (tid : Nat) (g : Eng) (tk : Tk) (srcs : List Reg) (r : Result) (keep : Bool) : State :=
  let t := s.tile tid
  settleTile s tid (finish t g tk srcs r keep) (finishes t g tk srcs r)

/-- Complete the k-th entry of an engine's queue. -/
def completeS (s : State) (tid : Nat) (g : Eng) (k : Nat) (r : Result) (keep : Bool) : State :=
  let t := s.tile tid
  settleTile s tid (complete t g k r keep) (completes t g k r)

end Sys2Proof.Machine
end

