-- ==== Sys2Proof/Machine/Flags.lean ====
section
/-! DEFINITION. Conditions and predicates (R186, R197, R198). The G4 keeps no flags of arithmetic: what an instruction tests it
writes to a predicate or to a register. -/

namespace Sys2Proof.Machine

/-! ### Conditions (R186, R197) -/

/-- A condition on two n-bit operands (R186). -/
def condHolds (c : Cond) {n : Nat} (a b : BitVec n) : Bool :=
  match c with
  | .eq => a == b
  | .ne => a != b
  | .lt => a.slt b
  | .ge => !a.slt b
  | .ltu => a.ult b
  | .geu => !a.ult b
  | .gt => b.slt a
  | .le => !b.slt a

/-- A floating-point condition (R197). -/
def fcondHolds (c : FCond) (a b : FVal) : Bool :=
  let un := a == .nan || b == .nan
  match c with
  | .eq => !un && a.eqv b
  | .lt => !un && a.lt b
  | .le => !un && (a.lt b || a.eqv b)
  | .un => un
  | .ne => un || !a.eqv b

/-! ### Predicates (R160, R198) -/

/-- Predicate k; k0 reads 1. -/
def Tile.pred (t : Tile) (k : Fin 8) : Bool := k.val == 0 || t.preds.getLsbD k.val

/-- All predicates as PGET reads them. -/
def Tile.predBits (t : Tile) : BitVec 8 := t.preds ||| 1

/-- The predicates with one of them written; a write to k0 is discarded. -/
def setPred (p : BitVec 8) (k : Fin 8) (b : Bool) : BitVec 8 :=
  if k.val = 0 then p ||| 1
  else (if b then p ||| (1#8 <<< k.val) else p &&& ~~~(1#8 <<< k.val)) ||| 1

/-- PCMP's combination with the old value. -/
def combine (m : Combine) (old new : Bool) : Bool :=
  match m with
  | .set => new
  | .and => old && new
  | .or => old || new

/-- PLOG. -/
def plogVal (op : PlogOp) (a b : Bool) : Bool :=
  match op with
  | .and => a && b
  | .or => a || b
  | .xor => a != b
  | .andn => a && !b

/-- PSET: predicates 1 to 7 named by the mask take their values. -/
def psetVal (p mask vals : BitVec 8) : BitVec 8 := (p &&& ~~~mask ||| vals &&& mask) ||| 1

end Sys2Proof.Machine
end

