-- ==== Sys2Proof/Machine/Translate.lean ====
section
/-! DEFINITION. Finding the storage that an access names: windows and wraps (R77 to R80, R87), the page table (R90 to R94), the
TLBs (R95 to R97), the KV unit (R98 to R101, R421, R422), CHECK mode (R424, R425), and the faults of R417. -/

namespace Sys2Proof.Machine

/-- Kind of an access as SUB names it (R417): read, write, atomic, fetch. -/
inductive Acc where
  | read | write | atomic | fetch
  deriving DecidableEq, Repr

def Acc.code : Acc → Nat
  | .read => 0 | .write => 1 | .atomic => 2 | .fetch => 3

/-- A physical target (R92): storage of the package with the key's identity, host memory, or a peer's HBM. -/
inductive Phys where
  | mem (key ident : Nat)
  | host (pa : Nat)
  | peer (dev pa kslot : Nat)
  deriving DecidableEq, Repr

/-! ### Leaves (R91, R92) -/

def leafClass (l : Nat) : Nat := fld l 5 2
def leafKind (l : Nat) : Nat := fld l 7 2
def leafFmt (l : Nat) : Nat := fld l 9 6
def leafGeom (l : Nat) : Nat := fld l 15 4
def leafKey (l : Nat) : Nat := fld l 19 10
def leafFrame (l : Nat) : Nat := fld l 30 34

/-- A leaf that maps 2^log bytes keeps R91 and R92; every other one is WHY 3. -/
def leafGood (l log : Nat) : Bool :=
  let frame := leafFrame l
  let kv := leafClass l == 2
  leafClass l != 3 && !tb l 29 && (!kv || leafKind l == 0)
    && frame % 2 ^ (if kv then log - 14 else log - 16) == 0
    && (leafKind l != 1 || (frame / 2 ^ 16 == 0 && frame % 2 ^ 14 * 2 ^ 16 + 2 ^ log ≤ 0x30000000))
    && (leafKind l != 0 || kv || frame * 2 ^ 16 + 2 ^ log ≤ 2 ^ 39)

/-! ### The walk (R90) -/

/-- Index bits of a level: lowest bit and width. -/
def levelBits : Nat → Nat × Nat
  | 4 => (39, 9) | 3 => (29, 10) | 2 => (25, 4) | 1 => (21, 4) | _ => (16, 5)

/-- What a walk finds: a leaf with its size as a power of two, or a reason with the entry's address. -/
inductive Walk where
  | leaf (l log : Nat)
  | fail (why entry : Nat)
  deriving DecidableEq, Repr

/-- The walk from a table at a level downward; `fuel` counts the levels. -/
def walkFrom (s : State) (va : Nat) : Nat → Nat → Nat → Walk
  | 0, _, _ => .fail 3 0
  | fuel + 1, level, table =>
    let (lo, n) := levelBits level
    let a := table + 8 * fld va lo n
    if table % (8 * 2 ^ n) != 0 || table + 8 * 2 ^ n > 2 ^ 39 then .fail 3 a
    else if s.st.poisoned a 8 then .fail 8 a
    else
      let e := leNat (readRun s (keyIdent s 0) a 8)
      if !tb e 0 then .fail 1 a
      else if tb e 1 then
        if level == 4 || !leafGood e lo then .fail 3 a else .leaf e lo
      else if level == 0 || fld e 2 5 != 0 then .fail 3 a
      else walkFrom s va fuel (level - 1) (fld e 7 57 * 128)

/-- The walk of a partition's table (R94). -/
def walk (s : State) (part va : Nat) : Walk :=
  let root := (mreg s (0x2400 + 8 * part)).toNat
  if va ≥ 2 ^ 48 then .fail 4 0
  else if !tb root 0 then .fail 1 0
  else walkFrom s va 5 4 (root / 4096 * 4096)

/-- The permission that an access needs (R91, R417). -/
def permits (l : Nat) : Acc → Bool
  | .read => tb l 2
  | .write => tb l 3
  | .atomic => tb l 2 && tb l 3
  | .fetch => tb l 4

/-- Reasons that a held or walked leaf refuses an access (R417): permission, then class. -/
def refuses (l : Nat) (acc : Acc) (chanUnit : Bool) : Option Nat :=
  if !permits l acc then some 2
  else if (leafClass l == 1) != chanUnit then (if leafClass l == 1 || chanUnit then some 5 else none)
  else if leafClass l == 2 && acc == .fetch then some 5
  else none

/-- Physical target of a page that is not KV-blocked (R92). -/
def physOf (s : State) (l log va : Nat) : Phys :=
  let o := va % 2 ^ log
  let f := leafFrame l
  if leafKind l = 0 then .mem (f * 2 ^ 16 + o) (keyIdent s (leafKey l))
  else if leafKind l = 1 then .mem (yardKey (fld f 14 2) (f % 2 ^ 14 * 2 ^ 16 + o)) 0
  else if leafKind l = 2 then .host (f * 2 ^ 16 + o)
  else .peer (fld f 24 10) (f % 2 ^ 24 * 2 ^ 16 + o) (leafKey l)

/-! ### Ports and links (R347, R443) -/

/-- READY.HOST: the host link is up. -/
def hostUp (s : State) : Bool := (mreg s 0x108).getLsbD 2

/-- Ports that reach a device, ascending (R347). -/
def portsTo (s : State) (dev : Nat) : List Nat :=
  (range 0 12).filter (fun p => let w := (mreg s (0x608 + 8 * p)).toNat; fld w 0 10 == dev && tb w 10)

/-- The port for an index among the ports that reach a device. -/
def portFor (s : State) (dev idx : Nat) : Option Nat :=
  let l := portsTo s dev
  l[idx % l.length]?

/-- Enter a request to another agent; its number. -/
def newRemote (s : State) (r : Remote) : State × Nat :=
  ({ s with remotes := NMap.put s.remotes s.reqNo r, reqNo := s.reqNo + 1 }, s.reqNo)

/-- A plain request of an engine to the host, with nothing in it. -/
def Remote.base (tid : Nat) (g : Eng) (pa n : Nat) : Remote :=
  { tile := tid, eng := g, host := true, dev := 0, pa := pa, n := n, isAtomic := false, op := .add, src := 0, cmp := 0, port := 0,
    key := 0, isWrite := false, part := 0, unit := 0 }

/-- The identity of a request of the Junction die, in the place of its tile. -/
def jdWaiter : Nat := 2048

/-- Lines of 64 bytes that a run touches. -/
def lines64 (pa n : Nat) : List Nat := (range (pa / 64) ((pa + n - 1) / 64 - pa / 64 + 1)).map (· * 64)

/-- One write of a line to a peer's memory by the port of its address, and a request that stands for it until its completion (R345,
R347). `r` is the request; its `src` becomes the write's place in `peerOut`. -/
def sendLine (s : State) (dev line key : Nat) (bs : List (Option Byte)) (r : Remote) : State :=
  let p := (portFor s dev (fld line 8 10)).getD 0
  (newRemote { s with peerOut := s.peerOut ++ [{ dev := dev, pa := line, key := key, port := p, bytes := bs }] }
    { r with host := false, dev := dev, port := p, key := key, isWrite := true, src := wd s.peerOut.length }).1

/-- Write a run to a peer's memory, line by line with byte enables; none if no port reaches the device (R345, R347). -/
def sendPeerWrite (s : State) (dev pa key : Nat) (bs : List Byte) (r : Remote) : Option State :=
  if portsTo s dev = [] then none
  else some ((lines64 pa bs.length).foldl (fun s l =>
    let lo := max pa l
    sendLine s dev l key ((range l 64).map (fun a => if pa ≤ a then bs[a - pa]? else none))
      { r with pa := lo, n := min (pa + bs.length) (l + 64) - lo }) s)

/-! ### Reads of peers' memory (R102, R345, R347) -/

/-- Who reads a peer's memory: a unit of a tile, or with `jdWaiter` in the place of the tile one of the Junction die; and the partition
of the latter (R96). -/
structure Reader where
  tile : Nat
  unit : Nat
  part : Nat
  deriving DecidableEq, Repr

/-- The Junction die as it reads for a partition. -/
def jdReader (s : State) (part : Nat) : Reader := { tile := jdWaiter, unit := s.jdUnit, part := part }

/-- Lines that the readers of a tile, or of the Junction die, have asked for. -/
def asked (s : State) (tile : Nat) : List Got := if tile < 2048 then (s.tile tile).got else s.jdGot

def putAsked (s : State) (tile : Nat) (l : List Got) : State :=
  if tile < 2048 then s.updTile tile (fun t => { t with got := l }) else { s with jdGot := l }

/-- The line that a reader has asked for, if it has. -/
def lineOf (s : State) (w : Reader) (dev key line : Nat) : Option Got :=
  (asked s w.tile).find? (fun g => g.unit == w.unit && g.dev == dev && g.key == key && g.pa == line)

/-- Ask for a line, unless the reader has. -/
def askLine (s : State) (w : Reader) (dev key line : Nat) : State :=
  if (lineOf s w dev key line).isSome then s
  else
    let (s, no) := newRemote s { Remote.base w.tile .e line 64 with
      host := false, dev := dev, port := (portFor s dev (fld line 8 10)).getD 0, key := key, part := w.part, unit := 17 }
    putAsked s w.tile (asked s w.tile ++ [{ no := no, unit := w.unit, dev := dev, pa := line, key := key, data := none }])

/-- The reader lacks bytes of a peer's memory: what it does takes place once they have come. -/
def starve (s : State) (w : Reader) : State :=
  if w.tile < 2048 then { s with starved := true } else { s with jdStarved := true }

/-- Read a run of a peer's memory: the bytes, and whether the peer answered with an error; none if no port reaches the device. Lines that
have not been asked for are. -/
def peerRead (s : State) (w : Reader) (dev pa key n : Nat) : State × Option (List Byte × Bool) :=
  let got := (lines64 pa n).map (fun l => (lineOf s w dev key l).bind Got.data)
  if got.all Option.isSome then
    (s, some ((((got.flatMap (fun d => (d.map Prod.fst).getD [])).drop (pa % 64)).take n), got.any (fun d => (d.map Prod.snd).getD false)))
  else if portsTo s dev = [] then (s, none)
  else if s.starved || s.jdStarved then (s, some (natLe n 0, false))
  else (starve ((lines64 pa n).foldl (fun s l => askLine s w dev key l) s) w, some (natLe n 0, false))

/-- Nothing has happened but that reads of peers' memory went out. -/
def keepAsked (s t : State) : State :=
  let fresh (l : List Got) : List Got := l.filter (fun g => s.reqNo ≤ g.no)
  { s with
    remotes := (t.remotes.filter (fun r => s.reqNo ≤ r.1 && r.2.unit == 17)).foldl (fun m r => NMap.put m r.1 r.2) s.remotes
    reqNo := t.reqNo
    jdGot := s.jdGot ++ fresh t.jdGot
    tiles := t.tiles.foldl (fun m p =>
      if (fresh p.2.got).isEmpty then m
      else NMap.put m p.1 { s.tile p.1 with got := (s.tile p.1).got ++ fresh p.2.got }) s.tiles
    starved := false, jdStarved := false }

/-! ### The KV unit (R98 to R101) -/

/-- A field of a partition's KV control block. -/
def kvField (s : State) (part off n : Nat) : Nat :=
  leNat (readRun s (keyIdent s 0) ((mreg s (0x2480 + 8 * part)).toNat / 64 * 64 % 2 ^ 39 + off) n)

def kvEnabled (s : State) (part : Nat) : Bool := (mreg s (0x2480 + 8 * part)).getLsbD 0

/-- HBM addresses of a map entry, a count, a free-ring entry and a block. DESIGN CHOICE: an address of the control block at or above
512 GiB wraps; the spec gives it no fate (notes/assumptions/71.md). -/
def kvMapAt (s : State) (part v : Nat) : Nat := (kvField s part 0x08 8 + 4 * v) % 2 ^ 39
def kvRefAt (s : State) (part q : Nat) : Nat := (kvField s part 0x10 8 + 2 * q) % 2 ^ 39
def kvFreeAt (s : State) (part i : Nat) : Nat :=
  (kvField s part 0x18 8 + 4 * (i % (kvField s part 0x20 4))) % 2 ^ 39
def kvBlockAt (s : State) (part q : Nat) : Nat := (kvField s part 0 8 + q * 16384) % 2 ^ 39

/-- Write a number to HBM as the Junction die does, under slot 0 (R102). -/
def jdWrite (s : State) (a n v : Nat) : State := writeRun s (keyIdent s 0) a (natLe n v)

/-- Write a field of the control block. -/
def kvSetField (s : State) (part off v : Nat) : State :=
  jdWrite s ((mreg s (0x2480 + 8 * part)).toNat / 64 * 64 % 2 ^ 39 + off) 4 v

/-- A record of class 29 for translation state (R421 to R423). -/
def tableErr (s : State) (part addr : Nat) (detail : List Byte) : State :=
  countRec s { ErrRec.base s 29 1 with addr := addr, part := part, detail := detail }

/-- The block of a map index, or the reason (R99, R417). DESIGN CHOICE: nonzero reserved bits [30:25] of the entry are ignored; the spec
gives them no fate (notes/assumptions/71.md). -/
def kvBlock (s : State) (part v : Nat) : Except Nat Nat :=
  if !kvEnabled s part || v ≥ kvField s part 0x24 4 then .error 6
  else if s.st.poisoned (kvMapAt s part v) 4 then .error 8
  else
    let e := leNat (readRun s (keyIdent s 0) (kvMapAt s part v) 4)
    if tb e 31 then .ok (e % 2 ^ 25) else .error 6

/-- The count of a block; an uncorrectable one is taken as 2 (R422). -/
def kvCount (s : State) (part q : Nat) : Nat :=
  if s.st.poisoned (kvRefAt s part q) 2 then 2 else leNat (readRun s (keyIdent s 0) (kvRefAt s part q) 2)

/-- The count as the KV unit reads it: an uncorrectable one is counted in class 29 with its record (R422). -/
def kvCountS (s : State) (part q : Nat) : State × Nat :=
  (if s.st.poisoned (kvRefAt s part q) 2 then tableErr s part (kvRefAt s part q) [] else s, kvCount s part q)

/-- Set the 16-bit count of a block. -/
def kvSetCount (s : State) (part q n : Nat) : State := jdWrite s (kvRefAt s part q) 2 (n % 2 ^ 16)

/-- Drop every TLB copy of a map index. -/
def dropKv (s : State) (part v : Nat) : State :=
  let keep (e : Tlb) : Bool := !(e.part == part && match e.kv with | some (i, _, _) => i == v | none => false)
  { s with
    tiles := s.tiles.map (fun p => (p.1, { p.2 with utlb := p.2.utlb.filter keep }))
    groups := s.groups.map (fun p => (p.1, { p.2 with tlb := p.2.tlb.filter keep })) }

/-- Pop the free ring; entries that read uncorrectable are skipped and counted (R422). -/
def kvPop (s : State) (part : Nat) : Nat → State × Option Nat
  | 0 => (s, none)
  | fuel + 1 =>
    let h := kvField s part 0x28 4
    if h = kvField s part 0x2C 4 then (s, none)
    else
      let a := kvFreeAt s part h
      let s' := kvSetField s part 0x28 ((h + 1) % 2 ^ 32)
      if s.st.poisoned a 4 then kvPop (tableErr s' part a []) part fuel
      else (s', some (leNat (readRun s (keyIdent s 0) a 4)))

/-- Push a block on the free ring, if there is room (R421). -/
def kvPush (s : State) (part q : Nat) : Option State :=
  let h := kvField s part 0x28 4
  let t := kvField s part 0x2C 4
  if (t + 2 ^ 32 - h) % 2 ^ 32 = kvField s part 0x20 4 then none
  else some (kvSetField (jdWrite s (kvFreeAt s part t) 4 q) part 0x2C ((t + 1) % 2 ^ 32))

/-- Room for a write to a map index: its block, copied first if it is shared (R100). DESIGN CHOICE: bits [31:25] of an entry of the free
ring, which do not fit BLOCK, are ignored; the spec gives them no fate (notes/assumptions/71.md). -/
def kvOwn (s : State) (part v kslot : Nat) : State × Except Nat Nat :=
  match kvBlock s part v with
  | .error w => (if w = 8 then tableErr s part (kvMapAt s part v) [] else s, .error w)
  | .ok p =>
    let (s, n) := kvCountS s part p
    if n = 1 then (s, .ok p)
    else
      match kvPop s part (kvField s part 0x20 4 + 1) with
      | (s, none) => (s, .error 7)
      | (s, some q) =>
        let q := q % 2 ^ 25
        let src := kvBlockAt s part p
        let ident := keyIdent s kslot
        let poisons := (unitsOf src 16384).filter s.st.poison.contains
        let s := writeRun s ident (kvBlockAt s part q) (readRun s ident src 16384)
        let s := { s with st := poisons.foldl (fun st u => st.poisonRun (kvBlockAt s part q + (u - src)) 1) s.st }
        let s := kvSetCount s part q 1
        let s := jdWrite s (kvMapAt s part v) 4 (q + 2 ^ 31)
        let s := kvSetCount s part p ((if q = p then 1 else n) + (2 ^ 16 - 1))
        (dropKv s part v, .ok q)

/-! ### The TLBs (R95) -/

/-- The entry holds a translation of the address. -/
def Tlb.covers (e : Tlb) (part va : Nat) : Bool := e.part == part && e.base ≤ va && va < e.base + 2 ^ e.log

/-- Two entries say the same thing about one page. -/
def Tlb.same (e f : Tlb) : Bool := e.part == f.part && e.base == f.base && e.log == f.log

/-- Add an entry to a TLB: if the entries it competes with fill the capacity, one of them goes, which the model leaves free. -/
def tlbAdd (l : List Tlb) (rival : Tlb → Bool) (cap pick : Nat) (e : Tlb) : List Tlb :=
  let l := l.filter (fun f => !f.same e)
  if l.length < cap then e :: l
  else
    let rs := l.filter rival
    if rs.length < cap then e :: l
    else match rs[pick % rs.length]? with
      | some v => e :: l.filter (fun f => !f.same v)
      | none => e :: l

/-- Two entries lie in one set of the group TLB, which has 128 sets of 8 ways (R95). -/
def Tlb.rivals (e f : Tlb) : Bool := Config.tlbSet e.part e.base % 128 == Config.tlbSet f.part f.base % 128

/-- Hold a translation in the tile's and its group's TLB. The group's includes those of its tiles: an entry that it loses, they lose
(R95). -/
def tlbFill (s : State) (tid : Nat) (e : Tlb) : State :=
  let gid := groupOf tid
  let g := s.group gid
  let full := g.tlb.length ≥ 8 || (s.tile tid).utlb.length ≥ 32
  let pick := if full then Config.tlbVictim s.ticks else 0
  let gt := tlbAdd g.tlb e.rivals 8 pick e
  let s := if full then { s with ticks := s.ticks + 1 } else s
  let s := s.setGroup gid { g with tlb := gt }
  let s := s.updTile tid (fun t => { t with utlb := tlbAdd t.utlb (fun _ => true) 32 pick e })
  if full then
    { s with tiles := s.tiles.map (fun p =>
        (p.1, if groupOf p.1 = gid then { p.2 with utlb := p.2.utlb.filter (fun f => gt.any f.same) } else p.2)) }
  else s

/-- The translation held for an address, first in the tile, then in the group. -/
def tlbFind (s : State) (tid part va : Nat) : Option Tlb :=
  match (s.tile tid).utlb.find? (fun e => e.covers part va) with
  | some e => some e
  | none => (s.group (groupOf tid)).tlb.find? (fun e => e.covers part va)

/-- The leaf for an address through the TLBs, walking on a miss. -/
def leafFor (s : State) (tid part va : Nat) : Walk :=
  match (s.tile tid).utlb.find? (fun e => e.covers part va && e.kv.isNone) with
  | some e => .leaf e.leaf e.log
  | none =>
    match (s.group (groupOf tid)).tlb.find? (fun e => e.covers part va && e.kv.isNone) with
    | some e => .leaf e.leaf e.log
    | none => walk s part va

/-- Translate a KV-blocked access (R99, R100). -/
def kvTranslate (s : State) (tid part l log va : Nat) (acc : Acc) : State × Except Nat Phys :=
  let v := leafFrame l + va % 2 ^ log / 16384
  let base := va - va % 16384
  let ident := keyIdent s (leafKey l)
  let entry := tlbFind s tid part va
  let held := entry.bind Tlb.kv
  let plog := (entry.map Tlb.plog).getD log
  let wants := acc == .write || acc == .atomic
  match held with
  | some (_, b, excl) =>
    if !wants || excl then (s, .ok (.mem (b + va % 16384) ident))
    else
      match kvOwn s part v (leafKey l) with
      | (s, .error w) => (s, .error w)
      | (s, .ok q) =>
        let b := kvBlockAt s part q
        (tlbFill s tid { part := part, base := base, log := 14, leaf := l, kv := some (v, b, true), plog := plog },
          .ok (.mem (b + va % 16384) ident))
  | none =>
    if wants then
      match kvOwn s part v (leafKey l) with
      | (s, .error w) => (s, .error w)
      | (s, .ok q) =>
        let b := kvBlockAt s part q
        (tlbFill s tid { part := part, base := base, log := 14, leaf := l, kv := some (v, b, true), plog := plog },
          .ok (.mem (b + va % 16384) ident))
    else
      match kvBlock s part v with
      | .error w => (if w = 8 then tableErr s part (kvMapAt s part v) [] else s, .error w)
      | .ok q =>
        let b := kvBlockAt s part q
        let (s, n) := kvCountS s part q
        (tlbFill s tid { part := part, base := base, log := 14, leaf := l, kv := some (v, b, n == 1), plog := plog },
          .ok (.mem (b + va % 16384) ident))

/-- Translate an address for a tile: the physical target, or WHY of R417. A walk that faults leaves nothing (R95). -/
def translate (s : State) (tid va : Nat) (acc : Acc) (chanUnit : Bool) : State × Except Nat Phys :=
  let part := partOf s tid
  let held := tlbFind s tid part va
  let found : Walk := match held with
    | some e => .leaf e.leaf (if e.kv.isSome then 0 else e.log)
    | none => leafFor s tid part va
  match found with
  | .fail why a => (if why = 8 then tableErr s part a [] else s, .error why)
  | .leaf l log =>
    match refuses l acc chanUnit with
    | some w => (s, .error w)
    | none =>
      if leafClass l = 2 then
        if log = 0 then
          match held.bind Tlb.kv with
          | some (v, _, _) => kvTranslate s tid part (setFld l 30 34 v) 14 va acc
          | none => (s, .error 6)
        else kvTranslate s tid part l log va acc
      else
        let s := if held.isSome then s
          else tlbFill s tid { part := part, base := va - va % 2 ^ log, log := log, leaf := l, kv := none, plog := log }
        (s, .ok (physOf s l log va))

/-- Translate for a unit of the Junction die, which walks the table (R450). -/
def translateJd (s : State) (part va : Nat) (acc : Acc) (chanUnit : Bool) : State × Except Nat Phys :=
  match walk s part va with
  | .fail why a => (if why = 8 then tableErr s part a [] else s, .error why)
  | .leaf l log =>
    match refuses l acc chanUnit with
    | some w => (s, .error w)
    | none =>
      if leafClass l = 2 then
        let v := leafFrame l + va % 2 ^ log / 16384
        let ident := keyIdent s (leafKey l)
        if acc == .write || acc == .atomic then
          match kvOwn s part v (leafKey l) with
          | (s, .error w) => (s, .error w)
          | (s, .ok q) => (s, .ok (.mem (kvBlockAt s part q + va % 16384) ident))
        else
          match kvBlock s part v with
          | .error w => (if w = 8 then tableErr s part (kvMapAt s part v) [] else s, .error w)
          | .ok q => (s, .ok (.mem (kvBlockAt s part q + va % 16384) ident))
      else (s, .ok (physOf s l log va))

/-! ### CHECK mode (R424, R425) -/

/-- Who makes an access: tile, engine, system code, CHECK mode, whether a command makes it, and the unit that a read of a peer's memory
is asked for by: 0 fetch, 1 plane loads, 2 and up the commands by the order of their acceptance. -/
structure Who where
  tid : Nat
  eng : Eng
  sys : Bool
  check : Bool
  strm : Bool
  unit : Nat
  deriving DecidableEq, Repr

/-- The reader of peers' memory that an agent is. -/
def Who.reader (s : State) (w : Who) : Reader := { tile := w.tid, unit := w.unit, part := partOf s w.tid }

/-- The engine of a tile as it stands. -/
def whoOf (s : State) (tid : Nat) (g : Eng) : Who :=
  { tid := tid, eng := g, sys := (s.tile tid).sys, check := (s.tile tid).check, strm := false, unit := 0 }

/-- An offence in CHKST of its region: the first one is held, and MORE says that there was another. -/
def recordOffence (s : State) (o : Offence) : State :=
  let off := 0x400000 + 16 * o.rgn
  let v := mreg s off
  if v.getLsbD 0 then setMreg s off (v ||| 2) else setMreg (setMreg s off o.low) (off + 8) o.addr

/-- An offence of an access: recorded, or with the others of its cycle kept until the cycle ends. -/
def noteOffence (s : State) (w : Who) (space : Nat) (wr : Bool) (a : Word) : State :=
  match (s.tile w.tid).rgn with
  | none => s
  | some r =>
    let tix := tixOf s w.tid
    let o : Offence := { rgn := r, tix := tix, eng := w.eng.num, addr := a,
                         low := wd (1 + space * 4 + b2n wr * 2 ^ 5 + b2n w.strm * 2 ^ 6 + tix % 1024 * 2 ^ 7 + w.eng.num * 2 ^ 17) }
    if s.inCycle then { s with offences := s.offences ++ [o] } else recordOffence s o

/-- An offence comes before another of its cycle: the lower tile index, then the lower engine (R425). -/
def Offence.before (a b : Offence) : Bool := a.tix < b.tix || (a.tix == b.tix && a.eng < b.eng)

/-- Put an offence behind those that come before it or with it. -/
def insertOffence (o : Offence) : List Offence → List Offence
  | [] => [o]
  | p :: r => if o.before p then o :: p :: r else p :: insertOffence o r

/-- The offences of a cycle are recorded (R425). -/
def recordOffences (s : State) : State :=
  (s.offences.foldl (fun l o => insertOffence o l) []).foldl recordOffence { s with offences := [] }

/-! ### Locating an access (R77 to R80, R87, R391, R417) -/

/-- Where an access goes, or why it does not: out of range in CHECK mode, OPERAND 0x0C, or a translation fault with its SUB and
INFO. -/
inductive Loc where
  | at_ (p : Phys)
  | oob
  | noUnit
  | xlate (sub info : Nat)
  deriving DecidableEq, Repr

/-- SUB of a translation fault (R417). -/
def xsub (why : Nat) (acc : Acc) (strm : Bool) : Nat := why + acc.code * 16 + b2n strm * 64

/-- Yard window of a partition on a die (R87). -/
def ywin (s : State) (part die : Nat) : Nat := (mreg s (0x2000 + 0x20 * part + 8 * die)).toNat

/-- Find the location of an access of an aligned address. DEDUCED: a D access of an engine reaches HBM pages as R77, R99 and R191 say;
R24's sentence on streams does not bar it (notes/assumptions/72.md). -/
def locate (s : State) (w : Who) (sp : Space) (a : Word) (acc : Acc) : State × Loc :=
  let n := a.toNat
  let wr := acc != .read
  match sp with
  | .t =>
    let lim := 2 ^ tspLog s w.tid
    if w.check && n ≥ lim then (noteOffence s w 0 wr a, .oob)
    else (s, .at_ (.mem (tspKey w.tid (n % lim)) 0))
  | .p =>
    let lim := 2 ^ tspLog s w.tid
    let peer := fld n 20 4
    let off := n % 2 ^ 18
    if w.check && (n ≥ 2 ^ 24 || fld n 18 2 != 0 || off ≥ lim) then (noteOffence s w 1 wr a, .oob)
    else (s, .at_ (.mem (tspKey (groupOf w.tid * 16 + peer) (off % lim)) 0))
  | .g =>
    let log := gspLog s w.tid
    if w.check then
      if log = 0 || n ≥ 2 ^ log then (noteOffence s w 2 wr a, .oob)
      else (s, .at_ (.mem (gspKey (groupOf w.tid) n) 0))
    else if log = 0 then (s, .noUnit)
    else (s, .at_ (.mem (gspKey (groupOf w.tid) (n % 2 ^ log)) 0))
  | .y =>
    let die := dieOf w.tid
    if w.sys then
      if n < 0x30000000 then (s, .at_ (.mem (yardKey die n) 0))
      else if w.check then (noteOffence s w 3 wr a, .oob)
      else (s, .xlate (xsub 9 acc w.strm) (n % 2 ^ 32))
    else
      let win := ywin s (partOf s w.tid) die
      let size := 2 ^ (20 + fld win 10 4)
      if w.check && (!tb win 14 || n ≥ size) then (noteOffence s w 3 wr a, .oob)
      else if !tb win 14 then (s, .noUnit)
      else (s, .at_ (.mem (yardKey die (fld win 0 10 * 2 ^ 20 + n % size)) 0))
  | .d =>
    match translate s w.tid n acc false with
    | (s, .ok p) => (s, .at_ p)
    | (s, .error why) => (s, .xlate (xsub why acc w.strm) (n / 2 ^ 16 % 2 ^ 32))

end Sys2Proof.Machine
end

