-- ==== Sys2Proof/Machine/Fetch.lean ====
section
/-! DEFINITION. Bundles and fetch (R151 to R155, R385, R402, R420). -/

namespace Sys2Proof.Machine

/-! ### The header (R151, R152) -/

/-- Kind of lane L. -/
def nib (h l : Nat) : Nat := fld h (4 * (l - 1)) 4

/-- The bundle is well formed: MAGIC, no reserved nibble, extensions only behind instructions. -/
def wellFormed (h : Nat) : Bool :=
  fld h 28 4 == 0xA && (range 1 7).all (fun l =>
    nib h l ≤ 4 || (nib h l == 8 && 2 ≤ l && 1 ≤ nib h (l - 1) && nib h (l - 1) ≤ 4))

/-- Lane L of a bundle. -/
def laneOf (bs : List Byte) (l : Nat) : Lane := laneOfBytes (bs.drop (4 * l))

/-- An engine's lanes of a bundle from a lane on, each with its extension. -/
def ownLanes (g : Eng) (bs : List Byte) (start : Nat) : List (Nat × Lane × Option Lane) :=
  let h := leNat (bs.take 4)
  ((range 1 7).filter (fun l => start ≤ l && nib h l == g.num + 1)).map (fun l =>
    (l, laneOf bs l, if l < 7 && nib h (l + 1) == 8 then some (laneOf bs (l + 1)) else none))

/-! ### Reading a bundle -/

/-- Read host memory: zero and poisoned while the link is down, or when the completion is poisoned or does not come, with a record in
the latter cases (R443). -/
def hostRead (s : State) (pa n : Nat) (lost : ErrRec) : State × List Byte × Bool :=
  if !hostUp s then (s, natLe n 0, true)
  else if s.hostBad.contains (pa / 64) then
    (countRec { s with hostBad := setDel s.hostBad (pa / 64) } { lost with cls := 15, addr := pa }, natLe n 0, true)
  else (s, readRun s 0 (hostKey pa) n, s.st.poisoned (hostKey pa) n)

/-- Read a physical target: zero from a host or a peer that no link reaches, the latter with a record (R443, R444). A peer is asked for
the lines, and the read waits for them (R345). -/
def farRead (s : State) (w : Reader) (p : Phys) (n : Nat) (lost : ErrRec) : State × List Byte :=
  match p with
  | .mem k i => (s, readRun s i k n)
  | .host pa =>
    let (s, bs, _) := hostRead s pa n lost
    (s, bs)
  | .peer dev pa key =>
    match peerRead s w dev pa key n with
    | (s, none) => (countRec s { lost with addr := pa }, natLe n 0)
    | (s, some (bs, _)) => (s, bs)

/-- Fetch of a tile as it reads peers' memory. -/
def fetchReader (s : State) (tid : Nat) : Reader := { tile := tid, unit := 0, part := partOf s tid }

/-- The 32 bytes at a bundle address, or WHY. -/
def readBundle (s : State) (tid va : Nat) : State × Except Nat (List Byte) :=
  match translate s tid va .fetch false with
  | (s, .error w) => (s, .error w)
  | (s, .ok p) =>
    let (s, bs) := farRead s (fetchReader s tid) p 32 (ErrRec.ofTile s 13 1 tid va [])
    (s, .ok bs)

/-- What an engine takes from the bundle at its fetch address: its lanes, or one entry that raises when it reaches the head
(R385, R420). -/
def entriesOf (g : Eng) (va lane : Nat) (b : Except Nat (List Byte)) : List QEntry :=
  match b with
  | .error w => [{ bundle := va, lane := 0, kind := .xlate (xsub w .fetch false) (va / 2 ^ 16 % 2 ^ 32), stat := .unissued }]
  | .ok bs =>
    if wellFormed (leNat (bs.take 4)) then
      (ownLanes g bs lane).map (fun p => { bundle := va, lane := p.1, kind := .instr p.2.1 p.2.2, stat := .unissued })
    else [{ bundle := va, lane := 0, kind := .bad, stat := .unissued }]

/-- Instructions that the retire mask names are discarded without issuing; a fault of fetch is no instruction (R402, R420). -/
def applySkip : List QEntry → Nat → List QEntry × Nat
  | [], m => ([], m)
  | q :: r, m =>
    if q.isInstr then
      let (l, m') := applySkip r (m / 2)
      ((if m % 2 = 1 then { q with stat := .retired } else q) :: l, m')
    else (q :: r, m)

/-- An engine takes its entries and moves to the next bundle. -/
def takeBundle (e : EngSt) (es : List QEntry) (stamp : Nat) : EngSt :=
  let (es, m) := applySkip es e.skip
  { e with queue := pruneQ (e.queue ++ es), fetch := e.fetch + 32, lane := 0, skip := m, served := stamp }

/-- The engine may take these entries: room in the queue, at most four bundles ahead (R153), and no fault of fetch before them
(R385, R420). -/
def canTake (e : EngSt) (es : List QEntry) : Bool :=
  let q := pruneQ e.queue
  q.all QEntry.isInstr && q.length + es.length ≤ 16 && match q with | h :: _ => e.fetch + 32 ≤ h.bundle + 128 || h.bundle > e.fetch | [] => true

/-- Engines in the order of fetch: the one served least recently first. DESIGN CHOICE: of engines that were served last by one read, or
that none has served yet, the order is E, A, M, Y (notes/assumptions/94.md). -/
def fetchOrder (t : Tile) : List Eng :=
  engines.foldl (fun l g =>
    let n := (t.eng g).served
    l.takeWhile (fun h => (t.eng h).served ≤ n) ++ g :: l.dropWhile (fun h => (t.eng h).served ≤ n)) []

/-- Every engine whose fetch stands at the bundle, and that has room, takes its lanes. -/
def feed (t : Tile) (va : Nat) (b : Except Nat (List Byte)) : Tile :=
  let stamp := engines.foldl (fun m g => max m (t.eng g).served) 0 + 1
  engines.foldl (fun u g =>
    let e := u.eng g
    let es := entriesOf g va e.lane b
    if e.fetch = va && canTake e es then u.setEng g (takeBundle e es stamp) else u) t

/-- One fetch: the first engine in order that can take the bundle at its fetch address decides the address (R153). One whose bundle
lies in a peer's memory waits until its bytes have come, and the next engine has its turn. -/
def fetchStep (s : State) (tid : Nat) : List Eng → State
  | [] => s
  | g :: r =>
    let e := (s.tile tid).eng g
    let (s', b) := readBundle s tid e.fetch
    if s'.starved then fetchStep (keepAsked s s') tid r
    else if canTake e (entriesOf g e.fetch e.lane b) then s'.setTile tid ((feed (s'.tile tid) e.fetch b).endGot 0)
    else fetchStep s tid r

/-- The row FETCH_BUNDLE: one bundle for a tile whose engines run. -/
def execFetchBundle (tid : Nat) (s : State) : Host.Outcome State Fault Refusal :=
  .next (if (s.tile tid).live then fetchStep s tid (fetchOrder (s.tile tid)) else s)

/-- Address and lane of an own lane from a bundle on, passing over `k` of them, however far on it lies; `fuel` bundles reach the end of the
address space, which no translation leaves (R155, R206, R417). A bundle that fetch cannot read, or that is not well formed, is what the engine
would take next: its address with lane 0 (R385, R420). -/
def ownFrom (s : State) (tid : Nat) (g : Eng) : Nat → Nat → Nat → Nat → State × Nat
  | 0, va, _, _ => (s, va)
  | n + 1, va, lane, k =>
    match readBundle s tid va with
    | (s, .error _) => (s, va)
    | (s, .ok bs) =>
      if wellFormed (leNat (bs.take 4)) then
        let own := ownLanes g bs lane
        match own.drop k with
        | p :: _ => (s, va + p.1)
        | [] => ownFrom s tid g n (va + 32) 0 (k - own.length)
      else (s, va)

/-- Program counter of an engine whose queue is empty: its next instruction that restart would not discard. What the search reads is read
again after the return; nothing is kept of it but the lines of peers' memory that it asked for. -/
def nextPc (s : State) (tid : Nat) (g : Eng) : State × Nat :=
  let e := (s.tile tid).eng g
  if (pruneQ e.queue).isEmpty then
    let (t, a) := ownFrom s tid g (2 ^ 43 - e.fetch / 32 + 1) e.fetch e.lane (leadingSkips 16 e.skip)
    (if t.starved then { keepAsked s t with starved := true } else s, a)
  else (s, 0)

end Sys2Proof.Machine
end

