-- ==== Sys2Proof/Machine/Queues.lean ====
section
/-! DEFINITION. Queue control blocks, accesses of the Junction die, kicks, pre-emption of a region, and freezing a queue
(R50, R52, R324, R327, R331, R409, R450). -/

namespace Sys2Proof.Machine

/-! ### Queue control blocks (R324) -/

/-- HBM address of a queue's control block. DESIGN CHOICE: one at or above 512 GiB wraps; the spec gives it no fate
(notes/assumptions/71.md). -/
def qcbAt (s : State) (q : Nat) : Nat := ((mreg s 0x100000).toNat / 2 ^ 19 * 2 ^ 19 + 128 * q) % 2 ^ 39

/-- An 8-byte field of the control block. -/
def qget (s : State) (q off : Nat) : Nat := leNat (readRun s (keyIdent s 0) (qcbAt s q + off) 8)

/-- Write an 8-byte field of the control block. -/
def qset (s : State) (q off v : Nat) : State := writeRun s (keyIdent s 0) (qcbAt s q + off) (natLe 8 v)

def qBase (s : State) (q : Nat) : Nat := qget s q 0x00
def qPart (s : State) (q : Nat) : Nat := fld (qget s q 0x08) 0 4
def qPrio (s : State) (q : Nat) : Nat := fld (qget s q 0x08) 4 4
def qLog (s : State) (q : Nat) : Nat := fld (qget s q 0x08) 8 5
def qPubn (s : State) (q : Nat) : Nat := fld (qget s q 0x08) 13 16
def qSys (s : State) (q : Nat) : Bool := tb (qget s q 0x08) 29
def qHost (s : State) (q : Nat) : Bool := tb (qget s q 0x08) 30
def qRidx (s : State) (q : Nat) : Nat := qget s q 0x10
def qState (s : State) (q : Nat) : Nat := fld (qget s q 0x20) 0 3
def qWaiting (s : State) (q : Nat) : Bool := tb (qget s q 0x20) 14
def qInJump (s : State) (q : Nat) : Bool := tb (qget s q 0x20) 15

/-- Enter a state: thread and EPRIO are set, SINCE is the SB cycle, the rest of the word stays. -/
def qEnter (s : State) (q st thread eprio : Nat) : State :=
  let w := setFld (setFld (setFld (qget s q 0x20) 0 3 st) 3 5 thread) 8 6 eprio
  qset (qset s q 0x20 w) q 0x28 s.sbcyc

/-- WAITING or INJUMP of the block. -/
def qFlag (s : State) (q bit : Nat) (b : Bool) : State := qset s q 0x20 (setFld (qget s q 0x20) bit 1 (b2n b))

/-- Thread that a queue is mapped on. -/
def qThread (s : State) (q : Nat) : Option Nat :=
  (s.threads.find? (fun p => p.2.q == some q)).map Prod.fst

def thr (s : State) (t : Nat) : Thr := NMap.findD s.threads t Thr.reset
def setThr (s : State) (t : Nat) (v : Thr) : State := { s with threads := NMap.put s.threads t v }

/-- OUTST falls by one for a launch that counts in it (R322, R326). -/
def dropOutst (s : State) (q : Nat) (owes : Bool) : State := if owes then qset s q 0x50 (qget s q 0x50 - 1) else s

/-! ### Accesses of the Junction die (R450) -/

/-- The result of an access that failed: VA and SUB of R417. -/
abbrev JdFail := Nat × Nat

/-- Read storage that a physical target names, for the Junction die (R345, R443, R444). -/
def physRead (s : State) (part : Nat) (p : Phys) (n : Nat) : State × List Byte :=
  farRead s (jdReader s part) p n { ErrRec.base s 13 1 with part := part }

/-- Write storage that a physical target names; a write to the host is dropped while its link is down, one to a peer leaves the
package if a port reaches it, as the request `r` until its completion (R443, R444). -/
def physWriteAs (s : State) (r : Remote) (p : Phys) (bs : List Byte) : State :=
  match p with
  | .mem k i => writeRun s i k bs
  | .host pa => if hostUp s then writeRun s 0 (hostKey pa) bs else s
  | .peer dev pa key =>
    (sendPeerWrite s dev pa key bs r).getD (countRec s { ErrRec.base s 13 1 with part := r.part, addr := pa })

/-- A write of the Junction die for a partition. -/
def physWrite (s : State) (part : Nat) (p : Phys) (bs : List Byte) : State :=
  physWriteAs s { Remote.base jdWaiter .e 0 0 with part := part } p bs

/-- Read at a virtual address, within one page. -/
def jdRead (s : State) (part va n : Nat) : State × Except JdFail (List Byte) :=
  match translateJd s part va .read false with
  | (s, .error w) => (s, .error (va, xsub w .read false))
  | (s, .ok p) =>
    let (s, bs) := physRead s part p n
    (s, .ok bs)

/-- Write at a virtual address, within one page. -/
def jdStore (s : State) (part va : Nat) (bs : List Byte) (acc : Acc) : State × Except JdFail Unit :=
  match translateJd s part va acc false with
  | (s, .error w) => (s, .error (va, xsub w acc false))
  | (s, .ok p) => (physWrite s part p bs, .ok ())

/-- Read a longer run, 64 KiB page by page, in beats of 32 bytes. -/
def jdReadBeats (s : State) (part va : Nat) : Nat → State × Except JdFail (List Byte)
  | 0 => (s, .ok [])
  | n + 1 =>
    match jdRead s part va 32 with
    | (s, .error e) => (s, .error e)
    | (s, .ok bs) =>
      match jdReadBeats s part (va + 32) n with
      | (s, .error e) => (s, .error e)
      | (s, .ok r) => (s, .ok (bs ++ r))

/-! ### Kicks and unmapping (R327, R328, R331) -/

/-- The header word of the packet at RIDX. -/
def headerAt (s : State) (q : Nat) : State × Except JdFail Nat :=
  match jdRead s (qPart s q) (qBase s q + 0x80 + 64 * (qRidx s q % 2 ^ qLog s q)) 8 with
  | (s, .error e) => (s, .error e)
  | (s, .ok bs) => (s, .ok (leNat bs))

/-- A queue becomes PENDING (R327). -/
def pend (s : State) (q : Nat) : State := qEnter s q 2 0 (qPrio s q)

/-- A kick (R327). -/
def kick (s : State) (q : Nat) : State :=
  match qState s q with
  | 1 => pend s q
  | 3 => match qThread s q with
    | some t => setThr s t { thr s t with woken := true }
    | none => s
  | _ => s

/-- The key of a queue's DOORBELL word, where it lies in HBM or Yard (R327). -/
def doorbellKey (s : State) (q : Nat) : Option Nat :=
  if qHost s q then none
  else match (translateJd s (qPart s q) (qBase s q + 0x40) .read false).2 with
    | .ok (.mem k _) => some k
    | _ => none

/-- The doorbell entry of the address-watch unit for a queue (R318, R327). -/
def watchQueue (s : State) (q : Nat) : State :=
  match doorbellKey s q with
  | some k => { s with watch := NMap.put s.watch q k }
  | none => { s with watch := NMap.erase s.watch q }

/-! ### Pre-emption of a region (R50, R52, R409) -/

/-- Ask every tile for a pre-emption trap; the walkers freeze (R50 steps 1 and 2). -/
def stopRegion (s : State) (rid : Nat) (sub : Nat) : State :=
  match s.region? rid with
  | none => s
  | some r =>
    if r.st = .saved then s
    else
      let tiles := regionTiles s r
      let stuck := tiles.any (fun t => (s.tile t).halted && (s.tile t).sys)
      let s := tiles.foldl (fun s t => s.updTile t (fun v =>
        if v.started && v.preempt.isNone then v.setPreempt (some sub) else v)) s
      s.setRegion rid { r with st := .stopping, frozen := true, why := sub, notResumable := r.notResumable || stuck }

/-- Kill a region with IDEMP = 1: its tiles stop without saving (R52). -/
def killRegion (s : State) (rid : Nat) : State :=
  match s.region? rid with
  | none => s
  | some r =>
    let s := (regionTiles s r).foldl (fun s t =>
      s.setTile t { (s.tile t).fresh with rgn := some rid, halted := true, heldTok := (s.tile t).heldTok }) s
    s.setRegion rid { r with st := .stopping, frozen := true, killed := true, reqs := [] }

/-! ### Freezing a queue (R409) -/

/-- Regions of a queue, in ascending id. -/
def regionsOf (s : State) (q : Nat) : List Nat := (s.regions.filter (fun p => p.2.qid == q)).map Prod.fst

/-! ### Ending a packet (R318, R323, R331, R435, R450) -/

/-- PUB of a header. -/
def hdrPub (h : Nat) : Bool := tb h 8

/-- Address of the ring packet at RIDX. -/
def ringVa (s : State) (q : Nat) : Nat := (qBase s q + 0x80 + 64 * (qRidx s q % 2 ^ qLog s q)) % 2 ^ 64

/-- Array packets left of a JUMP. -/
def jumpLeft (s : State) (q : Nat) : Nat := fld (qget s q 0x48) 0 16

/-- Bytes 8 to 14 of a freeze record for a failed access (R450). -/
def failBytes (e : JdFail) : List Byte := natLe 6 e.1 ++ natLe 1 e.2

/-- DETAIL bytes 7 and 8 to 15 of the freeze of cause 6 that a packet's end meets. -/
abbrev EndFail := Nat × List Byte

def accessFail (e : JdFail) : EndFail := (0xFE, failBytes e)

/-- Publish a value of RIDX, if it is due. -/
def publishAt (s : State) (q v : Nat) (due : Bool) : State × Except JdFail Unit :=
  if due then
    match jdStore s (qPart s q) (qBase s q + 8) (natLe 8 v) .write with
    | (s, .ok ()) => (qset s q 0x18 v, .ok ())
    | (s, .error e) => (s, .error e)
  else (s, .ok ())

/-- A ring packet is consumed: its header is swapped for 0, an atomic at its location, RIDX advances, and is published when due. A foreign
header stays. An access that fails leaves the packet as it was (R318, R435, R450). -/
def consumeRing (s : State) (t q hdr : Nat) : State × Option EndFail :=
  let va := ringVa s q
  let part := qPart s q
  match translateJd s part va .atomic false with
  | (s, .error w) => (s, some (accessFail (va, xsub w .atomic false)))
  | (s, .ok p) =>
    let (s, bs) := physRead s part p 8
    let same := leNat bs == hdr
    let no := qRidx s q
    match publishAt s q (no + 1) (hdrPub hdr || no + 1 - qget s q 0x18 ≥ qPubn s q) with
    | (s, .error e) => (s, some (accessFail e))
    | (s, .ok ()) =>
      let s := if same then physWrite s part p (natLe 8 0) else s
      let s := qset s q 0x10 (no + 1)
      let s := setThr s t { thr s t with siga := false, hdr := none }
      (s, if same then none else some (0xFF, natLe 8 no))

/-- The packet under way is over: the next array packet, or the end of the JUMP, or the next ring packet. -/
def overPacket (s : State) (t q hdr : Nat) : State × Option EndFail :=
  if qInJump s q then
    let left := jumpLeft s q - 1
    let s := setThr (qFlag s q 14 false) t { thr s t with siga := false }
    let s := qset (qset s q 0x40 (qget s q 0x40 + 64)) q 0x48 left
    if left = 0 then consumeRing (qFlag s q 15 false) t q ((thr s t).hdr.getD 0) else (s, none)
  else
    match consumeRing s t q hdr with
    | (s, none) => (qFlag s q 14 false, none)
    | (s, some (0xFF, b)) => (qFlag s q 14 false, some (0xFF, b))
    | (s, some f) => (s, some f)

/-- Publish RIDX and release the thread, if the queue is mapped (R331); a thread between the add of a SIGC and the end of its packet
ends it first, unless it has faulted or the end has failed. -/
def releaseThread (s : State) (q : Nat) (ends : Bool) : State × Option EndFail :=
  match qThread s q with
  | none => (s, none)
  | some t =>
    let (s, f) := if ends && (thr s t).siga then overPacket s t q ((thr s t).hdr.getD 0) else (s, none)
    let (s, w) := publishAt s q (qRidx s q) true
    ({ s with threads := NMap.erase s.threads t }, f <|> match w with | .ok () => none | .error e => some (accessFail e))

/-- Freeze a queue: its thread finishes the packet, but not after a thread fault (cause 7) or a packet that cannot be carried out or ended
(cause 6); it is unmapped, FROZEN, its regions stop, one record of class 22. A queue that is frozen stays as it is. -/
def freezeQueue (s : State) (q cause : Nat) (rgn tid : Option Nat) (b7 : Nat) (rest : List Byte) : State :=
  if qState s q = 4 then s
  else
    let sub := if cause = 2 then 1 else 2
    let (s, f) := releaseThread s q (cause != 6 && cause != 7)
    let s := if f.isSome then count s 25 else s
    let s := qEnter s q 4 0 (qPrio s q)
    let s := (regionsOf s q).foldl (fun s r => stopRegion s r (if some r = rgn then sub else 2)) s
    let detail := natLe 1 cause ++ natLe 2 (rgn.getD 0xFFFF) ++ natLe 4 ((tid.map (agentOf s)).getD 0) ++ natLe 1 b7 ++ rest
    let rec_ : ErrRec := match tid with
      | some t => ErrRec.ofTile s 22 2 t 0 detail
      | none => { ErrRec.base s 22 2 with
          cycsrc := 2, cyc := s.sbcyc, tag := ((rgn.bind s.region?).map Region.tag).getD 0, rgn := rgn.getD 0xFFFF,
          detail := detail }
    countRec s { rec_ with qid := q, part := qPart s q }

/-- Freeze a queue for what the end of a packet, or an access to its memory or to a counter, has met (R434, R435, R450). -/
def endFreeze (s : State) (q : Nat) (f : EndFail) : State := freezeQueue (count s 25) q 6 none none f.1 f.2
def accessFreeze (s : State) (q : Nat) (e : JdFail) : State := endFreeze s q (accessFail e)

/-- The packet under way is over; what it meets freezes the queue. -/
def endPacket (s : State) (t q hdr : Nat) : State :=
  match overPacket s t q hdr with
  | (s, none) => s
  | (s, some f) => endFreeze s q f

/-- Unmap a queue. -/
def unmap (s : State) (q : Nat) : State :=
  match releaseThread s q true with
  | (s, none) => s
  | (s, some f) => endFreeze s q f

/-- State of a queue after an unmap that was no freeze (R328): PENDING if work is left, else IDLE. -/
def afterUnmap (s : State) (q : Nat) : State :=
  if qState s q = 4 then s
  else
    match headerAt s q with
    | (s, .error e) => accessFreeze s q e
    | (s, .ok w) => if w % 256 != 0 || qWaiting s q then pend s q else qEnter s q 1 0 (qPrio s q)

end Sys2Proof.Machine
end

