-- ==== Sys2Proof/Machine/Traps.lean ====
section
/-! DEFINITION. Raising exceptions, entering system code with the whole machine around the tile, and returning from it
(R182, R206, R207, R381 to R384, R403, R405, R417 to R420). -/

namespace Sys2Proof.Machine

/-! ### Withdrawal and entry -/

/-- Withdraw what a trap withdraws on every engine, with the requests that stand elsewhere for it (R182, R288). -/
def withdrawS (s : State) (tid : Nat) : State :=
  let tix := tixOf s tid
  let s := match (s.tile tid).rgn with
    | some r => s.updRegion r (fun v => { v with reqs := v.reqs.filter (fun q => q.2.1 != tix) })
    | none => s
  s.setTile tid (engines.foldl withdraw (s.tile tid))

/-- The program counters of the engines as a trap saves them; an engine whose queue is empty has its own looked up. -/
def entryPcs (s : State) (tid : Nat) : State × List Nat :=
  engines.foldl (fun (p : State × List Nat) g =>
    let (s, a) := nextPc p.1 tid g
    (s, p.2 ++ [a])) (s, [])

/-- Enter the trap that waits, if every instruction it waits for has retired (R206), and no cycle is under way, whose entries may raise
another one that comes first (R383). An engine's address may have to be read from a peer's memory first. -/
def tryEnter (s : State) (tid : Nat) : State :=
  match (s.tile tid).enter with
  | none => s
  | some tr =>
    let s := withdrawS s tid
    if s.inCycle || !trapReady (s.tile tid) then s
    else
      let (s', pcs) := entryPcs s tid
      if s'.starved then { s' with starved := false }
      else s'.setTile tid (enterTrap (s'.tile tid) tr (fun g => pcs[g.num]?.getD 0))

/-- A cycle is over: its offences are recorded (R425), and tiles enter the traps that were raised in it (R383). -/
def endCycle (s : State) : State :=
  ((s.tiles.filter (fun p => p.2.enter.isSome)).map Prod.fst).foldl tryEnter (recordOffences { s with inCycle := false })

/-- TRAP_ENTRY: the tile enters its trap once its matrix commands have retired. -/
def execTrapEntry (tid : Nat) (s : State) : Host.Outcome State Fault Refusal := .next (tryEnter s tid)

/-! ### Raising (R382 to R384) -/

/-- An exception of system code: the tile stops, its queue freezes with cause 0, and the tile is to be saved as it stands, with SUB 2, if no
pre-emption is pending (R384, R409). -/
def freezeInSys (s : State) (tid : Nat) (g : Eng) (code sub : Nat) (counted : Bool) : State :=
  let s := s.updTile tid (fun t => { t with halted := true })
  let s := if counted then s else count s 21
  match (s.tile tid).rgn with
  | none => s
  | some r =>
    match s.region? r with
    | none => s
    | some v =>
      let s := s.setRegion r { v with notResumable := true }
      let s := freezeQueue s v.qid 0 (some r) (some tid) g.num ([BitVec.ofNat 8 code, BitVec.ofNat 8 sub] ++ natLe 6 0)
      s.updTile tid (fun t => if t.preempt.isNone then t.setPreempt (some 2) else t)

/-- The engine's next instruction stands at the head of its queue: every older one has retired (R382). -/
def atHead (t : Tile) (g : Eng) : Bool :=
  match pruneQ (t.eng g).queue with
  | q :: _ => q.isUnissued
  | [] => false

/-- A precise exception of the engine's next instruction; until it stands at the head, nothing happens (R382, R384). -/
def raisePrecise (s : State) (tid : Nat) (g : Eng) (code sub info : Nat) : State :=
  let t := s.tile tid
  if !t.live || !atHead t g then s
  else if t.sys then freezeInSys s tid g code sub false
  else
    tryEnter (s.setTile tid { t with enter := some { code := code, sub := sub, eng := g, impr := false, slot := none, info := info } }) tid

/-- Codes counted in class 21, and INTERLOCK in class 23 (R381, R403, R417, R431, R444). -/
def countTrap (s : State) (code : Nat) : State :=
  if code == 7 || code == 8 || code == 0x11 || code == 0x14 then count s 21
  else if code == 0x13 then count s 23
  else s

/-- An imprecise exception; `user` if user code started what raised it (R383, R384, R403). While another trap waits for entry, a
translation fault is not kept: its access is made again after RFE (R418). -/
def raiseImprecise (s : State) (tid : Nat) (tr : Trap) (user : Bool) : State :=
  let s := countTrap s tr.code
  let t := s.tile tid
  if !t.started then s
  else if t.halted || t.enter.isSome then (if tr.code == 0x12 then s else s.setTile tid { t with after := t.after ++ [tr] })
  else if t.sys then
    if user then s.setTile tid { t with after := t.after ++ [tr] }
    else freezeInSys s tid tr.eng tr.code tr.sub (tr.code == 7 || tr.code == 8 || tr.code == 0x11 || tr.code == 0x14)
  else tryEnter (s.setTile tid { t with enter := some tr }) tid

/-- XLATE of an engine's data access: imprecise, raised in the step of the access (R417, R418). -/
def raiseXlate (s : State) (tid : Nat) (g : Eng) (sub info : Nat) : State :=
  raiseImprecise s tid { code := 0x12, sub := sub, eng := g, impr := true, slot := none, info := info } (!(s.tile tid).sys)

/-- OPERAND (R391). -/
def raiseOperand (s : State) (tid : Nat) (g : Eng) (sub : Nat) : State := raisePrecise s tid g 6 sub 0

/-- PRIV (R389). -/
def raisePriv (s : State) (tid : Nat) (g : Eng) : State := raisePrecise s tid g 5 0 0

/-! ### What an entry that is no instruction raises (R383, R385 to R389, R420) -/

/-- Exception of an entry: code, sub-code and INFO; none for an instruction that decodes. -/
def entryFault (g : Eng) (sys : Bool) (q : QEntry) : Option (Nat × Nat × Nat) :=
  match q.kind with
  | .bad => some (2, 0, 0)
  | .xlate sub info => some (0x12, sub, info)
  | .instr w x =>
    match decodeLane g w x with
    | .ok _ => none
    | .illOp => some (3, 0, 0)
    | .illField so => if so && !sys then some (5, 0, 0) else some (4, 0, 0)

/-- PRECISE_EXCEPTION: the engine's next entry raises what it raises. -/
def execPreciseException (tid : Nat) (g : Eng) (s : State) : Host.Outcome State Fault Refusal :=
  match nextEntry (s.tile tid) g with
  | none => .next s
  | some q =>
    match entryFault g (s.tile tid).sys q with
    | none => .next s
    | some (code, sub, info) => .next (raisePrecise s tid g code sub info)

/-! ### Return (R207, R383, R392, R402, R405) -/

/-- After the return, what waited for it is taken before any engine issues. -/
def takePending (s : State) (tid : Nat) : State :=
  let t := s.tile tid
  match t.after with
  | tr :: r => if t.enter.isNone && !t.sys then tryEnter (s.setTile tid { t with after := r, enter := some tr }) tid else s
  | [] => s

/-- Return from system code: stopped slots resume but for those whose own exception still waits, and an array dropped by an
error fires again unless its exception still waits (R383, R392, R394). -/
def leaveS (s : State) (tid : Nat) : State :=
  let t := s.tile tid
  let t := { t with
    slots := t.slots.map (fun p => (p.1, { p.2 with stopped := t.after.any (fun e => e.slot == some p.1) }))
    arr := { t.arr with dropped := t.arr.dropped && t.after.any (fun e => e.code == 8) }
    il := if t.il.st = .victim then { t.il with st := .idle, count := 0, armed := false } else t.il }
  takePending (s.setTile tid (leaveTrap t)) tid

/-- Every instruction in flight but RFE has retired (R207). -/
def onlyRfe (t : Tile) : Bool :=
  engines.all (fun g => (t.eng g).queue.all (fun q => match q.stat with
    | .flight .rfe _ _ _ => true
    | .flight _ _ _ _ => false
    | _ => true)) && t.cmds.isEmpty

/-- Position of RFE in the engine's queue, if it can retire now. -/
def rfeAt (t : Tile) (g : Eng) : Option Nat :=
  (t.eng g).queue.findIdx? (fun q => match q.stat with
    | .flight .rfe sig _ _ => onlyRfe t && sigRoom t g sig
    | _ => false)

/-- RFE retires and the engines return, once nothing else is in flight. -/
def settleRfe (s : State) (tid : Nat) (g : Eng) : State :=
  match rfeAt (s.tile tid) g with
  | some k => leaveS (completeS s tid g k (Result.value none 0) false) tid
  | none => s

end Sys2Proof.Machine
end

