-- ==== Sys2Proof/Machine/Operands.lean ====
section
/-! DEFINITION. Operand forms: immediates and extensions (R158), the values read at issue and the wait for them (R179), the
bundle and the target of a transfer of control (R155, R199), and the common shapes of an instruction. -/

namespace Sys2Proof.Machine

/-- What a meaning answers. -/
abbrev Out := Host.Outcome State Fault Refusal

/-! ### Immediates (R158) -/

/-- The immediate of an RI form: 11 bits, or 43 with an extension. -/
def immRI (imm : BitVec 11) (ext : Option Lane) : Word :=
  match ext with
  | none => imm.signExtend 64
  | some x => (x ++ imm : BitVec 43).signExtend 64

/-- The immediate of an I form: 17 bits, or 49 with an extension. -/
def immI (imm : BitVec 17) (ext : Option Lane) : Word :=
  match ext with
  | none => imm.signExtend 64
  | some x => (x ++ imm : BitVec 49).signExtend 64

/-- Zext(IMM17, 17). -/
def zimm17 (imm : BitVec 17) : Word := imm.setWidth 64

/-! ### Where the engine stands (R155, R158, R199) -/

/-- Bundle address of the engine's next instruction. -/
def hereBundle (s : State) : Nat :=
  match nextEntry (s.tile s.cur.1) s.cur.2 with
  | some q => q.bundle
  | none => 0

/-- Lane of the engine's next instruction. -/
def hereLane (s : State) : Nat :=
  match nextEntry (s.tile s.cur.1) s.cur.2 with
  | some q => q.lane
  | none => 0

/-- Target of a direct transfer. -/
def targetOf (bundle : Nat) (off : BitVec 17) : Nat :=
  (wd bundle + (off.signExtend 64) * 32).toNat

/-- The bundle after the one the engine stands in: the return point of CALL and JR. -/
def returnPoint (s : State) : Word := wd (hereBundle s) + 32

/-! ### Reading and waiting (R45, R179) -/

/-- The value of a register field for the engine that runs. -/
def val (s : State) (r : Reg) : Word := regVal s s.cur.1 s.cur.2 r

/-- Every wait of the next instruction of the engine that runs is met. -/
def ready (s : State) (tk : Tk) (srcs : List Reg) (dst : Option Reg) : Bool :=
  canIssue (s.tile s.cur.1) s.cur.2 tk srcs dst

/-- Every issued instruction of the engine that runs has retired (R208, R209, R401). -/
def readyAlone (s : State) (tk : Tk) (srcs : List Reg) (dst : Option Reg) : Bool :=
  ready s tk srcs dst && ((s.tile s.cur.1).eng s.cur.2).quiet

/-- The next instruction of the engine that runs would retire at once: its token has room, and nothing of R113 holds it. DEDUCED: an
instruction that takes effect at its issue does not issue before that (notes/assumptions/10.md). -/
def tokenRoom (s : State) (tk : Tk) : Bool :=
  let t := s.tile s.cur.1
  let sig := if tkSignals tk then some (t.sigp s.cur.2) else none
  sigRoom t s.cur.2 sig && joinFree (t.eng s.cur.2).queue none 0 sig

/-- Issue with a result; `keep` if the instruction has an effect that a trap lets stand (R182). -/
def done (s : State) (tk : Tk) (srcs : List Reg) (r : Result) (keep : Bool) : Out :=
  .next (finishS s s.cur.1 s.cur.2 tk srcs r keep)

/-- Issue with a result once the instruction would retire at once, `s'` being the state after its effect; before that it does not issue,
so that a trap finds nothing to withdraw (R182, R288; notes/assumptions/10.md). -/
def endNow (s s' : State) (tk : Tk) (srcs : List Reg) (r : Result) : Out :=
  .next (if finishes (s.tile s.cur.1) s.cur.2 tk srcs r then finishS s' s.cur.1 s.cur.2 tk srcs r false else s)

/-! ### Common shapes -/

/-- An instruction that waits for its sources and destination, then writes one value. -/
def aluOp (s : State) (tk : Tk) (d : Reg) (srcs : List Reg) (v : Word) : Out :=
  if ready s tk srcs (some d) then done s tk srcs (Result.value (some d) v) false else .next s

/-- A predicate as a mask; k0, which is never written, names none. -/
def predMask (k : Fin 8) : BitVec 8 := if k.val = 0 then 0 else 1#8 <<< k.val

/-- No older instruction of the engine that runs still writes a predicate that the mask names (R179). -/
def predsFree (s : State) (named : BitVec 8) : Bool :=
  pendingPreds ((s.tile s.cur.1).eng s.cur.2) &&& named == 0

/-- An instruction that waits for its sources and for the predicates that it reads (`reads`) and writes (`mask`), then writes those of
the mask. -/
def predOp (s : State) (tk : Tk) (srcs : List Reg) (reads mask vals : BitVec 8) : Out :=
  if ready s tk srcs none && predsFree s (reads ||| mask) then
    done s tk srcs { Result.value none 0 with preds := some (mask, vals) } false
  else .next s

/-- A transfer of control to a bundle, with publication and link (R199 to R203, R401): it waits for every older instruction and for
room in the outcome queues it names; the link is written after the sources have been read (R200). -/
def branchOp (s : State) (tk : Tk) (srcs : List Reg) (pub : BitVec 3) (taken : Bool) (target : Nat) (link : Option Reg) : Out :=
  if readyAlone s tk srcs link && pubRoom (s.tile s.cur.1) pub then
    done s tk srcs
      { dst := link, val := returnPoint s, preds := none, pub := pub, out := taken, post := if taken then .jump target else .pass }
      false
  else .next s

end Sys2Proof.Machine
end

