-- ==== Sys2Proof/Machine/LoadStore.lean ====
section
/-! DEFINITION. Loads and stores of the five spaces (R77 to R82, R106, R159, R190 to R193), requests to the host and to peers
(R344, R345, R347, R443, R444), and reads of poisoned units (R374). -/

namespace Sys2Proof.Machine

/-! ### Addresses (R159, R191) -/

def szBytes : Size → Nat
  | .b => 1 | .h => 2 | .w => 4 | .d => 8

/-- The byte offset of a memory form. -/
def memOff (ext : Option MemExt) : Word :=
  match ext with
  | none => 0
  | some e => e.off.signExtend 64

/-- An address with its low bits cleared (R79); n is 1, 2, 4 or 8. -/
def alignDown (a : Word) (n : Nat) : Word := a - wd (a.toNat % n)

/-- The address of a load or store. -/
def memAddr (base idx : Word) (ext : Option MemExt) (n : Nat) : Word := alignDown (base + idx + memOff ext) n

/-- Zext or Sext of n bytes. -/
def extend (zx : Bool) (n : Nat) (v : Word) : Word := if zx then zext v (8 * n) else sext v (8 * n)

/-! ### Requests to other agents (R344, R345, R347, R444) -/

/-- A record of a path that is lost, for a plain access (R444). -/
def lostPath (s : State) (tid pa : Nat) : State := countRec s (ErrRec.ofTile s 13 1 tid pa [])

/-- A request of the engine to another agent, not answered yet, touches the location: a younger access to it waits, a write too, since
another port could carry it past the first (R107, R108, R110, R347). -/
def clashes (s : State) (tid : Nat) (g : Eng) (p : Phys) (n : Nat) : Bool :=
  s.remotes.any (fun q => let r := q.2
    r.tile == tid && r.eng == g && r.unit == 0 && match p with
      | .mem _ _ => false
      | .host pa => r.host && r.pa < pa + n && pa < r.pa + r.n
      | .peer dev pa _ => !r.host && r.dev == dev && r.pa < pa + n && pa < r.pa + r.n)

/-- A release of the engine waits: an earlier access is not performed, which one to a peer is when its completion comes, whatever the
scope of the release (R110, R112, R347). -/
def relHeld (s : State) (tid : Nat) (g : Eng) : Bool := accPending ((s.tile tid).eng g)

/-! ### Reading (R373, R374) -/

/-- Physical location of a key as an error record gives it (notes/assumptions/8.md). -/
def locAddr (k : Nat) : Nat :=
  if isHbm k then k
  else if k < 2 ^ 41 then k % 2 ^ 30
  else if k < 2 ^ 42 then k % 2 ^ 22 + (k - 2 ^ 41) / 2 ^ 22 * 2 ^ 32
  else k % 2 ^ 18 + (k - 2 ^ 42) / 2 ^ 18 * 2 ^ 32

/-- A read of an engine that meets a poisoned unit is counted and logged (R374). -/
def noteSpoiled (s : State) (tid k n : Nat) : State :=
  if s.st.poisoned k n then countRec s (ErrRec.ofTile s 16 1 tid (locAddr k) []) else s

/-- The number that a run of storage holds. -/
def readNum (s : State) (ident k n : Nat) : Word := wd (leNat (readRun s ident k n))

/-! ### Synchronising loads (R82, R193) -/

/-- Every TSP word of the run is full. -/
def allFull (s : State) (k n : Nat) : Bool := (wordsOf k n).all s.st.full.contains

/-- Synchronising loads of the tile's engines that wait on a word of the run and came before `seq`. -/
def aheadAt (t : Tile) (k n seq : Nat) : Bool :=
  engines.any (fun g => (t.eng g).queue.any (fun q => match q.stat with
    | .flight (.syncLoad k' n' seq' _ _) _ _ _ => seq' < seq && (wordsOf k' n').any (wordsOf k n).contains
    | _ => false))

/-! ### The shared load -/

/-- A load at its location: it completes, waits at its bank, or sends a request. -/
def loadAt (s : State) (tid : Nat) (g : Eng) (tk : Tk) (srcs : List Reg) (d : Reg) (p : Phys) (n : Nat) (zx : Bool)
    (ord : LdOrd) : Out :=
  let fin (s : State) (v : Word) : Out := .next (finishS s tid g tk srcs (Result.value (some d) v) true)
  match p with
  | .mem k ident =>
    if ord == .sync && !(allFull s k n && !aheadAt (s.tile tid) k n s.reqNo) then
      .next ({ s with reqNo := s.reqNo + 1 }.setTile tid (startWait (s.tile tid) g tk srcs (.syncLoad k n s.reqNo zx d)))
    else
      let v := extend zx n (readNum s ident k n)
      let s := noteSpoiled s tid k n
      fin (if ord == .sync then { s with st := s.st.setEmpty k n } else s) v
  | .host pa =>
    if hostUp s then
      let (s, no) := newRemote s (Remote.base tid g pa n)
      .next (s.setTile tid (startWait (s.tile tid) g tk srcs (.remote no n zx (ord == .acq) d)))
    else fin s 0
  | .peer dev pa key =>
    match portFor s dev (fld pa 8 10) with
    | none => fin (lostPath s tid pa) 0
    | some port =>
      let (s, no) := newRemote s { Remote.base tid g pa n with host := false, dev := dev, port := port, key := key }
      .next (s.setTile tid (startWait (s.tile tid) g tk srcs (.remote no n zx (ord == .acq) d)))

/-- A P access to a tile of the group that has not started is held at its router (R35). -/
def peerHeld (s : State) (tid : Nat) (sp : Space) (a : Word) : Bool :=
  sp == .p && !(s.tile (groupOf tid * 16 + wfld a 20 4)).started

/-- A load (R191, R192). -/
def loadOp (s : State) (sp : Space) (tk : Tk) (d base idx : Reg) (sz : Size) (zx : Bool) (ord : LdOrd)
    (ext : Option MemExt) : Out :=
  let (tid, g) := s.cur
  let srcs := [base, idx]
  let n := szBytes sz
  let a := memAddr (val s base) (val s idx) ext n
  if !ready s tk srcs (some d) || accHeld ((s.tile tid).eng g) || peerHeld s tid sp a then .next s
  else
    match locate s (whoOf s tid g) sp a .read with
    | (s', .oob) => endNow s s' tk srcs (Result.value (some d) 0)
    | (s, .noUnit) => .next (raiseOperand s tid g 0x0C)
    | (s, .xlate sub info) => .next (raiseXlate s tid g sub info)
    | (s, .at_ p) => if clashes s tid g p n then .next s else loadAt s tid g tk srcs d p n zx ord

/-! ### The shared store -/

/-- Perform a write of an engine or of a unit of it at a physical target; one to a peer is performed when its completion comes
(R347). -/
def storeAt (s : State) (tid : Nat) (g : Eng) (p : Phys) (bs : List Byte) (unit : Nat) : State :=
  match p with
  | .mem k ident => writeRun s ident k bs
  | .host pa => if hostUp s then writeRun s 0 (hostKey pa) bs else s
  | .peer dev pa key =>
    (sendPeerWrite s dev pa key bs { Remote.base tid g pa 0 with unit := unit }).getD (lostPath s tid pa)

/-- The store retires, or waits for the completion of its write to a peer. -/
def endStore (s t : State) (tid : Nat) (g : Eng) (tk : Tk) (srcs : List Reg) : State :=
  if s.reqNo < t.reqNo then t.setTile tid (startWait (t.tile tid) g tk srcs (.remote s.reqNo 0 true false (.r 0)))
  else finishS t tid g tk srcs (Result.value none 0) true

/-- A store (R191, R192). -/
def storeOp (s : State) (sp : Space) (tk : Tk) (src base idx : Reg) (sz : Size) (ord : StOrd) (ext : Option MemExt) : Out :=
  let (tid, g) := s.cur
  let srcs := [src, base, idx]
  let n := szBytes sz
  let a := memAddr (val s base) (val s idx) ext n
  let e := (s.tile tid).eng g
  let bs := natLe n (val s src).toNat
  if !ready s tk srcs none || accHeld e || (ord == .rel && relHeld s tid g) || peerHeld s tid sp a then .next s
  else
    match locate s (whoOf s tid g) sp a .write with
    | (s', .oob) => endNow s s' tk srcs (Result.value none 0)
    | (s, .noUnit) => .next (raiseOperand s tid g 0x0C)
    | (s, .xlate sub info) => .next (raiseXlate s tid g sub info)
    | (s, .at_ p) =>
      if clashes s tid g p n then .next s
      else .next (endStore s (storeAt s tid g p bs 0) tid g tk srcs)

/-! ### Meanings -/

def execLdT (tk : Tk) (d base idx : Reg) (sz : Size) (zx : Bool) (ord : LdOrd) (ext : Option MemExt) (s : State) : Out :=
  loadOp s .t tk d base idx sz zx ord ext

def execLdP (tk : Tk) (d base idx : Reg) (sz : Size) (zx : Bool) (ord : LdOrd) (ext : Option MemExt) (s : State) : Out :=
  loadOp s .p tk d base idx sz zx ord ext

def execLdG (tk : Tk) (d base idx : Reg) (sz : Size) (zx : Bool) (ord : LdOrd) (ext : Option MemExt) (s : State) : Out :=
  loadOp s .g tk d base idx sz zx ord ext

def execLdY (tk : Tk) (d base idx : Reg) (sz : Size) (zx : Bool) (ord : LdOrd) (ext : Option MemExt) (s : State) : Out :=
  loadOp s .y tk d base idx sz zx ord ext

def execLdD (tk : Tk) (d base idx : Reg) (sz : Size) (zx : Bool) (ord : LdOrd) (ext : Option MemExt) (s : State) : Out :=
  loadOp s .d tk d base idx sz zx ord ext

def execStT (tk : Tk) (src base idx : Reg) (sz : Size) (ord : StOrd) (ext : Option MemExt) (s : State) : Out :=
  storeOp s .t tk src base idx sz ord ext

def execStP (tk : Tk) (src base idx : Reg) (sz : Size) (ord : StOrd) (ext : Option MemExt) (s : State) : Out :=
  storeOp s .p tk src base idx sz ord ext

def execStG (tk : Tk) (src base idx : Reg) (sz : Size) (ord : StOrd) (ext : Option MemExt) (s : State) : Out :=
  storeOp s .g tk src base idx sz ord ext

def execStY (tk : Tk) (src base idx : Reg) (sz : Size) (ord : StOrd) (ext : Option MemExt) (s : State) : Out :=
  storeOp s .y tk src base idx sz ord ext

def execStD (tk : Tk) (src base idx : Reg) (sz : Size) (ord : StOrd) (ext : Option MemExt) (s : State) : Out :=
  storeOp s .d tk src base idx sz ord ext

/-! ### Completions -/

/-- Position in an engine's queue of the entry whose wait satisfies a test. -/
def flightAt (t : Tile) (g : Eng) (p : Wait → Bool) : Option (Nat × Wait) :=
  match (t.eng g).queue.findIdx? (fun q => match q.stat with | .flight w _ _ _ => p w | _ => false) with
  | some k => match ((t.eng g).queue[k]?).map QEntry.stat with
    | some (.flight w _ _ _) => some (k, w)
    | _ => none
  | none => none

def Wait.isSync : Wait → Bool
  | .syncLoad .. => true
  | _ => false

/-- SYNC_LOAD_SERVED: the waiting load reads its words and sets them empty (R82, R193). -/
def execSyncLoadServed (tid : Nat) (g : Eng) (s : State) : Out :=
  let t := s.tile tid
  match flightAt t g Wait.isSync with
  | some (k, .syncLoad key n seq zx d) =>
    if allFull s key n && !aheadAt t key n seq then
      let v := extend zx n (readNum s 0 key n)
      let s := noteSpoiled s tid key n
      let s := { s with st := s.st.setEmpty key n }
      .next (completeS s tid g k (Result.value (some d) v) true)
    else .next s
  | _ => .next s

end Sys2Proof.Machine
end

