-- ==== Sys2Proof/Machine/Rings.lean ====
section
/-! DEFINITION. Element formats of pages (R59 to R61, R67), rings and their side-bands (R83 to R85, R219 to R222), ring status
(R203), and the engine ring operations (R235). -/

namespace Sys2Proof.Machine

/-! ### Formats and geometries (R59, R60, R67) -/

/-- Element bits of a format code; 0 if the code is reserved. -/
def fmtBits (c : Nat) : Nat :=
  match c with
  | 0x00 => 8 | 0x01 => 32 | 0x02 => 16 | 0x03 => 16
  | 0x08 => 8 | 0x09 => 8 | 0x0A => 6 | 0x0B => 6 | 0x0C => 4
  | 0x10 => 8 | 0x11 => 4 | 0x14 => 2 | 0x18 => 3
  | _ => 0

/-- The number format of a code, where it names one. -/
def fmtOf (c : Nat) : Option Fmt :=
  match c with
  | 0x01 => some .fp32 | 0x02 => some .fp16 | 0x03 => some .bf16
  | 0x08 => some .e4m3 | 0x09 => some .e5m2 | 0x0A => some .e3m2 | 0x0B => some .e2m3 | 0x0C => some .e2m1
  | 0x10 => some .int8 | 0x11 => some .int4 | 0x14 => some .t2
  | _ => none

/-- BYTES, FP32, FP16 or BF16. -/
def isWide (c : Nat) : Bool := c ≤ 3

/-- A narrow format that may be scaled. -/
def isNarrow (c : Nat) : Bool := 0x08 ≤ c && c ≤ 0x14 && fmtBits c != 0

def isCb3 (c : Nat) : Bool := c == 0x18

/-- Elements per block of a geometry code; 0 for none. -/
def geomLen (g : Nat) : Nat := if g = 0 || g > 4 then 0 else 8 * 2 ^ g

/-- R59 allows the geometry for the format. -/
def fmtGood (fmt geom : Nat) : Bool := fmtBits fmt != 0 && (geom == 0 || (geom ≤ 4 && isNarrow fmt))

/-- The page has a side area: scaled, or CB3. -/
def hasSide (fmt geom : Nat) : Bool := geom != 0 || isCb3 fmt

/-- Block length, block bytes E, and bytes s of a side entry (R67). -/
def blockLen (fmt geom : Nat) : Nat := if isCb3 fmt then 128 else geomLen geom
def blockBytes (fmt geom : Nat) : Nat := if isCb3 fmt then 256 else geomLen geom * fmtBits fmt / 8
def sideBytes (fmt : Nat) : Nat := if isCb3 fmt then 4 else 1

/-- Capacity of a slot of `b` bytes in elements of a page (R219). -/
def pageCap (fmt geom b : Nat) : Nat :=
  if hasSide fmt geom then blockLen fmt geom * (b / blockBytes fmt geom) else 8 * b / fmtBits fmt

/-- Blocks of a slot of `b` bytes (R219). DESIGN CHOICE: a slot header whose FMT or GEOM is reserved, or not allowed together, counts
blocks of 128 bytes; the spec says nothing of one (notes/assumptions/97.md). -/
def slotBlocks (fmt geom b : Nat) : Nat :=
  if hasSide fmt geom && fmtGood fmt geom then b / blockBytes fmt geom else cdiv b 128

/-! ### Rings (R83 to R85) -/

def Tile.ring (t : Tile) (n : Nat) : Ring := NMap.findD t.rings n Ring.reset
def Tile.setRing (t : Tile) (n : Nat) (r : Ring) : Tile := { t with rings := NMap.put t.rings n r }

/-- N, 0 for a ring that is not bound. -/
def Ring.n (r : Ring) : Nat := if r.bound then 2 ^ r.logn else 0

/-- Difference of two counters modulo 2^32. -/
def diff32 (a b : Nat) : Nat := (a + 2 ^ 32 - b % 2 ^ 32) % 2 ^ 32

/-- Slot bytes, and side-band bytes. -/
def Ring.bytes (r : Ring) : Nat := 32 * r.slot
def Ring.sideLen (r : Ring) : Nat := 4 * r.side

/-- Offset of the slot and of its side-band for a counter value. -/
def Ring.slotOff (r : Ring) (i : Nat) : Nat := r.base + i % 2 ^ r.logn * r.bytes
def Ring.sideOff (r : Ring) (i : Nat) : Nat := r.sbase + i % 2 ^ r.logn * r.sideLen

/-- Bytes of the allocation that a space's offsets wrap in. -/
def spaceLen (s : State) (tid : Nat) (g : Bool) : Nat := if g then 2 ^ gspLog s tid else 2 ^ tspLog s tid

/-- Location of an offset in T, or in G, wrapped (R77). -/
def spaceKey (s : State) (tid : Nat) (g : Bool) (off : Nat) : Nat :=
  if g then gspKey (groupOf tid) (off % spaceLen s tid g) else tspKey tid (off % spaceLen s tid g)

/-- A run of offsets as runs of locations: two if it wraps. -/
def spaceRuns (s : State) (tid : Nat) (g : Bool) (off n : Nat) : List (Nat × Nat) :=
  let lim := spaceLen s tid g
  let o := off % lim
  if o + n ≤ lim then [(spaceKey s tid g o, n)]
  else [(spaceKey s tid g o, lim - o), (spaceKey s tid g 0, min (n - (lim - o)) lim)]

/-- Bytes from an offset, and whether any unit of them is poisoned. -/
def spaceBytes (s : State) (tid : Nat) (g : Bool) (off n : Nat) : List Byte :=
  (range off n).map (fun o => s.st.byte (spaceKey s tid g o))
def spaceSpoiled (s : State) (tid : Nat) (g : Bool) (off n : Nat) : Bool :=
  (spaceRuns s tid g off n).any (fun p => s.st.poisoned p.1 p.2)

/-- Write bytes from an offset. -/
def spaceWrite (s : State) (tid : Nat) (g : Bool) (off : Nat) (bs : List Byte) : State :=
  match spaceRuns s tid g off bs.length with
  | [(k, _)] => writeRun s 0 k bs
  | (k, n) :: (k', m) :: _ => writeRun (writeRun s 0 k (bs.take n)) 0 k' ((bs.drop n).take m)
  | [] => s

/-- Bytes past the end of an allocation in CHECK mode; a page without a G allocation has none inside (R424). -/
def checkLen (s : State) (tid : Nat) (g : Bool) : Nat := if g && gspLog s tid = 0 then 0 else spaceLen s tid g

/-- An access to a ring slot of a tile leaves the allocation, and the agent that makes it checks that. -/
def slotOob (s : State) (w : Who) (tid : Nat) (g : Bool) (off n : Nat) : Bool := w.check && n != 0 && off + n > checkLen s tid g

/-- Record the offence of a ring slot's access (R424, R425). -/
def noteSlot (s : State) (w : Who) (tid : Nat) (g wr : Bool) (off n : Nat) : State :=
  if slotOob s w tid g off n then noteOffence s w (if g then 2 else 0) wr (wd (max off (checkLen s tid g))) else s

/-- Bytes of a ring slot as a command reads them; those out of range read as zero (R424). -/
def slotBytes (s : State) (w : Who) (g : Bool) (off n : Nat) : State × List Byte :=
  (noteSlot s w w.tid g false off n,
    if slotOob s w w.tid g off n then
      spaceBytes s w.tid g off (checkLen s w.tid g - off) ++ natLe (n - (checkLen s w.tid g - off)) 0
    else spaceBytes s w.tid g off n)

/-- Write bytes of a ring slot of a tile as a command does; those out of range are dropped (R424). -/
def slotWrite (s : State) (w : Who) (tid : Nat) (g : Bool) (off : Nat) (bs : List Byte) : State :=
  if slotOob s w tid g off bs.length then
    noteSlot (spaceWrite s tid g off (bs.take (checkLen s tid g - off))) w tid g true off bs.length
  else spaceWrite s tid g off bs

/-- The words of a T slot and of its side-band become empty when it is released (R82). -/
def emptySlot (s : State) (tid : Nat) (r : Ring) (i : Nat) : State :=
  if r.spG then s
  else
    let runs := spaceRuns s tid false (r.slotOff i) r.bytes ++
      (if r.side = 0 then [] else spaceRuns s tid false (r.sideOff i) r.sideLen)
    { s with st := runs.foldl (fun st p => st.setEmpty p.1 p.2) s.st }

/-- Release `c` slots from `from_` upward. -/
def emptySlots (s : State) (tid : Nat) (r : Ring) (from_ : Nat) (c : Nat) : State :=
  (range from_ c).foldl (fun s i => emptySlot s tid r i) s

/-! ### Side-bands (R220) -/

/-- P of R220. -/
def poisonWords (nblk : Nat) : Nat := cdiv nblk 32

/-- Blocks of a record's payload (R134). -/
def recBlocks (hdr : Nat) : Nat := cdiv (4 * fld hdr 0 16) 128

/-- Blocks of a filled slot by its side-band word 0 (R203, R220). -/
def Ring.blocksBy (r : Ring) (w0 : Nat) : Nat :=
  if r.isRec then recBlocks w0 else slotBlocks (fld w0 16 6) (fld w0 22 4) r.bytes

/-- Slot header (R220). -/
def slotHeader (nelem fmt geom : Nat) (last : Bool) : Nat :=
  nelem % 2 ^ 16 + fmt * 2 ^ 16 + geom * 2 ^ 22 + b2n last * 2 ^ 26 + nelem / 2 ^ 16 % 32 * 2 ^ 27

/-- Poison words of a slot, as bits from bit 0. -/
def slotPoison (s : State) (tid : Nat) (r : Ring) (i : Nat) : Nat :=
  if r.side = 0 then 0
  else
    let w0 := leNat (spaceBytes s tid r.spG (r.sideOff i) 4)
    leNat (spaceBytes s tid r.spG (r.sideOff i + 4) (4 * poisonWords (r.blocksBy w0)))

/-! ### Sides of a ring (R222) -/

/-- Opcodes of the stream commands (R214). -/
def opSld : Nat := 0x40
def opSst : Nat := 0x41
def opSgath : Nat := 0x42
def opSscat : Nat := 0x43
def opSrec : Nat := 0x44
def opSmc : Nat := 0x45
def opScpy : Nat := 0x46
def opSchr : Nat := 0x47
def opSchw : Nat := 0x48
def opSbar : Nat := 0x49
def opStash : Nat := 0x4B
def opClst : Nat := 0xA9

def Tile.slot (t : Tile) (n : Nat) : Slot := NMap.findD t.slots n Slot.reset
def Tile.setSlot (t : Tile) (n : Nat) (v : Slot) : Tile := { t with slots := NMap.put t.slots n v }

/-- Ring whose producer side a slot holds in its own tile. -/
def Slot.produces (v : Slot) : Option Nat :=
  let x := v.extv.toNat
  if v.opc = opSld || v.opc = opSgath || v.opc = opSchr then some (fld x 0 5)
  else if v.opc = opSrec then some (fld x 5 5)
  else none

/-- Ring whose consumer side a slot holds. -/
def Slot.consumes (v : Slot) : Option Nat :=
  let x := v.extv.toNat
  if v.opc = opSst || v.opc = opSscat || v.opc = opSchw || v.opc = opSrec then some (fld x 0 5) else none

/-- A tile of the group multicasts into a ring of this tile (R225). -/
def multicastInto (s : State) (tid n : Nat) : Bool :=
  (range (groupOf tid * 16) 16).any (fun u => (s.tile u).slots.any (fun p =>
    p.2.act && p.2.opc == opSmc && fld p.2.extv.toNat 0 5 == n && tb p.2.extv.toNat (16 + peerOf tid)))

/-- A stream or a port holds the producer side. -/
def producerHeld (s : State) (tid n : Nat) : Bool :=
  let t := s.tile tid
  t.slots.any (fun p => p.2.act && p.2.produces == some n) || multicastInto s tid n
    || t.ports.any (fun p => 16 ≤ p.1 && p.2 == n)

/-- A stream or a port holds the consumer side. -/
def consumerHeld (s : State) (tid n : Nat) : Bool :=
  let t := s.tile tid
  t.slots.any (fun p => p.2.act && p.2.consumes == some n) || t.ports.any (fun p => p.1 < 16 && p.2 == n)

/-- What OPERAND sub-code, if any, keeps a ring from being used: no binding, a held side, no G allocation (R391). -/
def ringFault (s : State) (tid n : Nat) (prod cons : Bool) : Option Nat :=
  let r := (s.tile tid).ring n
  if !r.bound then some 0x01
  else if (prod && producerHeld s tid n) || (cons && consumerHeld s tid n) then some 0x02
  else if r.spG && gspLog s tid = 0 && !(s.tile tid).check then some 0x0C
  else none

/-! ### Status (R203) -/

/-- READY, FREE and POISON of a ring. -/
def ringStatus (s : State) (tid n : Nat) : BitVec 5 :=
  let r := (s.tile tid).ring n
  if !r.bound then 0
  else
    let rdy := r.filled != r.taken
    BitVec.ofNat 5 (b2n rdy + 2 * b2n (diff32 r.claimed r.released != r.n) + 16 * b2n (rdy && slotPoison s tid r r.taken != 0))

/-! ### Ring operations (R235) -/

/-- Count of a ring operation. -/
def ringCount (s : State) (c : RingCnt) : Nat :=
  match c with
  | .imm n => n.toNat
  | .reg r => wfld (val s r) 0 13

/-- Registers that a count reads. -/
def cntSrcs (c : RingCnt) : List Reg :=
  match c with
  | .imm _ => []
  | .reg r => [r]

/-- A register count outside 1 to 4,096, or any count above N (R391). -/
def badCount (s : State) (c : RingCnt) (n : Nat) : Bool :=
  let k := ringCount s c
  k == 0 || k > 4096 || k > n

/-- Offsets of a slot and its side-band as WFILL and WFREE give them. -/
def slotWord (r : Ring) (i : Nat) : Word := wd (r.slotOff i % 2 ^ 32 + r.sideOff i % 2 ^ 32 * 2 ^ 32)

/-- The shape of the four ring operations: checks in ascending sub-code, which nothing but the operands waits for (R382), then the
step. `wait` says that the counters are not
there yet, `bad` that they are wrong. -/
def ringOp (s : State) (tk : Tk) (d : Reg) (c : RingCnt) (ring : Fin 32) (prod rel : Bool) (wait bad : Ring → Nat → Bool)
    (step : State → Ring → Nat → State × Word) : Out :=
  let (tid, g) := s.cur
  let r := (s.tile tid).ring ring.val
  let k := ringCount s c
  let srcs := cntSrcs c
  let t := s.tile tid
  if !ready s tk srcs (some d) then .next s
  else
    match ringFault s tid ring.val prod (!prod) with
    | some sub => .next (raiseOperand s tid g sub)
    | none =>
      if badCount s c r.n || bad r k then .next (raiseOperand s tid g 0x03)
      else if accHeld (t.eng g) || (rel && accPending (t.eng g))
        || !mayRetire t g (t.eng g).queue (Result.value (some d) 0) (sigOf t g tk) || wait r k then .next s
      else
        let (s, v) := step s r k
        .next (finishS s tid g tk srcs (Result.value (some d) v) false)

def execWfill (tk : Tk) (d : Reg) (c : RingCnt) (ring : Fin 32) (s : State) : Out :=
  ringOp s tk d c ring false false (fun r k => diff32 r.filled r.taken < k) (fun _ _ => false)
    (fun s r _ => (s, slotWord r r.taken))

def execWfree (tk : Tk) (d : Reg) (c : RingCnt) (ring : Fin 32) (s : State) : Out :=
  ringOp s tk d c ring true false (fun r k => diff32 r.claimed r.released + k > r.n) (fun _ _ => false)
    (fun s r k => (s.updTile s.cur.1 (fun t => t.setRing ring.val { r with claimed := (r.claimed + k) % 2 ^ 32 }),
      slotWord r r.claimed))

def execRpop (tk : Tk) (d : Reg) (c : RingCnt) (ring : Fin 32) (s : State) : Out :=
  ringOp s tk d c ring false true (fun _ _ => false) (fun r k => diff32 r.filled r.taken < k)
    (fun s r k =>
      let s' := emptySlots s s.cur.1 r r.released k
      (s'.updTile s.cur.1 (fun t => t.setRing ring.val
        { r with taken := (r.taken + k) % 2 ^ 32, released := (r.released + k) % 2 ^ 32 }), wd ((r.taken + k) % 2 ^ 32)))

def execRadv (tk : Tk) (d : Reg) (c : RingCnt) (ring : Fin 32) (s : State) : Out :=
  ringOp s tk d c ring true true (fun _ _ => false) (fun r k => diff32 r.claimed r.filled < k)
    (fun s r k => (s.updTile s.cur.1 (fun t => t.setRing ring.val { r with filled := (r.filled + k) % 2 ^ 32 }),
      wd ((r.filled + k) % 2 ^ 32)))

end Sys2Proof.Machine
end

