-- ==== Sys2Proof/Machine/ChanUnit.lean ====
section
/-! DEFINITION. The channel unit: the table, binding, records, acceptance, taking, Sidings and status (R127 to R144). -/

namespace Sys2Proof.Machine

/-! ### Handles and the table (R127, R128) -/

/-- Device of a handle, and its channel's number in this package. -/
def handleDev (h : Nat) : Nat := fld h 12 10
def handleChan (h : Nat) : Nat := fld h 0 12

def chan (s : State) (c : Nat) : Chan := NMap.findD s.chans c Chan.reset
def setChan (s : State) (c : Nat) (v : Chan) : State := { s with chans := NMap.put s.chans c v }

/-- The handle names a channel of this package. -/
def handleHere (s : State) (h : Nat) : Bool := handleDev h == devNo s

/-- CHANNEL_TABLE_WRITE: one 64-bit word of an entry (R128). -/
def chanWord (e : Chan) (word : Nat) (v : Word) : Chan :=
  let w := v.toNat
  if e.en then
    match word with
    | 0 => if tb w 0 then e else { e with en := false }
    | 1 => if e.wbound || e.rbound then e else { e with gpos := fld w 0 5 }
    | _ => e
  else
    match word with
    | 0 =>
      let e := { e with
        home := tb w 1, scope := fld w 2 2, logcap := fld w 4 4, part := fld w 8 4, base := fld w 32 32 }
      if tb w 0 then
        { e with en := true, wptr := 0, rptr := 0, swptr := 0, srptr := 0, spill := false, closed := false, nseg := 0,
                 recs := 0, grows := 0, marks := [], offered := none }
      else e
    | 1 => { e with gpos := fld w 0 5 }
    | _ => e

def execChannelTableWrite (die c word : Nat) (v : Word) (s : State) : Out :=
  let k := die % 4 * 1024 + c % 1024
  .next (setChan s k (chanWord (chan s k) word v))

/-! ### Binding (R131, R143, R397) -/

/-- SCOPE covers the home and the tile. -/
def scopeCovers (c : Nat) (e : Chan) (tid : Nat) : Bool :=
  match e.scope with
  | 0 => e.home && groupOf tid == e.gpos + 32 * (c / 1024)
  | 1 => dieOf tid == c / 1024
  | _ => true

/-- Bind one port of a tile; none if the binding fails. DEDUCED: a handle of another package binds here; R349 has no message that
would carry the binding to its home, which learns of it by an event of its own (`farBind`), or by the first RECORD
(notes/assumptions/75.md). -/
def bindPort (s : State) (tid : Nat) (h : Nat) (writer : Bool) : Option State :=
  if !handleHere s h then some s
  else
    let c := handleChan h
    let e := chan s c
    if !e.en || e.part != partOf s tid || (if writer then e.wbound else e.rbound) || !scopeCovers c e tid then none
    else if writer then
      some (setChan s c { e with
        wbound := true, wagent := agentOf s tid, wrgn := (s.tile tid).rgn
        wplaced := ((tileRegion? s tid).map Region.placedAt).getD 0 })
    else some (setChan s c { e with rbound := true, ragent := agentOf s tid })

/-- Release one port of a tile, if the tile is the agent that holds the end of the channel. -/
def unbindPort (s : State) (tid h : Nat) (writer : Bool) : State :=
  if !handleHere s h then s
  else
    let c := handleChan h
    let e := chan s c
    if writer then (if e.wagent = agentOf s tid then setChan s c { e with wbound := false } else s)
    else if e.ragent = agentOf s tid then setChan s c { e with rbound := false } else s

/-- Bind every port of a tile; the port that fails, if one does, and then none is bound. -/
def bindAll (s : State) (tid : Nat) : List (Nat × (Nat × Bool)) → Except Nat State
  | [] => .ok s
  | (p, h, w) :: r =>
    match bindPort s tid h w with
    | some s => bindAll s tid r
    | none => .error p

/-- The channel is bound to a writer of another package (R131, R350): its agent. -/
def Chan.farWriter (s : State) (e : Chan) : Option Nat :=
  if e.wbound && e.wagent / 2048 != devNo s then some e.wagent else none

/-- Bind the writer of a record that comes from another device: SCOPE must cover it, and no other writer may hold the channel
(R131, R143). DEDUCED: the home knows the device only, so WAGENT names its tile 0 (notes/assumptions/75.md). -/
def bindFar (s : State) (c dev : Nat) : Option State :=
  let e := chan s c
  if e.scope != 3 then none
  else if e.wbound then (if e.wagent / 2048 = dev && dev != devNo s then some s else none)
  else some (setChan s c { e with wbound := true, wagent := dev * 2048, wrgn := none, wplaced := 0 })

/-- An agent of another package binds the writer's end of a channel here, or releases it (R131). DEDUCED: the spec has no message that
carries this, so it is an event of its own (notes/assumptions/75.md). -/
def farBind (s : State) (c agent : Nat) (bound : Bool) : State :=
  let e := chan s c
  if agent / 2048 = devNo s || 2 ^ 21 ≤ agent then s
  else if bound then
    if e.en && e.scope = 3 && !e.wbound then setChan s c { e with wbound := true, wagent := agent, wrgn := none, wplaced := 0 } else s
  else if e.wbound && e.wagent = agent then setChan s c { e with wbound := false } else s

def unbindAll (s : State) (tid : Nat) (ps : List (Nat × (Nat × Bool))) : State :=
  ps.foldl (fun s p => unbindPort s tid p.2.1 p.2.2) s

/-! ### Records (R132, R133) -/

def recLen (hdr : Nat) : Nat := fld hdr 0 16
def recEot (hdr : Nat) : Bool := tb hdr 16
def recPoison (hdr : Nat) : Bool := tb hdr 18
def recLast (hdr : Nat) : Bool := tb hdr 19
def recType (hdr : Nat) : Nat := fld hdr 24 8

/-- S of R133. -/
def recSize (hdr : Nat) : Nat := 32 * cdiv (4 * (1 + recLen hdr)) 32

/-- On-chip capacity. -/
def Chan.cap (e : Chan) : Nat := 2 ^ (12 + e.logcap)

/-- Location of a byte of the on-chip part. -/
def onChipKey (c : Nat) (e : Chan) (pos : Nat) : Nat :=
  let off := e.base + pos % e.cap
  if e.home then gspKey (e.gpos + 32 * (c / 1024)) off else yardKey (c / 1024) off

/-- Write to the on-chip part, wrapping at its end. -/
def onChipWrite (s : State) (c : Nat) (e : Chan) (pos : Nat) (bs : List Byte) : State :=
  let room := e.cap - pos % e.cap
  let s := writeRun s 0 (onChipKey c e pos) (bs.take room)
  if bs.length ≤ room then s else writeRun s 0 (onChipKey c e (pos + room)) (bs.drop room)

/-- Bytes of a segment of the ring of Sidings. -/
def segLen : Nat := 2 ^ 21

/-- Virtual address of a Siding position (R137). -/
def sidingVa (s : State) (e : Chan) (pos : Nat) : Nat :=
  let pool := (mreg s (0x2500 + 8 * e.part)).toNat
  (fld pool 21 27 + NMap.findD e.segs (pos / segLen % 16) 0) * segLen + pos % segLen

/-- Pages of a run of Siding positions, by number of 64 KiB: location and key identity of each that the channel unit can reach. The
walks count what they meet (R423). DESIGN CHOICE: a page that does not translate or refuses the access is not reached, and a Yard page
of class channel serves as memory; the spec gives these accesses no fate (notes/assumptions/74.md). -/
def sidingPages (s : State) (e : Chan) (acc : Acc) : List Nat → State × NMap (Nat × Nat)
  | [] => (s, [])
  | p :: r =>
    let (s, t) := translateJd s e.part (sidingVa s e (p * 65536)) acc true
    let (s, m) := sidingPages s e acc r
    (s, match t with | .ok (.mem k i) => (p, k, i) :: m | _ => m)

/-- Numbers of the 64 KiB pages that a run touches. -/
def pagesOf (pos n : Nat) : List Nat := range (pos / 65536) ((pos + n - 1) / 65536 - pos / 65536 + 1)

/-- Location and key identity of a Siding position. -/
def sidingKey (m : NMap (Nat × Nat)) (pos : Nat) : Option (Nat × Nat) :=
  (NMap.find? m (pos / 65536)).map (fun k => (k.1 + pos % 65536, k.2))

/-- Write to a Siding in pieces of 32 bytes; a piece on a page that is not reached is lost. -/
def sidingPieces (s : State) (m : NMap (Nat × Nat)) (pos : Nat) : List (List Byte) → State
  | [] => s
  | b :: r =>
    match sidingKey m pos with
    | some (k, i) => sidingPieces (writeRun s i k b) m (pos + 32) r
    | none => sidingPieces s m (pos + 32) r

def sidingWrite (s : State) (e : Chan) (pos : Nat) (bs : List Byte) : State :=
  let (s, m) := sidingPages s e .write (pagesOf pos bs.length)
  sidingPieces s m pos (chunk 32 bs.length bs)

/-- One byte of a record by its position, with whether its unit is poisoned; a page that is not reached reads as poisoned zeros. -/
def chanByte (s : State) (c : Nat) (e : Chan) (pages : Option (NMap (Nat × Nat))) (pos : Nat) : Byte × Bool :=
  match pages with
  | some m =>
    match sidingKey m pos with
    | some (k, i) => (hbmByte s i k, s.st.poison.contains (unitOf k))
    | none => (0, true)
  | none =>
    let k := onChipKey c e pos
    (s.st.byte k, s.st.poison.contains (unitOf k))

/-- Bytes of a channel from a position, each with its mark, on chip or in a Siding. -/
def chanRun (s : State) (c : Nat) (siding : Bool) (pos n : Nat) : State × List (Byte × Bool) :=
  let e := chan s c
  if siding then
    let (s, m) := sidingPages s e .read (pagesOf pos n)
    (s, (range pos n).map (chanByte s c e (some m)))
  else (s, (range pos n).map (chanByte s c e none))

/-- The header word at a position, 0 where its unit is poisoned (R373), and whether it is. -/
def headerWord (s : State) (c : Nat) (siding : Bool) (pos : Nat) : State × Nat × Bool :=
  let (s, bs) := chanRun s c siding pos 4
  (s, leNat (bs.map Prod.fst), bs.any Prod.snd)

/-! ### Acceptance (R135) -/

/-- Where a record goes: on chip, into a Siding after padding, or nowhere yet. -/
inductive Room where
  | chip
  | siding (pad : Nat)
  | full
  deriving DecidableEq, Repr

/-- The place for a record of size S. -/
def roomFor (e : Chan) (size : Nat) : Room :=
  if !e.spill then if diff32 e.wptr e.rptr + size ≤ e.cap then .chip else .full
  else
    let at_ := e.swptr % segLen
    let pad := if at_ != 0 && size > segLen - at_ then segLen - at_ else 0
    if diff32 (e.swptr + pad + size) (e.srptr - e.srptr % segLen) ≤ e.nseg * segLen then .siding pad else .full

/-- Accept a record, or leave it blocked on full: none. `marks` has a bit for each poisoned block. -/
def accept (s : State) (c : Nat) (hdr : Nat) (payload : List Byte) (marks : Nat) : Option State :=
  let e := chan s c
  let hdr := if marks != 0 then setFld hdr 18 1 1 else hdr
  let size := recSize hdr
  let bs := natLe 4 hdr ++ payload
  let note (e : Chan) : Chan :=
    { e with recs := (e.recs + 1) % 2 ^ 32, closed := e.closed || recLast hdr, marks := e.marks ++ [marks] }
  let counted (s : State) : State :=
    if recPoison hdr then countRec s { ErrRec.base s 18 1 with part := e.part } else s
  match roomFor e size with
  | .full => none
  | .chip =>
    let s := onChipWrite s c e e.wptr bs
    some (counted (setChan s c (note { e with wptr := (e.wptr + size) % 2 ^ 32 })))
  | .siding pad =>
    let s := if pad > 0 then sidingWrite s e e.swptr (natLe 4 (0xFF * 2 ^ 24)) else s
    let p := (e.swptr + pad) % 2 ^ 32
    let s := sidingWrite s e p bs
    some (counted (setChan s c (note { e with swptr := (p + size) % 2 ^ 32 })))

/-! ### Segments (R137, R138, R150) -/

/-- The region whose tile bound the writer's end last, while it has not retired: its id stands for the placement only (R150). -/
def writerRegion (s : State) (e : Chan) : Option (Nat × Region) :=
  match e.wrgn with
  | none => none
  | some r => match s.region? r with
    | some v => if v.placedAt = e.wplaced then some (r, v) else none
    | none => none

/-- Give a segment back to the pool and the budget of the writer's region, which may have retired. -/
def giveBack (s : State) (e : Chan) (seg : Nat) : State :=
  let s := { s with pools := NMap.put s.pools e.part (setDel (NMap.findD s.pools e.part []) seg) }
  match writerRegion s e with
  | some (r, v) => s.setRegion r { v with budget := v.budget + 1, reserved := v.reserved + 1 }
  | none =>
    if e.wrgn.isSome then { s with pastBudgets := NMap.put s.pastBudgets e.wplaced (NMap.findD s.pastBudgets e.wplaced 0 + 1) } else s

/-- Move SRPTR, returning each segment that it leaves behind. -/
def moveSrptr (s : State) (c : Nat) : Nat → Nat → State
  | 0, _ => s
  | fuel + 1, target =>
    let e := chan s c
    let next := (e.srptr / segLen + 1) * segLen
    if diff32 target e.srptr ≥ next - e.srptr then
      let s := giveBack s e (NMap.findD e.segs (e.srptr / segLen % 16) 0)
      moveSrptr (setChan s c { e with srptr := next % 2 ^ 32, nseg := e.nseg - 1 }) c fuel target
    else setChan s c { e with srptr := target }

/-- Leave spill mode once the reader has taken every Siding record (R138). -/
def endSpill (s : State) (c : Nat) : State :=
  let e := chan s c
  if e.spill && e.srptr == e.swptr then
    let s := (range (e.srptr / segLen) e.nseg).foldl (fun s i => giveBack s e (NMap.findD e.segs (i % 16) 0)) s
    setChan s c { e with spill := false, nseg := 0, swptr := 0, srptr := 0 }
  else s

/-- Pool segments that are held back for the regions of a partition (R334). -/
def poolReserved (s : State) (part : Nat) : Nat :=
  (s.regions.filter (fun p => p.2.part == part)).foldl (fun a p => a + p.2.reserved) 0

/-- Segments of a partition's pool that no channel holds. -/
def poolFree (s : State) (part : Nat) : List Nat :=
  let pool := (mreg s (0x2500 + 8 * part)).toNat
  (range 0 (if tb pool 0 then fld pool 1 10 else 0)).filter (fun i => !(NMap.findD s.pools part []).contains i)

/-- Growth at the home: the WHY of R430, or 0 for done (R150). `blocked` says that the writer is blocked on full. DESIGN CHOICE: a
writer of another package has no Siding budget here (notes/assumptions/75.md). A segment held back for another region is not free
(notes/assumptions/80.md). -/
def growChan (s : State) (c : Nat) (blocked : Bool) : State × Nat :=
  let e := chan s c
  let own_ := writerRegion s e
  let budget := (own_.map (fun p => p.2.budget)).getD 0
  let own := (own_.map (fun p => p.2.reserved)).getD 0
  let used := NMap.findD s.pools e.part []
  let free := if own = 0 && (poolFree s e.part).length ≤ poolReserved s e.part then none else (poolFree s e.part).head?
  if !blocked then (s, 0)
  else if e.nseg = 16 then (s, 4)
  else if budget = 0 then (s, 2)
  else
    match free with
    | none => (s, 3)
    | some seg =>
      let e := if e.spill then e else { e with spill := true, swptr := 0, srptr := 0 }
      let e := { e with
        segs := NMap.put e.segs ((e.srptr / segLen + e.nseg) % 16) seg
        nseg := e.nseg + 1
        grows := (e.grows + 1) % 2 ^ 32 }
      let s := setChan { s with pools := NMap.put s.pools e.part (setIns used seg) } c e
      match own_ with
      | some (r, v) => (s.setRegion r { v with budget := v.budget - 1, reserved := v.reserved - 1 }, 0)
      | none => (s, 0)

/-! ### Taking (R136) -/

/-- Where the oldest record lies: on chip, or at a Siding position past skip headers; none if there is no record. -/
def headAt (s : State) (c : Nat) : State × Option (Bool × Nat) :=
  let e := chan s c
  if e.rptr != e.wptr then (s, some (false, e.rptr))
  else if e.srptr != e.swptr then
    let (s, h, _) := headerWord s c true e.srptr
    if recType h = 0xFF then (s, some (true, (e.srptr / segLen + 1) * segLen % 2 ^ 32)) else (s, some (true, e.srptr))
  else (s, none)

/-- A record as a reader gets it: header, payload, a mark for each block that is poisoned, and whether its stored bytes spoiled it
(R373). -/
structure Taken where
  hdr : Nat
  payload : List Byte
  marks : Nat
  spoiled : Bool
  deriving DecidableEq, Repr

/-- The whole record at a position. A header unit that fails correction reads as LENGTH 0 with POISON. -/
def recordAt (s : State) (c : Nat) (siding : Bool) (pos : Nat) : State × Taken :=
  let (s, hdr, bad) := headerWord s c siding pos
  let (s, bs) := chanRun s c siding (pos + 4) (4 * recLen hdr)
  let stored := (range 0 (recBlocks hdr)).foldl (fun m b =>
    if ((bs.drop (128 * b)).take 128).any Prod.snd then m + 2 ^ b else m) 0
  let held := (chan s c).marks.headD 0
  let marks := Nat.lor stored (held % 2 ^ recBlocks hdr)
  let payload := (range 0 bs.length).map (fun i =>
    if tb marks (i / 128) then 0 else ((bs[i]?).map Prod.fst).getD 0)
  (s, { hdr := if bad || marks != 0 then setFld hdr 18 1 1 else hdr, payload := payload, marks := marks,
        spoiled := (bad || stored != 0) && !recPoison hdr && held == 0 })

/-- Take the record at the head: the state after it. Spill mode ends once no Siding record is left (R138). -/
def dropHead (s : State) (c : Nat) (siding : Bool) (pos size : Nat) : State :=
  let e := chan s c
  let s := setChan s c { e with marks := e.marks.drop 1 }
  let s := if siding then moveSrptr s c 17 ((pos + size) % 2 ^ 32)
    else setChan s c { chan s c with rptr := (e.rptr + size) % 2 ^ 32 }
  endSpill s c

end Sys2Proof.Machine
end

