-- ==== Sys2Proof/Machine/Scalar.lean ====
section
/-! DEFINITION. The shared integer subset (R183 to R189). -/

namespace Sys2Proof.Machine

/-! ### Values -/

/-- Sext(v[n−1:0], n) with n 32 if W is set. -/
def narrow (w : Bool) (v : Word) : Word := if w then sext v 32 else v

/-- MUL (R183). -/
def mulVal (hi : MulHi) (w : Bool) (a b : Word) : Word :=
  match hi with
  | .low => narrow w (a * b)
  | .hiS => ((a.signExtend 128 * b.signExtend 128).extractLsb' 64 64)
  | .hiU => ((a.setWidth 128 * b.setWidth 128).extractLsb' 64 64)

/-- Shift amount of an n-bit shift. -/
def shAmt (w : Bool) (b : Word) : Nat := wfld b 0 (if w then 5 else 6)

def shlVal (w : Bool) (a b : Word) : Word := narrow w (a <<< shAmt w b)

def shrVal (arith w : Bool) (a b : Word) : Word :=
  let x := if w then (if arith then sext a 32 else zext a 32) else a
  narrow w (if arith then x.sshiftRight (shAmt w b) else x >>> shAmt w b)

def minVal (u : Bool) (a b : Word) : Word := if (if u then a.ult b else a.slt b) then a else b
def maxVal (u : Bool) (a b : Word) : Word := if (if u then b.ult a else b.slt a) then a else b

/-- BFX (R187). -/
def bfxVal (a : Word) (pos : BitVec 6) (len : BitVec 5) : Word := wd (fld a.toNat pos.toNat (len.toNat + 1))

/-- BFI (R187): bits that would land above bit 63 are dropped. -/
def bfiVal (old a : Word) (pos : BitVec 6) (len : BitVec 5) : Word :=
  wd (setFld old.toNat pos.toNat (min (len.toNat + 1) (64 - pos.toNat)) a.toNat)

/-- LIH (R185). -/
def lihVal (old imm : Word) : Word := imm <<< 32 ||| zext old 32

/-- CNT (R188). -/
def cntVal (mode : CntMode) (w : Bool) (a : Word) : Word :=
  let n := if w then 32 else 64
  let v := a.toNat
  match mode with
  | .pop => wd ((range 0 n).filter (tb v)).length
  | .lz => wd ((range 0 n).takeWhile (fun i => !tb v (n - 1 - i))).length
  | .tz => wd ((range 0 n).takeWhile (fun i => !tb v i)).length

/-! ### Meanings -/

def execNop (tk : Tk) (_ign : BitVec 23) (s : State) : Out :=
  if ready s tk [] none then done s tk [] (Result.value none 0) false else .next s

def execAdd (tk : Tk) (d s1 s2 : Reg) (w : Bool) (s : State) : Out :=
  aluOp s tk d [s1, s2] (narrow w (val s s1 + val s s2))

def execSub (tk : Tk) (d s1 s2 : Reg) (w : Bool) (s : State) : Out :=
  aluOp s tk d [s1, s2] (narrow w (val s s1 - val s s2))

def execMul (tk : Tk) (d s1 s2 : Reg) (hi : MulHi) (w : Bool) (s : State) : Out :=
  aluOp s tk d [s1, s2] (mulVal hi w (val s s1) (val s s2))

def execAnd (tk : Tk) (d s1 s2 : Reg) (s : State) : Out := aluOp s tk d [s1, s2] (val s s1 &&& val s s2)

def execOr (tk : Tk) (d s1 s2 : Reg) (s : State) : Out := aluOp s tk d [s1, s2] (val s s1 ||| val s s2)

def execXor (tk : Tk) (d s1 s2 : Reg) (s : State) : Out := aluOp s tk d [s1, s2] (val s s1 ^^^ val s s2)

def execShl (tk : Tk) (d s1 s2 : Reg) (w : Bool) (s : State) : Out :=
  aluOp s tk d [s1, s2] (shlVal w (val s s1) (val s s2))

def execShr (tk : Tk) (d s1 s2 : Reg) (arith w : Bool) (s : State) : Out :=
  aluOp s tk d [s1, s2] (shrVal arith w (val s s1) (val s s2))

def execMin (tk : Tk) (d s1 s2 : Reg) (u : Bool) (s : State) : Out :=
  aluOp s tk d [s1, s2] (minVal u (val s s1) (val s s2))

def execMax (tk : Tk) (d s1 s2 : Reg) (u : Bool) (s : State) : Out :=
  aluOp s tk d [s1, s2] (maxVal u (val s s1) (val s s2))

def execCmp (tk : Tk) (c : Cond) (d s1 s2 : Reg) (s : State) : Out :=
  aluOp s tk d [s1, s2] (wd (b2n (condHolds c (val s s1) (val s s2))))

def execSel (tk : Tk) (d s1 s2 : Reg) (s : State) : Out :=
  aluOp s tk d [d, s1, s2] (if val s d ≠ 0 then val s s1 else val s s2)

def execBfx (tk : Tk) (d s1 : Reg) (pos : BitVec 6) (len : BitVec 5) (s : State) : Out :=
  aluOp s tk d [s1] (bfxVal (val s s1) pos len)

def execBfi (tk : Tk) (d s1 : Reg) (pos : BitVec 6) (len : BitVec 5) (s : State) : Out :=
  aluOp s tk d [d, s1] (bfiVal (val s d) (val s s1) pos len)

def execAddi (tk : Tk) (d s1 : Reg) (imm : BitVec 11) (ext : Option Lane) (s : State) : Out :=
  aluOp s tk d [s1] (val s s1 + immRI imm ext)

def execAndi (tk : Tk) (d s1 : Reg) (imm : BitVec 11) (ext : Option Lane) (s : State) : Out :=
  aluOp s tk d [s1] (val s s1 &&& immRI imm ext)

def execOri (tk : Tk) (d s1 : Reg) (imm : BitVec 11) (ext : Option Lane) (s : State) : Out :=
  aluOp s tk d [s1] (val s s1 ||| immRI imm ext)

def execXori (tk : Tk) (d s1 : Reg) (imm : BitVec 11) (ext : Option Lane) (s : State) : Out :=
  aluOp s tk d [s1] (val s s1 ^^^ immRI imm ext)

def execShli (tk : Tk) (d s1 : Reg) (n : BitVec 6) (w : Bool) (s : State) : Out :=
  aluOp s tk d [s1] (shlVal w (val s s1) (n.setWidth 64))

def execShri (tk : Tk) (d s1 : Reg) (n : BitVec 6) (arith w : Bool) (s : State) : Out :=
  aluOp s tk d [s1] (shrVal arith w (val s s1) (n.setWidth 64))

def execLi (tk : Tk) (d : Reg) (imm : BitVec 17) (ext : Option Lane) (s : State) : Out :=
  aluOp s tk d [] (immI imm ext)

def execLih (tk : Tk) (d : Reg) (imm : BitVec 17) (ext : Option Lane) (s : State) : Out :=
  aluOp s tk d [d] (lihVal (val s d) (immI imm ext))

def execCnt (tk : Tk) (d s1 : Reg) (mode : CntMode) (w : Bool) (_ign : BitVec 6) (s : State) : Out :=
  aluOp s tk d [s1] (cntVal mode w (val s s1))

/-- A TOKSEL value names its owner as a partner (R390). -/
def namesSelf (owner : Eng) (v : Word) : Bool := wfld v 0 2 == owner.num || wfld v 2 2 == owner.num

/-- TOKSEL keeps four bits (R163). -/
def toksel (v : Word) : Word := zext v 4

/-- TSEL (R189, R390): the new value stands when it retires. -/
def execTsel (tk : Tk) (src : Reg) (imm : BitVec 17) (s : State) : Out :=
  let (tid, g) := s.cur
  let v := val s src ||| zimm17 imm
  if !ready s tk [src] none then .next s
  else if namesSelf g v then .next (raiseOperand s tid g 0x0B)
  else if !tokenRoom s tk then .next s
  else
    let s' := finishS s tid g tk [src] (Result.value none 0) false
    .next (s'.updTile tid (fun t => t.setSpecial g.num (toksel v)))

end Sys2Proof.Machine
end

