-- ==== Sys2Proof/Machine/Control.lean ====
section
/-! DEFINITION. Predicates, branches, outcomes, division and scalar floating point (R194 to R203). -/

namespace Sys2Proof.Machine

/-! ### Branches (R199 to R203) -/

def execBr (tk : Tk) (pub : BitVec 3) (_kIgn : BitVec 3) (off : BitVec 17) (s : State) : Out :=
  branchOp s tk [] pub true (targetOf (hereBundle s) off) none

def execBt (tk : Tk) (pub : BitVec 3) (k : Fin 8) (off : BitVec 17) (s : State) : Out :=
  branchOp s tk [] pub ((s.tile s.cur.1).pred k) (targetOf (hereBundle s) off) none

def execBf (tk : Tk) (pub : BitVec 3) (k : Fin 8) (off : BitVec 17) (s : State) : Out :=
  branchOp s tk [] pub (!(s.tile s.cur.1).pred k) (targetOf (hereBundle s) off) none

/-- CALL: e31 receives the address of the next bundle. -/
def execCall (tk : Tk) (pub : BitVec 3) (_kIgn : BitVec 3) (off : BitVec 17) (s : State) : Out :=
  branchOp s tk [] pub true (targetOf (hereBundle s) off) (some (.r 31))

/-- JR: the target is S1 with bits [4:0] cleared; it publishes nothing. -/
def execJr (tk : Tk) (link : Option Reg) (s1 : Reg) (s : State) : Out :=
  branchOp s tk [s1] 0 true (alignDown (val s s1) 32).toNat link

/-- PUB: an outcome to each queue named, and no transfer; outcomes enter a queue in program order (R201). -/
def execPub (tk : Tk) (pub : BitVec 3) (k : Fin 8) (_ign : BitVec 17) (s : State) : Out :=
  if ready s tk [] none && predsFree s (predMask k) && !publishes ((s.tile s.cur.1).eng s.cur.2)
      && pubRoom (s.tile s.cur.1) pub then
    done s tk [] { Result.value none 0 with pub := pub, out := (s.tile s.cur.1).pred k } false
  else .next s

/-- The stream of a writer's port is blocked on full: the record in work has no room at a home here, or a home on another package has
not answered (R135, R142, R350). -/
def writerBlocked (s : State) (tid : Nat) (v : Slot) : Bool :=
  let t := s.tile tid
  let x := v.extv.toNat
  let h := ((NMap.find? t.chans (fld x 5 4)).map Prod.fst).getD 0
  v.act && !v.held && !v.addpend && !v.stopped && v.opc == opSchw && v.pos < v.rav.toNat &&
    (if handleHere s h then
      let r := t.ring (fld x 0 5)
      r.filled != r.taken && roomFor (chan s (handleChan h)) (recSize (leNat (spaceBytes s tid r.spG (r.sideOff r.taken) 4))) == .full
    else v.inFlight)

/-- Status of a channel port (R142, R395). Of a home on another package this end knows whether its record waits, and by the ACCEPT of the
last one whether the channel is closed; R349 has no message that tells more, and the rest is free (notes/assumptions/99.md). -/
def chanStatus (s : State) (tid port : Nat) : State × BitVec 5 :=
  let t := s.tile tid
  match NMap.find? t.chans port with
  | none => (s, 0)
  | some (h, writer) =>
    let blocked := writer && t.slots.any (fun p => fld p.2.extv.toNat 5 4 == port && writerBlocked s tid p.2)
    if handleHere s h then
      let c := handleChan h
      let e := chan s c
      let head := (headAt s c).2
      let rdy := !writer && head.isSome
      let pois := rdy && (match head with | some (sd, pos) => recPoison (recordAt s c sd pos).2.hdr | none => false)
      (s, BitVec.ofNat 5 (b2n rdy + 2 * b2n blocked + 4 * b2n e.closed + 8 * b2n e.spill + 16 * b2n pois))
    else
      let w := Config.freeWord s.ticks
      let closed := (NMap.find? t.farLast port).getD (w.getLsbD 2)
      ({ s with ticks := s.ticks + 1 }, BitVec.ofNat 5 (2 * b2n blocked + 4 * b2n closed + 8 * b2n (w.getLsbD 3)))

/-- BQS: test the status of a ring or a channel port, and branch (R203). -/
def execBqs (tk : Tk) (pub : BitVec 3) (off : BitVec 17) (ext : BqsExt) (s : State) : Out :=
  let tid := s.cur.1
  let (s', st) := if ext.chan then chanStatus s tid (ext.index.val % 16) else (s, ringStatus s tid ext.index.val)
  let hit := st &&& ext.mask != 0
  let taken := if ext.sense then !hit else hit
  if readyAlone s tk [] none && pubRoom (s.tile tid) pub then branchOp s' tk [] pub taken (targetOf (hereBundle s) off) none
  else .next s

/-- FOL: pop one outcome of the engine's own queue, and follow it (R202). -/
def folOp (s : State) (tk : Tk) (off : BitVec 17) : Out :=
  let (tid, g) := s.cur
  let t := s.tile tid
  match t.outcomes g with
  | [] => .next s
  | o :: rest =>
    if readyAlone s tk [] none && tokenRoom s tk then
      let target := targetOf (hereBundle s) off
      .next (finishS (s.setTile tid (t.setOutcomes g rest)) tid g tk []
        { Result.value none 0 with post := if o then .jump target else .pass } true)
    else .next s

def execFolA (tk : Tk) (off : BitVec 17) (s : State) : Out := folOp s tk off
def execFolM (tk : Tk) (off : BitVec 17) (s : State) : Out := folOp s tk off
def execFolY (tk : Tk) (off : BitVec 17) (s : State) : Out := folOp s tk off

/-! ### Predicates (R198) -/

def execPcmp (tk : Tk) (c : Cond) (comb : Combine) (k : Fin 8) (s1 s2 : Reg) (s : State) : Out :=
  let t := s.tile s.cur.1
  predOp s tk [s1, s2] (predMask k) (predMask k) (setPred t.preds k (combine comb (t.pred k) (condHolds c (val s s1) (val s s2))))

def execPcmpi (tk : Tk) (c : Cond) (k : Fin 8) (s1 : Reg) (imm : BitVec 11) (ext : Option Lane) (s : State) : Out :=
  predOp s tk [s1] 0 (predMask k) (setPred (s.tile s.cur.1).preds k (condHolds c (val s s1) (immRI imm ext)))

def execPlog (tk : Tk) (op : PlogOp) (k ka kb : Fin 8) (s : State) : Out :=
  let t := s.tile s.cur.1
  predOp s tk [] (predMask ka ||| predMask kb) (predMask k) (setPred t.preds k (plogVal op (t.pred ka) (t.pred kb)))

def execPget (tk : Tk) (d : Reg) (s : State) : Out :=
  if predsFree s (BitVec.allOnes 8) then aluOp s tk d [] ((s.tile s.cur.1).predBits.setWidth 64) else .next s

def execPset (tk : Tk) (mask vals : BitVec 8) (s : State) : Out :=
  predOp s tk [] 0 (mask &&& 0xFE) (psetVal (s.tile s.cur.1).preds mask vals)

/-! ### Division (R194) -/

/-- Operand of an n-bit division as an integer. DEDUCED: with .u and .w it is the low 32 bits as an unsigned number
(notes/assumptions/88.md). -/
def divArg (u w : Bool) (a : Word) : Int :=
  let n := if w then 32 else 64
  if u then (a.toNat % 2 ^ n : Nat) else sxi a.toNat n

/-- DIV: all ones for a zero divisor; the quotient rounds toward zero and wraps. -/
def divVal (u w : Bool) (a b : Word) : Word :=
  let y := divArg u w b
  if y = 0 then BitVec.allOnes 64 else narrow w (BitVec.ofInt 64 ((divArg u w a).tdiv y))

/-- REM: the dividend for a zero divisor; the sign of the dividend. -/
def remVal (u w : Bool) (a b : Word) : Word :=
  let y := divArg u w b
  if y = 0 then narrow w (BitVec.ofInt 64 (divArg u w a)) else narrow w (BitVec.ofInt 64 ((divArg u w a).tmod y))

def execDiv (tk : Tk) (d s1 s2 : Reg) (u w : Bool) (s : State) : Out :=
  aluOp s tk d [s1, s2] (divVal u w (val s s1) (val s s2))

def execRem (tk : Tk) (d s1 s2 : Reg) (u w : Bool) (s : State) : Out :=
  aluOp s tk d [s1, s2] (remVal u w (val s s1) (val s s2))

/-! ### Floating point (R195 to R197) -/

def FFmt.fmt : FFmt → Fmt
  | .f32 => .fp32 | .f16 => .fp16 | .bf16 => .bf16

def Rnd.mode : Rnd → RMode
  | .rne => .rne | .rtz => .rtz

def CvtKind.fmt : CvtKind → Fmt
  | .f32 => .fp32 | .f16 => .fp16 | .bf16 => .bf16 | .i64 => .int64 | .u64 => .uint64

/-- The value of a register's low bits in a format. -/
def fArg (f : FFmt) (v : Word) : FVal := (FFmt.fmt f).value (v.toNat % 2 ^ (FFmt.fmt f).width)

/-- A result rounded to a format, zero-extended. -/
def fRes (f : FFmt) (r : Rnd) (v : FVal) : Word := wd (v.round (FFmt.fmt f) (Rnd.mode r) 0)

def execFadd (tk : Tk) (d s1 s2 : Reg) (fmt : FFmt) (rnd : Rnd) (s : State) : Out :=
  aluOp s tk d [s1, s2] (fRes fmt rnd ((fArg fmt (val s s1)).add (fArg fmt (val s s2))))

def execFsub (tk : Tk) (d s1 s2 : Reg) (fmt : FFmt) (rnd : Rnd) (s : State) : Out :=
  aluOp s tk d [s1, s2] (fRes fmt rnd ((fArg fmt (val s s1)).add (fArg fmt (val s s2)).neg))

def execFmul (tk : Tk) (d s1 s2 : Reg) (fmt : FFmt) (rnd : Rnd) (s : State) : Out :=
  aluOp s tk d [s1, s2] (fRes fmt rnd ((fArg fmt (val s s1)).mul (fArg fmt (val s s2))))

def execFma (tk : Tk) (d s1 s2 s3 : Reg) (fmt : FFmt) (rnd : Rnd) (s : State) : Out :=
  aluOp s tk d [s1, s2, s3]
    (fRes fmt rnd (((fArg fmt (val s s1)).mul (fArg fmt (val s s2))).add (fArg fmt (val s s3))))

/-- FCVT (R196): a kind to itself copies its bits. -/
def fcvtVal (dst src : CvtKind) (rnd : Rnd) (v : Word) : Word :=
  let f := CvtKind.fmt src
  wd (convert f (CvtKind.fmt dst) (Rnd.mode rnd) 0 (v.toNat % 2 ^ f.width))

def execFcvt (tk : Tk) (d s1 : Reg) (dst src : CvtKind) (rnd : Rnd) (s : State) : Out :=
  aluOp s tk d [s1] (fcvtVal dst src rnd (val s s1))

def execFcmp (tk : Tk) (c : FCond) (fmt : FFmt) (k : Fin 8) (s1 s2 : Reg) (s : State) : Out :=
  predOp s tk [s1, s2] 0 (predMask k) (setPred (s.tile s.cur.1).preds k (fcondHolds c (fArg fmt (val s s1)) (fArg fmt (val s s2))))

end Sys2Proof.Machine
end

