-- ==== Sys2Proof/Machine/System.lean ====
section
/-! DEFINITION. System instructions of the E engine (R162 to R165, R204 to R209, R389, R390, R406). -/

namespace Sys2Proof.Machine

/-! ### TRAP and RFE (R206, R207) -/

/-- TRAP retires; the tile then enters system code, with the code in INFO. -/
def execTrap (tk : Tk) (_ign : BitVec 6) (code : BitVec 17) (s : State) : Out :=
  let (tid, g) := s.cur
  if !readyAlone s tk [] none || !tokenRoom s tk then .next s
  else if (s.tile tid).sys then .next (freezeInSys s tid g 1 0 false)
  else
    let s := finishS s tid g tk [] (Result.value none 0) true
    let s := s.updTile tid (fun t => { t with
      enter := some { code := 1, sub := 0, eng := g, impr := false, slot := none, info := code.toNat } })
    .next (tryEnter s tid)

/-- RFE: unissued entries are discarded; once every issued instruction has retired, the engines return. -/
def execRfe (tk : Tk) (_ign : BitVec 6) (s : State) : Out :=
  let (tid, g) := s.cur
  if !(s.tile tid).sys then .next (raisePriv s tid g)
  else if !ready s tk [] none then .next s
  else
    let t := startWait (s.tile tid) g tk [] .rfe
    let t := engines.foldl (fun t h => t.updEng h EngSt.discard) t
    .next (settleRfe (s.setTile tid t) tid g)

/-! ### Special registers (R162 to R165, R208, R389) -/

/-- Bits of a special register that a write changes. -/
def srWritable (n : Nat) : Word :=
  if n < 4 then 0xF
  else if n = 4 then 0x2
  else if n = 5 then ~~~0x1F
  else if n < 10 then ~~~0x18
  else if n = 10 then ~~~0xFE000000
  else if n < 15 then ~~~0x18
  else BitVec.allOnes 64

/-- MFS. -/
def execMfs (tk : Tk) (d : Reg) (n : Fin 64) (s : State) : Out :=
  aluOp s tk d [] ((s.tile s.cur.1).special n.val)

/-- MTS: registers 4 to 39 are written by system code only; TOKSEL never names its owner. -/
def execMts (tk : Tk) (src : Reg) (n : Fin 64) (s : State) : Out :=
  let (tid, g) := s.cur
  let v := val s src
  let old := (s.tile tid).special n.val
  let m := srWritable n.val
  if 4 ≤ n.val && !(s.tile tid).sys then .next (raisePriv s tid g)
  else if !readyAlone s tk [src] none then .next s
  else if n.val < 4 && namesSelf (Eng.ofNum n.val) v then .next (raiseOperand s tid g 0x0B)
  else if !tokenRoom s tk then .next s
  else
    let s := finishS s tid g tk [src] (Result.value none 0) false
    .next (s.updTile tid (fun t => t.setSpecial n.val (old &&& ~~~m ||| v &&& m)))

/-! ### ICSYNC, FENCE, END (R204, R205, R209) -/

def execIcsync (tk : Tk) (_ign : BitVec 6) (s : State) : Out :=
  if readyAlone s tk [] none && tokenRoom s tk then
    done s tk [] { Result.value none 0 with post := .icsync } false
  else .next s

/-- FENCE: retires once every earlier access of the engine is performed, with every access to a peer complete (R112, R347),
and its token has room. The model performs an access in its step, so that only
requests to other agents and synchronising loads are waited for (notes/assumptions/3.md). -/
def execFence (tk : Tk) (_ign : BitVec 6) (_scope : Scope) (s : State) : Out :=
  if ready s tk [] none && !relHeld s s.cur.1 s.cur.2 && tokenRoom s tk then
    done s tk [] (Result.value none 0) false
  else .next s

/-- A channel stream of the tile still runs on a port. -/
def portBusy (t : Tile) (port : Nat) : Bool :=
  t.slots.any (fun p => p.2.act && (p.2.opc == opSchr || p.2.opc == opSchw) && fld p.2.extv.toNat 5 4 == port)

/-- An ended tile gives up each port whose streams have completed (R131). -/
def unbindEnded (s : State) (tid : Nat) : State :=
  let t := s.tile tid
  if !t.ended then s
  else
    let idle := t.chans.filter (fun p => !portBusy t p.1)
    (unbindAll s tid idle).updTile tid (fun t => { t with chans := t.chans.filter (fun p => portBusy t p.1) })

/-- END: the tile ends; in system code it also leaves system mode (R209, R406). -/
def execEndTile (tk : Tk) (_ign : BitVec 6) (s : State) : Out :=
  let (tid, g) := s.cur
  if !readyAlone s tk [] none || !tokenRoom s tk then .next s
  else
    let s := s.updTile tid (fun t => { t with endAt := hereBundle s + hereLane s })
    let s := finishS s tid g tk [] { Result.value none 0 with post := .endTile } false
    .next (unbindEnded (s.updTile tid (fun t => t.setSys false)) tid)

end Sys2Proof.Machine
end

