-- ==== Sys2Proof/Machine/Streams.lean ====
section
/-! DEFINITION. Stream commands of the A engine at acceptance (R210, R213 to R216, R224 to R236, R391). -/

namespace Sys2Proof.Machine

/-! ### Records in the TSP (R216, R424) -/

/-- Bytes of the tile's TSP that an instruction reads as a record: wrapped, or in CHECK mode zero out of range with the
offence noted. -/
def recBytes (s : State) (w : Who) (a : Word) (n : Nat) : State × List Byte :=
  let lim := 2 ^ tspLog s w.tid
  if w.check then
    let bs := (range a.toNat n).map (fun o => if o < lim then s.st.byte (tspKey w.tid o) else 0)
    (if a.toNat + n > lim then noteOffence s w 0 false a else s, bs)
  else (s, (range a.toNat n).map (fun o => s.st.byte (tspKey w.tid (o % lim))))

/-- A number in a record. -/
def rnum (bs : List Byte) (off n : Nat) : Nat := leNat ((bs.drop off).take n)

/-- A nest record (R216). -/
structure Nest where
  base : Word
  esize : Nat
  counts : List Nat
  strides : List Int
  offs : List Int
  lims : List Int
  deriving DecidableEq, Repr

/-- Read a nest record; levels above LEVELS read as one point. -/
def nestOf (bs : List Byte) : Nest :=
  let top := rnum bs 9 1 % 4
  let at_ (i o : Nat) (d : Int) : Int := if i ≤ top then sxi (rnum bs (0x10 + 16 * i + o) 4) 32 else d
  { base := wd (rnum bs 0 8)
    esize := rnum bs 8 1
    counts := (range 0 4).map (fun i => if i ≤ top then rnum bs (0x10 + 16 * i) 4 else 1)
    strides := (range 0 4).map (fun i => at_ i 4 0)
    offs := (range 0 4).map (fun i => at_ i 8 0)
    lims := (range 0 4).map (fun i => if i ≤ top then (rnum bs (0x1C + 16 * i) 4 : Nat) else (0 : Int)) }

/-- Number of points. -/
def Nest.total (n : Nest) : Nat := n.counts.foldl (· * ·) 1

/-- The record breaks its layout (R216, R391). -/
def nestBad (bs : List Byte) : Bool :=
  let e := rnum bs 8 1
  rnum bs 9 1 ≥ 4 || rnum bs 0x0A 6 != 0 || rnum bs 0x50 16 != 0 || !(e ≤ 2 || (e % 4 == 0 && e ≤ 252))
    || (nestOf bs).total ≥ 2 ^ 48

/-! ### Acceptance -/

/-- A space of the tile cannot be used: G without an allocation, Y without a window (R391). -/
def noSpace (s : State) (tid : Nat) (sp : Space) : Bool :=
  let t := s.tile tid
  !t.check && match sp with
    | .g => gspLog s tid == 0
    | .y => !t.sys && !tb (ywin s (partOf s tid) (dieOf tid)) 14
    | _ => false

/-- Code of a space (R214). -/
def spNum : Space → Nat
  | .t => 0 | .p => 1 | .g => 2 | .y => 3 | .d => 4

/-- Space of a code. -/
def spOf (n : Nat) : Space :=
  match n with
  | 0 => .t | 1 => .p | 2 => .g | 3 => .y | _ => .d

/-- The first sub-code of a list of findings, in ascending sub-code. -/
def firstSub (l : List (Nat × Bool)) : Option Nat := (l.find? Prod.snd).map Prod.fst

/-- An SBAR accepted before is still active (R230). -/
def behindSbar (t : Tile) : Bool := t.slots.any (fun p => p.2.act && p.2.opc == opSbar && !p.2.addpend)

/-- The slot's state for a new command. -/
def Slot.start (v : Slot) (t : Tile) (opc : Nat) (cc : Bool) (sc : Scope) (sp : Nat) (nrec : Nat) (rbv rav : Word)
    (extv : Nat) (nest : List Byte) : Slot :=
  { v with
    opc := opc, act := true, held := behindSbar t, cc := cc, sc := sc, sp := sp, addpend := false
    closed := v.closed && opc != opSchr, nrec := nrec, rbv := rbv, rav := rav, pos := 0, extv := BitVec.ofNat 32 extv
    sys := t.sys, check := t.check, seq := t.seqNo, opened := false, done := 0, pois := 0, stopped := false
    joined := false, inFlight := false, nest := nest }

/-- The shape of a command: wait for older acquires (R110, R114, R211) and an idle slot, check, which the room for its token does not
hold back (R382), then take the slot (R210). `subs` are the findings; a nest record is
read at `nest`, if the command has one, and `bad` says what breaks it. -/
def streamOp (s : State) (tk : Tk) (slot : Fin 16) (srcs : List Reg) (opc : Nat) (cc : Bool) (sc : Scope) (sp : Nat)
    (rbv rav : Word) (extv : Nat) (nest : Option Word) (bad : List Byte → Bool) (subs : List (Nat × Bool)) : Out :=
  let (tid, g) := s.cur
  let t := s.tile tid
  let v := t.slot slot.val
  if !ready s tk srcs none || accHeld (t.eng g) || v.act then .next s
  else
    let (s', bs) := match nest with
      | none => (s, [])
      | some a => recBytes s { whoOf s tid g with strm := true } (alignDown a 32) 96
    let found := subs.filter (fun p => p.1 ≤ 3) ++ [(0x04, nest.isSome && bad bs), (0x05, cc && !v.cv)]
      ++ subs.filter (fun p => p.1 > 5)
    match firstSub found with
    | some sub => .next (if atHead t g then raiseOperand s' tid g sub else s)
    | none =>
      if !tokenRoom s tk then .next s
      else
      let s := finishS s' tid g tk srcs (Result.value none 0) true
      let nrec := ((nest.map (fun a => (alignDown a 32).toNat % 2 ^ 18))).getD 0
      .next (s.updTile tid (fun t =>
        { t.setSlot slot.val (v.start t opc cc sc sp nrec rbv rav extv bs) with seqNo := t.seqNo + 1 }))

/-- Findings about one ring side. -/
def ringSubs (s : State) (tid n : Nat) (prod : Bool) : List (Nat × Bool) :=
  let f := ringFault s tid n prod (!prod)
  [(0x01, f == some 0x01), (0x02, f == some 0x02), (0x0C, f == some 0x0C)]

/-- Order findings by sub-code. -/
def sortSubs (l : List (Nat × Bool)) : List (Nat × Bool) :=
  [0x01, 0x02, 0x06, 0x0C, 0x0E].map (fun k => (k, l.any (fun p => p.1 == k && p.2)))

def execSld (tk : Tk) (slot : Fin 16) (ra rb : Reg) (sp : Space) (sc : Scope) (cc : Bool) (ring : Fin 32) (clamp : Bool)
    (s : State) : Out :=
  streamOp s tk slot [ra, rb] opSld cc sc (spNum sp) (val s rb) 0 (ring.val + 32 * b2n clamp) (some (val s ra)) nestBad
    (sortSubs (ringSubs s s.cur.1 ring.val true ++ [(0x0C, noSpace s s.cur.1 sp)]))

def execSst (tk : Tk) (slot : Fin 16) (ra rb : Reg) (sp : Space) (sc : Scope) (cc : Bool) (ring : Fin 32) (clamp : Bool)
    (s : State) : Out :=
  streamOp s tk slot [ra, rb] opSst cc sc (spNum sp) (val s rb) 0 (ring.val + 32 * b2n clamp) (some (val s ra)) nestBad
    (sortSubs (ringSubs s s.cur.1 ring.val false ++ [(0x0C, noSpace s s.cur.1 sp)]))

/-- An index nest has elements of 4 bytes (R226). -/
def indexBad (bs : List Byte) : Bool := nestBad bs || rnum bs 8 1 != 4

def execSgath (tk : Tk) (slot : Fin 16) (ra rb : Reg) (sp : Space) (sc : Scope) (cc : Bool) (ring : Fin 32)
    (roww : BitVec 6) (rstr : BitVec 20) (s : State) : Out :=
  streamOp s tk slot [ra, rb] opSgath cc sc (spNum sp) (val s rb) 0 (ring.val + 64 * roww.toNat + 4096 * rstr.toNat)
    (some (val s ra)) indexBad (sortSubs (ringSubs s s.cur.1 ring.val true ++ [(0x0C, noSpace s s.cur.1 sp)]))

def execSscat (tk : Tk) (slot : Fin 16) (ra rb : Reg) (sp : Space) (sc : Scope) (cc : Bool) (ring : Fin 32)
    (roww : BitVec 6) (rstr : BitVec 20) (s : State) : Out :=
  streamOp s tk slot [ra, rb] opSscat cc sc (spNum sp) (val s rb) 0 (ring.val + 64 * roww.toNat + 4096 * rstr.toNat)
    (some (val s ra)) indexBad (sortSubs (ringSubs s s.cur.1 ring.val false ++ [(0x0C, noSpace s s.cur.1 sp)]))

def execSrec (tk : Tk) (slot : Fin 16) (ra : Reg) (sc : Scope) (cc : Bool) (src dst : Fin 32) (s : State) : Out :=
  streamOp s tk slot [ra] opSrec cc sc 0 0 (val s ra) (src.val + 32 * dst.val) none (fun _ => false)
    (sortSubs (ringSubs s s.cur.1 src.val false ++ ringSubs s s.cur.1 dst.val true))

/-- Tiles of the group that a multicast names (R225). -/
def maskTiles (tid mask : Nat) : List Nat :=
  ((range 0 16).filter (tb mask)).map (fun q => groupOf tid * 16 + q)

/-- SMC: a command into a tile that has not started waits until it has (R35; notes/assumptions/76.md). -/
def execSmc (tk : Tk) (slot : Fin 16) (ra rb : Reg) (sp : Space) (sc : Scope) (cc : Bool) (ring : Fin 32) (clamp : Bool)
    (mask : BitVec 16) (s : State) : Out :=
  if (maskTiles s.cur.1 mask.toNat).any (fun u => !(s.tile u).started) then .next s
  else streamOp s tk slot [ra, rb] opSmc cc sc (spNum sp) (val s rb) 0
    (ring.val + 32 * b2n clamp + 2 ^ 16 * mask.toNat) (some (val s ra)) nestBad
    (sortSubs ((maskTiles s.cur.1 mask.toNat).flatMap (fun u => ringSubs s u ring.val true)
      ++ [(0x0C, noSpace s s.cur.1 sp)]))

/-- The nest of SCPY has elements of a stated size (R228). -/
def copyBad (bs : List Byte) : Bool := nestBad bs || rnum bs 8 1 == 0

def execScpy (tk : Tk) (slot : Fin 16) (ra rb : Reg) (sp : Space) (sc : Scope) (cc : Bool) (dsp : Space) (s : State) : Out :=
  streamOp s tk slot [ra, rb] opScpy cc sc (spNum sp) (val s rb) 0 (spNum dsp) (some (val s ra)) copyBad
    (sortSubs [(0x0C, noSpace s s.cur.1 sp || noSpace s s.cur.1 dsp)])

/-- The port has no binding, or one of the other role (R229). -/
def portBad (s : State) (tid port : Nat) (writer : Bool) : Bool :=
  match NMap.find? (s.tile tid).chans port with
  | some (_, w) => w != writer
  | none => true

def execSchr (tk : Tk) (slot : Fin 16) (ra : Reg) (sc : Scope) (cc : Bool) (ring : Fin 32) (port : Fin 16) (s : State) : Out :=
  streamOp s tk slot [ra] opSchr cc sc 5 0 (val s ra) (ring.val + 32 * port.val) none (fun _ => false)
    (sortSubs (ringSubs s s.cur.1 ring.val true ++ [(0x0E, portBad s s.cur.1 port.val false)]))

def execSchw (tk : Tk) (slot : Fin 16) (ra : Reg) (sc : Scope) (cc : Bool) (ring : Fin 32) (port : Fin 16) (commit : Bool)
    (s : State) : Out :=
  streamOp s tk slot [ra] opSchw cc sc 5 0 (val s ra) (ring.val + 32 * port.val + 512 * b2n commit) none (fun _ => false)
    (sortSubs (ringSubs s s.cur.1 ring.val false ++ [(0x0E, portBad s s.cur.1 port.val true)]))

def execSbar (tk : Tk) (slot : Fin 16) (sc : Scope) (cc : Bool) (s : State) : Out :=
  streamOp s tk slot [] opSbar cc sc 0 0 0 0 none (fun _ => false) []

/-- STASH is used in system code only; its addresses are aligned (R234, R389, R391). -/
def execStash (tk : Tk) (slot : Fin 16) (ra rb : Reg) (sc : Scope) (cc : Bool) (restore ctx : Bool) (s : State) : Out :=
  if !(s.tile s.cur.1).sys then .next (raisePriv s s.cur.1 s.cur.2)
  else
    streamOp s tk slot [ra, rb] opStash cc sc 3 (val s rb) (val s ra) (b2n restore + 2 * b2n ctx) none (fun _ => false)
      [(0x06, (val s ra).toNat % 32 != 0 || (val s rb).toNat % 8192 != 0)]

/-! ### Slot waits, counters, status (R231 to R233) -/

/-- Every slot of a mask is idle. -/
def slotsIdle (t : Tile) (mask : Nat) : Bool := (range 0 16).all (fun n => !tb mask n || !(t.slot n).act)

/-- SWAIT waits for the slots of its mask; it is an acquire (R231). -/
def execSwait (tk : Tk) (slot : Fin 16) (ra : Reg) (_sc : Scope) (s : State) : Out :=
  let (tid, g) := s.cur
  let mask := Nat.lor (2 ^ slot.val) (wfld (val s ra) 0 16)
  if !ready s tk [ra] none then .next s
  else if slotsIdle (s.tile tid) mask then done s tk [ra] (Result.value none 0) false
  else .next (s.setTile tid (startWait (s.tile tid) g tk [ra] (.swait mask)))

/-- Space of a counter. -/
def cntSpace : CntSp → Space
  | .g => .g | .y => .y | .d => .d

/-- SCNT binds a counter to an idle slot (R232). -/
def execScnt (tk : Tk) (slot : Fin 16) (ra rb : Reg) (sp : CntSp) (s : State) : Out :=
  let (tid, g) := s.cur
  let v := (s.tile tid).slot slot.val
  if !ready s tk [ra, rb] none || v.act then .next s
  else if noSpace s tid (cntSpace sp) then .next (raiseOperand s tid g 0x0C)
  else if !tokenRoom s tk then .next s
  else
    let caddr := alignDown (val s ra) 8
    let cinc := val s rb
    let s := finishS s tid g tk [ra, rb] (Result.value none 0) false
    .next (s.updTile tid (fun t => t.setSlot slot.val { v with cv := true, csp := sp, caddr := caddr, cinc := cinc }))

/-- Points of the command that a slot runs; a reader of a channel without a count has no end (R216, R229). -/
def Slot.total (v : Slot) : Option Nat :=
  if v.opc = opSchr || v.opc = opSchw || v.opc = opSrec then
    if v.opc = opSchr && v.rav = BitVec.allOnes 64 then none else some v.rav.toNat
  else some (nestOf v.nest).total

/-- The slot's command still has something to move. -/
def Slot.unfinished (v : Slot) : Bool := match v.total with | none => true | some n => v.pos < n

/-- The slot waits on a ring: a producer on a free slot, a consumer on a filled one. -/
def ringBlocked (s : State) (tid : Nat) (v : Slot) : Bool :=
  let t := s.tile tid
  let full (u n : Nat) : Bool := let r := (s.tile u).ring n; !v.opened && diff32 r.claimed r.released ≥ r.n
  let empty (n : Nat) : Bool := let r := t.ring n; !v.opened && r.filled == r.taken
  let x := v.extv.toNat
  v.act && !v.held && !v.addpend && v.unfinished &&
    (if v.opc = opSmc then (maskTiles tid (fld x 16 16)).any (fun u => full u (fld x 0 5))
     else (match v.produces with | some n => full tid n | none => false)
      || (match v.consumes with | some n => empty n | none => false))

/-- The slot waits on a channel: a reader on an empty one, a writer on a full one or on an answer. -/
def chanBlocked (s : State) (tid : Nat) (v : Slot) : Bool :=
  let t := s.tile tid
  let x := v.extv.toNat
  let h := ((NMap.find? t.chans (fld x 5 4)).map Prod.fst).getD 0
  let e := chan s (handleChan h)
  v.act && !v.held && !v.addpend && v.unfinished && !ringBlocked s tid v &&
    (if v.opc = opSchr then handleHere s h && (headAt s (handleChan h)).2.isNone && !e.closed
     else writerBlocked s tid v)

/-- SSTAT (R233). -/
def sstatWord (s : State) (tid : Nat) (v : Slot) : Word :=
  wd (b2n v.act + 2 * b2n v.held + 4 * b2n (ringBlocked s tid v) + 8 * b2n (chanBlocked s tid v) + 16 * b2n v.closed
    + 32 * b2n v.addpend + v.opc * 2 ^ 8 + v.pos % 2 ^ 48 * 2 ^ 16)

def execSstat (tk : Tk) (slot : Fin 16) (d : Reg) (s : State) : Out :=
  aluOp s tk d [] (sstatWord s s.cur.1 ((s.tile s.cur.1).slot slot.val))

end Sys2Proof.Machine
end

