-- ==== Sys2Proof/Machine/StreamSlots.lean ====
section
/-! DEFINITION. What the stream engine shares: accesses of a command (R217, R373, R424), its commit position, stop and completion
(R210, R213, R236 to R238, R392, R418), and counter adds (R115, R213). -/

namespace Sys2Proof.Machine

/-! ### Accesses -/

/-- The unit that asks for a command's reads of peers' memory. -/
def Slot.unit (v : Slot) : Nat := v.seq + 2

/-- The agent of a slot's accesses, in the mode that stood at acceptance; Y issues CLST (R424, R425). -/
def slotWho (tid : Nat) (v : Slot) : Who :=
  { tid := tid, eng := if v.opc = opClst then .y else .a, sys := v.sys, check := v.check, strm := true, unit := v.unit }

/-- A physical target some bytes on. -/
def Phys.plus (p : Phys) (j : Nat) : Phys :=
  match p with
  | .mem k i => .mem (k + j) i
  | .host pa => .host (pa + j)
  | .peer d pa k => .peer d (pa + j) k

/-- Zero bytes. -/
def zeros (n : Nat) : List Byte := natLe n 0

/-- Read n aligned bytes for a command: the bytes and whether they are poisoned; or SUB and INFO of a translation fault. A peer is asked
for the lines (R102, R345); a lost path, and a read that the peer refuses, give poisoned zeros (R443, R444). -/
def cmdRead (s : State) (w : Who) (sp : Space) (a : Word) (n : Nat) : State × Except (Nat × Nat) (List Byte × Bool) :=
  match locate s w sp a .read with
  | (s, .at_ (.mem k i)) => (s, .ok (readRun s i k n, s.st.poisoned k n))
  | (s, .at_ (.host pa)) =>
    let (s, r) := hostRead s pa n (ErrRec.ofTile s 15 1 w.tid pa [])
    (s, .ok r)
  | (s, .at_ (.peer dev pa key)) =>
    match peerRead s (w.reader s) dev pa key n with
    | (s, none) => (lostPath s w.tid pa, .ok (zeros n, true))
    | (s, some r) => (s, .ok r)
  | (s, .oob) => (s, .ok (zeros n, false))
  | (s, .noUnit) => (s, .ok (zeros n, false))
  | (s, .xlate sub info) => (s, .error (sub, info))

/-- One byte to be written: its place, the bits that change, their value, and whether it carries poison. -/
structure WByte where
  p : Phys
  mask : Nat
  val : Nat
  bad : Bool
  deriving DecidableEq, Repr

/-- Find the places of n aligned bytes to be written. -/
def cmdPlace (s : State) (w : Who) (sp : Space) (a : Word) (bs : List (Nat × Nat)) (bad : Bool) :
    State × Except (Nat × Nat) (List WByte) :=
  match locate s w sp a .write with
  | (s, .at_ p) => (s, .ok ((range 0 bs.length).zip bs |>.map (fun q =>
      { p := p.plus q.1, mask := q.2.1, val := q.2.2, bad := bad })))
  | (s, .oob) => (s, .ok [])
  | (s, .noUnit) => (s, .ok [])
  | (s, .xlate sub info) => (s, .error (sub, info))

/-- Length of the run of adjacent bytes at the head of a list. -/
def runLen : List WByte → Nat
  | [] => 0
  | [_] => 1
  | a :: b :: r => if b.p = a.p.plus 1 then runLen (b :: r) + 1 else 1

/-- A write to a peer that the slot still has in flight covers one of the bytes: what would write it again waits, so that the writes of a
command stay in its order (R114, R347). -/
def writesClash (s : State) (tid n : Nat) (ws : List WByte) : Bool :=
  s.remotes.any (fun r => let q := r.2
    q.isWrite && q.tile == tid && q.unit == n + 1 && !q.host && ws.any (fun b => match b.p with
      | .peer dev pa _ => q.dev == dev && q.pa ≤ pa && pa < q.pa + q.n
      | _ => false))

/-- Perform writes of a slot: each run of adjacent bytes is one request (R373); bits outside a mask keep their value. -/
def cmdWrite (s : State) (w0 : Who) (n : Nat) : Nat → List WByte → State
  | 0, _ => s
  | fuel + 1, ws =>
    match ws with
    | [] => s
    | w :: _ =>
      let run := ws.take (runLen ws)
      let (s, bs) := run.foldl (fun (acc : State × List Byte) b =>
        let (s, bs) := acc
        if b.mask = 255 then (s, bs ++ [BitVec.ofNat 8 b.val])
        else
          let (s, old) := farRead s (w0.reader s) b.p 1 (ErrRec.ofTile s 13 1 w0.tid 0 [])
          (s, bs ++ [BitVec.ofNat 8 (Nat.lor (Nat.land (leNat old) (255 - b.mask)) (Nat.land b.val b.mask))])) (s, [])
      let s := storeAt s w0.tid w0.eng w.p bs (n + 1)
      let s := run.foldl (fun s b =>
        match b.bad, b.p with
        | true, .mem k _ => { s with st := s.st.poisonRun k 1 }
        | true, .host pa => { s with st := s.st.poisonRun (hostKey pa) 1 }
        | _, _ => s) s
      cmdWrite s w0 n fuel (ws.drop (runLen ws))

/-! ### The nest's points (R217) -/

/-- n of point k. -/
def Nest.point (n : Nest) (clamp : Bool) (k : Nat) : Int :=
  let c (i : Nat) : Nat := getAt n.counts i 1
  let j : List Nat := [k % c 0, k / c 0 % c 1, k / (c 0 * c 1) % c 2, k / (c 0 * c 1 * c 2)]
  (range 0 4).foldl (fun (acc : Int) i =>
    let x : Int := getAt n.offs i 0 + (getAt j i 0 : Nat)
    let lim : Int := getAt n.lims i 0
    let x := if clamp && lim != 0 then min (max x 0) (lim - 1) else x
    acc + x * getAt n.strides i 0) 0

/-- An integer as a word. -/
def wordOf (v : Int) : Word := wd (trunc 64 v)

/-! ### Slots: commit position, stop, completion -/

/-- Change one slot of a tile. -/
def updSlot (s : State) (tid n : Nat) (f : Slot → Slot) : State := s.updTile tid (fun t => t.setSlot n (f (t.slot n)))

/-- Change one ring of a tile. -/
def updRing (s : State) (tid n : Nat) (f : Ring → Ring) : State := s.updTile tid (fun t => t.setRing n (f (t.ring n)))

/-- Rings that the command fills: tile and ring. -/
def fillsOf (tid : Nat) (v : Slot) : List (Nat × Nat) :=
  let x := v.extv.toNat
  if v.opc = opSmc then (maskTiles tid (fld x 16 16)).map (fun u => (u, fld x 0 5))
  else match v.produces with
    | some r => [(tid, r)]
    | none => []

/-- The slot goes back to its commit position (R237); what it has asked peers for is given up. -/
def parkSlot (s : State) (tid n : Nat) : State :=
  let v := (s.tile tid).slot n
  let s := s.updTile tid (fun t => t.dropGot v.unit)
  if !v.act || !v.opened then s
  else
    let s := (fillsOf tid v).foldl (fun s p => updRing s p.1 p.2 (fun r => { r with claimed := r.filled })) s
    let s := match v.consumes with
      | some r => updRing s tid r (fun r => { r with taken := r.released })
      | none => s
    updSlot s tid n (fun v => { v with opened := false, done := 0, pois := 0 })

/-- The slot stops at its commit position and the tile takes an imprecise exception (R392, R418, R444). -/
def stopSlot (s : State) (tid n code sub info : Nat) : State :=
  let v := (s.tile tid).slot n
  let s := updSlot (parkSlot s tid n) tid n (fun v => { v with stopped := true })
  raiseImprecise s tid { code := code, sub := sub, eng := (slotWho tid v).eng, impr := true, slot := some n, info := info } (!v.sys)

/-- STREAM with a sub-code. -/
def streamError (s : State) (tid n sub : Nat) : State := stopSlot s tid n 7 sub 0

/-- A translation fault of a command. -/
def slotXlate (s : State) (tid n : Nat) (e : Nat × Nat) : State := stopSlot s tid n 0x12 e.1 e.2

/-- What a counter add comes to. -/
inductive Added where
  | done
  | pending
  | xlate (sub info : Nat)
  | lost (sub info : Nat)
  deriving DecidableEq, Repr

/-- Add to a counter (R115, R213, R297). `waiter` says who waits for a peer's answer: a slot, as its number plus 1. -/
def counterAdd (s : State) (w : Who) (sp : Space) (a inc : Word) (waiter : Nat) : State × Added :=
  match locate s w sp (alignDown a 8) .atomic with
  | (s, .at_ (.mem k i)) => (writeRun s i k (natLe 8 (readNum s i k 8 + inc).toNat), .done)
  | (s, .at_ (.host pa)) =>
    if hostUp s then
      let k := hostKey pa
      (writeRun s 0 k (natLe 8 (readNum s 0 k 8 + inc).toNat), .done)
    else (count s 15, .lost 1 1024)
  | (s, .at_ (.peer dev pa key)) =>
    match portFor s dev (fld pa 8 10) with
    | none => (countRec s (ErrRec.ofTile s 13 1 w.tid pa []), .lost 1 dev)
    | some p =>
      let (s, _) := newRemote s
        { Remote.base w.tid w.eng pa 8 with
          host := false, dev := dev, isAtomic := true, src := inc, unit := waiter, port := p, key := key }
      (s, .pending)
  | (s, .oob) => (s, .done)
  | (s, .noUnit) => (s, .done)
  | (s, .xlate sub info) => (s, .xlate sub info)

/-- Space of a bound counter. -/
def cntOfNum (n : Nat) : CntSp :=
  match n with
  | 0 => .g | 1 => .y | _ => .d
def cntNum : CntSp → Nat
  | .g => 0 | .y => 1 | .d => 2

/-- The command is over: its slot is idle, and an ended tile gives up the port (R131, R210). -/
def idleSlot (s : State) (tid n : Nat) : State :=
  let u := ((s.tile tid).slot n).unit
  let s := s.updTile tid (fun t => t.dropGot u)
  unbindEnded (updSlot s tid n (fun v => { v with act := false, held := false, addpend := false, opened := false, inFlight := false }))
    tid

/-- The add that a slot still owes (R213). -/
def addStep (s : State) (tid n : Nat) : State :=
  let v := (s.tile tid).slot n
  match counterAdd s (slotWho tid v) (cntSpace v.csp) v.caddr v.cinc (n + 1) with
  | (s, .done) => idleSlot s tid n
  | (s, .pending) => updSlot s tid n (fun v => { v with inFlight := true })
  | (s, .xlate sub info) => slotXlate s tid n (sub, info)
  | (s, .lost sub info) => stopSlot s tid n 0x14 sub info

/-- Writes of the slot to a peer have not completed (R347). -/
def slotWritesOut (s : State) (tid n : Nat) : Bool :=
  s.remotes.any (fun r => r.2.isWrite && r.2.tile == tid && r.2.unit == n + 1)

/-- Every effect of the command but the add is done: ADDPEND says so, or the command is over (R210, R213, R236). -/
def finishSlot (s : State) (tid n : Nat) : State :=
  let v := (s.tile tid).slot n
  let s := updSlot s tid n (fun v => { v with opened := false, done := 0, pois := 0, addpend := v.cc })
  if v.cc then s else idleSlot s tid n

/-- The service that ends a command: none while a write to a peer has not completed (R212, R347). -/
def endSlot (s : State) (tid n : Nat) : Option State := if slotWritesOut s tid n then none else some (finishSlot s tid n)

/-- A command that has nothing more to move ends with its last effect, so that a trap finds ADDPEND set (R213, R237). -/
def closeSlot (s : State) (tid n : Nat) : State :=
  let v := (s.tile tid).slot n
  if !v.act || v.unfinished then s else (endSlot s tid n).getD s

/-! ### Claims and steps of ring counters (R221) -/

/-- Every named ring has a free slot, in a tile that has started (R35). -/
def canClaim (s : State) (l : List (Nat × Nat)) : Bool :=
  l.all (fun p => let r := (s.tile p.1).ring p.2; (s.tile p.1).started && diff32 r.claimed r.released < r.n)

/-- Claim one slot in every named ring. -/
def claim (s : State) (l : List (Nat × Nat)) : State :=
  l.foldl (fun s p => updRing s p.1 p.2 (fun r => { r with claimed := (r.claimed + 1) % 2 ^ 32 })) s

/-- Counter value of the slot claimed last. -/
def Ring.claimedSlot (r : Ring) : Nat := (r.claimed + 2 ^ 32 - 1) % 2 ^ 32

/-- FILLED advances. -/
def fill (s : State) (l : List (Nat × Nat)) : State :=
  l.foldl (fun s p => updRing s p.1 p.2 (fun r => { r with filled := (r.filled + 1) % 2 ^ 32 })) s

/-- TAKEN advances. -/
def takeSlot (s : State) (tid n : Nat) : State := updRing s tid n (fun r => { r with taken := (r.taken + 1) % 2 ^ 32 })

/-- RELEASED advances; the words of a T slot become empty (R82). -/
def release (s : State) (tid n : Nat) : State :=
  let r := (s.tile tid).ring n
  updRing (emptySlot s tid r r.released) tid n (fun r => { r with released := (r.released + 1) % 2 ^ 32 })

/-- Write into a slot or side-band of every named ring, each at its own place. -/
def putAll (s : State) (w : Who) (l : List (Nat × Nat)) (off : Ring → Nat) (bs : List Byte) : State :=
  l.foldl (fun s p =>
    let r := (s.tile p.1).ring p.2
    slotWrite s w p.1 r.spG (off r) bs) s

/-- The tile's region made progress by moving data (R145, R412). -/
def moved (s : State) (tid : Nat) : State := progress (s.updTile tid (fun t => { t with moved := true })) tid

/-- The commit position moves on by k, and nothing of the command is under way; with the last of its points the command ends. -/
def advance (s : State) (tid n k : Nat) : State :=
  closeSlot (moved (updSlot s tid n (fun v =>
    { v with opened := false, done := 0, pois := 0, inFlight := false, pos := v.pos + k })) tid) tid n

end Sys2Proof.Machine
end

