-- ==== Sys2Proof/Machine/ChanStreams.lean ====
section
/-! DEFINITION. Channel streams: taking and accepting records (R134 to R136, R139 to R141, R229, R392), and records sent to a home on
another package (R144, R349, R350, R444). -/

namespace Sys2Proof.Machine

/-! ### Messages to other devices (R347, R349) -/

/-- First byte of the channel window of a device, and its length. -/
def windowBase : Nat := 0xFF00000000
def windowLen : Nat := 2 ^ 26

/-- The bytes of a message of a KIND: its 32-byte header and its body. -/
def packMsg (kind : Nat) (m : UalMsg) : List Byte :=
  natLe 32 (kind + m.body.length % 2 ^ 16 * 2 ^ 16 + m.seq % 2 ^ 32 * 2 ^ 32 + m.sdev % 2 ^ 10 * 2 ^ 64 + m.handle % 2 ^ 22 * 2 ^ 74
    + m.ttgt % 2 ^ 28 * 2 ^ 96 + m.trgn % 2 ^ 12 * 2 ^ 124 + m.tinc % 8 * 2 ^ 136 + m.tsco % 8 * 2 ^ 139 + b2n m.ok * 2 ^ 142) ++ m.body

/-- KIND and LEN of a message's header, and the message that its bytes hold. -/
def msgKind (bs : List Byte) : Nat := rnum bs 0 1
def msgLen (bs : List Byte) : Nat := rnum bs 2 2
/-- DESIGN CHOICE: reserved bits of the header are ignored (notes/assumptions/86.md). -/
def unpackMsg (bs : List Byte) : UalMsg :=
  let h := rnum bs 0 32
  { seq := fld h 32 32, sdev := fld h 64 10, handle := fld h 74 22, ttgt := fld h 96 28, trgn := fld h 124 12, tinc := fld h 136 3
    tsco := fld h 139 3, ok := tb h 142, body := (bs.drop 32).take (msgLen bs) }

/-- The writes that carry a message: window offset and at most 256 bytes each. -/
def msgWrites (kind : Nat) (m : UalMsg) : List (Nat × List Byte) :=
  let ps := chunk 256 (32 + m.body.length) (packMsg kind m)
  (range m.seq ps.length).zip ps |>.map (fun p => (256 * (p.1 % 2 ^ 18), p.2))

/-- The bytes of a write as a request of 64, 128 or 256 bytes, the ones behind them not enabled (R345). -/
def framed (bs : List Byte) : List (Option Byte) :=
  let n := if bs.length ≤ 64 then 64 else if bs.length ≤ 128 then 128 else 256
  bs.map some ++ List.replicate (n - bs.length) none

/-- Message number of the next write on a port. -/
def nextSeq (s : State) (port : Nat) : Nat := NMap.findD s.useq port 0

/-- A message with nothing in it from this device. -/
def UalMsg.base (s : State) (handle : Nat) : UalMsg :=
  { sdev := devNo s, seq := 0, handle := handle, ttgt := 0, trgn := 0, tinc := 0, tsco := 0, ok := false, body := [] }

/-- The identity of a request that carries a message no tile waits for, in the place of its tile. -/
def msgWaiter : Nat := 2050

/-- Send a message with its number by a port: its writes leave, and it is in flight until they complete. `r` is the request that
stands for it; its `src` is the message's place in `ualOut`. -/
def sendVia (s : State) (port kind dev : Nat) (m : UalMsg) (r : Remote) : State × Nat :=
  let ws := msgWrites kind m
  let s := { s with
    ualOut := s.ualOut ++ [(port, kind, m)]
    peerOut := s.peerOut ++ ws.map (fun w =>
      { dev := dev, pa := windowBase + w.1, key := 0, port := port, bytes := framed w.2 }) }
  newRemote s { r with host := false, dev := dev, pa := windowBase + 256 * (m.seq % 2 ^ 18), n := ws.length, port := port,
                       src := wd (s.ualOut.length - 1) }

/-- Writes of messages that are outstanding on a port. -/
def windowUsed (s : State) (port : Nat) : Nat :=
  s.remotes.foldl (fun a r => if !r.2.host && r.2.port = port && windowBase ≤ r.2.pa then a + r.2.n else a) 0

/-- The port that a message of a KIND would take has no room for it: a sender has fewer than 2^18 outstanding (R349). -/
def windowFull (s : State) (kind dev idx : Nat) (m : UalMsg) : Bool :=
  match portFor s dev idx with
  | some p => windowUsed s p + (msgWrites kind m).length ≥ 2 ^ 18
  | none => false

/-- Send a new message of a KIND to a device through the port for an index; none if no port reaches it. -/
def sendAs (s : State) (kind dev idx : Nat) (m : UalMsg) (r : Remote) : Option (State × Nat) :=
  (portFor s dev idx).map (fun p =>
    let q := nextSeq s p
    let s := { s with useq := NMap.put s.useq p ((q + (msgWrites kind m).length) % 2 ^ 32) }
    sendVia s p kind dev { m with seq := q } r)

/-- Send a message that nothing here waits for; where its port has no room, what sends it takes place later. -/
def sendMsg (s : State) (kind dev idx : Nat) (m : UalMsg) : Option State :=
  if windowFull s kind dev idx m then some { s with jdStarved := true }
  else (sendAs s kind dev idx m { Remote.base msgWaiter .e 0 0 with isWrite := true }).map Prod.fst

/-! ### Reading a channel (R136, R229) -/

/-- The reading stream holds a claimed slot. -/
def claimFor (s : State) (tid n ring : Nat) : State :=
  if ((s.tile tid).slot n).opened then s
  else updSlot (claim s [(tid, ring)]) tid n (fun v => { v with opened := true })

/-- A slot's service that reads a channel; none if it must wait. A record whose stored bytes spoiled it is counted (R376). It moves 64
bytes, and the record is taken with the last of them, or with the first if `whole` says so (R212). -/
def takeStep (s : State) (tid n : Nat) (whole : Bool) : Option State :=
  let t := s.tile tid
  let v := t.slot n
  let ring := fld v.extv.toNat 0 5
  match NMap.find? t.chans (fld v.extv.toNat 5 4) with
  | none => none
  | some (h, _) =>
    let c := handleChan h
    let r := t.ring ring
    if v.rav.toNat ≤ v.pos && v.rav != BitVec.allOnes 64 then endSlot s tid n
    else if !v.opened && !canClaim s [(tid, ring)] then none
    else if !handleHere s h then none
    else
      match headAt s c with
      | (s, none) =>
        if (chan s c).closed then some (finishSlot (updSlot (parkSlot s tid n) tid n (fun v => { v with closed := true })) tid n)
        else if v.opened then none
        else some (claimFor s tid n ring)
      | (s, some (sd, pos)) =>
        let (s, k) := recordAt s c sd pos
        let p := poisonWords (recBlocks k.hdr)
        let w := slotWho tid v
        if k.payload.length > r.bytes || 4 + 4 * p > r.sideLen then some (streamError s tid n 4)
        else if !whole && 64 * (v.done + 1) < recSize k.hdr then
          some (moved (updSlot (claimFor s tid n ring) tid n (fun v => { v with done := v.done + 1 })) tid)
        else
          let s := if k.spoiled then countRec s { ErrRec.base s 18 1 with part := (chan s c).part } else s
          let s := claimFor s tid n ring
          let i := ((s.tile tid).ring ring).claimedSlot
          let s := slotWrite s w tid r.spG (r.slotOff i) k.payload
          let s := slotWrite s w tid r.spG (r.sideOff i) (natLe 4 k.hdr ++ natLe (4 * p) k.marks)
          let s := dropHead (fill s [(tid, ring)]) c sd pos (recSize k.hdr)
          some (advance s tid n 1)

/-! ### Writing a channel (R135, R229) -/

/-- Some byte of a ring slot that a command reads lies in a poisoned unit; one out of range never does (R424). -/
def slotSpoiled (s : State) (w : Who) (g : Bool) (off n : Nat) : Bool :=
  spaceSpoiled s w.tid g off (if w.check then min n (checkLen s w.tid g - off) else n)

/-- Poison bits of `n` blocks of a ring slot from block `b0` on, as its side-band says. A poison word whose own unit is poisoned marks
every block that it has a bit for (R220, R373). -/
def saidMarks (s : State) (w : Who) (r : Ring) (i b0 n : Nat) : State × Nat :=
  if r.side = 0 || n = 0 then (s, 0)
  else
    let k0 := b0 / 32
    let ks := (b0 + n - 1) / 32 - k0 + 1
    let at_ := r.sideOff i + 4 + 4 * k0
    let (s, bs) := slotBytes s w r.spG at_ (min (4 * ks) (r.sideLen - 4 - 4 * k0))
    let lost := (range 0 ks).foldl (fun m k => if slotSpoiled s w r.spG (at_ + 4 * k) 4 then m + (2 ^ 32 - 1) * 2 ^ (32 * k) else m) 0
    (s, Nat.lor (leNat bs) lost * 2 ^ (32 * k0))

/-- Poison of `n` blocks of `len` bytes of a ring slot from block `b0` on: what the side-band says, and what the storage of the payload
says (R373). -/
def blockMarks (s : State) (w : Who) (r : Ring) (i len b0 n : Nat) : State × Nat :=
  let (s, said) := saidMarks s w r i b0 n
  (s, (range b0 n).foldl (fun m b =>
    if tb said b || slotSpoiled s w r.spG (r.slotOff i + len * b) (min len (r.bytes - len * b)) then m + 2 ^ b else m) 0)

/-- The record that a ring slot holds: header, payload, and the poison of its blocks (R220, R373). A header whose unit is poisoned reads
as LENGTH 0 with POISON. -/
def slotRecord (s : State) (w : Who) (r : Ring) (i : Nat) : State × Nat × List Byte × Nat :=
  let (s, h) := slotBytes s w r.spG (r.sideOff i) 4
  let hdr := if slotSpoiled s w r.spG (r.sideOff i) 4 then 2 ^ 18 else leNat h
  let len := 4 * recLen hdr
  let nblk := recBlocks hdr
  let (s, said) := saidMarks s w r i 0 nblk
  let marks := (range 0 nblk).foldl (fun m b =>
    if tb said b || slotSpoiled s w r.spG (r.slotOff i + 128 * b) (min 128 (len - 128 * b)) then m + 2 ^ b else m) 0
  let (s, bs) := slotBytes s w r.spG (r.slotOff i) len
  (s, hdr, bs, marks)

/-- The home has taken the record of a slot, which is released; it counts as read with its last piece, or when it was sent (R83, R221). -/
def acceptedStep (s : State) (tid n ring : Nat) : State :=
  let s := if ((s.tile tid).slot n).inFlight then s else takeSlot s tid ring
  advance (release s tid ring) tid n 1

/-- A RECORD of the tile for the handle is on its way: at most one of a port and a channel is (R350). -/
def recordOut (t : Tile) (h : Nat) : Bool :=
  t.slots.any (fun p => p.2.act && p.2.inFlight && p.2.opc == opSchw &&
    ((NMap.find? t.chans (fld p.2.extv.toNat 5 4)).map Prod.fst) == some h)

/-- A slot's service that writes a channel; none if it must wait. It moves 64 bytes, and the record goes with the last of them, or with
the first if `whole` says so (R212). DEDUCED: of SUB 2 and SUB 6 the first is raised (notes/assumptions/11.md). -/
def acceptStep (s : State) (tid n : Nat) (whole : Bool) : Option State :=
  let t := s.tile tid
  let v := t.slot n
  let ring := fld v.extv.toNat 0 5
  match NMap.find? t.chans (fld v.extv.toNat 5 4) with
  | none => none
  | some (h, _) =>
    let c := handleChan h
    let r := t.ring ring
    if recordOut t h then none
    else if v.rav.toNat ≤ v.pos then endSlot s tid n
    else if !v.opened && r.filled = r.taken then none
    else
      let (s, hdr, payload, marks) := slotRecord s (slotWho tid v) r r.taken
      let hdr := if tb v.extv.toNat 9 && v.pos + 1 = v.rav.toNat then setFld hdr 17 1 1 else hdr
      let more := !whole && 64 * (v.done + 1) < recSize hdr
      let next (s : State) : State :=
        moved (updSlot s tid n (fun v => { v with opened := true, done := v.done + 1 })) tid
      if r.sideLen < 4 + 4 * poisonWords (recBlocks hdr) then some (streamError s tid n 2)
      else if recType hdr ≥ 0xF0 || fld hdr 20 4 != 0 || payload.length > r.bytes then some (streamError s tid n 6)
      else if handleHere s h then
        let e := chan s c
        if recSize hdr > e.cap then some (streamError s tid n 3)
        else if e.closed then some (streamError s tid n 5)
        else (accept s c hdr payload marks).map (fun t => if more then next s else acceptedStep t tid n ring)
      else
        let hdr := if marks != 0 then setFld hdr 18 1 1 else hdr
        let body := (natLe 4 hdr ++ payload ++ zeros 32).take (recSize hdr)
        let m := { UalMsg.base s h with body := body }
        if windowFull s 1 (handleDev h) (fld h 0 12) m then none
        else match (if more then some (next s) else sendMsg s 1 (handleDev h) (fld h 0 12) m) with
        | none => some (stopSlot (lostPath s tid 0) tid n 0x14 1 (handleDev h))
        | some s =>
          if more then some s
          else
            some (moved (updSlot (takeSlot s tid ring) tid n (fun v => { v with opened := true, done := 0, inFlight := true })) tid)

/-! ### Rows -/

/-- The slot runs a command of this opcode and may move. -/
def slotRuns (s : State) (tid n opc : Nat) : Bool :=
  let t := s.tile tid
  let v := t.slot n
  t.started && !t.halted && v.act && !v.held && !v.stopped && !v.addpend && v.opc == opc

/-- CHANNEL_ACCEPT: the channel unit takes a writer's record, or leaves it blocked on full. -/
def execChannelAccept (tile slot : Nat) (s : State) : Out :=
  .next (if slotRuns s tile slot opSchw then (acceptStep s tile slot true).getD s else s)

/-- CHANNEL_TAKE: a reader takes the oldest record, completes on closed, or stays blocked on empty. -/
def execChannelTake (tile slot : Nat) (s : State) : Out :=
  .next (if slotRuns s tile slot opSchr then (takeStep s tile slot true).getD s else s)

end Sys2Proof.Machine
end

