-- ==== Sys2Proof/Machine/Collective.lean ====
section
/-! DEFINITION. Collectives: CLST and CLSTAT, the arbiter, parts and transfers (R302 to R310, R427, R428). -/

namespace Sys2Proof.Machine

/-! ### Records and control words (R302, R303) -/

/-- The control word's fields. -/
def ctlTag (c : Word) : Nat := wfld c 0 8
def ctlSlot (c : Word) : Nat := wfld c 8 4
def ctlEf (c : Word) : Nat := wfld c 16 18
def ctlExpw (c : Word) : Nat := wfld c 34 20

/-- Fields of a collective record. -/
def colPstr (bs : List Byte) (i : Nat) : Int := sxi (rnum bs (0x60 + 2 * i) 2) 16
def colDstr (bs : List Byte) (i : Nat) : Int := sxi (rnum bs (0x68 + 2 * i) 2) 16
def colPbase (bs : List Byte) : Int := sxi (rnum bs 0x70 2) 16
def colSsp (bs : List Byte) : Nat := rnum bs 0x72 1
def colOp (bs : List Byte) : Nat := fld (rnum bs 0x73 1) 0 2
def colComp (bs : List Byte) : Bool := tb (rnum bs 0x73 1) 2
def colSoff (bs : List Byte) : Nat := rnum bs 0x74 4
def colSlen (bs : List Byte) : Nat := rnum bs 0x78 4
def colDoff (bs : List Byte) : Nat := rnum bs 0x7C 4

/-- Source space of a part. -/
def colSpace (bs : List Byte) : Space :=
  match colSsp bs with
  | 0 => .t | 2 => .g | 3 => .y | _ => .d

/-- The record or the control word breaks its layout (R302, R303, R391). -/
def clstBad (bs : List Byte) (ctl : Word) : Bool :=
  let e := rnum bs 8 1
  let ssp := colSsp bs
  nestBad (bs.take 96) || e < 4 || e % 4 != 0 || ssp == 1 || ssp > 4 || colOp bs == 3 || rnum bs 0x73 1 ≥ 8
    || (colComp bs && e != 128) || colSoff bs % 32 != 0 || colSlen bs == 0 || colSlen bs % 32 != 0 || colDoff bs % 4 != 0
    || (colComp bs && wfld ctl 16 5 != 0) || wfld ctl 16 5 != 0 || wfld ctl 13 3 > 4 || wfld ctl 54 10 != 0

/-- Scope of a code. -/
def scopeOf (n : Nat) : Scope :=
  match n with
  | 0 => .tile | 1 => .group | 2 => .yard | 3 => .device | _ => .system

/-- CLST: a part is accepted into its slot (R304). -/
def execClst (tk : Tk) (ctl s1 s2 : Reg) (s : State) : Out :=
  let (tid, g) := s.cur
  let t := s.tile tid
  let c := val s ctl
  let n := ctlSlot c
  let v := t.slot n
  let srcs := [ctl, s1, s2]
  if !ready s tk srcs none || accHeld (t.eng g) || v.act then .next s
  else
    let at_ := alignDown (val s s1) 32
    let mask := val s s2
    let (s', bs) := recBytes s { whoOf s tid g with strm := true } at_ 128
    match firstSub [(0x04, clstBad bs c), (0x05, c.getLsbD 12 && !v.cv), (0x0C, noSpace s tid (colSpace bs) || noSpace s tid .g)] with
    | some sub => .next (if atHead t g then raiseOperand s' tid g sub else s)
    | none =>
      if !tokenRoom s tk then .next s
      else
      let s := finishS s' tid g tk srcs (Result.value none 0) true
      .next (s.updTile tid (fun t =>
        { t.setSlot n (v.start t opClst (c.getLsbD 12) (scopeOf (wfld c 13 3)) (colSsp bs) (at_.toNat % 2 ^ 18) mask c 0 bs) with
          seqNo := t.seqNo + 1 }))

/-! ### The arbiter (R305) -/

/-- Groups of the pages that a mask names in a region. -/
def maskGroups (s : State) (rid mask : Nat) : List Nat :=
  match s.region? rid with
  | none => []
  | some r => ((range 0 (r.lrec.width * r.lrec.height)).filter (tb mask)).map (fun i =>
      pageGroup s (r.px + i % r.lrec.width) (r.py + i / r.lrec.width))

/-- Free collective entry of a group. -/
def freeCent (g : Group) : Option Nat := (range 0 8).find? (fun e => (NMap.find? g.cents e).isNone)

/-- A page can take the range. -/
def pageTakes (s : State) (q : CReq) (gid : Nat) : Bool :=
  let g := s.group gid
  (freeCent g).isSome && g.cents.all (fun p => (p.2.tag == q.tag && p.2.rgn == q.rgn)
    || q.soff + q.slen ≤ p.2.soff || p.2.soff + p.2.slen ≤ q.soff)

/-- The entry that a grant sets. -/
def newCent (q : CReq) : Cent :=
  { granted := true, tag := q.tag, rgn := q.rgn, expw := q.expw, soff := q.soff, slen := q.slen, counts := [] }

/-- COLLECTIVE_GRANT: the request at the head is granted if every page of its mask can take it. -/
def execCollectiveGrant (s : State) : Out :=
  match s.creqs.find? (fun q => !q.granted) with
  | none => .next s
  | some q =>
    let gs := maskGroups s q.rgn q.mask
    if gs.all (pageTakes s q) then
      let s := gs.foldl (fun s gid =>
        let g := s.group gid
        match freeCent g with
        | some e => s.setGroup gid { g with cents := NMap.put g.cents e (newCent q) }
        | none => s) s
      .next { s with creqs := s.creqs.map (fun p => if p.rgn == q.rgn && p.tag == q.tag then { p with granted := true } else p) }
    else .next s

/-! ### Parts (R304, R306, R307) -/

/-- Transfers of a slot that are on their way. -/
def outstanding (s : State) (tid n : Nat) : Nat := (s.cxfers.filter (fun x => x.src == tid && x.slot == n)).length

/-- Why a part's read of a peer's memory ends in REMOTE: SUB and INFO (R444); a read of a host page never does (R443). -/
def remoteLost (s : State) (w : Who) (sp : Space) (a : Word) : Option (Nat × Nat) :=
  match (locate s w sp a .read).2 with
  | .at_ (.peer dev pa key) =>
    match (peerRead s (w.reader s) dev pa key 4).2 with
    | none => some (1, dev)
    | some (_, true) => some (3, dev)
    | some (_, false) => none
  | _ => none

/-- Read words of a part's element, with a mark for each poisoned one; or code, SUB and INFO of the exception. -/
def readWords (s : State) (w : Who) (sp : Space) (a : Word) : Nat → State × Except (Nat × Nat × Nat) (List (Nat × Bool))
  | 0 => (s, .ok [])
  | k + 1 =>
    let a4 := alignDown a 4
    let lost := remoteLost s w sp a4
    match cmdRead s w sp a4 4 with
    | (s, .error e) => (s, .error (0x12, e.1, e.2))
    | (s, .ok (bs, bad)) =>
      match lost with
      | some e => (s, .error (0x14, e.1, e.2))
      | none =>
      match readWords s w sp (a + 4) k with
      | (s, .error e) => (s, .error e)
      | (s, .ok r) => (s, .ok ((leNat bs, bad) :: r))

/-- Wire compression of one element of 32 values (R307, R427, R428): the words as the receiver decodes them, and the buffer
with the residuals. DESIGN CHOICE: the scale code 254 of an infinite maximum (R427) makes a decoded value of 2^128 or more, which FP32 does
not hold: the receiver's word is rounded, to infinity (notes/assumptions/96.md). -/
def compress (vs buf : List (Nat × Bool)) : List (Nat × Bool) × List (Nat × Bool) × Bool :=
  let ws := (vs.zip buf).map (fun p => (fadd32 p.1.1 p.2.1, p.1.2 || p.2.2))
  let fs := ws.map (fun w => Fmt.fp32.value w.1)
  let c := scaleCode .e2m1 (blockMax fs)
  let res := (ws.zip fs).map (fun p =>
    let (w, f) := p
    let q := if f == .nan then 0 else (f.unscaled c).round .e2m1 .rne 0
    let dec := (Fmt.e2m1.value q).scaled c
    let left := if f.finite then rne .fp32 (f.add dec.neg) else 0
    ((rne .fp32 dec, w.2 || !f.finite), ((if left = 0x80000000 then 0 else left), w.2)))
  (res.map Prod.fst, res.map Prod.snd, fs.any (fun f => !f.finite))

/-- Write 32 words of the error-feedback buffer. -/
def writeBuf (s : State) (n : Nat) (w : Who) (a : Word) (ws : List (Nat × Bool)) : State :=
  let placed := (range 0 ws.length).zip ws |>.foldl (fun (acc : State × List WByte) p =>
    let (s, l) := acc
    match cmdPlace s w .t (a + wd (4 * p.1)) ((natLe 4 p.2.1).map (fun b => (255, b.toNat))) p.2.2 with
    | (s, .ok m) => (s, l ++ m)
    | (s, .error _) => (s, l)) (s, [])
  cmdWrite placed.1 w n 256 placed.2

/-- The reservation a part needs. -/
def wanted (rid : Nat) (v : Slot) : CReq :=
  { rgn := rid, tag := ctlTag v.rav, mask := v.rbv.toNat, soff := colSoff v.nest, slen := colSlen v.nest, doff := colDoff v.nest,
    expw := ctlExpw v.rav, granted := false }

/-- Element k of a part goes to a tile index and a staging offset. -/
def partTarget (bs : List Byte) (k : Nat) : Int × Int :=
  let n := nestOf (bs.take 96)
  let c (i : Nat) : Nat := getAt n.counts i 1
  let j : List Nat := [k % c 0, k / c 0 % c 1, k / (c 0 * c 1) % c 2, k / (c 0 * c 1 * c 2)]
  let sum (f : Nat → Int) : Int := (range 0 4).foldl (fun (a : Int) i => a + (getAt j i 0 : Nat) * f i) 0
  (colPbase bs + sum (colPstr bs), (colDoff bs : Int) + 4 * sum (colDstr bs))

/-- Send element k of a part; a poisoned byte poisons all that its transfer writes (R433), a value that is not finite what it is written
into (R428). -/
def sendElement (s : State) (tid n rid k tix off : Nat) : State :=
  let v := (s.tile tid).slot n
  let w := slotWho tid v
  let nest := nestOf (v.nest.take 96)
  let a := nest.base + wordOf (nest.point false k * (nest.esize : Int))
  match readWords s w (colSpace v.nest) a (nest.esize / 4) with
  | (s, .error e) => stopSlot s tid n e.1 e.2.1 e.2.2
  | (s, .ok ws) =>
    if colComp v.nest then
      let ea := wd (ctlEf v.rav) + wd (128 * k)
      match readWords s w .t ea 32 with
      | (s, .error e) => stopSlot s tid n e.1 e.2.1 e.2.2
      | (s, .ok buf) =>
        let (out, left, odd) := compress ws buf
        let s := writeBuf s n w ea left
        let s := if odd then countRec s (ErrRec.ofTile s 19 1 tid 0 (natLe 1 3)) else s
        { s with cxfers := s.cxfers ++ [{ rgn := rid, tix := tix, op := colOp v.nest, off := off, words := out.map Prod.fst,
                                          pois := out.map (fun p => p.2 || ws.any Prod.snd || buf.any Prod.snd), 
                                          src := tid, slot := n, tag := ctlTag v.rav }] }
    else
      { s with cxfers := s.cxfers ++ [{ rgn := rid, tix := tix, op := colOp v.nest, off := off, words := ws.map Prod.fst,
                                        pois := ws.map (fun _ => ws.any Prod.snd), src := tid, slot := n, tag := ctlTag v.rav }] }

/-- A service of a part; none if it must wait. -/
def partStep (s : State) (tid n : Nat) : Option State :=
  let v := (s.tile tid).slot n
  match (s.tile tid).rgn with
  | none => none
  | some rid =>
    match s.region? rid with
    | none => none
    | some r =>
      let want := wanted rid v
      let found := s.creqs.find? (fun q => q.rgn == rid && q.tag == want.tag)
      let total := (nestOf (v.nest.take 96)).total
      let out := outstanding s tid n
      if !v.joined && v.rbv.toNat ≥ 2 ^ (r.lrec.width * r.lrec.height) then some (streamError s tid n 9)
      else if !v.joined then
        match found with
        | none => some (updSlot { s with creqs := s.creqs ++ [want] } tid n (fun v => { v with joined := true }))
        | some q =>
          if { q with granted := false } = want then some (updSlot s tid n (fun v => { v with joined := true }))
          else some (streamError s tid n 8)
      else if !((found.map CReq.granted).getD false) then none
      else if v.pos + out ≥ total then if out = 0 then endSlot s tid n else none
      else
        let k := v.pos + out
        let (tix, off) := partTarget v.nest k
        let len : Int := rnum v.nest 8 1
        if tix < 0 || tix ≥ (r.ntiles : Int) || off < 0 || off + len > (colSlen v.nest : Int) then
          if out = 0 then some (streamError s tid n 7) else none
        else if v.done + 1 < cdiv (rnum v.nest 8 1) 64 then some (moved (updSlot s tid n (fun v => { v with done := v.done + 1 })) tid)
        else
          some (moved (sendElement (updSlot s tid n (fun v => { v with done := 0 })) tid n rid k tix.toNat
            (colSoff v.nest + off.toNat)) tid)

/-! ### Transfers at the receiving page (R306) -/

/-- Write one word into staging: copy, FP32 add or INT32 add. -/
def stageWord (op : Nat) (s : State) (k new : Nat) (bad : Bool) : State :=
  let old := leNat (readRun s 0 k 4)
  let v := if op = 0 then new else if op = 1 then fadd32 old new else (old + new) % 2 ^ 32
  let s := writeRun s 0 k (natLe 4 v)
  if bad then { s with st := s.st.poisonRun k 1 } else s

/-- Count words for a receiving tile. -/
def countWords (s : State) (gid rid tag peer n : Nat) : State :=
  let g := s.group gid
  s.setGroup gid { g with cents := g.cents.map (fun p =>
    if p.2.rgn == rid && p.2.tag == tag then
      (p.1, { p.2 with counts := NMap.put p.2.counts peer ((NMap.findD p.2.counts peer 0 + n) % 2 ^ 32) })
    else p) }

/-- COLLECTIVE_TRANSFER: a transfer is performed at its bank controller and counted; an offence in CHECK mode is the sender's
(R424, R425). -/
def execCollectiveTransfer (n : Nat) (s : State) : Out :=
  match s.cxfers[n]? with
  | none => .next s
  | some x =>
    match s.region? x.rgn with
    | none => .next { s with cxfers := s.cxfers.eraseIdx n }
    | some r =>
      let dst := tileOfTix s r x.tix
      let v := (s.tile x.src).slot x.slot
      let w := slotWho x.src v
      let log := gspLog s dst
      let s := { s with cxfers := s.cxfers.eraseIdx n }
      let s := ((range 0 x.words.length).zip (x.words.zip x.pois)).foldl (fun s p =>
        let a := x.off + 4 * p.1
        if w.check && (log = 0 || a ≥ 2 ^ log) then noteOffence s w 2 true (wd a)
        else stageWord x.op s (gspKey (groupOf dst) (a % 2 ^ log)) p.2.1 p.2.2) s
      let s := countWords s (groupOf dst) x.rgn x.tag (peerOf dst) x.words.length
      .next (closeSlot (moved (updSlot s x.src x.slot (fun v => { v with pos := v.pos + 1 })) x.src) x.src x.slot)

/-! ### CLSTAT (R303, R308) -/

/-- The entry of a tag at a tile's page. -/
def centOf (s : State) (tid tag : Nat) : Option Cent :=
  match (s.tile tid).rgn with
  | none => none
  | some rid => ((s.group (groupOf tid)).cents.find? (fun p => p.2.rgn == rid && p.2.tag == tag)).map Prod.snd

/-- READY of a tag for a tile. -/
def centReady (s : State) (tid tag : Nat) : Bool :=
  match centOf s tid tag with
  | some c => NMap.findD c.counts (peerOf tid) 0 ≥ c.expw
  | none => false

/-- The status word. -/
def clstatWord (s : State) (tid tag : Nat) : Word :=
  let pend := s.creqs.any (fun q => some q.rgn == (s.tile tid).rgn && q.tag == tag && !q.granted)
  match centOf s tid tag with
  | some c => wd (NMap.findD c.counts (peerOf tid) 0 + b2n (centReady s tid tag) * 2 ^ 32 + 2 ^ 33 + b2n pend * 2 ^ 34)
  | none => wd (b2n pend * 2 ^ 34)

/-- STAT writes the status without waiting. -/
def execClstat (tk : Tk) (d s1 : Reg) (s : State) : Out :=
  aluOp s tk d [s1] (clstatWord s s.cur.1 (wfld (val s s1) 0 8))

/-- WAIT waits until READY; it is an acquire. -/
def execClstatWait (tk : Tk) (d s1 : Reg) (s : State) : Out :=
  let (tid, g) := s.cur
  let tag := wfld (val s s1) 0 8
  if !ready s tk [s1] (some d) then .next s
  else if centReady s tid tag then done s tk [s1] (Result.value (some d) (clstatWord s tid tag)) false
  else .next (s.setTile tid (startWait (s.tile tid) g tk [s1] (.clstat tag d)))

/-- A part of the tag is active in some slot of the region (R391). -/
def partActive (s : State) (tid tag : Nat) : Bool :=
  match tileRegion? s tid with
  | none => false
  | some r => (regionTiles s r).any (fun u =>
      (s.tile u).slots.any (fun p => p.2.act && p.2.opc == opClst && ctlTag p.2.rav == tag))

/-- Release a tag in every page of a region. -/
def freeTag (s : State) (rid tag : Nat) : State :=
  { s with
    creqs := s.creqs.filter (fun q => !(q.rgn == rid && q.tag == tag))
    groups := s.groups.map (fun p => (p.1, { p.2 with cents := p.2.cents.filter (fun c => !(c.2.rgn == rid && c.2.tag == tag)) })) }

/-- FREE releases the tag's reservation and clears its entries. -/
def execClstatFree (tk : Tk) (_ign : BitVec 6) (s1 : Reg) (s : State) : Out :=
  let (tid, g) := s.cur
  let tag := wfld (val s s1) 0 8
  if !ready s tk [s1] none then .next s
  else if partActive s tid tag then .next (raiseOperand s tid g 0x09)
  else if !tokenRoom s tk then .next s
  else
    let s := finishS s tid g tk [s1] (Result.value none 0) true
    .next (match (s.tile tid).rgn with | some rid => freeTag s rid tag | none => s)

end Sys2Proof.Machine
end

