-- ==== Sys2Proof/Machine/StreamEngine.lean ====
section
/-! DEFINITION. The stream engine at work (R212, R217 to R221, R224 to R230, R234, R236 to R238, R373, R392). -/

namespace Sys2Proof.Machine

/-! ### Pages and elements (R67, R217 to R219) -/

/-- Leaf and page size, as a power of two, of the page that holds an address, without any effect: those of the translation held, which
the access itself would use, or those of the walk (R96). -/
def pageInfo (s : State) (tid va : Nat) : Option (Nat × Nat) :=
  match tlbFind s tid (partOf s tid) va with
  | some e => some (e.leaf, e.plog)
  | none => match walk s (partOf s tid) va with | .leaf l log => some (l, log) | .fail _ _ => none

/-- How a command's elements lie: bits of one access, accesses of one group, elements of one group, capacity of a slot,
blocks of a slot, bytes of a side entry, format, geometry, page size, and whether the page's own element is used. -/
structure Shape where
  bits : Nat
  ape : Nat
  epg : Nat
  cap : Nat
  nblk : Nat
  sbytes : Nat
  fmt : Nat
  geom : Nat
  plog : Nat
  object : Bool
  deriving DecidableEq, Repr

/-- Elements of e bytes: an access of 1, 2, 4 or 8 bytes, else words (R217). -/
def byteShape (e slot fmt : Nat) : Shape :=
  let one := e = 1 || e = 2 || e = 4 || e = 8
  { bits := if one then 8 * e else 32, ape := if one then 1 else e / 4, epg := 1, cap := slot / e, nblk := cdiv slot 128,
    sbytes := 0, fmt := fmt, geom := 0, plog := 0, object := false }

/-- Rows of words (R226). -/
def rowShape (roww slot : Nat) : Shape :=
  { byteShape (4 * roww) slot 0 with bits := 32, ape := roww }

/-- Elements of a page's own format. -/
def objectShape (fmt geom slot plog : Nat) : Shape :=
  let cb := isCb3 fmt
  { bits := if cb then 64 else fmtBits fmt, ape := if cb then 32 else 1, epg := if cb then 128 else 1,
    cap := pageCap fmt geom slot, nblk := slotBlocks fmt geom slot, sbytes := if hasSide fmt geom then sideBytes fmt else 0,
    fmt := fmt, geom := geom, plog := plog, object := true }

/-- Bytes of a side-band that R220 requires. -/
def Shape.sideNeed (h : Shape) : Nat := 4 + 4 * poisonWords h.nblk + h.nblk * h.sbytes

/-- The side-band of a ring is large enough; SIDE 0 is a ring without side-bands, which only scaled data need (R85, R220). -/
def Shape.sideGood (h : Shape) (r : Ring) : Bool := (r.side = 0 && h.sbytes = 0) || h.sideNeed ≤ r.sideLen

/-- Accesses that n elements take. -/
def Shape.atoms (h : Shape) (n : Nat) : Nat := cdiv n h.epg * h.ape

/-- Accesses of one service of at most 64 bytes, a whole number of bytes. -/
def Shape.per (h : Shape) : Nat := if h.bits < 8 then 8 * (64 / h.bits) else 512 / h.bits

/-- Block of a slot that access i belongs to (R219, R373). -/
def Shape.block (h : Shape) (i : Nat) : Nat :=
  if h.sbytes = 0 then i * h.bits / 1024 else i / h.ape * h.epg / blockLen h.fmt h.geom

/-- The last block that access i touches: a packed element may cross into the next 128 bytes. -/
def Shape.blockEnd (h : Shape) (i : Nat) : Nat := if h.sbytes = 0 then ((i + 1) * h.bits - 1) / 1024 else h.block i

/-- Clamp bit of a command (R214). -/
def Slot.clamps (v : Slot) : Bool := (v.opc = opSld || v.opc = opSst || v.opc = opSmc) && v.extv.getLsbD 5

/-- Element index of point k in an object (R217, R218). DEDUCED: it is a signed number of 64 bits, as the sum RBV + n wraps; R217 gives
the width of the address only (notes/assumptions/98.md). -/
def elemIndex (v : Slot) (k : Nat) : Int :=
  sxi (trunc 64 ((v.rbv.toNat : Int) + (nestOf v.nest).point v.clamps k)) 64

/-- Address of point k for a stated element size; SCPY has no base addend (R217, R228). -/
def elemAddr (v : Slot) (k : Nat) : Word :=
  let n := nestOf v.nest
  n.base + (if v.opc = opScpy then 0 else v.rbv) + wordOf (n.point v.clamps k * (n.esize : Int))

/-- Page of an object's element, its place in the payload area in elements, and the first byte of the page (R67). -/
def Shape.pagePlace (h : Shape) (base : Word) (e : Int) : Word × Nat :=
  let g := blockLen h.fmt h.geom
  let nb := 2 ^ h.plog / (blockBytes h.fmt h.geom + h.sbytes)
  let per : Int := (nb * g : Nat)
  (base - wd (base.toNat % 2 ^ h.plog) + wordOf (e / per * (2 ^ h.plog : Nat)), (e % per).toNat)

/-- Byte address and bit offset of access i of a group of an object's elements that starts at element e. -/
def Shape.objectAt (h : Shape) (base : Word) (e : Int) (w : Nat) : Word × Nat :=
  if h.sbytes = 0 then
    let bit := e * (h.bits : Int)
    (base + wordOf (bit / 8), (bit % 8).toNat)
  else
    let (page, p) := h.pagePlace base e
    if isCb3 h.fmt then (page + wd (p / 128 * 256 + 8 * w), 0)
    else (page + wd (p * h.bits / 8), p * h.bits % 8)

/-- Address of the side entry of the block that holds element e. -/
def Shape.sideAt (h : Shape) (base : Word) (e : Int) : Word :=
  let (page, p) := h.pagePlace base e
  let nb := 2 ^ h.plog / (blockBytes h.fmt h.geom + h.sbytes)
  page + wd (2 ^ h.plog - h.sbytes * nb + h.sbytes * (p / blockLen h.fmt h.geom))

/-! ### Checks of R218 and R226 -/

/-- The conditions that a scaled or codebook object puts on a nest. -/
def scaledGood (n : Nest) (clamp : Bool) (g : Nat) : Bool :=
  getAt n.strides 0 0 == 1 && getAt n.counts 0 1 % g == 0 && !clamp

/-- The shape of a command at its commit position, or the STREAM sub-code, or the fault of its first page. `rs` are the other rings
that it fills, which must hold what the first holds (R225). DESIGN CHOICE: rings of a multicast may differ in SLOT and SIDE; one that is
too small gives SUB 2, and side-bands are written if the first ring has one (notes/assumptions/90.md). -/
def shapeOf (s : State) (tid : Nat) (v : Slot) (r : Ring) (rs : List Ring) : State × Except (Nat × Nat × Nat) Shape :=
  let n := nestOf v.nest
  let x := v.extv.toNat
  let check (h : Shape) : Except (Nat × Nat × Nat) Shape :=
    if h.cap = 0 || !(r :: rs).all (fun q => h.sideGood q && r.bytes ≤ q.bytes) then .error (7, 2, 0) else .ok h
  if v.opc = opSgath || v.opc = opSscat then (s, check (rowShape (fld x 6 6) r.bytes))
  else if v.sp != 4 then
    if n.esize = 0 then (s, .error (7, 1, 0)) else (s, check (byteShape n.esize r.bytes 0))
  else
    let first := if n.esize = 0 then n.base else elemAddr v 0
    match pageInfo s tid first.toNat with
    | none =>
      match locate s (slotWho tid v) .d (alignDown first 8) (if v.opc = opSst then .write else .read) with
      | (s, .xlate sub info) => (s, .error (0x12, sub, info))
      | (s, _) => (s, .error (7, 1, 0))
    | some (l, log) =>
      let fmt := leafFmt l
      let geom := leafGeom l
      if !fmtGood fmt geom then (s, .error (7, 1, 0))
      else if n.esize != 0 then (s, if isWide fmt && geom = 0 then check (byteShape n.esize r.bytes fmt) else .error (7, 1, 0))
      else if hasSide fmt geom && !scaledGood n v.clamps (blockLen fmt geom) then (s, .error (7, 1, 0))
      else (s, check (objectShape fmt geom r.bytes log))

/-- The page of a byte that an access reaches breaks R218 or R226. -/
def byteBad (s : State) (tid : Nat) (v : Slot) (h : Shape) (a : Word) : Bool :=
  v.sp == 4 && v.opc != opScpy &&
    match pageInfo s tid a.toNat with
    | none => false
    | some (l, _) =>
      if v.opc = opSgath || v.opc = opSscat then !(isWide (leafFmt l) && leafGeom l == 0)
      else leafFmt l != h.fmt || leafGeom l != h.geom

/-! ### Accesses of one service -/

/-- One access: address, bytes, bit offset. -/
structure Atom where
  a : Word
  n : Nat
  shift : Nat
  deriving DecidableEq, Repr

/-- A page that an access reaches, by its first or its last byte, breaks R218 or R226. -/
def pageBad (s : State) (tid : Nat) (v : Slot) (h : Shape) (x : Atom) : Bool :=
  byteBad s tid v h x.a || byteBad s tid v h (x.a + wd (x.n - 1))

/-- The index of a gather or scatter (R226). -/
def rowIndex (s : State) (tid : Nat) (v : Slot) (k : Nat) : Nat :=
  let n := nestOf v.nest
  match cmdRead s (slotWho tid v) .t (alignDown (n.base + wordOf (n.point false k * 4)) 4) 4 with
  | (_, .ok (bs, _)) => leNat bs
  | _ => 0

/-- The offence of an index read out of range in CHECK mode is recorded as access i begins its row (R424, R425). -/
def rowNote (s : State) (tid : Nat) (v : Slot) (h : Shape) (k0 i : Nat) : State :=
  if (v.opc = opSgath || v.opc = opSscat) && i % h.ape = 0 then
    let n := nestOf v.nest
    (cmdRead s (slotWho tid v) .t (alignDown (n.base + wordOf (n.point false (k0 + i / h.ape * h.epg) * 4)) 4) 4).1
  else s

/-- Access i of the slot that starts at element k0. -/
def atomOf (s : State) (tid : Nat) (v : Slot) (h : Shape) (k0 i : Nat) : Atom :=
  let k := k0 + i / h.ape * h.epg
  let w := i % h.ape
  let n := nestOf v.nest
  if v.opc = opSgath || v.opc = opSscat then
    { a := alignDown (v.rbv + wd (rowIndex s tid v k * 4 * fld v.extv.toNat 12 20) + wd (4 * w)) 4, n := 4, shift := 0 }
  else if h.object then
    let (a, sh) := h.objectAt n.base (elemIndex v k) w
    { a := if h.bits < 16 then a else alignDown a (h.bits / 8), n := (sh + h.bits + 7) / 8, shift := sh }
  else
    let b := h.bits / 8
    { a := alignDown (elemAddr v k + wd (b * w)) b, n := b, shift := 0 }

/-- Read n bytes one by one. -/
def readBytewise (s : State) (w : Who) (sp : Space) (a : Word) : Nat → State × Except (Nat × Nat) (Nat × Bool)
  | 0 => (s, .ok (0, false))
  | n + 1 =>
    match cmdRead s w sp a 1 with
    | (s, .error e) => (s, .error e)
    | (s, .ok (bs, b)) =>
      match readBytewise s w sp (a + 1) n with
      | (s, .error e) => (s, .error e)
      | (s, .ok (v, bad)) => (s, .ok (leNat bs + 256 * v, bad || b))

/-- Read an access; bytes of a packed element are read one by one, since it may cross a page. -/
def readAtom (s : State) (w : Who) (sp : Space) (h : Shape) (x : Atom) : State × Except (Nat × Nat) (Nat × Bool) :=
  if h.bits < 8 || x.shift != 0 then
    match readBytewise s w sp x.a x.n with
    | (s, .ok (v, bad)) => (s, .ok (fld v x.shift h.bits, bad))
    | (s, .error e) => (s, .error e)
  else
    match cmdRead s w sp x.a x.n with
    | (s, .error e) => (s, .error e)
    | (s, .ok (bs, bad)) => (s, .ok (leNat bs, bad))

/-- The bytes that an access writes: mask and value of each. -/
def atomBytes (h : Shape) (x : Atom) (v : Nat) : List (Nat × Nat) :=
  let m := (2 ^ h.bits - 1) <<< x.shift
  let y := v <<< x.shift
  (range 0 x.n).map (fun j => (fld m (8 * j) 8, fld y (8 * j) 8))

/-- Join two writes of one byte. -/
def joinByte (a b : WByte) : WByte :=
  { a with mask := Nat.lor a.mask b.mask, val := Nat.lor (Nat.land a.val (255 - b.mask)) (Nat.land b.val b.mask), bad := a.bad || b.bad }

/-- Two writes go to parts of one byte. -/
def sameByte (a b : WByte) : Bool := a.p == b.p && (a.mask != 255 || b.mask != 255)

/-- Append writes; those to parts of one byte are joined, the later on top, since what a peer's byte held before is read once (R114). -/
def joinWrites (l m : List WByte) : List WByte :=
  l.map (fun a => (m.filter (sameByte a)).foldl joinByte a) ++ m.filter (fun b => !l.any (fun a => sameByte a b))

/-- Find the places of bytes one by one. -/
def placeBytewise (s : State) (w : Who) (sp : Space) (a : Word) (bad : Bool) :
    List (Nat × Nat) → State × Except (Nat × Nat) (List WByte)
  | [] => (s, .ok [])
  | b :: r =>
    match cmdPlace s w sp a [b] bad with
    | (s, .error e) => (s, .error e)
    | (s, .ok l) =>
      match placeBytewise s w sp (a + 1) bad r with
      | (s, .error e) => (s, .error e)
      | (s, .ok m) => (s, .ok (l ++ m))

/-- Find the places of an access that writes. -/
def placeAtom (s : State) (w : Who) (sp : Space) (h : Shape) (x : Atom) (v : Nat) (bad : Bool) :
    State × Except (Nat × Nat) (List WByte) :=
  let bs := atomBytes h x v
  if h.bits < 8 || x.shift != 0 then placeBytewise s w sp x.a bad bs else cmdPlace s w sp x.a bs bad

/-- The first element of a run of level 0 of a scaled object is a multiple of G (R218). -/
def runBad (v : Slot) (h : Shape) (k : Nat) : Bool :=
  h.sbytes != 0 && k % getAt (nestOf v.nest).counts 0 1 == 0 && elemIndex v k % (blockLen h.fmt h.geom : Nat) != 0

/-- What a service of a command comes to: bytes for the ring with the poison of blocks, or an exception. -/
abbrev Srv (α : Type) := State × Except (Nat × Nat × Nat) α

/-- Read accesses i to i + n − 1 of a slot: their bits joined, and the poisoned blocks. -/
def gatherAtoms (s : State) (tid : Nat) (v : Slot) (h : Shape) (k0 i : Nat) : Nat → Srv (Nat × Nat)
  | 0 => (s, .ok (0, 0))
  | n + 1 =>
    let s := rowNote s tid v h k0 i
    let x := atomOf s tid v h k0 i
    if runBad v h (k0 + i / h.ape * h.epg) || pageBad s tid v h x then (s, .error (7, 1, 0))
    else
      match readAtom s (slotWho tid v) (spOf v.sp) h x with
      | (s, .error e) => (s, .error (0x12, e.1, e.2))
      | (s, .ok (val, bad)) =>
        match gatherAtoms s tid v h k0 (i + 1) n with
        | (s, .error e) => (s, .error e)
        | (s, .ok (rest, pois)) =>
          (s, .ok (val + rest * 2 ^ h.bits, if bad then Nat.lor pois (Nat.lor (2 ^ h.block i) (2 ^ h.blockEnd i)) else pois))

/-- Find the places that accesses i to i + n − 1 of a slot write the bits of `data` to. -/
def placeAtoms (s : State) (tid : Nat) (v : Slot) (h : Shape) (k0 i data pois : Nat) : Nat → Srv (List WByte)
  | 0 => (s, .ok [])
  | n + 1 =>
    let s := rowNote s tid v h k0 i
    let x := atomOf s tid v h k0 i
    if runBad v h (k0 + i / h.ape * h.epg) || pageBad s tid v h x then (s, .error (7, 1, 0))
    else
      match placeAtom s (slotWho tid v) (spOf v.sp) h x (fld data 0 h.bits)
          (tb pois (h.block i) || tb pois (h.blockEnd i)) with
      | (s, .error e) => (s, .error (0x12, e.1, e.2))
      | (s, .ok l) =>
        match placeAtoms s tid v h k0 (i + 1) (data / 2 ^ h.bits) pois n with
        | (s, .error e) => (s, .error e)
        | (s, .ok m) => (s, .ok (joinWrites l m))

/-! ### Filling a ring: SLD, SMC, SGATH (R221, R224 to R226) -/

/-- An access of n bytes in a space reaches a tile that has not started, by its first or its last byte: it is held (R35). -/
def spaceHeld (s : State) (tid : Nat) (sp : Nat) (a : Word) (n : Nat) : Bool :=
  peerHeld s tid (spOf sp) a || peerHeld s tid (spOf sp) (a + wd (n - 1))

/-- One of the accesses i to i + m − 1 of a service is held. -/
def atomsHeld (s : State) (tid : Nat) (v : Slot) (h : Shape) (k0 i m : Nat) : Bool :=
  spOf v.sp == .p && (range i m).any (fun j => let x := atomOf s tid v h k0 j; spaceHeld s tid v.sp x.a x.n)

/-- Services that move the payload of n elements. -/
def Shape.pieces (h : Shape) (n : Nat) : Nat := cdiv (h.atoms n) h.per

/-- Blocks of n elements that have side entries, how many of these one service moves, and the services for all of them (R212). -/
def Shape.sideBlocks (h : Shape) (n : Nat) : Nat := if h.sbytes = 0 then 0 else cdiv n (blockLen h.fmt h.geom)
def Shape.sidePer (h : Shape) : Nat := 64 / max h.sbytes 1
def Shape.sidePieces (h : Shape) (n : Nat) : Nat := cdiv (h.sideBlocks n) h.sidePer

/-- Read the side entries of a slot's blocks (R67, R220): bytes, and poisoned blocks; a CB3 header may itself say POISON. -/
def readSides (s : State) (tid : Nat) (v : Slot) (h : Shape) (k b : Nat) : Nat → Srv (List Byte × Nat)
  | 0 => (s, .ok ([], 0))
  | n + 1 =>
    let a := h.sideAt (nestOf v.nest).base (elemIndex v k)
    match cmdRead s (slotWho tid v) .d a h.sbytes with
    | (s, .error e) => (s, .error (0x12, e.1, e.2))
    | (s, .ok (bs, bad)) =>
      match readSides s tid v h (k + blockLen h.fmt h.geom) (b + 1) n with
      | (s, .error e) => (s, .error e)
      | (s, .ok (r, pois)) =>
        (s, .ok (bs ++ r, if bad || (isCb3 h.fmt && tb (leNat bs) 1) then Nat.lor pois (2 ^ b) else pois))

/-- Format in the slot header: that of the page, 0 outside D; for rows, that of the first row's page (R220, R226). -/
def headFmt (s : State) (tid : Nat) (v : Slot) (h : Shape) : Nat :=
  if v.opc = opSgath && v.sp = 4 then
    match pageInfo s tid (atomOf s tid v h v.pos 0).a.toNat with
    | some (l, _) => leafFmt l
    | none => 0
  else h.fmt

/-- An exception of a service. -/
def srvError (s : State) (tid n : Nat) (e : Nat × Nat × Nat) : State := stopSlot s tid n e.1 e.2.1 e.2.2

/-- The first ring that a filling command names. -/
def firstRing (s : State) (tid : Nat) (v : Slot) : Ring :=
  match fillsOf tid v with
  | (u, n) :: _ => (s.tile u).ring n
  | [] => Ring.reset

/-- Rings that a filling command names. -/
def otherRings (s : State) (tid : Nat) (v : Slot) : List Ring := (fillsOf tid v).map (fun p => (s.tile p.1).ring p.2)

/-- Side entries of at most 64 bytes, those of blocks from `sidePer · j` on, are read into their place in the side-bands (R212, R220). -/
def fillSides (s : State) (tid n : Nat) (h : Shape) (cnt j : Nat) : State :=
  let v := (s.tile tid).slot n
  let b := h.sidePer * j
  match readSides s tid v h (v.pos + b * blockLen h.fmt h.geom) b (min h.sidePer (h.sideBlocks cnt - b)) with
  | (s, .error e) => srvError s tid n e
  | (s, .ok (sides, more)) =>
    let at_ := 4 + 4 * poisonWords h.nblk + b * h.sbytes
    let s := putAll s (slotWho tid v) (fillsOf tid v) (fun r => r.sideOff r.claimedSlot + at_) sides
    moved (updSlot s tid n (fun v => { v with done := v.done + 1, pois := Nat.lor v.pois more })) tid

/-- Piece j, of 64 bytes, of the header and the poison words of the slot is written; with the last one FILLED advances (R212, R220). -/
def fillStep (s : State) (tid n : Nat) (h : Shape) (cnt total j : Nat) : State :=
  let v := (s.tile tid).slot n
  let dests := fillsOf tid v
  let band := natLe 4 (slotHeader cnt (headFmt s tid v h) h.geom (v.pos + cnt = total)) ++ natLe (4 * poisonWords h.nblk) v.pois
  let side := (firstRing s tid v).side != 0
  let s := if side then putAll s (slotWho tid v) dests (fun r => r.sideOff r.claimedSlot + 64 * j) ((band.drop (64 * j)).take 64) else s
  if side && 64 * (j + 1) < band.length then moved (updSlot s tid n (fun v => { v with done := v.done + 1 })) tid
  else
    advance (fill s dests) tid n cnt

/-- A service of a command that fills rings from memory; none if it must wait. -/
def fillService (s : State) (tid n : Nat) : Option State :=
  let v := (s.tile tid).slot n
  let dests := fillsOf tid v
  let total := (nestOf v.nest).total
  if v.pos ≥ total then endSlot s tid n
  else if !v.opened && !canClaim s dests then none
  else
    match shapeOf s tid v (firstRing s tid v) (otherRings s tid v) with
    | (s, .error e) => some (srvError s tid n e)
    | (s, .ok h) =>
      let cnt := min h.cap (total - v.pos)
      if !v.opened then
        some (updSlot (claim s dests) tid n (fun v => { v with opened := true, done := 0, pois := 0 }))
      else if v.done ≥ h.pieces cnt + h.sidePieces cnt then
        some (fillStep s tid n h cnt total (v.done - h.pieces cnt - h.sidePieces cnt))
      else if v.done ≥ h.pieces cnt then some (fillSides s tid n h cnt (v.done - h.pieces cnt))
      else
        let i := v.done * h.per
        let m := min h.per (h.atoms cnt - i)
        if atomsHeld s tid v h v.pos i m then none
        else
          match gatherAtoms s tid v h v.pos i m with
          | (s, .error e) => some (srvError s tid n e)
          | (s, .ok (data, pois)) =>
            let bs := natLe (cdiv (m * h.bits) 8) data
            let s := putAll s (slotWho tid v) dests (fun r => r.slotOff r.claimedSlot + i * h.bits / 8) bs
            some (moved (updSlot s tid n (fun v => { v with done := v.done + 1, pois := Nat.lor v.pois pois })) tid)

/-! ### Draining a ring: SST, SSCAT (R221, R224, R226) -/

/-- Poison bits of `n` blocks of a ring slot from block `b0` on (R373). -/
def slotMarks (s : State) (w : Who) (r : Ring) (i : Nat) (h : Shape) (b0 n : Nat) : State × Nat :=
  blockMarks s w r i (if h.sbytes = 0 then 128 else blockBytes h.fmt h.geom) b0 (min n (h.nblk - b0))

/-- Places of the side entries that a slot's blocks write. -/
def placeSides (s : State) (tid : Nat) (v : Slot) (h : Shape) (k b : Nat) (band : List Byte) (pois : Nat) :
    Nat → Srv (List WByte)
  | 0 => (s, .ok [])
  | n + 1 =>
    let a := h.sideAt (nestOf v.nest).base (elemIndex v k)
    match cmdPlace s (slotWho tid v) .d a ((band.take h.sbytes).map (fun x => (255, x.toNat))) (tb pois b) with
    | (s, .error e) => (s, .error (0x12, e.1, e.2))
    | (s, .ok l) =>
      match placeSides s tid v h (k + blockLen h.fmt h.geom) (b + 1) (band.drop h.sbytes) pois n with
      | (s, .error e) => (s, .error e)
      | (s, .ok m) => (s, .ok (l ++ m))

/-- The slot is drained: it is released, and the commit position moves past it (R221). -/
def drained (s : State) (tid n ring cnt : Nat) : State := advance (release s tid ring) tid n cnt

/-- A piece of a drain is over. With the last one the slot has been read, and TAKEN advances; it is released too, unless a write to a peer
has not completed (R83, R221). -/
def drainPiece (s : State) (tid n ring : Nat) (h : Shape) (cnt : Nat) : State :=
  let last := ((s.tile tid).slot n).done + 1 ≥ h.pieces cnt + h.sidePieces cnt
  let s := if last then takeSlot s tid ring else s
  if last && !slotWritesOut s tid n then drained s tid n ring cnt
  else moved (updSlot s tid n (fun v => { v with done := v.done + 1 })) tid

/-- Piece j of the side entries of the slot's blocks, 64 bytes of them, is written; an entry in a poisoned unit carries its poison. None
if it must wait (R212, R221, R373). -/
def drainStep (s : State) (tid n ring : Nat) (h : Shape) (cnt j : Nat) : Option State :=
  let v := (s.tile tid).slot n
  let w := slotWho tid v
  let r := (s.tile tid).ring ring
  let i := r.taken
  let b := h.sidePer * j
  let m := min h.sidePer (h.sideBlocks cnt - b)
  let at_ := r.sideOff i + 4 + 4 * poisonWords h.nblk + b * h.sbytes
  let (s, band) := slotBytes s w r.spG at_ (m * h.sbytes)
  let (s, said) := slotMarks s w r i h b m
  let lost := (range 0 m).foldl (fun p k => if slotSpoiled s w r.spG (at_ + k * h.sbytes) h.sbytes then p + 2 ^ (b + k) else p) 0
  match placeSides s tid v h (v.pos + b * blockLen h.fmt h.geom) b band (Nat.lor said lost) m with
  | (s, .error e) => some (srvError s tid n e)
  | (s, .ok ws) =>
    if writesClash s tid n ws then none else some (drainPiece (cmdWrite s w n (ws.length + 1) ws) tid n ring h cnt)

/-- A service of a command that drains a ring to memory; none if it must wait. -/
def drainService (s : State) (tid n : Nat) : Option State :=
  let v := (s.tile tid).slot n
  let ring := fld v.extv.toNat 0 5
  let r := (s.tile tid).ring ring
  let total := (nestOf v.nest).total
  if v.pos ≥ total then endSlot s tid n
  else if !v.opened && r.filled = r.taken then none
  else
    match shapeOf s tid v r [] with
    | (s, .error e) => some (srvError s tid n e)
    | (s, .ok h) =>
      let cnt := min h.cap (total - v.pos)
      if !v.opened then some (updSlot s tid n (fun v => { v with opened := true, done := 0 }))
      else if v.done ≥ h.pieces cnt + h.sidePieces cnt then
        if slotWritesOut s tid n then none else some (drained s tid n ring cnt)
      else if v.done ≥ h.pieces cnt then drainStep s tid n ring h cnt (v.done - h.pieces cnt)
      else
        let i := v.done * h.per
        let m := min h.per (h.atoms cnt - i)
        let at_ := r.slotOff r.taken + i * h.bits / 8
        if atomsHeld s tid v h v.pos i m then none
        else
          let (s, bs) := slotBytes s (slotWho tid v) r.spG at_ (cdiv (m * h.bits) 8)
          let (s, marks) := slotMarks s (slotWho tid v) r r.taken h (h.block i) (h.blockEnd (i + m - 1) + 1 - h.block i)
          match placeAtoms s tid v h v.pos i (leNat bs) marks m with
          | (s, .error e) => some (srvError s tid n e)
          | (s, .ok ws) =>
            if writesClash s tid n ws then none
            else some (drainPiece (cmdWrite s (slotWho tid v) n (ws.length + 1) ws) tid n ring h cnt)

/-! ### SREC (R227) -/

/-- Copy m bytes of a side-band from one ring slot to another, from byte o on, with the poison words joined to `pois`; a poisoned unit of
the source is poisoned where it goes (R227, R373). -/
def copyBand (s : State) (w : Who) (a b : Ring) (pois o m : Nat) : State :=
  let at_ := a.sideOff a.taken
  let (s, bs) := slotBytes s w a.spG (at_ + o) m
  let (s, hd) := if o = 0 then (s, bs.take 4) else if pois = 0 then (s, []) else slotBytes s w a.spG at_ 4
  let p := if pois = 0 then 0 else min (4 * poisonWords (a.blocksBy (leNat hd))) (a.sideLen - 4)
  let marks := natLe p pois
  let put := b.sideOff b.claimedSlot + o
  let out := (range 0 m).zip bs |>.map (fun q =>
    if 4 ≤ o + q.1 && o + q.1 < 4 + p then q.2 ||| marks[o + q.1 - 4]?.getD 0 else q.2)
  let s := slotWrite s w w.tid b.spG put out
  (range 0 m).foldl (fun s k =>
    if slotSpoiled s w a.spG (at_ + o + k) 1 && !slotOob s w w.tid b.spG (put + k) 1 then
      { s with st := s.st.poisonRun (spaceKey s w.tid b.spG (put + k)) 1 }
    else s) s

/-- A service of SREC: a block takes poison from those of its bytes that lie in poisoned units (R373); none if it must wait. DESIGN
CHOICE: a destination whose SLOT or SIDE is below the source's raises STREAM SUB 2;
R227 rules it out and gives it no fate (notes/assumptions/90.md). -/
def recurService (s : State) (tid n : Nat) : Option State :=
  let t := s.tile tid
  let v := t.slot n
  let src := fld v.extv.toNat 0 5
  let dst := fld v.extv.toNat 5 5
  let a := t.ring src
  let b := t.ring dst
  if v.rav.toNat ≤ v.pos then endSlot s tid n
  else if b.bytes < a.bytes || b.sideLen < a.sideLen then some (streamError s tid n 2)
  else if !v.opened then
    if !canClaim s [(tid, dst)] || a.filled = a.taken then none
    else some (updSlot (claim s [(tid, dst)]) tid n (fun v => { v with opened := true, done := 0, pois := 0 }))
  else if v.done < cdiv a.bytes 64 then
    let off := 64 * v.done
    let m := min 64 (a.bytes - off)
    let at_ := a.slotOff a.taken + off
    let w := slotWho tid v
    let bad := slotSpoiled s w a.spG at_ m
    let (s, hd) := if bad then slotBytes s w a.spG (a.sideOff a.taken) 4 else (s, [])
    let w0 := leNat hd
    let fmt := fld w0 16 6
    let geom := fld w0 22 4
    let len := if !a.isRec && hasSide fmt geom && fmtGood fmt geom then blockBytes fmt geom else 128
    let marks := if bad then (range (off / len) ((off + m - 1) / len - off / len + 1)).foldl (fun p k =>
      let from_ := max off (len * k)
      if slotSpoiled s w a.spG (a.slotOff a.taken + from_) (min (off + m) (len * (k + 1)) - from_) then Nat.lor p (2 ^ k) else p) 0 else 0
    let (s, bs) := slotBytes s w a.spG at_ m
    let s := slotWrite s w tid b.spG (b.slotOff b.claimedSlot + off) bs
    some (moved (updSlot s tid n (fun v => { v with done := v.done + 1, pois := Nat.lor v.pois marks })) tid)
  else
    let w := slotWho tid v
    let j := v.done - cdiv a.bytes 64
    let s := if a.side = 0 then s else copyBand s w a b v.pois (64 * j) (min 64 (a.sideLen - 64 * j))
    if a.side != 0 && 64 * (j + 1) < a.sideLen then some (moved (updSlot s tid n (fun v => { v with done := v.done + 1 })) tid)
    else
    some (advance (release (takeSlot (fill s [(tid, dst)]) tid src) tid src) tid n 1)

/-! ### SCPY (R228) -/

/-- Address that access i of a copy writes. -/
def copyDest (v : Slot) (h : Shape) (i : Nat) : Word :=
  let b := h.bits / 8
  alignDown (v.rbv + wd (i / h.ape * (nestOf v.nest).esize) + wd (b * (i % h.ape))) b

/-- Copy n accesses from access w of element k on. -/
def copyAtoms (s : State) (tid : Nat) (v : Slot) (h : Shape) (k w : Nat) : Nat → Srv (List WByte)
  | 0 => (s, .ok [])
  | n + 1 =>
    let b := h.bits / 8
    let who := slotWho tid v
    let x := atomOf s tid v h 0 (k * h.ape + w)
    let d := copyDest v h (k * h.ape + w)
    match cmdRead s who (spOf v.sp) x.a b with
    | (s, .error e) => (s, .error (0x12, e.1, e.2))
    | (s, .ok (bs, bad)) =>
      match cmdPlace s who (spOf (fld v.extv.toNat 0 3)) d (bs.map (fun y => (255, y.toNat))) bad with
      | (s, .error e) => (s, .error (0x12, e.1, e.2))
      | (s, .ok l) =>
        let (k', w') := if w + 1 = h.ape then (k + 1, 0) else (k, w + 1)
        match copyAtoms s tid v h k' w' n with
        | (s, .error e) => (s, .error e)
        | (s, .ok m) => (s, .ok (l ++ m))

/-- A service of SCPY: whole elements within 64 bytes, or 64 bytes of one. The commit position moves once the writes are performed,
those to a peer with their completion (R228, R347). -/
def copyService (s : State) (tid n : Nat) : Option State :=
  let v := (s.tile tid).slot n
  let nest := nestOf v.nest
  let h := byteShape nest.esize nest.esize 0
  if v.pos ≥ nest.total then endSlot s tid n
  else
    let whole := nest.esize ≤ 64
    let k := if whole then min (64 / nest.esize) (nest.total - v.pos) else 1
    let w0 := if whole then 0 else v.done * h.per
    let m := if whole then k * h.ape else min h.per (h.ape - w0)
    let ends := whole || w0 + m ≥ h.ape
    let over_ (s : State) : State :=
      if ends then advance s tid n k else moved (updSlot s tid n (fun v => { v with opened := false, done := v.done + 1 })) tid
    let dest := fld v.extv.toNat 0 3
    let held := atomsHeld s tid v h 0 (v.pos * h.ape + w0) m
      || (spOf dest == .p && (range (v.pos * h.ape + w0) m).any (fun i => spaceHeld s tid dest (copyDest v h i) (h.bits / 8)))
    if v.opened then (if slotWritesOut s tid n then none else some (over_ s))
    else if held then none
    else
      match copyAtoms s tid v h v.pos w0 m with
      | (s, .error e) => some (srvError s tid n e)
      | (s, .ok ws) =>
        if writesClash s tid n ws then none
        else
        let s := cmdWrite s (slotWho tid v) n (ws.length + 1) ws
        some (if slotWritesOut s tid n then moved (updSlot s tid n (fun v => { v with opened := true })) tid else over_ s)

/-! ### STASH (R234, R236) -/

/-- CTRL of a slot's state. -/
def ctrlOf (v : Slot) : Nat :=
  v.opc + b2n v.act * 2 ^ 8 + b2n v.held * 2 ^ 9 + b2n v.cc * 2 ^ 10 +
    (match v.sc with | .tile => 0 | .group => 1 | .yard => 2 | .device => 3 | .system => 4) * 2 ^ 11 + v.sp * 2 ^ 14
    + b2n v.addpend * 2 ^ 27 + b2n v.closed * 2 ^ 28 + b2n v.cv * 2 ^ 29 + cntNum v.csp * 2 ^ 32

/-- The 64 bytes of a slot's state. -/
def packSlot (v : Slot) : List Byte :=
  natLe 8 (ctrlOf v) ++ natLe 8 v.nrec ++ natLe 8 v.rbv.toNat ++ natLe 8 v.rav.toNat ++ natLe 8 v.pos
    ++ natLe 8 v.extv.toNat ++ natLe 8 v.caddr.toNat ++ natLe 8 v.cinc.toNat

/-- DESIGN CHOICE: reserved bits of the state are ignored, an SC of 5 to 7 is taken as SYSTEM, and a CSP of 3 as D
(notes/assumptions/79.md). A slot from its saved state: stopped until RFE, its record read again from the TSP by the caller (R216, R234). -/
def unpackSlot (bs : List Byte) (seq : Nat) : Slot :=
  let c := rnum bs 0 8
  { opc := fld c 0 8, act := tb c 8, held := tb c 9, cc := tb c 10, sc := scopeOf (fld c 11 3), sp := fld c 14 3,
    addpend := tb c 27, closed := tb c 28, cv := tb c 29, csp := cntOfNum (fld c 32 2), nrec := rnum bs 8 8 % 2 ^ 18,
    rbv := wd (rnum bs 16 8), rav := wd (rnum bs 24 8), pos := rnum bs 32 8, extv := BitVec.ofNat 32 (rnum bs 40 4),
    caddr := wd (rnum bs 48 8), cinc := wd (rnum bs 56 8), sys := false, check := false, seq := seq, opened := false, done := 0,
    pois := 0, stopped := true, joined := false, inFlight := false, nest := [] }

/-- The bytes of a ring's counters (R85). -/
def packRing (r : Ring) : List Byte := natLe 4 r.claimed ++ natLe 4 r.filled ++ natLe 4 r.taken ++ natLe 4 r.released

/-- Active slots of a tile in the order of their acceptance, but for one. -/
def acceptOrder (t : Tile) (but : Nat) : List Nat :=
  let live := (range 0 16).filter (fun i => i != but && (t.slot i).act)
  live.foldl (fun l i => l.takeWhile (fun j => (t.slot j).seq < (t.slot i).seq) ++ i :: l.dropWhile (fun j => (t.slot j).seq < (t.slot i).seq)) []

/-- What the tile's system code has saved since its trap entry is noted (R50, R53; notes/assumptions/77.md). -/
def noteSave (s : State) (tid k a : Nat) : State := s.updTile tid (fun t => { t with saves := NMap.put t.saves k a })

/-- SLOTS and RINGS of the context block move in 24 pieces of 64 bytes: a slot each, then four rings each (R53, R212, R234). -/
def ctxPieces : Nat := 24
def ctxOff (p : Nat) : Nat := if p < 16 then 0x700 + 64 * p else 0xB00 + 64 * (p - 16)

/-- The bytes of a piece; the STASH's own slot is idle. -/
def ctxBytes (t : Tile) (n p : Nat) : List Byte :=
  if p < 16 then packSlot (if p = n then { t.slot p with act := false, held := false, addpend := false } else t.slot p)
  else (range (4 * (p - 16)) 4).flatMap (fun i => packRing (t.ring i))

/-- The order of acceptance, which the context block has no field for, is kept beside it (R118, R230). -/
def noteCtx (s : State) (tid n at_ : Nat) : State :=
  noteSave { s with orders := NMap.put s.orders (yardKey (dieOf tid) at_) (acceptOrder (s.tile tid) n) } tid 4 at_

/-- Place of a slot in the order of acceptance: as recorded, or else before the pending SBARs if it is not held, and behind them if it
is. -/
def placeOf (order : Option (List Nat)) (i : Nat) (v : Slot) : Nat :=
  match order with
  | some l => (l.findIdx? (· == i)).getD 16
  | none => if v.held then 32 + i else if v.opc = opSbar then 16 + i else i

/-- Load a slot of SLOTS, but for one that stays as it is and counts as accepted last. -/
def loadSlot (t : Tile) (but : Option Nat) (order : Option (List Nat)) (i : Nat) (bs : List Byte) : Tile :=
  if some i = but then t.setSlot i { t.slot i with seq := 48 }
  else
    let v := { unpackSlot bs 0 with check := t.check }
    t.setSlot i { v with seq := placeOf order i v }

/-- Load the 16 slots of SLOTS. -/
def loadSlots (t : Tile) (but : Option Nat) (bytes : Nat → List Byte) (order : Option (List Nat)) : Tile :=
  { (range 0 16).foldl (fun t i => loadSlot t but order i (bytes (64 * i))) t with seqNo := 49 }

/-- Load the counters of a ring. -/
def loadRing (t : Tile) (i : Nat) (b : List Byte) : Tile :=
  t.setRing i { t.ring i with claimed := rnum b 0 4, filled := rnum b 4 4, taken := rnum b 8 4, released := rnum b 12 4 }

/-- Load the counters of RINGS. -/
def loadRings (t : Tile) (bytes : Nat → List Byte) : Tile := (range 0 32).foldl (fun t i => loadRing t i (bytes (16 * i))) t

/-- Load a piece of SLOTS and RINGS; the STASH's own slot stays as it is. -/
def loadPiece (t : Tile) (n : Nat) (order : Option (List Nat)) (p : Nat) (bs : List Byte) : Tile :=
  if p < 16 then { loadSlot t (some n) order p bs with seqNo := 49 }
  else (range 0 4).foldl (fun t i => loadRing t (4 * (p - 16) + i) (bs.drop (16 * i))) t

/-- A command whose writes to a peer have all completed moves on: a copy past the elements that were under way, a drain past its slot
(R221, R228, R347). -/
def writesDone (s : State) (tid n : Nat) : State :=
  let v := (s.tile tid).slot n
  let r := (s.tile tid).ring (fld v.extv.toNat 0 5)
  if !v.act || !v.opened || slotWritesOut s tid n then s
  else if v.opc = opScpy then (copyService s tid n).getD s
  else if v.opc = opSst || v.opc = opSscat then
    match shapeOf s tid v r [] with
    | (_, .ok h) =>
      let cnt := min h.cap ((nestOf v.nest).total - v.pos)
      if v.done ≥ h.pieces cnt + h.sidePieces cnt then drained s tid n (fld v.extv.toNat 0 5) cnt else s
    | _ => s
  else s

/-- Copy a run of storage with its poison, unit by unit. -/
def copyRun (s : State) (dst src n : Nat) : State :=
  let bad := (range 0 (n / 8)).filter (fun i => s.st.poison.contains (unitOf (src + 8 * i)))
  let s := writeRun s 0 dst (s.st.bytes src n)
  { s with st := bad.foldl (fun st i => st.poisonRun (dst + 8 * i) 1) s.st }

/-- Read the records of the loaded slots again (R216). -/
def rereadNests (s : State) (tid n : Nat) : State :=
  (range 0 16).foldl (fun s i =>
    let v := (s.tile tid).slot i
    if i = n || !v.act then s
    else updSlot s tid i (fun v => { v with nest := (recBytes s (slotWho tid v) (wd v.nrec) (if v.opc = opClst then 128 else 96)).2 })) s

/-- The offence of a STASH that leaves the Yard in CHECK mode (R424). -/
def noteYard (s : State) (tid : Nat) (v : Slot) (a : Word) : State := noteOffence s (slotWho tid v) 3 (!v.extv.getLsbD 0) a

/-- A service of STASH: a piece of the context on a restore, 64 bytes of the image, 64 bytes of the bit image, a piece of the context on a
save. Outside the Yard it faults, or in CHECK mode reads zero and writes nothing there (R417, R424). -/
def stashService (s : State) (tid n : Nat) : Option State :=
  let v := (s.tile tid).slot n
  let restore := v.extv.getLsbD 0
  let ctx := v.extv.getLsbD 1
  let len := 2 ^ tspLog s tid
  let img := yardKey (dieOf tid) v.rav.toNat
  let words := len / 64
  let maps := cdiv (len / 32) 64
  let step (s : State) : Option State := some (moved (updSlot s tid n (fun v => { v with done := v.done + 1 })) tid)
  let yard (s : State) (off m : Nat) : State := if v.rav.toNat + off + m > 0x30000000 then noteYard s tid v (v.rav + wd off) else s
  let inside (off m : Nat) : Nat := min m (0x30000000 - (v.rav.toNat + off))
  let noCtx := ctx && v.rbv.toNat + 8192 > 0x30000000
  let before := if ctx && restore then ctxPieces else 0
  let at_ := v.done - before
  let piece (s : State) (p : Nat) : State × Nat × Bool :=
    let o := v.rbv.toNat + ctxOff p
    let gone := o + 64 > 0x30000000
    (if gone then noteYard s tid v (v.rbv + wd (ctxOff p)) else s, yardKey (dieOf tid) o, gone)
  if !v.check && (v.rav.toNat + len + len / 32 > 0x30000000 || noCtx) then
    some (slotXlate s tid n (xsub 9 (if restore then .read else .write) true, v.rav.toNat % 2 ^ 32))
  else if v.done < before then
    let (s, k, gone) := piece s v.done
    let bs := if gone then zeros 64 else s.st.bytes k 64
    step (s.updTile tid (fun t => loadPiece t n (NMap.find? s.orders (yardKey (dieOf tid) v.rbv.toNat)) v.done bs))
  else if at_ < words then
    let off := 64 * at_
    let k := inside off 64
    let s := yard s off 64
    if restore then
      let s := copyRun s (tspKey tid off) (img + off) k
      step (if k < 64 then writeRun s 0 (tspKey tid (off + k)) (zeros (64 - k)) else s)
    else step (if k = 0 then s else copyRun s (img + off) (tspKey tid off) k)
  else if at_ < words + maps then
    let off := 64 * (at_ - words)
    let m := min 64 (len / 32 - off)
    if restore then
      let bits := s.st.num (img + len + off) (inside (len + off) m)
      let s := yard s (len + off) m
      step { s with st := (range 0 (8 * m)).foldl (fun st i =>
        if tb bits i then st else st.setEmpty (tspKey tid (4 * (8 * off + i))) 4) s.st }
    else
      let bits := (range 0 m).map (fun b => BitVec.ofNat 8 ((range 0 8).foldl (fun a i =>
        if s.st.full.contains (tspKey tid (4 * (8 * (off + b) + i))) then a + 2 ^ i else a) 0))
      let k := inside (len + off) m
      let s := yard s (len + off) m
      step (if k = 0 then s else writeRun s 0 (img + len + off) (bits.take k))
  else if ctx && !restore && at_ < words + maps + ctxPieces then
    let p := at_ - words - maps
    let (s, k, gone) := piece s p
    step (if gone then s else writeRun s 0 k (ctxBytes (s.tile tid) n p))
  else
    let s := if restore then (if ctx then rereadNests s tid n else s)
      else noteSave (if ctx then noteCtx s tid n v.rbv.toNat else s) tid 5 v.rav.toNat
    some (finishSlot s tid n)

/-! ### SBAR (R118, R230) -/

/-- The stream command may still write T, P or G; a collective part is none (R114, R230). -/
def stillWrites (v : Slot) : Bool :=
  v.act && !v.addpend &&
    (if v.opc = opSst || v.opc = opSscat then v.sp < 3
     else if v.opc = opScpy then fld v.extv.toNat 0 3 < 3
     else if v.opc = opSchw || v.opc = opClst then false
     else if v.opc = opStash then v.extv.getLsbD 0
     else true)

/-- Commands behind no active SBAR run. -/
def unhold (t : Tile) : Tile :=
  { t with slots := t.slots.map (fun p =>
      (p.1, { p.2 with held := p.2.held && t.slots.any (fun q =>
        q.2.act && !q.2.addpend && q.2.opc == opSbar && q.2.seq < p.2.seq) })) }

/-- The SBAR of a slot can complete. -/
def sbarReady (t : Tile) (v : Slot) : Bool :=
  v.act && v.opc == opSbar && !v.held && !v.addpend && !v.stopped && t.slots.all (fun p => !(p.2.seq < v.seq && stillWrites p.2))

/-- SBAR_COMPLETE: the held commands run; the add follows. -/
def execSbarComplete (tile slot : Nat) (s : State) : Out :=
  let t := s.tile tile
  if t.started && !t.halted && sbarReady t (t.slot slot) then
    .next ((finishSlot s tile slot).updTile tile unhold)
  else .next s

/-! ### The round (R212) -/

/-- One slot's service; none if it cannot make progress. -/
def slotService (s : State) (tid n : Nat) : Option State :=
  let v := (s.tile tid).slot n
  if !v.act || v.held || v.stopped || v.inFlight then none
  else if v.addpend then some (addStep s tid n)
  else if v.opc = opSld || v.opc = opSmc || v.opc = opSgath then fillService s tid n
  else if v.opc = opSst || v.opc = opSscat then drainService s tid n
  else if v.opc = opSrec then recurService s tid n
  else if v.opc = opScpy then copyService s tid n
  else if v.opc = opSchr then takeStep s tid n false
  else if v.opc = opSchw then acceptStep s tid n false
  else if v.opc = opStash then stashService s tid n
  else if v.opc = opClst then partStep s tid n
  else none

/-- A slot's service, or the requests for what it reads of a peer's memory (R345); none if it cannot make progress. -/
def slotServe (s : State) (tid n : Nat) : Option State :=
  let u := ((s.tile tid).slot n).unit
  match slotService s tid n with
  | none => none
  | some t =>
    if t.jdStarved then some t
    else if t.starved then (if s.reqNo < t.reqNo then some (keepAsked s t) else none)
    else some (t.updTile tid (fun v => v.dropGot u))

/-- One slot of a tile's stream engine is served, if it can make progress. -/
def serveSlot (s : State) (tid n : Nat) : State :=
  let t := s.tile tid
  if t.started && !t.halted then (slotServe s tid n).getD s else s

/-! ### Places among the entries of one cycle (R81, R84, R100, R139, R382, R418) -/

/-- What a step does to the counters of rings, as its place among those of one cycle: a release, a fill, a take, a claim, or nothing
(R84). -/
def ringRank (s t : State) : Nat :=
  let moves (f : Ring → Nat) : Bool :=
    t.tiles.any (fun p => p.2.rings.any (fun r => f r.2 != f ((s.tile p.1).ring r.1)))
  if moves Ring.released then 1 else if moves Ring.filled then 2 else if moves Ring.taken then 3 else if moves Ring.claimed then 4 else 5

/-- Exclusive translations of KV blocks that a step has granted: map index, linear tile index, tile, and address of the block (R100). -/
def kvGrants (s t : State) : List (Nat × Nat × Nat × Nat) :=
  t.tiles.flatMap (fun p => p.2.utlb.filterMap (fun e => match e.kv with
    | some (v, _, true) => if (s.tile p.1).utlb.contains e then none else some (v, tixOf s p.1, p.1, e.base)
    | _ => none))

/-- What a step has raised: the place of its exception among those of a cycle. A precise one comes before an imprecise one, an engine's
before a slot's, and the lowest first (R383, R418). -/
def raisedBy (s t : State) : Option (Nat × Nat) :=
  t.tiles.findSome? (fun p =>
    let u := s.tile p.1
    let place (e : Trap) : Nat × Nat := (match e.slot with | some n => 8 + n | none => e.eng.num + (if e.impr then 4 else 0), p.1)
    match u.enter, p.2.enter with
    | none, some e => some (place e)
    | _, _ => if u.after.length < p.2.after.length then p.2.after.getLast?.map place else none)

/-- A service reaches the TSP of another tile, over the mesh: it multicasts there, or an access of it lies there (R81, R225). -/
def serveMesh (s : State) (tid n : Nat) : Bool :=
  let v := (s.tile tid).slot n
  let other (a : Word) : Bool := wfld a 20 4 != peerOf tid
  let any (sp i m : Nat) (f : Nat → Word) : Bool := spOf sp == .p && (range i m).any (fun j => other (f j))
  if v.opc = opSmc then v.opened && (maskTiles tid (fld v.extv.toNat 16 16)).any (· != tid)
  else if v.opc = opScpy then
    let e := (nestOf v.nest).esize
    let h := byteShape e e 0
    let i := v.pos * h.ape + v.done * h.per
    let m := min h.per (h.atoms (max 1 (64 / max 1 e)))
    any v.sp i m (fun j => (atomOf s tid v h 0 j).a) || any (fld v.extv.toNat 0 3) i m (copyDest v h)
  else
    let r := if v.consumes.isSome then (s.tile tid).ring (fld v.extv.toNat 0 5) else firstRing s tid v
    match (if v.opened && spOf v.sp == .p then (shapeOf s tid v r (otherRings s tid v)).2 else .error (0, 0, 0)) with
    | .ok h =>
      let i := v.done * h.per
      any v.sp i (min h.per (h.atoms (min h.cap ((nestOf v.nest).total - v.pos)) - i)) (fun j => (atomOf s tid v h v.pos j).a)
    | .error _ => false

/-- A reader's slot finds a record at a home here, or a channel that is closed. -/
def recordWaits (s : State) (tid n : Nat) : Bool :=
  match NMap.find? (s.tile tid).chans (fld ((s.tile tid).slot n).extv.toNat 5 4) with
  | some (h, _) => let e := chan s (handleChan h)
    e.rptr != e.wptr || e.srptr != e.swptr || e.closed
  | none => false

/-- Place of a slot's service among the entries of its cycle: releases and fills of rings (R84), acceptance, takes, of which one that finds
no record only claims its ring's slot (R139), other accesses of streams, those over the mesh (R81), and exceptions (R382, R418). `t` is
what it would leave by itself. -/
def serveKey (s t : State) (tid n : Nat) : Nat × Nat × Nat :=
  let v := (s.tile tid).slot n
  match raisedBy s t with
  | some k => (12, k)
  | none =>
    let rank := ringRank s t
    (if v.opc = opSchw then 4
     else if v.opc = opSchr then (if recordWaits s tid n then 5 else 3)
     else if rank = 2 then 2
     else if serveMesh s tid n then 11
     else if rank = 1 then 1 else 6, tid, n)

def keyBefore (a b : Nat × Nat × Nat) : Bool :=
  a.1 < b.1 || (a.1 == b.1 && (a.2.1 < b.2.1 || (a.2.1 == b.2.1 && a.2.2 < b.2.2)))

/-- Put an entry behind those that come before it or with it. -/
def insertKey (p : (Nat × Nat × Nat) × Act) : List ((Nat × Nat × Nat) × Act) → List ((Nat × Nat × Nat) × Act)
  | [] => [p]
  | q :: r => if keyBefore p.1 q.1 then p :: q :: r else q :: insertKey p r

/-- Entries in the order of their places. -/
def inOrder (l : List ((Nat × Nat × Nat) × Act)) : List Act := (l.foldl (fun r p => insertKey p r) []).map Prod.snd

/-- Slots that can be served in turn, at most `budget` of them. -/
def servedSlots (can : Nat → Bool) : List Nat → Nat → List Nat
  | [], _ => []
  | _, 0 => []
  | n :: r, b + 1 => if can n then n :: servedSlots can r b else servedSlots can r (b + 1)

/-- Up to four slots of a tile that can make progress, in ascending number after the last one served: by what stands when the cycle begins,
or with the releases and fills of the cycle in `s1` (R84, R212). -/
def roundOf (s s1 : State) (tid : Nat) : List Nat :=
  let t := s.tile tid
  if t.started && !t.halted then
    servedSlots (fun n => (slotServe s tid n).isSome || (slotServe s1 tid n).isSome) ((range 1 16).map (fun i => (t.lastSlot + i) % 16)) 4
  else []

/-- The state after those services of a tile that release or fill a ring. -/
def afterRings (s : State) (tid : Nat) : State :=
  (roundOf s s tid).foldl (fun s n => match slotServe s tid n with | some t => if ringRank s t ≤ 2 then t else s | none => s) s

/-- The entries that one service of a slot is, which turns `s` into `t`, each with its place. The KV unit serves the writes of a cycle in
ascending map index, so each block that the service writes is made the tile's own in that order first (R100). -/
def serviceActs (s t : State) (tid n : Nat) : List ((Nat × Nat × Nat) × Act) :=
  (kvGrants s t).map (fun g => ((0, g.1, g.2.1), Act.own tid g.2.2.2)) ++ [(serveKey s t tid n, Act.serve tid n)]

/-- The entries that the services of a tile's slots are: each as it stands when the cycle begins, or, if it can make progress only then,
with the releases and fills of the cycle in `s1`. -/
def roundActs (s s1 : State) (tid : Nat) (l : List Nat) : List ((Nat × Nat × Nat) × Act) :=
  l.flatMap (fun n => match slotServe s tid n with
    | some t => serviceActs s t tid n
    | none => serviceActs s1 ((slotServe s1 tid n).getD s1) tid n)

/-- A KV block is made the tile's own for a write that its stream engine makes (R100). -/
def ownBlock (s : State) (tid va : Nat) : State := (locate s (whoOf s tid .a) .d (wd va) .write).1

/-- One entry of a round of services. -/
def roundAct (s : State) (a : Act) : State :=
  match a with
  | .serve tid n => serveSlot s tid n
  | .own tid va => ownBlock s tid va
  | _ => s

/-- The slot served last is noted (R212). -/
def noteRound (s : State) (tid : Nat) (l : List Nat) : State := s.updTile tid (fun t => { t with lastSlot := l.getLastD t.lastSlot })

/-- STREAM_SERVICE by itself: a cycle in which nothing else happens. -/
def execStreamService (tile : Nat) (s : State) : Out :=
  let s1 := afterRings s tile
  let l := roundOf s s1 tile
  let t := (inOrder (roundActs s s1 tile l)).foldl roundAct { noteRound s tile l with inCycle := true }
  .next (if s.inCycle then t else endCycle t)

end Sys2Proof.Machine
end

