-- ==== Sys2Proof/Machine/Matrix.lean ====
section
/-! DEFINITION. Matrix commands of the M engine: issue, operand slots, MMA, the accumulator, drains, retirement and waits
(R73 to R75, R266 to R280, R375, R391, R426 to R429). -/

namespace Sys2Proof.Machine

/-! ### Stochastic-rounding generators (R71, R165) -/

/-- Generator of PE p. -/
def Tile.gen (t : Tile) (p : Nat) : Nat := wfld (t.special (16 + p / 4)) (16 * (p % 4)) 16
def Tile.setGen (t : Tile) (p v : Nat) : Tile :=
  t.setSpecial (16 + p / 4) (wd (setFld (t.special (16 + p / 4)).toNat (16 * (p % 4)) 16 v))

/-- Round a list of values in order, drawing once for each under SR: the codes and the generator after them. -/
def roundAll (f : Fmt) (rm : RMode) (g : Nat) : List FVal → List Nat × Nat
  | [] => ([], g)
  | v :: r =>
    let g := if rm = .sr then draw g else g
    let (cs, g') := roundAll f rm g r
    (v.round f rm g :: cs, g')

/-! ### Issue (R267) -/

/-- Retired-map bit; bit 0 always reads 1. -/
def Tile.idRetired (t : Tile) (id : Nat) : Bool := id == 0 || t.retmap.getLsbD id

/-- Predecessors, own id and the count of unretired commands allow the issue. -/
def matReady (t : Tile) (x : MatExt) : Bool :=
  t.idRetired x.p1.toNat && t.idRetired x.p2.toNat && t.idRetired x.id.toNat && t.cmds.length < 8

/-- Issue a matrix command: its effect on the accumulator has been made in `f`. -/
def issueMat (s : State) (tk : Tk) (srcs : List Reg) (c : MCmd) (f : Tile → Tile) : Out :=
  let (tid, g) := s.cur
  let t := startWait (s.tile tid) g tk srcs (.matrix c.id)
  let t := { f t with retmap := t.retmap &&& ~~~(BitVec.twoPow 256 c.id), cmds := t.cmds ++ [c] }
  .next (s.setTile tid t)

/-- A command with nothing to pop or write. -/
def MCmd.base (id opc : Nat) : MCmd :=
  { id := id, opc := opc, ringA := none, ringB := none, writes := [], poisons := [], reads := [], ksteps := 0, rowRuns := [], clears := false }

/-! ### Operand slots (R270 to R272) -/

/-- Width for the K step; 0 for a format that is no operand. -/
def opWidth (fmt : Nat) : Nat :=
  match fmt with
  | 0x00 => 16 | 0x01 => 0 | 0x18 => 16 | c => fmtBits c

/-- An operand: format, KC, block length (0 if unscaled), the values of 32 rows, their scales, and the poisoned rows. -/
structure MOperand where
  fmt : Nat
  kc : Nat
  g : Nat
  rows : List (List FVal)
  scales : List (List Nat)
  pois : List Bool
  deriving DecidableEq, Repr

/-- Read position of a ring: TAKEN plus the slots that unretired commands will pop. -/
def readPos (t : Tile) (ring : Nat) : Nat :=
  ((t.ring ring).taken + (t.cmds.filter (fun c => c.ringA == some ring || c.ringB == some ring)).length) % 2 ^ 32

/-- Element k of a CB3 block (R69, R395). -/
def cb3Elem (hdr : Nat) (bs : List Byte) (k : Nat) : Nat :=
  if tb hdr 0 then rnum bs (2 * k) 2
  else
    let idx := fld (leNat ((bs.drop 16).take 48)) (3 * k) 3
    (range 0 (min (fld hdr 8 6) 48)).foldl (fun v i =>
      let o := rnum bs (0x40 + 4 * i) 4
      if fld o 0 7 = k then fld o 16 16 else v) (rnum bs (2 * idx) 2)

/-- The values of a slot's elements in order; those of a poisoned block are zero (R375). -/
def slotValues (fmt : Nat) (h : Shape) (data hdrs : List Byte) (marks n : Nat) : List FVal :=
  if isCb3 fmt then
    (range 0 (n / 128)).flatMap (fun b =>
      let bs := (data.drop (256 * b)).take 256
      (range 0 128).map (fun k =>
        if tb marks b then .num false 0 0 else Fmt.bf16.value (cb3Elem (rnum hdrs (4 * b) 4) bs k)))
  else
    let b := opWidth fmt
    let f := (fmtOf fmt).getD .bf16
    let all := leNat data
    (range 0 n).map (fun i =>
      let bad := if h.sbytes != 0 then tb marks (i / blockLen fmt h.geom)
        else tb marks (i * b / 1024) || tb marks (((i + 1) * b - 1) / 1024)
      if bad then .num false 0 0 else f.value (fld all (i * b) b))

/-- Blocks of row r, whose marks poison the row. -/
def rowBlocks (fmt : Nat) (h : Shape) (kc r : Nat) : List Nat :=
  if kc = 0 then []
  else if h.sbytes != 0 then
    let l := blockLen fmt h.geom
    range (r * kc / l) (kc / l)
  else
    let b := opWidth fmt
    range (r * kc * b / 1024) (((r + 1) * kc * b - 1) / 1024 - r * kc * b / 1024 + 1)

/-- The agent of a matrix command's TSP accesses (R424). -/
def matWho (s : State) (tid : Nat) : Who := { whoOf s tid .m with strm := true }

/-- Side-band word 0 of an operand slot, as the command reads it; 0 if the ring has no side-band. -/
def operandHead (s : State) (tid ring pos : Nat) : State × Nat :=
  let r := (s.tile tid).ring ring
  if r.side = 0 then (s, 0)
  else
    let (s, bs) := slotBytes s (matWho s tid) r.spG (r.sideOff pos) 4
    (s, leNat bs)

/-- The operand that a slot with side-band word 0 `w0` holds; none if it breaks R271 or R272. What lies out of range in CHECK mode
reads as zero (R424). A block is poisoned with its scale or header, and every block with the header of the slot (R373). -/
def operandOf (s : State) (tid ring pos w0 : Nat) : Option MOperand :=
  let r := (s.tile tid).ring ring
  let fmt := fld w0 16 6
  let geom := fld w0 22 4
  let nelem := fld w0 0 16 + fld w0 27 5 * 2 ^ 16
  let c := if fmt = 0 then r.bytes / 2 else pageCap fmt geom r.bytes
  let kc := c / 32
  let h := objectShape fmt geom r.bytes 0
  let g := if h.sbytes = 0 || isCb3 fmt then 0 else geomLen geom
  if opWidth fmt = 0 || !fmtGood fmt geom || c % 32 != 0 || (fmt != 0 && nelem != c) || (g != 0 && kc % g != 0)
    || (isCb3 fmt && kc % 128 != 0) then none
  else
    let w := matWho s tid
    let entry := r.sideOff pos + 4 + 4 * poisonWords h.nblk
    let lost := (range 0 h.nblk).foldl (fun m b =>
      if (r.side != 0 && slotSpoiled s w r.spG (r.sideOff pos) 4) || slotSpoiled s w r.spG (entry + b * h.sbytes) h.sbytes then m + 2 ^ b
      else m) 0
    let marks := Nat.lor (slotMarks s w r pos h 0 h.nblk).2 lost
    let data := (slotBytes s w r.spG (r.slotOff pos) r.bytes).2
    let sides := (slotBytes s w r.spG entry (h.nblk * h.sbytes)).2
    let vals := slotValues fmt h data sides marks c
    some {
      fmt := fmt, kc := kc, g := g
      rows := (range 0 32).map (fun i => (vals.drop (i * kc)).take kc)
      scales := (range 0 32).map (fun i =>
        if g = 0 then [] else ((sides.drop (i * (kc / g))).take (kc / g)).map BitVec.toNat)
      pois := (range 0 32).map (fun i => (rowBlocks fmt h kc i).any (tb marks)) }

/-- The operand of a slot, with the offences of its reads (R425). -/
def readOperand (s : State) (tid ring pos : Nat) : State × Option MOperand :=
  let r := (s.tile tid).ring ring
  let (s, w0) := operandHead s tid ring pos
  let s := noteSlot s (matWho s tid) tid r.spG false (r.slotOff pos) r.bytes
  let h := objectShape (fld w0 16 6) (fld w0 22 4) r.bytes 0
  let s := if r.side = 0 then s else noteSlot s (matWho s tid) tid r.spG false (r.sideOff pos) h.sideNeed
  (s, operandOf s tid ring pos w0)

/-! ### The multiply (R73, R274, R275, R429) -/

/-- Exact sum of the products of a segment. -/
def dot : List FVal → List FVal → FVal
  | a :: as, b :: bs => (a.mul b).add (dot as bs)
  | _, _ => .num false 0 0

/-- Scale of the block of a row that holds k; 127 is a scale of 1. -/
def scaleAt (g : Nat) (cs : List Nat) (k : Nat) : Nat := if g = 0 then 127 else getAt cs (k / g) 127

/-- One accumulator element over the segments that start at k, and whether one of them was not finite. -/
def accRow (seg ga gb : Nat) (sa sb : List Nat) : Nat → Nat → List FVal → List FVal → Nat → Nat × Bool
  | 0, _, _, _, acc => (acc, false)
  | fuel + 1, k, a, b, acc =>
    if a.isEmpty then (acc, false)
    else
      let sum := (dot (a.take seg) (b.take seg)).scaled (scaleAt ga sa k)
      let sum := sum.scaled (scaleAt gb sb k)
      let (r, odd) := accRow seg ga gb sa sb fuel (k + seg) (a.drop seg) (b.drop seg)
        (rne .fp32 ((Fmt.fp32.value acc).add sum))
      (r, odd || !sum.finite)

/-- Some value of an operand is infinite or NaN. -/
def MOperand.odd (m : MOperand) : Bool := m.rows.any (fun r => r.any (fun v => !v.finite))

/-- Elements of a segment (R73, R274): the smaller block length of the scaled operands, else the K step. -/
def segLenOf (a b : MOperand) (ks : Nat) : Nat :=
  if a.g = 0 && b.g = 0 then ks else if a.g = 0 then b.g else if b.g = 0 then a.g else min a.g b.g

/-- The accumulator as a list of 1,024 codes. -/
def Tile.accList (t : Tile) : List Nat := (range 0 1024).map (fun i => NMap.findD t.acc i 0)

/-- Set the accumulator from a list of codes; +0 is not listed. -/
def Tile.setAcc (t : Tile) (l : List Nat) : Tile := { t with acc := ((range 0 l.length).zip l).filter (fun p => p.2 != 0) }

/-- The accumulator after a multiply. -/
def multiply (a b : MOperand) (ks : Nat) (acc : List Nat) : List Nat :=
  let seg := segLenOf a b ks
  (range 0 32).flatMap (fun i => (range 0 32).map (fun j =>
    (accRow seg a.g b.g (getAt a.scales i []) (getAt b.scales j []) (a.kc + 1) 0 (getAt a.rows i []) (getAt b.rows j [])
      (getAt acc (32 * i + j) 0)).1))

/-- Row marks after a multiply (R375). -/
def mmaPoison (a b : MOperand) (m : BitVec 32) : BitVec 32 :=
  if b.pois.any id then BitVec.allOnes 32
  else m ||| BitVec.ofNat 32 ((range 0 32).foldl (fun x i => if getAt a.pois i false then x + 2 ^ i else x) 0)

/-- Operand formats that MMA.T takes. -/
def ternGood (a b : MOperand) : Bool := (a.fmt == 0x10 || a.fmt == 0x11) && b.fmt == 0x14

/-- MMA and MMA.T. -/
def mmaOp (s : State) (tk : Tk) (ringA ringB : Fin 32) (keepA keepB : Bool) (x : MatExt) (tern : Bool) : Out :=
  let (tid, g) := s.cur
  let t := s.tile tid
  let pa := readPos t ringA.val
  let pb := readPos t ringB.val
  if !ready s tk [] none || accHeld (t.eng g) || !matReady t x then .next s
  else
    match firstSub (sortSubs (ringSubs s tid ringA.val false ++ ringSubs s tid ringB.val false)) with
    | some sub => .next (raiseOperand s tid g sub)
    | none =>
      if (t.ring ringA.val).filled = pa || (t.ring ringB.val).filled = pb then .next s
      else
        let (u, oa) := readOperand s tid ringA.val pa
        let (u, ob) := readOperand u tid ringB.val pb
        let refuse : Out := .next (if atHead t g then raiseOperand u tid g 0x07 else s)
        match oa, ob with
        | some a, some b =>
          if a.kc != b.kc || (tern && !ternGood a b) then refuse
          else
            let ks := if tern then 192 else 768 / max (max (opWidth a.fmt) (opWidth b.fmt)) 4
            let s := if a.odd || b.odd then count u 19 else u
            issueMat s tk [] { MCmd.base x.id.toNat (if tern then 0x31 else 0x30) with
                ringA := if keepA then none else some ringA.val
                ringB := if keepB || (!keepA && ringB == ringA) then none else some ringB.val
                reads := [ringA.val, ringB.val], ksteps := cdiv a.kc ks }
              (fun t => { t.setAcc (multiply a b ks t.accList) with accPois := mmaPoison a b t.accPois })
        | _, _ => refuse

def execMma (tk : Tk) (ringA ringB : Fin 32) (keepA keepB : Bool) (ext : MatExt) (s : State) : Out :=
  mmaOp s tk ringA ringB keepA keepB ext false

def execMmaT (tk : Tk) (ringA ringB : Fin 32) (keepA keepB : Bool) (ext : MatExt) (s : State) : Out :=
  mmaOp s tk ringA ringB keepA keepB ext true

/-! ### ZACC and LDACC (R277, R375) -/

def execZacc (tk : Tk) (ext : MatExt) (s : State) : Out :=
  if ready s tk [] none && matReady (s.tile s.cur.1) ext then
    issueMat s tk [] { MCmd.base ext.id.toNat 0x32 with clears := true } (fun t => { t with acc := [], accPois := 0 })
  else .next s

/-- Read the words of LDACC, with their poison. -/
def ldaccWords (s : State) (tid : Nat) (base pitch : Word) : State × List (Nat × Bool) :=
  (range 0 1024).foldl (fun (acc : State × List (Nat × Bool)) n =>
    match cmdRead acc.1 (matWho s tid) .t (base + pitch * wd (n / 32) + wd (4 * (n % 32))) 4 with
    | (s, .ok (bs, bad)) => (s, acc.2 ++ [(leNat bs, bad)])
    | (s, .error _) => (s, acc.2 ++ [(0, false)])) (s, [])

def execLdacc (tk : Tk) (s1 s2 : Reg) (add : Bool) (ext : MatExt) (s : State) : Out :=
  let (tid, g) := s.cur
  if !ready s tk [s1, s2] none || accHeld ((s.tile tid).eng g) || !matReady (s.tile tid) ext then .next s
  else if (val s s1).toNat % 4 != 0 || (val s s2).toNat % 4 != 0 then .next (raiseOperand s tid g 0x06)
  else
    let base := val s s1
    let pitch := val s s2
    let (s, ws) := ldaccWords s tid base pitch
    let marks := BitVec.ofNat 32 ((range 0 32).foldl (fun m i =>
      if ((ws.drop (32 * i)).take 32).any Prod.snd then m + 2 ^ i else m) 0)
    issueMat s tk [s1, s2] { MCmd.base ext.id.toNat 0x33 with clears := !add } (fun t =>
      { t.setAcc ((t.accList.zip ws).map (fun p => if add then fadd32 p.1 p.2.1 else p.2.1)) with
        accPois := if add then t.accPois ||| marks else marks })

/-! ### DRAIN and QNT (R278 to R280, R375, R426, R427) -/

/-- Fields of a drain target record. -/
def drOff (bs : List Byte) : Nat := rnum bs 0 4
def drPitch (bs : List Byte) : Nat := rnum bs 4 4
def drSide (bs : List Byte) : Nat := rnum bs 8 4
def drFmt (bs : List Byte) : Nat := rnum bs 0x0C 1
def drGeom (bs : List Byte) : Nat := rnum bs 0x0D 1
def drScale (bs : List Byte) : Nat := rnum bs 0x10 4

/-- The record breaks R278 or R279. -/
def drainBad (qnt : Bool) (bs : List Byte) : Bool :=
  let fmt := drFmt bs
  let geom := drGeom bs
  let good := match fmtOf fmt with
    | some f => if qnt then f.narrow && (geom == 1 || geom == 2) else geom == 0 && drSide bs == 0
    | none => false
  !good || drOff bs % 4 != 0 || drPitch bs % 4 != 0 || drPitch bs < 4 * fmtBits fmt || rnum bs 0x0E 2 != 0
    || rnum bs 0x14 12 != 0

/-- One row of a drain: codes, scale bytes, elements that were not finite, and the generator after it. -/
structure DrainRow where
  codes : List Nat
  scales : List Nat
  odd : List Bool
  gen : Nat
  deriving DecidableEq, Repr

/-- Form a row from the snapshot. -/
def drainRow (qnt : Bool) (f : Fmt) (g : Nat) (rm : RMode) (ts gen : Nat) (row : List Nat) : DrainRow :=
  let v := row.map (fun x => Fmt.fp32.value (rne .fp32 ((Fmt.fp32.value x).mul (Fmt.fp32.value ts))))
  let odd := v.map (fun x => f.narrow && !x.finite)
  if qnt then
    let blocks := chunk g 32 v
    let scales := blocks.map (fun b => scaleCode f (blockMax b))
    let (codes, gen) := roundAll f rm gen ((blocks.zip scales).flatMap (fun p => p.1.map (fun x => x.unscaled p.2)))
    { codes := codes, scales := scales, odd := odd, gen := gen }
  else if f = .fp32 then
    { codes := row.map (fun x => rne .fp32 ((Fmt.fp32.value x).mul (Fmt.fp32.value ts))), scales := [], odd := odd, gen := gen }
  else
    let (codes, gen) := roundAll f rm gen v
    { codes := codes, scales := [], odd := odd, gen := gen }

/-- Pack codes of b bits. -/
def packCodes (b : Nat) : List Nat → Nat
  | [] => 0
  | c :: r => c % 2 ^ b + packCodes b r * 2 ^ b

/-- Place bytes in T word by word from an aligned offset, with one poison flag for each byte. -/
def placeBytes (s : State) (tid : Nat) (off : Nat) (bs : List (Byte × Bool)) : State × List WByte :=
  ((range 0 bs.length).zip bs).foldl (fun (acc : State × List WByte) p =>
    match cmdPlace acc.1 (matWho s tid) .t (wd (off + p.1)) [(255, p.2.1.toNat)] p.2.2 with
    | (s, .ok l) => (s, acc.2 ++ l)
    | (s, .error _) => (s, acc.2)) (s, [])

/-- Placed bytes as runs of storage to write, and the units to poison after them. -/
def runsOf : Nat → List WByte → List (Nat × List Byte)
  | 0, _ => []
  | fuel + 1, ws =>
    match ws with
    | [] => []
    | w :: _ =>
      let run := ws.take (runLen ws)
      let rest := runsOf fuel (ws.drop (runLen ws))
      match w.p with
      | .mem k _ => (k, run.map (fun b => BitVec.ofNat 8 b.val)) :: rest
      | _ => rest

def poisonsOf (ws : List WByte) : List (Nat × Nat) :=
  ws.filterMap (fun w => match w.p with | .mem k _ => if w.bad then some (k, 1) else none | _ => none)

/-- Bytes of row i with their poison: a marked row, or an element that was not finite. -/
def rowBytes (b : Nat) (mark : Bool) (r : DrainRow) : List (Byte × Bool) :=
  let bs := natLe (4 * b) (packCodes b r.codes)
  (range 0 bs.length).zip bs |>.map (fun p =>
    (p.2, mark || (range 0 32).any (fun j => getAt r.odd j false && b * j / 8 ≤ p.1 && p.1 ≤ (b * j + b - 1) / 8)))

/-- Scale bytes of a row with their poison. -/
def scaleRow (g : Nat) (mark : Bool) (r : DrainRow) : List (Byte × Bool) :=
  (range 0 r.scales.length).zip r.scales |>.map (fun p =>
    (BitVec.ofNat 8 p.2, mark || ((r.odd.drop (g * p.1)).take g).any id))

/-- DRAIN and QNT. -/
def drainOp (s : State) (tk : Tk) (s1 : Reg) (rm : RMode) (zafter : Bool) (x : MatExt) (qnt : Bool) : Out :=
  let (tid, g) := s.cur
  if !ready s tk [s1] none || accHeld ((s.tile tid).eng g) || !matReady (s.tile tid) x then .next s
  else
    let (u, bs) := recBytes s (matWho s tid) (alignDown (val s s1) 32) 32
    if drainBad qnt bs then .next (if atHead (s.tile tid) g then raiseOperand u tid g 0x04 else s)
    else
      let s := u
      let t := s.tile tid
      let f := (fmtOf (drFmt bs)).getD .fp32
      let b := f.width
      let gl := geomLen (drGeom bs)
      let acc := t.accList
      let rows := (range 0 32).map (fun i => drainRow qnt f gl rm (drScale bs) (t.gen i) ((acc.drop (32 * i)).take 32))
      let odd := rows.any (fun r => r.odd.any id)
      let placed := ((range 0 32).zip rows).foldl (fun (a : State × List (Nat × List WByte)) (p : Nat × DrainRow) =>
        let mark := t.accPois.getLsbD p.1
        let (s, l) := placeBytes a.1 tid (drOff bs + p.1 * drPitch bs) (rowBytes b mark p.2)
        let (s, m) := if qnt then placeBytes s tid (drSide bs + p.1 * (32 / gl)) (scaleRow gl mark p.2) else (s, [])
        (s, a.2 ++ [(p.1, l ++ m)])) (s, [])
      let s := if odd then countRec placed.1 (ErrRec.ofTile s 19 1 tid 0 (natLe 1 (if qnt then 1 else 4))) else placed.1
      let ws := placed.2.flatMap Prod.snd
      issueMat s tk [s1] { MCmd.base x.id.toNat (if qnt then 0x35 else 0x34) with
          writes := runsOf (ws.length + 1) ws, poisons := poisonsOf ws, clears := zafter
          rowRuns := placed.2.flatMap (fun p => (runsOf (p.2.length + 1) p.2).map (fun r => (p.1, r.1, r.2.length))) }
        (fun t =>
          let t := ((range 0 32).zip rows).foldl (fun (t : Tile) (p : Nat × DrainRow) => if rm = .sr then t.setGen p.1 p.2.gen else t) t
          if zafter then { t with acc := [], accPois := 0 } else t)

def execDrain (tk : Tk) (s1 : Reg) (rm : RMode) (zafter : Bool) (ext : MatExt) (s : State) : Out :=
  drainOp s tk s1 rm zafter ext false

def execQnt (tk : Tk) (s1 : Reg) (rm : RMode) (zafter : Bool) (ext : MatExt) (s : State) : Out :=
  drainOp s tk s1 rm zafter ext true

/-! ### Retirement (R270, R276, R284, R375) -/

/-- A command only waits for the accumulator cycles of commands before it: drains before it do not hold it. -/
def commandMayRetire : List MCmd → Nat → Bool
  | [], _ => false
  | c :: r, id => c.id == id || ((c.opc == 0x34 || c.opc == 0x35) && commandMayRetire r id)

/-- Pop one slot of a ring. -/
def popRing (s : State) (tid : Nat) (ring : Option Nat) : State :=
  match ring with
  | none => s
  | some n => release (takeSlot s tid n) tid n

def Wait.isMatrix (id : Nat) : Wait → Bool
  | .matrix i => i == id
  | _ => false

/-- MATRIX_COMMAND_RETIRE: the command pops its slots and writes, and its bit is set, once its token has room (R44, R267); mismatches of
its K steps count no longer (R372). -/
def execMatrixCommandRetire (tile id : Nat) (s : State) : Out :=
  let t := s.tile tile
  match t.cmds.find? (fun c => c.id == id), flightAt t .m (Wait.isMatrix id) with
  | some c, some (k, _) =>
    if !commandMayRetire t.cmds id || !completes t .m k (Result.value none 0) then .next s
    else
      let s := popRing (popRing s tile c.ringA) tile c.ringB
      let s := c.writes.foldl (fun s w => writeRun s 0 w.1 w.2) s
      let s := { s with st := c.poisons.foldl (fun (st : Store) (p : Nat × Nat) => st.poisonRun p.1 p.2) s.st }
      let s := s.updTile tile (fun t => { t with
        cmds := t.cmds.filter (fun d => d.id != id), retmap := t.retmap ||| BitVec.twoPow 256 id
        arr := { t.arr with replays := t.arr.replays.filter (fun p => p.1 % 2 = 1 || p.1 / 2 ^ 32 != id) } })
      .next (completeS s tile .m k (Result.value none 0) true)
  | _, _ => .next s

/-! ### MWAIT (R269) -/

/-- No matrix command, LDRP, LDOP or PWR of the M engine is unretired. -/
def matQuiet (t : Tile) : Bool :=
  t.cmds.isEmpty && !(t.m.queue.any (fun q => match q.stat with
    | .flight (.matrix _) _ _ _ => true
    | .flight (.plane ..) _ _ _ => true
    | .flight (.pwr ..) _ _ _ => true
    | _ => false))

/-- The wait of MWAIT is over. -/
def mwaitOver (t : Tile) (id : Option Nat) : Bool :=
  match id with
  | some n => t.idRetired n
  | none => matQuiet t

/-- MWAIT on an id or on everything. -/
def mwaitOp (s : State) (tk : Tk) (id : Option Nat) : Out :=
  if !ready s tk [] none then .next s
  else if mwaitOver (s.tile s.cur.1) id then done s tk [] (Result.value none 0) false
  else .next (s.setTile s.cur.1 (startWait (s.tile s.cur.1) s.cur.2 tk [] (.mwait id)))

def execMwait (tk : Tk) (id : BitVec 8) (s : State) : Out := mwaitOp s tk (some id.toNat)

def execMwaitAll (tk : Tk) (s : State) : Out := mwaitOp s tk none

end Sys2Proof.Machine
end

