-- ==== Sys2Proof/Machine/ArrayOps.lean ====
section
/-! DEFINITION. The operators of the array on vectors (R240, R249, R253 to R261, R375, R426, R427). -/

namespace Sys2Proof.Machine

/-! ### Operator words (R249, R253) -/

def opOpc (w : Nat) : Nat := fld w 0 7
def opGrp (w : Nat) : Nat := fld w 7 3
def opCyc (w : Nat) : Nat := fld w 10 6
def opDst (w : Nat) : Nat := fld w 16 3
def opWd (w : Nat) : Bool := tb w 19
def opSrc (w : Nat) (i : Nat) : Nat := fld w (20 + 4 * i) 4
def opRm (w : Nat) : Nat := fld w 32 2
def opFn (w : Nat) : Nat := fld w 34 4
def opImm (w : Nat) : Nat := fld w 40 24

/-- Assigned operator codes (R253). -/
def opAssigned (c : Nat) : Bool :=
  (1 ≤ c && c ≤ 0x16) || (0x20 ≤ c && c ≤ 0x2E) || (0x30 ≤ c && c ≤ 0x3B) || (0x40 ≤ c && c ≤ 0x44)
    || (0x48 ≤ c && c ≤ 0x4A) || (0x50 ≤ c && c ≤ 0x54) || (0x58 ≤ c && c ≤ 0x5D)

/-- How many of the sources A, B, C an operator reads, from its code and FN. -/
def opReads (c fn : Nat) : Nat :=
  if c = 0x3A || c = 0x3B || c = 0x53 then 0
  else if c = 0x54 then if tb fn 0 then 0 else 1
  else if c = 0x23 || c = 0x40 || c = 0x49 || c = 0x59 then 3
  else if c = 0x01 || c = 0x13 || c = 0x14 || c = 0x15 || c = 0x26 || c = 0x27 || (0x29 ≤ c && c ≤ 0x2D) || c = 0x30
    || (0x33 ≤ c && c ≤ 0x39) || (0x42 ≤ c && c ≤ 0x44) || c = 0x4A || (0x50 ≤ c && c ≤ 0x52) || c = 0x5A || c = 0x5D then 1
  else 2

/-- The operator has a result (R259, R260). DEDUCED: COLLECT has one, since its entry gives its lanes, though R259's first sentence says
that no operator of its table has (notes/assumptions/92.md). -/
def opResult (c : Nat) : Bool := !(c = 0x48 || c = 0x4A || (0x50 ≤ c && c ≤ 0x52) || c = 0x54)

/-- Latency (R255 to R261). -/
def opLatency (c : Nat) : Nat :=
  if c = 0x04 || c = 0x05 then 3
  else if c = 0x20 || c = 0x21 || c = 0x22 || c = 0x2E then 4
  else if c = 0x23 then 5
  else if (0x29 ≤ c && c ≤ 0x2D) || c = 0x35 then 12
  else if c = 0x30 || (0x36 ≤ c && c ≤ 0x38) || c = 0x58 || c = 0x59 || c = 0x5A || c = 0x5C then 2
  else if c = 0x39 || c = 0x5B then 3
  else 1

/-- Rounding operators, and whether they take SR (R254, R256). -/
def opRounds (c : Nat) : Bool :=
  (0x20 ≤ c && c ≤ 0x23) || c = 0x2E || c = 0x30 || c = 0x35 || c = 0x5B || c = 0x5C
def opRoundsNoSr (c : Nat) : Bool := 0x29 ≤ c && c ≤ 0x2D

/-- Kind codes (R257). -/
def kindOf (n : Nat) : Fmt :=
  match n with
  | 0 => .fp32 | 1 => .fp16 | 2 => .bf16 | 3 => .int32 | 4 => .uint32 | 5 => .e4m3 | 6 => .e5m2 | 7 => .e3m2 | 8 => .e2m3
  | 9 => .e2m1 | 10 => .int8 | 11 => .int4 | _ => .t2

/-- Width of UNPK. -/
def unpkWidth (fn : Nat) : Nat :=
  match fn % 8 with
  | 0 => 2 | 1 => 3 | 2 => 4 | 3 => 6 | 4 => 8 | _ => 16

/-- FN, IMM and RM lie within the operator's entry (R393). -/
def opFieldsGood (w : Nat) : Bool :=
  let c := opOpc w
  let fn := opFn w
  let imm := opImm w
  let rm := opRm w
  let rmGood := if opRounds c then rm ≤ 2 else if opRoundsNoSr c then rm ≤ 1 else rm == 0
  let fnGood := if c = 0x16 then fn < 8 else if c = 0x28 then fn ≤ 4 else if c = 0x31 || c = 0x3B || c = 0x54 then fn ≤ 1
    else if c = 0x32 then fn % 8 ≤ 5 else fn == 0
  let immGood :=
    if c = 0x13 then imm < 2 ^ 10
    else if c = 0x30 then imm < 2 ^ 8 && imm % 16 ≤ 12 && imm / 16 ≤ 12
    else if c = 0x32 then imm + 8 * unpkWidth fn ≤ 512
    else if c = 0x33 || c = 0x3A || c = 0x3B then true
    else if c = 0x34 || c = 0x4A then imm < 8
    else if c = 0x48 then imm < 2 ^ 9
    else if c = 0x50 || c = 0x51 then imm < 16
    else if c = 0x52 then imm < 2 ^ 14 && imm / 16 ≥ 1
    else if c = 0x53 then imm < 2 ^ 14
    else if c = 0x5A || c = 0x5B then 5 ≤ imm && imm ≤ 12
    else if c = 0x5C then imm ≤ 12
    else imm == 0
  rmGood && fnGood && immGood

/-! ### Vectors (R240) -/

def Vec.lane (v : Vec) (i : Nat) : Nat := getAt v.lanes i 0
def Vec.valid (v : Vec) (i : Nat) : Bool := tb v.vld i
def Vec.bad (v : Vec) (i : Nat) : Bool := tb v.pois i

/-- The zero vector, every lane valid; and the void vector. -/
def Vec.zero : Vec := { lanes := [0, 0, 0, 0, 0, 0, 0, 0], vld := 255, pois := 0, rver := 0, ovr := 0 }
def Vec.void : Vec := { Vec.zero with vld := 0 }

/-- A vector from its lanes: value, valid, poisoned. An invalid lane is zero and carries no poison (R254). -/
def Vec.of (l : List (Nat × Bool × Bool)) : Vec :=
  { lanes := l.map (fun x => if x.2.1 then x.1 % 2 ^ 32 else 0)
    vld := ((range 0 8).zip l).foldl (fun a p => if p.2.2.1 then a + 2 ^ p.1 else a) 0
    pois := ((range 0 8).zip l).foldl (fun a p => if p.2.2.1 && p.2.2.2 then a + 2 ^ p.1 else a) 0
    rver := 0, ovr := 0 }

/-- What an operator gives: its result, the generator after it, and whether a conversion met a value that is not finite. -/
structure OpOut where
  res : Vec
  gen : Nat
  odd : Bool
  deriving DecidableEq, Repr

/-- A lane-by-lane operator that draws nothing. -/
def lanewise (vs : List Vec) (f : Nat → Nat) : Vec :=
  Vec.of ((range 0 8).map (fun i => (f i, vs.all (fun v => v.valid i), vs.any (fun v => v.bad i))))

/-- Lane-by-lane rounding: one draw for each valid lane under SR (R254). -/
def roundLanes (rm : RMode) (f : Fmt) (vs : List Vec) (x : Nat → FVal) : Nat → Nat → Nat → List (Nat × Bool × Bool) × Nat
  | 0, _, g => ([], g)
  | n + 1, i, g =>
    let ok := vs.all (fun v => v.valid i)
    let g := if ok && rm == .sr then draw g else g
    let (r, g') := roundLanes rm f vs x n (i + 1) g
    (((x i).round f rm g, ok, vs.any (fun v => v.bad i)) :: r, g')

/-- The same as a vector. -/
def roundVec (rm : RMode) (f : Fmt) (vs : List Vec) (g : Nat) (x : Nat → FVal) : OpOut :=
  let (l, g) := roundLanes rm f vs x 8 0 g
  { res := Vec.of l, gen := g, odd := false }

def rmOf (n : Nat) : RMode :=
  match n with
  | 0 => .rne | 1 => .rtz | _ => .sr

def fval (n : Nat) : FVal := Fmt.fp32.value n

/-- Signed value of a 32-bit lane, and saturation to it. -/
def s32 (n : Nat) : Int := sxi n 32
def sat32 (v : Int) : Nat := trunc 32 (max (-(2 ^ 31 : Nat)) (min ((2 ^ 31 : Nat) - 1) v))

/-- Number of one bits and of leading zeros of a 32-bit lane. -/
def pop32 (n : Nat) : Nat := ((range 0 32).filter (tb n)).length
def clz32 (n : Nat) : Nat := if n % 2 ^ 32 = 0 then 32 else 31 - Nat.log2 (n % 2 ^ 32)

/-- Integer lane operators of two operands (R255). -/
def intLane (c : Nat) (imm fn a b : Nat) : Nat :=
  match c with
  | 0x01 => a
  | 0x02 => a + b
  | 0x03 => a + 2 ^ 32 - b
  | 0x04 => a * b
  | 0x05 => trunc 32 (s32 a * s32 b / (2 ^ 32 : Nat))
  | 0x06 => if s32 a ≤ s32 b then a else b
  | 0x07 => if s32 a ≥ s32 b then a else b
  | 0x08 => min a b
  | 0x09 => max a b
  | 0x0A => sat32 (s32 a + s32 b)
  | 0x0B => sat32 (s32 a - s32 b)
  | 0x0C => Nat.land a b
  | 0x0D => Nat.lor a b
  | 0x0E => Nat.xor a b
  | 0x0F => Nat.land a (2 ^ 32 - 1 - b % 2 ^ 32)
  | 0x10 => a <<< (b % 32)
  | 0x11 => a >>> (b % 32)
  | 0x12 => trunc 32 (s32 a / (2 ^ (b % 32) : Nat))
  | 0x13 => fld a (fld imm 0 5) (fld imm 5 5 + 1)
  | 0x14 => pop32 a
  | 0x15 => clz32 a
  | _ =>
    let c : Cond := match fn with
      | 0 => .eq | 1 => .ne | 2 => .lt | 3 => .ge | 4 => .ltu | 5 => .geu | 6 => .gt | _ => .le
    b2n (condHolds c (BitVec.ofNat 32 a) (BitVec.ofNat 32 b))

/-- Conditions of FCMP. -/
def fcondOf (fn : Nat) : FCond :=
  match fn with
  | 0 => .eq | 1 => .lt | 2 => .le | 3 => .un | _ => .ne

/-- A power of two that stays exact for rounding: beyond these bounds every FP32 value over- or underflows alike. -/
def clampExp (e : Int) : Int := max (-600) (min 600 e)

/-- Seven sums of RSUM in order, with the generator (R257). -/
def sumOne (rm : RMode) (g a b : Nat) : Nat × Nat :=
  let g := if rm = .sr then draw g else g
  (((fval a).add (fval b)).round .fp32 rm g, g)

def rsum (rm : RMode) (g : Nat) (x : Nat → Nat) : Nat × Nat :=
  let (a, g) := sumOne rm g (x 0) (x 1)
  let (b, g) := sumOne rm g (x 2) (x 3)
  let (c, g) := sumOne rm g (x 4) (x 5)
  let (d, g) := sumOne rm g (x 6) (x 7)
  let (e, g) := sumOne rm g a b
  let (f, g) := sumOne rm g c d
  sumOne rm g e f

/-- Every lane the same value. -/
def splat (v : Nat) (ok bad : Bool) : Vec := Vec.of ((range 0 8).map (fun _ => (v, ok, bad)))

/-- Lanes of a vector that are valid. -/
def Vec.validLanes (v : Vec) : List Nat := ((range 0 8).filter v.valid).map v.lane

/-- UNPK (R257). -/
def unpk (fn s : Nat) (a b : Vec) : Vec :=
  let w := unpkWidth fn
  let win := (range 0 8).foldl (fun x i => x + a.lane i * 2 ^ (32 * i) + b.lane i * 2 ^ (256 + 32 * i)) 0
  Vec.of ((range 0 8).map (fun i =>
    let lo := s + w * i
    let f := fld win lo w
    let bad := (range (lo / 32) ((lo + w - 1) / 32 - lo / 32 + 1)).any (fun l => if l < 8 then a.bad l else b.bad (l - 8))
    ((if tb fn 3 then trunc 32 (sxi f w) else f), true, bad)))

/-- CBX: the outlier that replaces lane i, if any (R261). -/
def cbxLane (b c : Vec) (i : Nat) : Option Nat :=
  (range 0 8).find? (fun e => c.valid e && c.lane e % 128 == b.lane i % 128)

/-- The result of an operator that has one, from its sources, the side-band words for SIDE and the generator. -/
def evalOp (w : Nat) (a b c side : Vec) (gen : Nat) : OpOut :=
  let oc := opOpc w
  let fn := opFn w
  let imm := opImm w
  let rm := rmOf (opRm w)
  let plain (v : Vec) : OpOut := { res := v, gen := gen, odd := false }
  if oc = 0x01 || oc = 0x13 || oc = 0x14 || oc = 0x15 then plain (lanewise [a] (fun i => intLane oc imm fn (a.lane i) 0))
  else if oc ≤ 0x16 then plain (lanewise [a, b] (fun i => intLane oc imm fn (a.lane i) (b.lane i)))
  else match oc with
  | 0x20 => roundVec rm .fp32 [a, b] gen (fun i => (fval (a.lane i)).add (fval (b.lane i)))
  | 0x21 => roundVec rm .fp32 [a, b] gen (fun i => (fval (a.lane i)).add (fval (b.lane i)).neg)
  | 0x22 => roundVec rm .fp32 [a, b] gen (fun i => (fval (a.lane i)).mul (fval (b.lane i)))
  | 0x23 => roundVec rm .fp32 [a, b, c] gen (fun i => ((fval (a.lane i)).mul (fval (b.lane i))).add (fval (c.lane i)))
  | 0x24 => plain (lanewise [a, b] (fun i => fminmax false (a.lane i) (b.lane i)))
  | 0x25 => plain (lanewise [a, b] (fun i => fminmax true (a.lane i) (b.lane i)))
  | 0x26 => plain (lanewise [a] (fun i => a.lane i % 2 ^ 31))
  | 0x27 => plain (lanewise [a] (fun i => Nat.xor (a.lane i) (2 ^ 31)))
  | 0x28 => plain (lanewise [a, b] (fun i => b2n (fcondHolds (fcondOf fn) (fval (a.lane i)) (fval (b.lane i)))))
  | 0x29 => plain (lanewise [a] (fun i => frcp rm (a.lane i)))
  | 0x2A => plain (lanewise [a] (fun i => frsq rm (a.lane i)))
  | 0x2B => plain (lanewise [a] (fun i => fsqrt rm (a.lane i)))
  | 0x2C => plain (lanewise [a] (fun i => fexp2 rm (a.lane i)))
  | 0x2D => plain (lanewise [a] (fun i => flog2Code rm (a.lane i)))
  | 0x2E => roundVec rm .fp32 [a, b] gen (fun i => (fval (a.lane i)).scale (clampExp (s32 (b.lane i))))
  | 0x30 =>
    let src := kindOf (imm % 16)
    let dst := kindOf (imm / 16)
    let draws := (range 0 8).foldl (fun (acc : List Nat × Nat) i =>
      let g := if a.valid i && rm == .sr then draw acc.2 else acc.2
      (acc.1 ++ [convert src dst rm g (a.lane i % 2 ^ src.width)], g)) ([], gen)
    let odd (i : Nat) : Bool := dst.narrow && !(src.value (a.lane i % 2 ^ src.width)).finite
    { res := Vec.of ((range 0 8).map (fun i => (getAt draws.1 i 0, a.valid i, a.bad i || odd i)))
      gen := draws.2, odd := (range 0 8).any (fun i => a.valid i && odd i) }
  | 0x31 =>
    if fn = 0 then
      plain (Vec.of ((range 0 8).map (fun j =>
        let v := if j < 4 then a else b
        let k := 2 * (j % 4)
        (v.lane k % 2 ^ 16 + v.lane (k + 1) % 2 ^ 16 * 2 ^ 16, true, v.bad k || v.bad (k + 1)))))
    else
      plain (Vec.of ((range 0 8).map (fun j =>
        let v := if j < 2 then a else b
        let k := 4 * (j % 2)
        if j < 4 then
          ((range 0 4).foldl (fun x i => x + v.lane (k + i) % 256 * 2 ^ (8 * i)) 0, true, (range 0 4).any (fun i => v.bad (k + i)))
        else (0, true, false))))
  | 0x32 => plain (unpk fn imm a b)
  | 0x33 => plain (Vec.of ((range 0 8).map (fun i =>
      let k := fld imm (3 * i) 3
      (a.lane k, a.valid k, a.bad k))))
  | 0x34 => plain (splat (a.lane (imm % 8)) (a.valid (imm % 8)) (a.bad (imm % 8)))
  | 0x35 =>
    if a.vld = 0 then plain Vec.void
    else
      let (v, g) := rsum rm gen a.lane
      { res := splat v true (a.pois != 0), gen := g, odd := false }
  | 0x36 => plain (if a.vld = 0 then Vec.void
      else splat (a.validLanes.tail.foldl (fminmax true) (a.validLanes.headD 0)) true (a.pois != 0))
  | 0x37 => plain (if a.vld = 0 then Vec.void
      else splat (a.validLanes.tail.foldl (fminmax false) (a.validLanes.headD 0)) true (a.pois != 0))
  | 0x38 => plain (if a.vld = 0 then Vec.void
      else
        let l := a.validLanes.map (· % 2 ^ 31)
        splat (l.tail.foldl (fminmax true) (l.headD 0)) true (a.pois != 0))
  | 0x39 => plain (if a.vld = 0 then Vec.void else splat (a.lanes.foldl (· + ·) 0) true (a.pois != 0))
  | 0x3A => plain (Vec.of ((range 0 8).map (fun (i : Nat) => (trunc 32 ((i : Int) + sxi imm 24), true, false))))
  | 0x3B => plain (splat (if tb fn 0 then imm * 256 else trunc 32 (sxi imm 24)) true false)
  | 0x40 => plain (Vec.of ((range 0 8).map (fun i =>
      let v := if c.lane i != 0 then a else b
      (v.lane i, c.valid i && v.valid i, c.bad i || v.bad i))))
  | 0x41 => plain (Vec.of ((range 0 8).map (fun i => (a.lane i, a.valid i && b.lane i != 0, a.bad i || b.bad i))))
  | 0x42 => plain (Vec.of ((range 0 8).map (fun i => (b2n (a.valid i), true, a.bad i))))
  | 0x43 => plain (splat (b2n (a.validLanes.any (· != 0))) true (a.pois != 0))
  | 0x44 => plain (splat (b2n (a.validLanes.all (· != 0))) true (a.pois != 0))
  | 0x49 => plain (Vec.of ((range 0 8).map (fun i =>
      let v := if a.lane i = 1 then b else c
      (v.lane i, a.valid i, a.bad i || v.bad i))))
  | 0x53 => plain side
  | 0x58 => plain (Vec.of ((range 0 8).map (fun i =>
      let j := a.lane i % 8
      let w := b.lane (j / 2)
      (fld w (16 * (j % 2)) 16, a.valid i && b.valid (j / 2), a.bad i || b.bad (j / 2)))))
  | 0x59 => plain (Vec.of ((range 0 8).map (fun i =>
      (match cbxLane b c i with | some e => fld (c.lane e) 16 16 | none => a.lane i, a.valid i && b.valid i,
        a.bad i || b.bad i || c.pois != 0))))
  | 0x5A =>
    let v := (fval (a.lane 0)).abs
    if a.valid 0 then
      { res := splat (scaleCode (kindOf imm) v) true (a.bad 0 || !v.finite), gen := gen, odd := !v.finite }
    else plain Vec.void
  | 0x5B =>
    let f := kindOf imm
    let r := roundVec rm f [a, b] gen (fun i => (fval (a.lane i)).scale (clampExp (127 - (b.lane i : Int))))
    let odd (i : Nat) : Bool := !(fval (a.lane i)).finite
    { res := Vec.of ((range 0 8).map (fun i => (r.res.lane i, r.res.valid i, r.res.bad i || odd i))), gen := r.gen,
      odd := (range 0 8).any (fun i => r.res.valid i && odd i) }
  | 0x5C =>
    let f := kindOf imm
    roundVec rm .fp32 [a, b] gen (fun i => (f.value (a.lane i % 2 ^ f.width)).scale (clampExp ((b.lane i : Int) - 127)))
  | 0x5D => plain (lanewise [a] (fun i => match a.lane i % 4 with | 1 => 1 | 3 => 2 ^ 32 - 1 | _ => 0))
  | _ => plain Vec.void

end Sys2Proof.Machine
end

