-- ==== Sys2Proof/Machine/Planes.lean ====
section
/-! DEFINITION. Route and opcode planes: layout, checks, loading, switching and refetching (R245 to R251, R281 to R283, R286, R393,
R408), and the array's drop to its last commit token (R264). -/

namespace Sys2Proof.Machine

/-! ### Layout (R245 to R248) -/

/-- Fields of a port descriptor. -/
def pdEn (d : PortDesc) : Bool := tb d 0
def pdHdr (d : PortDesc) : Bool := tb d 1
def pdFlag (d : PortDesc) : Bool := tb d 2
def pdVps (d : PortDesc) : Nat := fld d 8 8
def pdVpf (d : PortDesc) : Nat := fld d 16 4
def pdType (d : PortDesc) : Nat := fld d 16 8

/-- Fields of a group descriptor. -/
def gdEn (d : Nat) : Bool := tb d 0
def gdMrg (d : Nat) : Bool := tb d 1
def gdIi (d : Nat) : Nat := fld d 8 6 + 1
def gdLen (d : Nat) : Nat := fld d 16 6 + 1
def gdInp (d : Nat) : Nat := fld d 24 16
def gdLbr (d : Nat) : Nat := fld d 40 8
def gdLbw (d : Nat) : Nat := fld d 48 8
def gdMctl (d : Nat) : Nat := fld d 56 3
def gdMa (d : Nat) : Nat := fld d 59 3
def gdMb (d : Nat) : Nat := fld d 62 3
def gdOvec (d n : Nat) : Nat := fld d (128 + 4 * n) 4

/-- The numbers of n bytes each that stand one behind another from an offset, at most `cnt` of them, with their places. -/
def rnums (bs : List Byte) (off n cnt : Nat) : List (Nat × Nat) := (range 0 cnt).zip ((chunk n cnt (bs.drop off)).map leNat)

/-- The plane of a ROUTE entry. -/
def routeOf (bs : List Byte) (sp addr : Nat) : RoutePlane :=
  { sp := sp, addr := addr, ver := rnum bs 9 1
    inp := (range 0 16).map (fun n => rnum bs (0x10 + 4 * n) 4)
    out := (range 0 16).map (fun n => rnum bs (0x50 + 4 * n) 4)
    rte := (rnums bs 0xA0 2 512).filter (fun p => p.2 != 0) }

/-- The plane of an OPPLANE entry. -/
def oppOf (bs : List Byte) (sp addr : Nat) : OpPlane :=
  { sp := sp, addr := addr, ver := rnum bs 9 1, rslot := rnum bs 0x0A 1, rver := rnum bs 0x0B 1, eotn := rnum bs 0x0C 1
    groups := (range 0 8).map (fun g => rnum bs (0x10 + 32 * g) 32)
    ops := ((rnums bs 0x110 8 512).filter (fun p => p.2 != 0)).map (fun p => { pe := p.1 / 16, word := p.2 }) }

/-- Route entry e of a PE. -/
def RoutePlane.entry (r : RoutePlane) (pe e : Nat) : Nat := NMap.findD r.rte (16 * pe + e) 0

/-- Header of an entry: KIND and BEATS, reserved bits zero (R34). -/
def entryHeader (bs : List Byte) (kind beats : Nat) : Bool :=
  rnum bs 0 1 == kind && fld (rnum bs 0 4) 18 14 == 0 && rnum bs 4 2 == beats && rnum bs 6 2 == 0

/-! ### Checks (R393) -/

/-- Reserved bits and counts of a descriptor. -/
def inDescGood (d : PortDesc) : Bool :=
  fld d 3 5 == 0 && fld d 20 12 == 0 && (!pdEn d || (pdVps d != 0 && pdVpf d != 0 && pdVpf d ≤ 8 && pdVps d % pdVpf d == 0))
def outDescGood (d : PortDesc) : Bool := fld d 3 5 == 0 && fld d 24 8 == 0 && (!pdEn d || pdVps d != 0)

/-- A route entry's kind and zero bits (R246). -/
def rteGood (v : Nat) : Bool :=
  match fld v 12 4 with
  | 0 => fld v 0 12 == 0
  | 1 => fld v 8 4 == 0
  | 2 => fld v 7 5 == 0
  | 3 => fld v 3 9 == 0
  | _ => false

/-- A ROUTE entry by itself. -/
def routeSelf (bs : List Byte) : Bool :=
  let r := routeOf bs 0 0
  rnum bs 8 1 ≤ 1 && rnum bs 0x0A 6 == 0 && rnum bs 0x90 16 == 0 && r.inp.all inDescGood && r.out.all outDescGood
    && r.rte.all (fun p => rteGood p.2)

/-- Descriptors against the tile's bindings: EN as bound, and slots large enough. -/
def routePorts (t : Tile) (r : RoutePlane) : Bool :=
  let one (base n : Nat) (d : PortDesc) : Bool :=
    match NMap.find? t.ports (base + n) with
    | some ring => pdEn d && 32 * pdVps d ≤ (t.ring ring).bytes
    | none => !pdEn d
  (range 0 16).all (fun n => one 0 n (getAt r.inp n 0) && one 16 n (getAt r.out n 0))

/-- Reserved bits of a group descriptor. -/
def groupGood (d : Nat) : Bool :=
  fld d 2 6 == 0 && fld d 14 2 == 0 && fld d 22 2 == 0 && fld d 65 63 == 0 && fld d 192 64 == 0

/-- Sources that an operator does not read are zero (R249). -/
def unreadZero (w : Nat) : Bool := (range 0 3).all (fun i => i < opReads (opOpc w) (opFn w) || opSrc w i == 0)

/-- An operator word by itself, under its group descriptor. -/
def opWordGood (gs : List Nat) (w : Nat) : Bool :=
  let d := getAt gs (opGrp w) 0
  opAssigned (opOpc w) && gdEn d && fld w 38 2 == 0 && (!opWd w || opResult (opOpc w)) && opFieldsGood w && unreadZero w
    && opCyc w < gdLen d

/-- No two operators of one PE and group start in one cycle modulo II. -/
def opsApart (gs : List Nat) : List OpWord → Bool
  | [] => true
  | o :: r => r.all (fun p => !(p.pe == o.pe && opGrp p.word == opGrp o.word
      && opCyc p.word % gdIi (getAt gs (opGrp o.word) 0) == opCyc o.word % gdIi (getAt gs (opGrp o.word) 0))) && opsApart gs r

/-- An OPPLANE entry by itself. -/
def oppSelf (bs : List Byte) : Bool :=
  let p := oppOf bs 0 0
  rnum bs 8 1 ≤ 3 && p.rslot ≤ 1 && p.eotn ≤ 16 && rnum bs 0x0D 3 == 0 && p.groups.all groupGood
    && p.ops.all (fun o => opWordGood p.groups o.word) && opsApart p.groups p.ops

/-- One operator against the route plane it uses. -/
def opJoins (r : RoutePlane) (gs : List Nat) (o : OpWord) : Bool :=
  let w := o.word
  let d := getAt gs (opGrp w) 0
  (range 0 (opReads (opOpc w) (opFn w))).all (fun i =>
    let v := r.entry o.pe (opSrc w i)
    match fld v 12 4 with
    | 2 => tb (gdInp d) (fld v 0 4) && fld v 4 3 < pdVpf (getAt r.inp (fld v 0 4) 0)
    | 3 =>
      let k := fld v 0 3
      if gdMrg d then k == gdMctl d || k == gdMa d || k == gdMb d else tb (gdLbr d) k
    | _ => true)
  && (opOpc w != 0x53 || tb (gdInp d) (opImm w % 16))

/-- The checks that join a route and an opcode plane. -/
def planesJoin (r : RoutePlane) (p : OpPlane) : Bool := p.ops.all (opJoins r p.groups)

/-- A route plane may be placed in a slot: its own checks and those against opcode planes of its version that are resident, as a struck
copy is not (R393, R408). -/
def routeFits (t : Tile) (slot : Nat) (r : RoutePlane) : Bool :=
  routePorts t r && t.arr.opps.all (fun p =>
    t.arr.lost.contains (2 + p.1) || !(p.2.rslot == slot && p.2.rver == r.ver) || planesJoin r p.2)

/-- An opcode plane may be placed: the check against its route slot, if that holds its version. -/
def oppFits (t : Tile) (p : OpPlane) : Bool :=
  match if t.arr.lost.contains p.rslot then none else NMap.find? t.arr.routes p.rslot with
  | some r => r.ver != p.rver || planesJoin r p
  | none => true

/-! ### The current plane (R250, R251, R408) -/

/-- The current opcode plane with its route plane, if both are resident and of the right version; while a struck copy of the tile is
not fetched again, there is none (R408). -/
def Arr.current (a : Arr) : Option (OpPlane × RoutePlane) :=
  match NMap.find? a.opps a.cur with
  | none => none
  | some p =>
    match NMap.find? a.routes p.rslot with
    | none => none
    | some r => if r.ver = p.rver && a.lost.isEmpty then some (p, r) else none

/-- Domain cycle count that a tile sees (R251). -/
def domNow (s : State) (tid : Nat) : Nat :=
  match tileRegion? s tid with
  | some r => r.dom
  | none => (s.tile tid).cyc

/-- A firing in flight is stamped with the version that a slot holds. -/
def stampedRoute (a : Arr) (slot : Nat) : Bool :=
  a.firings.any (fun f => f.rslot == slot && some f.rver == (NMap.find? a.routes slot).map RoutePlane.ver)
def stampedOpp (a : Arr) (slot : Nat) : Bool :=
  a.firings.any (fun f => f.oslot == slot && some f.ovr == (NMap.find? a.opps slot).map OpPlane.ver)

/-! ### Drop to the last commit token (R264, R394, R408) -/

/-- Work since the last commit token is dropped; the marker count is a committed value. -/
def dropArray (s : State) (tid : Nat) : State :=
  s.updTile tid (fun t =>
    let t := t.ports.foldl (fun t p =>
      if 16 ≤ p.1 then t.setRing p.2 { t.ring p.2 with claimed := (t.ring p.2).filled }
      else t.setRing p.2 { t.ring p.2 with taken := (t.ring p.2).released }) t
    { t with arr := { t.arr with
        firings := [], regs := [], lbs := [], inps := [], outs := [], ready := [], commit := false
        eotc := t.arr.eotKept.1, eotFull := t.arr.eotKept.2 } })

/-! ### Reading an entry (R281) -/

/-- Space of LDRP and LDOP. -/
def planeSpace : PlaneSp → Space
  | .t => .t | .g => .g | .y => .y | .d => .d

/-- Read an entry of n 8-byte words, from an address. -/
def readEntry (s : State) (w : Who) (sp : Space) (a : Word) : Nat → State × Except (Nat × Nat) (List Byte)
  | 0 => (s, .ok [])
  | n + 1 =>
    match cmdRead s w sp a 8 with
    | (s, .error e) => (s, .error e)
    | (s, .ok (bs, _)) =>
      match readEntry s w sp (a + 8) n with
      | (s, .error e) => (s, .error e)
      | (s, .ok r) => (s, .ok (bs ++ r))

/-- The agent of plane reads, in the mode of the issue (R417, R424). -/
def planeWho (tid : Nat) (sys check : Bool) : Who := { tid := tid, eng := .m, sys := sys, check := check, strm := true, unit := 1 }

/-- Length of an entry in 8-byte words. -/
def planeWords (op : Bool) : Nat := if op then 546 else 148

/-- The slot an entry names, read without effect; none while it must still come from a peer's memory. -/
def planeTarget (s : State) (w : Who) (sp : Space) (a : Word) : Option Nat :=
  match cmdRead s w sp (a + 8) 1 with
  | (t, .ok (bs, _)) => if t.starved then none else some (leNat bs)
  | (_, .error _) => some 0

/-- An instruction changes a plane: LDRP, LDOP or PWR. -/
def Wait.isPlane : Wait → Bool
  | .plane .. => true
  | .pwr .. => true
  | _ => false

/-- LDRP, LDOP and PWR that are in flight on the M engine. -/
def planesInFlight (t : Tile) : List Wait :=
  t.m.queue.filterMap (fun q => match q.stat with
    | .flight w _ _ _ => if w.isPlane then some w else none
    | _ => none)

/-- LDRP, LDOP or PWR holds the array from firing: its target is in use, or not known yet (R281, R283). -/
def planeHold (s : State) (tid : Nat) : Bool :=
  let t := s.tile tid
  let route (slot : Nat) : Bool := some slot == (NMap.find? t.arr.opps t.arr.cur).map OpPlane.rslot
  (planesInFlight t).any (fun p => match p with
    | .plane op sp a sys check =>
      match planeTarget s (planeWho tid sys check) (planeSpace sp) (wd a) with
      | some slot => if op then slot == t.arr.cur else route slot
      | none => true
    | .pwr slot _ => route slot
    | _ => false)

/-! ### LDRP and LDOP (R281) -/

/-- Issue of a plane load. -/
def planeLoad (s : State) (tk : Tk) (op : Bool) (sp : PlaneSp) (s1 s2 : Reg) : Out :=
  let (tid, g) := s.cur
  let a := alignDown (val s s1 + val s s2) 32
  if !ready s tk [s1, s2] none || accHeld ((s.tile tid).eng g) || (s.tile tid).arr.swap.isSome then .next s
  else if noSpace s tid (planeSpace sp) then .next (raiseOperand s tid g 0x0C)
  else .next (s.setTile tid (startWait (s.tile tid) g tk [s1, s2] (.plane op sp a.toNat (s.tile tid).sys (s.tile tid).check)))

def execLdrp (tk : Tk) (sp : PlaneSp) (s1 s2 : Reg) (s : State) : Out := planeLoad s tk false sp s1 s2

def execLdop (tk : Tk) (sp : PlaneSp) (s1 s2 : Reg) (s : State) : Out := planeLoad s tk true sp s1 s2

/-- An entry in flight goes back to be issued again (R182). -/
def unissue (s : State) (tid : Nat) (g : Eng) (k : Nat) : State :=
  let t := s.tile tid
  match ((t.eng g).queue[k]?).map QEntry.stat with
  | some (.flight w _ pop xs) =>
    let t := undo t g w pop xs
    s.setTile tid (t.updEng g (fun e => { e with queue := setStat e.queue k .unissued }))
  | _ => s

/-- Source space of a plane as the table records it (R286), and 8 more for a Y source that system code named die-absolute (R87). -/
def planeSpNum (sp : PlaneSp) (sys : Bool) : Nat :=
  match sp with
  | .t => 0 | .g => 2 | .y => if sys then 11 else 3 | .d => 4

/-- The reader of a recorded source: through the window of R87, unless system code named it. -/
def sourceWho (s : State) (tid sp : Nat) : Who := planeWho tid (8 ≤ sp) (s.tile tid).check

/-- Place a checked entry; none if it is refused. -/
def placePlane (t : Tile) (op : Bool) (bs : List Byte) (sp addr : Nat) : Option Tile :=
  let slot := rnum bs 8 1
  if op then
    let p := oppOf bs sp addr
    if entryHeader bs 3 137 && oppSelf bs && oppFits t p then
      some { t with arr := { t.arr with opps := NMap.put t.arr.opps slot p, lost := setDel t.arr.lost (2 + slot) } }
    else none
  else
    let r := routeOf bs sp addr
    if entryHeader bs 2 37 && routeSelf bs && routeFits t slot r then
      some { t with arr := { t.arr with routes := NMap.put t.arr.routes slot r, lost := setDel t.arr.lost slot } }
    else none

def Wait.isLoad : Wait → Bool
  | .plane .. => true
  | _ => false

/-- PLANE_LOAD_COMPLETE: the oldest LDRP or LDOP in flight reads its entry, which is refused at once (R382), or placed as it retires, once
its token has room. -/
def execPlaneLoadComplete (tile : Nat) (s : State) : Out :=
  let t := s.tile tile
  match flightAt t .m Wait.isLoad with
  | some (k, .plane op sp a sys check) =>
    let w := planeWho tile sys check
    if t.arr.swap.isSome then .next s
    else
      match readEntry s w (planeSpace sp) (wd a) (planeWords op) with
      | (u, .error e) => .next (if u.starved then u else raiseXlate (unissue u tile .m k) tile .m e.1 e.2)
      | (u, .ok bs) =>
        let slot := rnum bs 8 1
        if u.starved then .next u
        else if if op then stampedOpp t.arr slot else stampedRoute t.arr slot then .next s
        else
          let s' := u.updTile tile (fun v => v.dropGot 1)
          match placePlane t op bs (planeSpNum sp sys) a with
          | some t' =>
            if completes t .m k (Result.value none 0) then
              .next (completeS (s'.updTile tile (fun v => { v with arr := t'.arr })) tile .m k (Result.value none 0) true)
            else .next s
          | none =>
            if k = 0 then .next (raiseOperand (unissue s' tile .m k) tile .m 0x0A) else .next s
  | _ => .next s

/-! ### SWOP and PWR (R282, R283) -/

/-- The cycle at which a switch issued in cycle c takes effect. -/
def switchCycle (c : Nat) (now : Bool) (align : Nat) : Nat := if now then c + 1 else (c / 2 ^ align + 1) * 2 ^ align

/-- SWOP. -/
def execSwop (tk : Tk) (d : Reg) (oslot : BitVec 2) (now : Bool) (align : BitVec 6) (s : State) : Out :=
  let tid := s.cur.1
  let t := s.tile tid
  if !ready s tk [] (some d) || t.arr.swap.isSome || !(planesInFlight t).isEmpty then .next s
  else
    let n := switchCycle (domNow s tid) now align.toNat
    let s' := s.updTile tid (fun t => { t with arr := { t.arr with swap := some (oslot.toNat, n) } })
    endNow s s' tk [] (Result.value (some d) (wd n))

/-- PWR writes one descriptor and the version of a route slot, and retires two cycles after its issue. -/
def execPwr (tk : Tk) (s1 s2 : Reg) (s : State) : Out :=
  let (tid, g) := s.cur
  let t := s.tile tid
  let sel := (val s s1).toNat
  let slot := fld sel 5 1
  let n := fld sel 0 4
  let desc := (val s s2).toNat % 2 ^ 32
  if !ready s tk [s1, s2] none || t.arr.swap.isSome || stampedRoute t.arr slot || !(planesInFlight t).isEmpty then .next s
  else
    match if t.arr.lost.contains slot then none else NMap.find? t.arr.routes slot with
    | none => .next (raiseOperand s tid g 0x0A)
    | some r =>
      let r' := if tb sel 4 then { r with out := setAt r.out n desc, ver := fld sel 8 8 }
        else { r with inp := setAt r.inp n desc, ver := fld sel 8 8 }
      if (if tb sel 4 then outDescGood desc else inDescGood desc) && routeFits t slot r' then
        let t := startWait t g tk [s1, s2] (.pwr slot (t.cyc + 2))
        .next (s.setTile tid { t with arr := { t.arr with routes := NMap.put t.arr.routes slot r' } })
      else .next (raiseOperand s tid g 0x0A)

/-! ### Switches and refetches (R251, R408) -/

/-- An imprecise ARRAY exception; only SUB 1 is raised by a firing, which system code does not answer for (R384). -/
def raiseArray (s : State) (tid sub : Nat) : State :=
  raiseImprecise s tid { code := 8, sub := sub, eng := .a, impr := true, slot := none, info := 0 } (sub == 1)

/-- The pending switch of a tile takes effect in domain cycle `now`, if it is due. -/
def switchStep (s : State) (tid now : Nat) : State :=
  match (s.tile tid).arr.swap with
  | none => s
  | some (slot, n) =>
    if now < n then s
    else
      let s := s.updTile tid (fun t => { t with arr := { t.arr with cur := slot, swap := none, mismatch := false } })
      let a := (s.tile tid).arr
      match NMap.find? a.opps slot with
      | none => s
      | some p =>
        if (NMap.find? a.routes p.rslot).map RoutePlane.ver == some p.rver then s
        else raiseArray (s.updTile tid (fun t => { t with arr := { t.arr with mismatch := true } })) tid 2

/-- The array of a tile works: the tile runs, and no system code saves it after a pre-emption trap (R206, R264). -/
def Tile.saving (t : Tile) : Bool := t.sys && t.ctx.isSome
def Tile.arrayRuns (t : Tile) : Bool := t.started && !t.halted && !t.saving

/-- SWITCH_TAKES_EFFECT. -/
def execSwitchTakesEffect (tile : Nat) (s : State) : Out :=
  .next (if (s.tile tile).arrayRuns then switchStep s tile (domNow s tile) else s)

/-- PLANE_REFETCH: a struck plane is fetched again from its recorded source. -/
def execPlaneRefetch (tile plane : Nat) (s : State) : Out :=
  let t := s.tile tile
  if !t.arr.lost.contains plane then .next s
  else
    let op := 2 ≤ plane
    let slot := if op then plane - 2 else plane
    let src := if op then (NMap.find? t.arr.opps slot).map (fun p => (p.sp, p.addr, p.ver))
      else (NMap.find? t.arr.routes slot).map (fun r => (r.sp, r.addr, r.ver))
    let gone (s : State) : State := raiseArray (s.updTile tile (fun t => { t with arr := { t.arr with
        routes := if op then t.arr.routes else NMap.erase t.arr.routes slot
        opps := if op then NMap.erase t.arr.opps slot else t.arr.opps
        lost := setDel t.arr.lost plane } })) tile 3
    match src with
    | none => .next s
    | some (sp, addr, ver) =>
      match readEntry s (sourceWho s tile sp) (spOf (sp % 8)) (wd addr) (planeWords op) with
      | (s, .error _) => .next (if s.starved then s else gone s)
      | (s, .ok bs) =>
        let s := if s.starved then s else s.updTile tile (fun v => v.dropGot 1)
        if s.starved then .next s
        else if rnum bs 9 1 != ver || rnum bs 8 1 != slot then .next (gone s)
        else match placePlane (s.tile tile) op bs sp addr with
          | some t' => .next (s.updTile tile (fun u => { u with arr := t'.arr }))
          | none => .next (gone s)

end Sys2Proof.Machine
end

