-- ==== Sys2Proof/Machine/ArrayEngine.lean ====
section
/-! DEFINITION. The array at work: ports, firing, operators in their cycles, write logs, commit tokens and markers (R140, R241 to R244,
R252, R258 to R264, R373, R375, R394, R427). -/

namespace Sys2Proof.Machine

/-! ### Ports (R242, R243) -/

/-- Ring bound to an input or output port. -/
def inRing (t : Tile) (n : Nat) : Option Nat := NMap.find? t.ports n
def outRing (t : Tile) (n : Nat) : Option Nat := NMap.find? t.ports (16 + n)

def InPort.reset : InPort := { buf := [], fetched := 0, latched := 0 }
def OutPort.reset : OutPort := { opened := false, words := 0, outs := false, pois := 0, desc := 0 }

def Tile.inp (t : Tile) (n : Nat) : InPort := NMap.findD t.arr.inps n InPort.reset
def Tile.setInp (t : Tile) (n : Nat) (p : InPort) : Tile := { t with arr := { t.arr with inps := NMap.put t.arr.inps n p } }
def Tile.outp (t : Tile) (n : Nat) : OutPort := NMap.findD t.arr.outs n OutPort.reset
def Tile.setOutp (t : Tile) (n : Nat) (p : OutPort) : Tile := { t with arr := { t.arr with outs := NMap.put t.arr.outs n p } }

/-- Side-band word 0 of a slot. -/
def slotWord0 (s : State) (tid : Nat) (r : Ring) (i : Nat) : Nat :=
  if r.side = 0 then 0 else leNat (spaceBytes s tid r.spG (r.sideOff i) 4)

/-- The slot at the head of a port is an end-of-tile marker. -/
def markerAt (s : State) (tid : Nat) (d : PortDesc) (r : Ring) : Bool :=
  pdHdr d && r.filled != r.taken && tb (slotWord0 s tid r r.taken) 16

/-- Bytes of a block of a slot, as its poison bits count them (R373). -/
def portBlock (d : PortDesc) (w0 : Nat) : Nat :=
  let fmt := fld w0 16 6
  let geom := fld w0 22 4
  if !pdHdr d && hasSide fmt geom && fmtGood fmt geom then blockBytes fmt geom else 128

/-- The agent of a port's reads, which CHECK mode leaves alone (R424). -/
def portWho (tid : Nat) : Who := { tid := tid, eng := .a, sys := false, check := false, strm := false, unit := 0 }

/-- Vector k of a slot: every lane valid, marked where its block is poisoned, and everywhere where the header is (R242, R373). -/
def slotVec (s : State) (tid : Nat) (d : PortDesc) (r : Ring) (i k : Nat) : Vec :=
  let w0 := slotWord0 s tid r i
  let len := portBlock d w0
  let nblk := if pdHdr d then recBlocks w0 else slotBlocks (fld w0 16 6) (fld w0 22 4) r.bytes
  let said := (saidMarks s (portWho tid) r i 0 nblk).2
  let lost := r.side != 0 && spaceSpoiled s tid r.spG (r.sideOff i) 4
  Vec.of ((range 0 8).map (fun j =>
    let off := 32 * k + 4 * j
    let bad := lost || tb said (off / len) || tb said ((off + 3) / len) || spaceSpoiled s tid r.spG (r.slotOff i + off) 4
    (leNat (spaceBytes s tid r.spG (r.slotOff i + off) 4), true, bad)))

/-- A port takes up to two vectors of the slot at TAKEN into its buffer of eight; none if it cannot. -/
def prefetchStep (s : State) (tid n : Nat) : Option State :=
  let t := s.tile tid
  match t.arr.current, inRing t n with
  | some (_, rp), some ring =>
    let d := getAt rp.inp n 0
    let r := t.ring ring
    let p := t.inp n
    let k := min (min 2 (8 - p.buf.length)) (pdVps d - p.fetched)
    if !pdEn d || r.filled = r.taken || markerAt s tid d r || k = 0 then none
    else
      let vs := (range p.fetched k).map (slotVec s tid d r r.taken)
      some (s.setTile tid (t.setInp n { p with buf := p.buf ++ vs, fetched := p.fetched + k }))
  | _, _ => none

/-- PORT_PREFETCH. -/
def execPortPrefetch (tile port : Nat) (s : State) : Out :=
  let t := s.tile tile
  .next (if t.started && !t.halted then (prefetchStep s tile port).getD s else s)

/-! ### Link buffers and registers (R241, R244) -/

def Arr.lb (a : Arr) (k : Nat) : List Vec := NMap.findD a.lbs k []
def Arr.setLb (a : Arr) (k : Nat) (l : List Vec) : Arr := { a with lbs := NMap.put a.lbs k l }

/-- The later of two register writes. -/
def laterWrite (a b : RegWrite) : RegWrite := if b.fin > a.fin || (b.fin = a.fin && b.issued ≥ a.issued) then b else a

/-- The write that register vn of PE q shows `back` cycles before cycle `now`. -/
def regWriteAt (a : Arr) (q n now back : Nat) : Option RegWrite :=
  match (NMap.findD a.regs (8 * q + n) []).filter (fun w => w.fin + back ≤ now) with
  | [] => none
  | w :: r => some (r.foldl laterWrite w)

/-- Register vn of PE q as it stood `back` cycles before cycle `now`; a cleared register is zero with every lane valid
(R364), and one whose vector was discarded is void (R407). -/
def regAt (a : Arr) (q n now back : Nat) : Vec :=
  match regWriteAt a q n now back with
  | none => Vec.zero
  | some w => if w.gone then Vec.void else w.vec

/-- The stamp of a vector names copies that some slot holds (R407). -/
def stampHeld (a : Arr) (v : Vec) : Bool :=
  a.routes.any (fun p => p.2.ver == v.rver && !a.lost.contains p.1) && a.opps.any (fun p => p.2.ver == v.ovr && !a.lost.contains (2 + p.1))

/-- A register read discards a vector whose copies are gone, and counts it once (R407). -/
def discardReg (s : State) (tid q n now back : Nat) : State :=
  let a := (s.tile tid).arr
  match regWriteAt a q n now back with
  | none => s
  | some w =>
    if w.gone || stampHeld a w.vec then s
    else count (s.updTile tid (fun t => { t with arr := { t.arr with
      regs := NMap.put t.arr.regs (8 * q + n)
        ((NMap.findD t.arr.regs (8 * q + n) []).map (fun x => if x = w then { x with gone := true } else x)) } })) 20

/-- What a pop finds in a link buffer: the vectors that it discards, then the rest (R407). -/
def lbStale (a : Arr) (k : Nat) : List Vec := (a.lb k).takeWhile (fun v => !stampHeld a v)
def lbFresh (a : Arr) (k : Nat) : List Vec := (a.lb k).dropWhile (fun v => !stampHeld a v)

/-- Record a register write; writes that no read can reach any more are dropped. -/
def Arr.setReg (a : Arr) (pe n : Nat) (w : RegWrite) : Arr :=
  let l := NMap.findD a.regs (8 * pe + n) []
  let old := l.filter (fun x => x.fin + 12 ≤ w.issued)
  let keep := l.filter (fun x => x.fin + 12 > w.issued)
  let base := match old with | [] => [] | x :: r => [r.foldl laterWrite x]
  { a with regs := NMap.put a.regs (8 * pe + n) (base ++ keep ++ [w]) }

/-- Hops between two PEs. -/
def hops (p q : Nat) : Nat := ((p % 8 : Int) - (q % 8 : Nat)).natAbs + ((p / 8 : Int) - (q / 8 : Nat)).natAbs

/-! ### Firing (R252, R259) -/

/-- The firing still runs in cycle `now`. -/
def firingLen (a : Arr) (f : Firing) : Nat :=
  match NMap.find? a.opps f.oslot with
  | some p => gdLen (getAt p.groups f.grp 0)
  | none => 0
def alive (a : Arr) (now : Nat) (f : Firing) : Bool := now < f.start + firingLen a f

/-- Remove firings that have run to the end of their schedules. -/
def cleanFirings (t : Tile) (now : Nat) : Tile :=
  { t with arr := { t.arr with firings := t.arr.firings.filter (alive t.arr now) } }

/-- Room of an output port in vectors, less what firings in flight still reserve. -/
def outRoom (t : Tile) (rp : RoutePlane) (n : Nat) : Nat :=
  match outRing t n with
  | none => 0
  | some ring =>
    let r := t.ring ring
    let o := t.outp n
    let vps := pdVps (getAt rp.out n 0)
    let here := if o.opened then (8 * vps - o.words) / 8 else 0
    let total := here + (r.n - diff32 r.claimed r.released) * vps
    let reserved := t.arr.firings.foldl (fun x f =>
      match NMap.find? t.arr.opps f.oslot with
      | some p => x + (gdOvec (getAt p.groups f.grp 0) n - NMap.findD f.wrote n 0)
      | none => x) 0
    total - reserved

/-- Room of a link buffer, less what firings in flight reserve. -/
def lbRoom (a : Arr) (k : Nat) : Nat :=
  16 - (a.lb k).length - (a.firings.filter (fun f => tb f.lbw k)).length

/-- Link buffers that a merge group pops, if it may fire (R259). -/
def mergePops (a : Arr) (d : Nat) : Option (List Nat) :=
  if (a.lb (gdMctl d)).isEmpty then none
  else
    let c := (lbFresh a (gdMctl d)).headD Vec.void
    let ones := (range 0 8).any (fun i => c.valid i && c.lane i == 1)
    let zeros := (range 0 8).any (fun i => c.valid i && c.lane i == 0)
    if (ones && (a.lb (gdMa d)).isEmpty) || (zeros && (a.lb (gdMb d)).isEmpty) then none
    else some ([gdMctl d] ++ (if ones then [gdMa d] else []) ++ (if zeros then [gdMb d] else []))

/-- Link buffers that a group pops, if it may fire. -/
def groupPops (a : Arr) (d : Nat) : Option (List Nat) :=
  if gdMrg d then mergePops a d
  else
    let l := (range 0 8).filter (tb (gdLbr d))
    if l.all (fun k => !(a.lb k).isEmpty) then some l else none

/-- The array may fire and take markers at all (R250, R252, R281, R394). -/
def arrayFree (s : State) (tid : Nat) : Bool :=
  let t := s.tile tid
  t.arrayRuns && t.preempt.isNone && !t.arr.commit && !t.arr.eotFull && !t.arr.dropped && !planeHold s tid

/-- Group g of the current plane may fire in cycle `now`; the link buffers it pops. -/
def fireable (s : State) (tid now g : Nat) : Option (OpPlane × RoutePlane × List Nat) :=
  let t := s.tile tid
  match t.arr.current with
  | none => none
  | some (p, r) =>
    let d := getAt p.groups g 0
    let ports := (range 0 16).filter (tb (gdInp d))
    if arrayFree s tid && gdEn d && NMap.findD t.arr.ready g 0 ≤ now
      && ports.all (fun n => pdEn (getAt r.inp n 0) && (t.inp n).buf.length ≥ pdVpf (getAt r.inp n 0))
      && (range 0 8).all (fun k => !tb (gdLbw d) k || lbRoom t.arr k ≥ 1)
      && (range 0 16).all (fun n => gdOvec d n ≤ outRoom t r n || gdOvec d n == 0)
    then (groupPops t.arr d).map (fun l => (p, r, l)) else none

/-- A port gives a firing its VPF vectors; the last of a slot moves TAKEN. -/
def latchPort (t : Tile) (r : RoutePlane) (n : Nat) : Tile :=
  let d := getAt r.inp n 0
  let p := t.inp n
  let k := p.latched + pdVpf d
  if k ≥ pdVps d then
    let t := match inRing t n with
      | some ring => t.setRing ring { t.ring ring with taken := ((t.ring ring).taken + 1) % 2 ^ 32 }
      | none => t
    t.setInp n InPort.reset
  else t.setInp n { p with buf := p.buf.drop (pdVpf d), latched := k }

/-- Group g fires. -/
def fireGroup (s : State) (tid now g : Nat) : State :=
  match fireable s tid now g with
  | none => s
  | some (p, r, pops) =>
    let t := s.tile tid
    let d := getAt p.groups g 0
    let ports := (range 0 16).filter (tb (gdInp d))
    let f : Firing := {
      grp := g, oslot := t.arr.cur, rslot := p.rslot, rver := p.rver, ovr := p.ver, start := now
      latch := ports.map (fun n => (n, (t.inp n).buf.take (pdVpf (getAt r.inp n 0))))
      slotOf := ports.map (fun n => (n, match inRing t n with | some ring => (t.ring ring).taken | none => 0))
      lbs := pops.map (fun k => (k, (lbFresh t.arr k).headD Vec.void))
      wrote := [], lbw := gdLbw d, odd := false }
    let t := ports.foldl (fun t n => latchPort t r n) t
    let s := (pops.flatMap (lbStale t.arr)).foldl (fun s _ => count s 20) s
    let a := pops.foldl (fun (a : Arr) k => a.setLb k ((lbFresh a k).drop 1)) t.arr
    progress (s.setTile tid { t with arr := { a with
      firings := a.firings ++ [f], ready := NMap.put a.ready g (now + gdIi d) } }) tid

/-- GROUP_FIRE: a group of the current plane fires in this domain cycle, if it may. -/
def execGroupFire (tile g : Nat) (s : State) : Out :=
  let now := domNow s tile
  .next (fireGroup (s.updTile tile (fun t => cleanFirings t now)) tile now (g % 8))

/-! ### Output ports (R243, R260, R375) -/

/-- Claim a slot for a port that has none open, if one can be claimed (R83). -/
def openOut (t : Tile) (n ring : Nat) : Tile :=
  if (t.outp n).opened || diff32 (t.ring ring).claimed (t.ring ring).released ≥ (t.ring ring).n then t
  else (t.setRing ring { t.ring ring with claimed := ((t.ring ring).claimed + 1) % 2 ^ 32 }).setOutp n
    { OutPort.reset with opened := true }

/-- Close a port's slot: side-band word 0 and the poison words, as the descriptor says that the port was written under (R243). -/
def closeOut (s : State) (tid n : Nat) (byToken : Bool) : State :=
  let t := s.tile tid
  match outRing t n with
  | none => s
  | some ring =>
    let r := t.ring ring
    let o := t.outp n
    let d := o.desc
    let hdr := if pdHdr d then o.words + b2n byToken * 2 ^ 17 + pdType d * 2 ^ 24 else slotHeader o.words 0 0 false
    let p := if pdHdr d then poisonWords (recBlocks hdr) else if o.words = 0 then 0 else poisonWords (cdiv r.bytes 128)
    let band := (natLe 4 hdr ++ natLe (4 * p) o.pois).take r.sideLen
    let s := if r.side = 0 then s else spaceWrite s tid r.spG (r.sideOff r.claimedSlot) band
    s.updTile tid (fun t => t.setOutp n { OutPort.reset with desc := d })

/-- Append words to a port under a descriptor, slot by slot. -/
def appendOut (s : State) (tid : Nat) (d : PortDesc) (n : Nat) : Nat → List (Nat × Bool) → State
  | 0, _ => s
  | fuel + 1, ws =>
    if ws.isEmpty then s
    else
      match outRing (s.tile tid) n with
      | none => s
      | some ring =>
        let s := s.updTile tid (fun t => openOut t n ring)
        let t := s.tile tid
        let r := t.ring ring
        let o := t.outp n
        if !o.opened then s else
        let room := 8 * pdVps d - o.words
        let now := ws.take room
        let s := spaceWrite s tid r.spG (r.slotOff r.claimedSlot + 4 * o.words) (now.flatMap (fun w => natLe 4 w.1))
        let pois := ((range 0 now.length).zip now).foldl (fun m p =>
          if p.2.2 then Nat.lor m (2 ^ (4 * (o.words + p.1) / 128)) else m) o.pois
        let o := { o with words := o.words + now.length, pois := pois, desc := d }
        let s := s.updTile tid (fun t => t.setOutp n o)
        let s := if o.words ≥ 8 * pdVps d then closeOut s tid n false else s
        appendOut s tid d n fuel (ws.drop room)

/-- Words that a write operator appends. -/
def outWords (whole : Bool) (v : Vec) : List (Nat × Bool) :=
  ((range 0 8).filter (fun i => whole || v.valid i)).map (fun i => (v.lane i, v.bad i))

/-- OUT pads to a vector boundary first. -/
def padWords (t : Tile) (n : Nat) : List (Nat × Bool) :=
  let o := t.outp n
  if o.opened then (range 0 ((8 - o.words % 8) % 8)).map (fun _ => (0, false)) else []

/-- OUTS: valid lanes go to side-band words of the current slot, within its side-band. DESIGN CHOICE: a port with no slot open and none
to claim takes nothing (notes/assumptions/78.md). -/
def outSide (s : State) (tid n at_ : Nat) (d : PortDesc) (v : Vec) : State :=
  match outRing (s.tile tid) n with
  | none => s
  | some ring =>
    let s := s.updTile tid (fun t => openOut t n ring)
    if !((s.tile tid).outp n).opened then s else
    let r := (s.tile tid).ring ring
    let s := (range 0 8).foldl (fun s i =>
      if v.valid i && at_ + i < r.side then
        spaceWrite s tid r.spG (r.sideOff r.claimedSlot + 4 * (at_ + i)) (natLe 4 (v.lane i)) else s) s
    s.updTile tid (fun t => t.setOutp n { t.outp n with outs := true, desc := d })

/-! ### Operators in their cycle (R241, R249, R260) -/

/-- Side-band words that SIDE reads. DESIGN CHOICE: words behind the ring's SIDE, or of a ring without one, are the bytes that lie there;
the spec gives them no fate (notes/assumptions/93.md). -/
def sideVec (s : State) (tid : Nat) (f : Firing) (port at_ : Nat) : Vec :=
  match inRing (s.tile tid) port with
  | none => Vec.zero
  | some ring =>
    let r := (s.tile tid).ring ring
    let off := r.sideOff (NMap.findD f.slotOf port 0) + 4 * at_
    Vec.of ((range 0 8).map (fun i =>
      (leNat (spaceBytes s tid r.spG (off + 4 * i) 4), true, spaceSpoiled s tid r.spG (off + 4 * i) 4)))

/-- A source of an operator (R246). -/
def sourceVec (a : Arr) (r : RoutePlane) (f : Firing) (now pe e : Nat) : Vec :=
  let v := r.entry pe e
  match fld v 12 4 with
  | 1 => regAt a (fld v 3 5) (fld v 0 3) now (1 + hops pe (fld v 3 5))
  | 2 => getAt (NMap.findD f.latch (fld v 0 4) []) (fld v 4 3) Vec.void
  | 3 => NMap.findD f.lbs (fld v 0 3) Vec.void
  | _ => Vec.zero

/-- A source that is a register discards what it holds if its copies are gone. -/
def discardSource (s : State) (tid : Nat) (r : RoutePlane) (now pe e : Nat) : State :=
  let v := r.entry pe e
  if fld v 12 4 = 1 then discardReg s tid (fld v 3 5) (fld v 0 3) now (1 + hops pe (fld v 3 5)) else s

/-- Change the k-th firing. -/
def updFiring (t : Tile) (k : Nat) (g : Firing → Firing) : Tile :=
  { t with arr := { t.arr with firings := (t.arr.firings.zip (range 0 t.arr.firings.length)).map (fun p =>
      if p.2 = k then g p.1 else p.1) } }

/-- A firing writes one more vector to a port; true if that passes OVEC (R394). -/
def noteWrite (s : State) (tid k n ovec : Nat) : State × Bool :=
  let t := s.tile tid
  let c := match t.arr.firings[k]? with | some f => NMap.findD f.wrote n 0 + 1 | none => 0
  (s.setTile tid (updFiring t k (fun f => { f with wrote := NMap.put f.wrote n c })), c > ovec)

/-- Firing n of the tile pushes a vector on a link buffer unless it is void, under its stamp; the place it reserved there is taken
(R252). -/
def pushLb (s : State) (tid n : Nat) (f : Firing) (k : Nat) (v : Vec) : State :=
  if v.vld = 0 then s
  else s.updTile tid (fun t =>
    let t := updFiring t n (fun f => { f with lbw := setFld f.lbw k 1 0 })
    { t with arr := t.arr.setLb k (t.arr.lb k ++ [{ v with rver := f.rver, ovr := f.ovr }]) })

/-- Lanes of A that STEER sends to one of its two buffers. -/
def steerLanes (a p : Vec) (first : Bool) : Vec :=
  Vec.of ((range 0 8).map (fun i => (a.lane i, a.valid i && ((p.lane i != 0) == first), a.bad i || p.bad i)))

/-- The control vector of STEER. -/
def steerCtl (a p : Vec) : Vec :=
  Vec.of ((range 0 8).map (fun i => (b2n (p.lane i != 0), a.valid i, p.bad i)))

/-- Key of an operator of the array among the mismatches: its opcode slot, PE, group and cycle (R372). -/
def replayKey (oslot pe grp cyc : Nat) : Nat := 1 + 2 * cyc + 2 ^ 8 * grp + 2 ^ 16 * pe + 2 ^ 24 * oslot

/-- An operator issues: one that issues a second time since its last mismatch had none in between, and its count starts again (R372). -/
def noteIssue (a : Arr) (oslot : Nat) (o : OpWord) : Arr :=
  let k := replayKey oslot o.pe (opGrp o.word) (opCyc o.word)
  match NMap.find? a.replays k with
  | none => a
  | some n => { a with replays := if n % 2 = 0 then NMap.put a.replays k (n + 1) else NMap.erase a.replays k }

/-- One operator of firing k issues; true if the firing breaks OVEC. -/
def issueOp (s : State) (tid now k : Nat) (f : Firing) (p : OpPlane) (r : RoutePlane) (o : OpWord) : State × Bool :=
  let w := o.word
  let c := opOpc w
  let imm := opImm w
  let s := (range 0 (opReads c (opFn w))).foldl (fun s i => discardSource s tid r now o.pe (opSrc w i)) s
  let s := if (s.tile tid).arr.replays.isEmpty then s else s.updTile tid (fun t => { t with arr := noteIssue t.arr f.oslot o })
  let arr := (s.tile tid).arr
  let src (i : Nat) : Vec := sourceVec arr r f now o.pe (opSrc w i)
  let d := getAt p.groups f.grp 0
  if opResult c then
    let side := if c = 0x53 then sideVec s tid f (imm % 16) (imm / 16) else Vec.void
    let out := evalOp w (src 0) (src 1) (src 2) side ((s.tile tid).gen o.pe)
    let s := if rmOf (opRm w) = .sr && opRounds c then s.updTile tid (fun t => t.setGen o.pe out.gen) else s
    let s := if out.odd && !(((s.tile tid).arr.firings[k]?).map Firing.odd).getD true then
        countRec (s.updTile tid (fun t => updFiring t k (fun f => { f with odd := true }))) (ErrRec.ofTile s 19 1 tid 0 (natLe 1 2))
      else s
    if opWd w then
      let v := { out.res with rver := f.rver, ovr := f.ovr }
      let put : RegWrite := { fin := now + opLatency c - 1, issued := now, vec := v, gone := false }
      (s.updTile tid (fun t => { t with arr := t.arr.setReg o.pe (opDst w) put }), false)
    else (s, false)
  else match c with
    | 0x48 =>
      let a := src 0
      let q := src 1
      let s := pushLb s tid k f (fld imm 0 3) (steerLanes a q true)
      let s := pushLb s tid k f (fld imm 3 3) (steerLanes a q false)
      (pushLb s tid k f (fld imm 6 3) (steerCtl a q), false)
    | 0x4A => (pushLb s tid k f (imm % 8) (src 0), false)
    | 0x50 =>
      let v := src 0
      if v.vld = 0 then (s, false)
      else
        let (s, past) := noteWrite s tid k (imm % 16) (gdOvec d (imm % 16))
        if past then (s, true)
        else (appendOut s tid (getAt r.out (imm % 16) 0) (imm % 16) 20 (padWords (s.tile tid) (imm % 16) ++ outWords true v), false)
    | 0x51 =>
      let v := src 0
      if v.vld = 0 then (s, false)
      else
        let (s, past) := noteWrite s tid k (imm % 16) (gdOvec d (imm % 16))
        if past then (s, true) else (appendOut s tid (getAt r.out (imm % 16) 0) (imm % 16) 20 (outWords false v), false)
    | 0x52 => (if (src 0).vld = 0 then s else outSide s tid (imm % 16) (imm / 16) (getAt r.out (imm % 16) 0) (src 0), false)
    | 0x54 =>
      let go := tb (opFn w) 0 || ((src 0).valid 0 && (src 0).lane 0 != 0)
      (if go then s.updTile tid (fun t => { t with arr := { t.arr with commit := true } }) else s, false)
    | _ => (s, false)

/-- Operators of cycle `now`: PE, position of the firing, word. -/
def opsOfCycle (a : Arr) (now : Nat) : List (Nat × OpWord) :=
  let per (k : Nat) (f : Firing) : List (Nat × OpWord) :=
    match NMap.find? a.opps f.oslot with
    | some p => (p.ops.filter (fun o => opGrp o.word == f.grp && f.start + opCyc o.word == now)).map (fun o => (k, o))
    | none => []
  let all := (a.firings.zip (range 0 a.firings.length)).flatMap (fun q => per q.2 q.1)
  (range 0 32).flatMap (fun pe => all.filter (fun x => x.2.pe == pe))

/-- Issue operators in turn; a breach of OVEC drops the array and raises ARRAY SUB 1 (R394). DESIGN CHOICE: operators of two groups that
fall on one PE in one cycle all issue; R239 rules that out and gives it no fate (notes/assumptions/91.md). -/
def issueAll (s : State) (tid now : Nat) : List (Nat × OpWord) → State
  | [] => s
  | (k, o) :: l =>
    let a := (s.tile tid).arr
    match a.firings[k]? with
    | none => s
    | some f =>
      match NMap.find? a.opps f.oslot, NMap.find? a.routes f.rslot with
      | some p, some r =>
        match issueOp s tid now k f p r o with
        | (s, true) =>
          raiseArray ((dropArray s tid).updTile tid (fun t => { t with arr := { t.arr with dropped := true } })) tid 1
        | (s, false) => issueAll s tid now l
      | _, _ => issueAll s tid now l

/-- A firing of this cycle latched the last vector of a record with COMMIT on a port with CFOL (R262). -/
def followsCommit (s : State) (tid now : Nat) : Bool :=
  let t := s.tile tid
  t.arr.firings.any (fun f => f.start == now && match NMap.find? t.arr.routes f.rslot with
    | none => false
    | some r => f.slotOf.any (fun q =>
        let d := getAt r.inp q.1 0
        match inRing t q.1 with
        | some ring => pdFlag d && pdHdr d && (t.ring ring).taken != q.2 && tb (slotWord0 s tid (t.ring ring) q.2) 17
        | none => false))

/-! ### Commit tokens (R140, R262, R263) -/

/-- Nothing of a firing is still to come. -/
def arrayQuiet (a : Arr) (now : Nat) : Bool := !a.firings.any (alive a now) && a.regs.all (fun p => p.2.all (fun w => w.fin < now))

/-- COMMIT in the last record of a port's log (R140). -/
def markLast (s : State) (tid : Nat) (d : PortDesc) (r : Ring) : State :=
  if pdHdr d && r.claimed != r.filled && r.side != 0 then
    let off := r.sideOff r.claimedSlot
    spaceWrite s tid r.spG off (natLe 4 (setFld (leNat (spaceBytes s tid r.spG off 4)) 17 1 1))
  else s

/-- An output port publishes its log. -/
def publishPort (tid : Nat) (s : State) (n : Nat) : State :=
  let t := s.tile tid
  match outRing t n with
  | none => s
  | some ring =>
    let o := t.outp n
    let s := if o.opened && (o.words > 0 || o.outs) then closeOut s tid n true else s
    let s := markLast s tid o.desc ((s.tile tid).ring ring)
    updRing s tid ring (fun r => { r with filled := r.claimed })

/-- An input port gives back what has been latched. -/
def releasePort (tid : Nat) (s : State) (n : Nat) : State :=
  let t := s.tile tid
  match inRing t n with
  | none => s
  | some ring =>
    let partly := (t.inp n).latched > 0
    let s := if partly then (takeSlot s tid ring).updTile tid (fun t => t.setInp n InPort.reset) else s
    let r := (s.tile tid).ring ring
    let s := emptySlots s tid r r.released (diff32 r.taken r.released)
    updRing s tid ring (fun r => { r with released := r.taken })

/-- The commit token acts, in cycle `now`. -/
def commitStep (s : State) (tid now : Nat) : State :=
  let s := (range 0 16).foldl (publishPort tid) s
  let s := (range 0 16).foldl (releasePort tid) s
  s.updTile tid (fun t => { t with arr := { t.arr with
    firings := [], regs := [], lbs := [], commit := false, eotKept := (t.arr.eotc, t.arr.eotFull)
    replays := t.arr.replays.filter (fun p => p.1 % 2 = 0)
    ready := (range 0 8).map (fun g => (g, max (NMap.findD t.arr.ready g 0) (now + 1))) } })

/-- COMMIT_TOKEN: the token is issued once no firing is in flight and every write has landed. -/
def execCommitToken (tile : Nat) (s : State) : Out :=
  let t := s.tile tile
  let now := domNow s tile
  .next (if t.started && !t.halted && t.arr.commit && arrayQuiet t.arr now then commitStep s tile now else s)

/-! ### End-of-tile markers (R264) -/

/-- A port may take a marker in cycle `now`. -/
def markerReady (s : State) (tid now n : Nat) : Bool :=
  let t := s.tile tid
  match t.arr.current, inRing t n with
  | some (_, r), some ring =>
    let d := getAt r.inp n 0
    arrayFree s tid && !t.arr.firings.any (alive t.arr now) && pdEn d && (t.inp n).latched == 0 && markerAt s tid d (t.ring ring)
      && (range 0 8).all (fun g => NMap.findD t.arr.ready g 0 ≤ now || t.arr.firings.isEmpty)
  | _, _ => false

/-- Take the marker at a port's head. -/
def takeMarker (s : State) (tid n : Nat) : State :=
  let t := s.tile tid
  match t.arr.current, inRing t n with
  | some (p, _), some ring =>
    let c := if p.eotn = 0 then 0 else t.arr.eotc + 1
    let t := t.setInp n InPort.reset
    takeSlot (s.setTile tid { t with arr := { t.arr with
      eotc := c, eotFull := p.eotn != 0 && c ≥ p.eotn, commit := true } }) tid ring
  | _, _ => s

/-- MARKER_TAKE. -/
def execMarkerTake (tile port : Nat) (s : State) : Out :=
  .next (if markerReady s tile (domNow s tile) port then takeMarker s tile port else s)

/-- Ports that emit markers. -/
def emitPorts (r : RoutePlane) : List Nat := (range 0 16).filter (fun n => pdEn (getAt r.out n 0) && pdFlag (getAt r.out n 0))

/-- Every such port can claim a slot beside the one it closes. -/
def canEmit (t : Tile) (r : RoutePlane) : Bool :=
  (emitPorts r).all (fun n => match outRing t n with
    | some ring => diff32 (t.ring ring).claimed (t.ring ring).released < (t.ring ring).n
    | none => false)

/-- One port closes its slot and writes a marker slot. -/
def emitOne (r : RoutePlane) (tid : Nat) (s : State) (n : Nat) : State :=
  let s := if ((s.tile tid).outp n).opened then closeOut s tid n false else s
  match outRing (s.tile tid) n with
  | none => s
  | some ring =>
    let s := s.updTile tid (fun t => openOut t n ring)
    let g := (s.tile tid).ring ring
    let d := getAt r.out n 0
    let hdr := if pdHdr d then 0x10000 + pdType d * 2 ^ 24 else 0
    let s := if g.side = 0 then s else spaceWrite s tid g.spG (g.sideOff g.claimedSlot) (natLe 4 hdr)
    s.updTile tid (fun t => t.setOutp n { OutPort.reset with desc := d })

/-- The array emits its markers once the count is full and every port can claim a slot; a commit token publishes them. -/
def emitStep (s : State) (tid : Nat) : State :=
  let t := s.tile tid
  match t.arr.current with
  | some (_, r) =>
    if t.arrayRuns && t.preempt.isNone && t.arr.eotFull && !t.arr.dropped && canEmit t r then
      let s := (emitPorts r).foldl (emitOne r tid) s
      s.updTile tid (fun t => { t with arr := { t.arr with eotc := 0, eotFull := false, commit := true } })
    else s
  | none => s

/-- MARKER_EMIT. -/
def execMarkerEmit (tile : Nat) (s : State) : Out := .next (emitStep s tile)

/-! ### One delivered cycle of the array -/

/-- Decisions of cycle `now`: the token that is due, else markers, else firings in ascending group. -/
def decideCycle (s : State) (tid now : Nat) : State :=
  let s := s.updTile tid (fun t => cleanFirings t now)
  let a := (s.tile tid).arr
  if a.commit && arrayQuiet a now then commitStep s tid now
  else
    let s := match (range 0 16).find? (markerReady s tid now) with
      | some n => takeMarker s tid n
      | none => (range 0 8).foldl (fun s g => fireGroup s tid now g) s
    emitStep s tid

/-- Operators of the cycle issue, and the ports prefetch. -/
def runCycle (s : State) (tid now : Nat) : State :=
  let s := issueAll s tid now (opsOfCycle (s.tile tid).arr now)
  let s := if followsCommit s tid now then s.updTile tid (fun t => { t with arr := { t.arr with commit := true } }) else s
  (range 0 16).foldl (fun s n => (prefetchStep s tid n).getD s) s

/-- The array's part of a delivered cycle. -/
def arrayCycle (s : State) (tid now : Nat) : State :=
  let t := s.tile tid
  if !t.arrayRuns || (t.arr.opps.isEmpty && t.arr.swap.isNone) then s
  else runCycle (decideCycle (switchStep s tid now) tid now) tid now

end Sys2Proof.Machine
end

