-- ==== Sys2Proof/Machine/Sync.lean ====
section
/-! DEFINITION. Instructions of the Y engine: atomics, barriers, tokens, counters, walker requests, and saving synchronisation state
(R287 to R301, R311, R312). -/

namespace Sys2Proof.Machine

/-! ### Atomics (R289 to R291) -/

/-- The new value of an atomic on n-byte operands. -/
def amoNew (op : AmoOp) (n : Nat) (old src : Nat) : Nat :=
  let o : BitVec (8 * n) := BitVec.ofNat (8 * n) old
  let x : BitVec (8 * n) := BitVec.ofNat (8 * n) src
  match op with
  | .swap => x.toNat
  | .add => (o + x).toNat
  | .and => (o &&& x).toNat
  | .or => (o ||| x).toNat
  | .xor => (o ^^^ x).toNat
  | .min => (if x.slt o then x else o).toNat
  | .max => (if o.slt x then x else o).toNat
  | .minu => (if x.ult o then x else o).toNat
  | .maxu => (if o.ult x then x else o).toNat
  | .cas => x.toNat
  | .fadd => fadd32 old (src % 2 ^ 32)

/-- An atomic step at a location of this package: the state and the old value. -/
def amoStep (s : State) (ident k n : Nat) (op : AmoOp) (src cmp : Word) : State × Nat :=
  let old := leNat (readRun s ident k n)
  if op == .cas && old != cmp.toNat % 2 ^ (8 * n) then (s, old)
  else (writeRun s ident k (natLe n (amoNew op n old src.toNat)), old)

def ordAcq : AmoOrd → Bool
  | .acq | .acqrel => true
  | _ => false
def ordRel : AmoOrd → Bool
  | .rel | .acqrel => true
  | _ => false

/-- OPA that a host page serves (R291). -/
def hostServes : AmoOp → Bool
  | .add | .swap | .cas => true
  | _ => false

/-- REMOTE for an instruction of an engine (R444): device number, SUB. The host is bit 10 of INFO. -/
def raiseRemote (s : State) (tid : Nat) (g : Eng) (sub info : Nat) : State :=
  raiseImprecise s tid { code := 0x14, sub := sub, eng := g, impr := true, slot := none, info := info } (!(s.tile tid).sys)

/-- An atomic at its home: it completes, raises, or sends a request to another agent. -/
def amoAt (s : State) (tid : Nat) (g : Eng) (tk : Tk) (srcs : List Reg) (d : Reg) (p : Phys) (n : Nat) (op : AmoOp)
    (src cmp : Word) (acq : Bool) : State :=
  match p with
  | .mem k ident =>
    let (s', old) := amoStep (noteSpoiled s tid k n) ident k n op src cmp
    finishS s' tid g tk srcs (Result.value (some d) (sext (wd old) (8 * n))) true
  | .host pa =>
    if !hostServes op then raiseOperand s tid g 0x0D
    else if !hostUp s then raiseRemote (count s 15) tid g 1 1024
    else
      let (s, no) := newRemote s { Remote.base tid g pa n with isAtomic := true, op := op, src := src, cmp := cmp }
      s.setTile tid (startWait (s.tile tid) g tk srcs (.remote no n false acq d))
  | .peer dev pa key =>
    if op == .fadd then raiseOperand s tid g 0x0D
    else match portFor s dev (fld pa 8 10) with
      | none => raiseRemote (countRec s (ErrRec.ofTile s 13 1 tid pa [])) tid g 1 dev
      | some port =>
        let (s, no) := newRemote s
          { Remote.base tid g pa n with
            host := false, dev := dev, isAtomic := true, op := op, src := src, cmp := if op == .cas then cmp else 0, port := port,
            key := key }
        s.setTile tid (startWait (s.tile tid) g tk srcs (.remote no n false acq d))

/-- Offset, ordering and scope of an atomic without or with its extension. -/
def amoOff (e : Option AmoExt) : BitVec 24 := (e.map AmoExt.off).getD 0
def amoOrdOf (e : Option AmoExt) : AmoOrd := (e.map AmoExt.ord).getD .plain

/-- An atomic of any space. -/
def amoOp (s : State) (sp : Space) (tk : Tk) (d s1 s2 : Reg) (op : AmoOp) (dbl : Bool) (ext : Option AmoExt) : Out :=
  let (tid, g) := s.cur
  let srcs := if op == .cas then [s1, s2, d] else [s1, s2]
  let n := if dbl then 8 else 4
  let ord := amoOrdOf ext
  let a := alignDown (val s s1 + (amoOff ext).signExtend 64) n
  let e := (s.tile tid).eng g
  if !ready s tk srcs (some d) || accHeld e || (ordRel ord && relHeld s tid g) || peerHeld s tid sp a then .next s
  else
    match locate s (whoOf s tid g) sp a .atomic with
    | (s', .oob) => endNow s s' tk srcs (Result.value (some d) 0)
    | (s, .noUnit) => .next (raiseOperand s tid g 0x0C)
    | (s, .xlate sub info) => .next (raiseXlate s tid g sub info)
    | (s, .at_ p) => .next (if clashes s tid g p n then s else amoAt s tid g tk srcs d p n op (val s s2) (val s d) (ordAcq ord))

def execAmoT (tk : Tk) (d s1 s2 : Reg) (op : AmoOp) (dbl : Bool) (ext : Option AmoExt) (s : State) : Out :=
  amoOp s .t tk d s1 s2 op dbl ext

def execAmoP (tk : Tk) (d s1 s2 : Reg) (op : AmoOp) (dbl : Bool) (ext : Option AmoExt) (s : State) : Out :=
  amoOp s .p tk d s1 s2 op dbl ext

def execAmoG (tk : Tk) (d s1 s2 : Reg) (op : AmoOp) (dbl : Bool) (ext : Option AmoExt) (s : State) : Out :=
  amoOp s .g tk d s1 s2 op dbl ext

def execAmoY (tk : Tk) (d s1 s2 : Reg) (op : AmoOp) (dbl : Bool) (ext : Option AmoExt) (s : State) : Out :=
  amoOp s .y tk d s1 s2 op dbl ext

def execAmoD (tk : Tk) (d s1 s2 : Reg) (op : AmoOp) (dbl : Bool) (ext : AmoExt) (s : State) : Out :=
  amoOp s .d tk d s1 s2 op dbl (some ext)

/-! ### Barriers (R292, R293) -/

/-- Local phase of a barrier. -/
def Tile.phase (t : Tile) (b : Nat) : Nat := NMap.findD t.ph b 0

/-- An ARRIVE at the controller; none if it is two phases ahead. -/
def Bar.take (b : Bar) (peer mask h : Nat) : Option Bar :=
  if h = b.p then
    some { b with opened := true, mask := if b.opened then b.mask else mask, arr := Nat.lor b.arr (2 ^ peer) }
  else if h = (b.p + 1) % 256 then some { b with early := Nat.lor b.early (2 ^ peer), nmask := mask }
  else none

/-- Deliver an ARRIVE of a tile: the controller takes it and the local phase advances; none while it is held. -/
def deliverArrive (s : State) (tid b mask : Nat) : Option State :=
  let gid := groupOf tid
  let g := s.group gid
  let h := (s.tile tid).phase b
  ((g.bar b).take (peerOf tid) mask h).map (fun v =>
    let s := s.setGroup gid { g with bars := NMap.put g.bars b v }
    settleBars (s.updTile tid (fun t => { t with ph := NMap.put t.ph b ((h + 1) % 256) })) gid)

/-- Mask of participants; 0 names all sixteen. -/
def arriveMask (v : Word) : Nat := if wfld v 0 16 = 0 then 0xFFFF else wfld v 0 16

/-- ARRIVE: a release at GROUP scope. -/
def execArrive (tk : Tk) (src : Fin 32) (bar : Fin 8) (s : State) : Out :=
  let (tid, g) := s.cur
  let srcs := [Reg.r src]
  let mask := arriveMask (val s (.r src))
  if !ready s tk srcs none || accPending ((s.tile tid).eng g) then .next s
  else
    match deliverArrive s tid bar.val mask with
    | some s => .next (finishS s tid g tk srcs (Result.value none 0) true)
    | none =>
      .next (s.setTile tid (startWait (s.tile tid) g tk srcs (.arrive bar.val mask ((s.tile tid).phase bar.val))))

/-- The phase in which the tile last arrived is complete. -/
def phaseOver (s : State) (tid b : Nat) : Bool :=
  (((s.group (groupOf tid)).bar b).p + 256 - (s.tile tid).phase b % 256) % 256 ≤ 1

/-- WAIT: an acquire at GROUP scope. -/
def execWait (tk : Tk) (bar : Fin 8) (s : State) : Out :=
  let (tid, g) := s.cur
  if !ready s tk [] none then .next s
  else if phaseOver s tid bar.val then done s tk [] (Result.value none 0) false
  else .next (s.setTile tid (startWait (s.tile tid) g tk [] (.barrier bar.val)))

/-! ### Tokens (R294, R295) -/

/-- Two tiles lie in one instance of a scope (R5). -/
def sharesScope (sc : Scope) (a b : Nat) : Bool :=
  match sc with
  | .tile => a == b
  | .group => groupOf a == groupOf b
  | .yard => dieOf a == dieOf b
  | .device => true
  | .system => true

/-- The tile that a token reaches in this package; none if the region is not placed or the coordinate lies outside it. -/
def tokenTile (s : State) (rid col row : Nat) : Option Nat :=
  match s.region? rid with
  | none => none
  | some r =>
    if r.st != .saved && col < r.cols && row < 4 * r.lrec.height then some (tileAt s r.px r.py col row) else none

/-- The add of a token at its mailbox word (R294); a poisoned word reads as zero, is counted and logged (R374). -/
def tokenAdd (s : State) (tid off inc : Nat) : State :=
  let k := tspKey tid (4 * off % 2 ^ tspLog s tid)
  let s := noteSpoiled s tid k 4
  writeRun s 0 k (natLe 4 (leNat (readRun s 0 k 4) + inc))

/-- A token at its tile: added, or held at the router of a tile that has not started (R35, R294). -/
def addToken (s : State) (tid off inc : Nat) : State :=
  if (s.tile tid).started then tokenAdd s tid off inc
  else s.updTile tid (fun t => { t with heldTok := t.heldTok ++ [(off, inc)] })

/-- The tokens that a starting tile's router has held are added (R35). -/
def freeTokens (s : State) (tid : Nat) : State :=
  let l := (s.tile tid).heldTok
  l.foldl (fun s p => tokenAdd s tid p.1 p.2) (s.updTile tid (fun t => { t with heldTok := [] }))

/-- A token whose sender checks its accesses and whose word lies outside the target's allocation is dropped with an offence (R424).
DEDUCED: the offence names space T (notes/assumptions/30.md). -/
def sendToken (s : State) (w : Who) (tid off inc : Nat) : State :=
  if w.check && 4 * off ≥ 2 ^ tspLog s tid then noteOffence s w 0 true (wd (4 * off)) else addToken s tid off inc

/-- A token that no tile takes is dropped and counted (R395). -/
def dropToken (s : State) (src : Nat) : State := countRec s { ErrRec.base s 30 1 with src := src }

/-- What a TSEND names. -/
structure TokenAim where
  far : Bool
  rid : Nat
  dev : Nat
  col : Nat
  row : Nat
  off : Nat
  deriving DecidableEq, Repr

/-- The aim of a TSEND from its operands. -/
def tokenAim (s : State) (tid : Nat) (tgt : Word) (far : Option Word) : TokenAim :=
  { far := far.isSome
    rid := match far with | some f => wfld f 0 12 | none => (s.tile tid).rgn.getD 0
    dev := match far with | some f => wfld f 12 10 | none => devNo s
    col := wfld tgt 0 5, row := wfld tgt 5 5, off := wfld tgt 10 18 }

/-- What R391 checks of a TSEND at issue. -/
def tokenBad (s : State) (tid : Nat) (tgt : Word) (far : Option Word) (sc : Scope) : Bool :=
  let a := tokenAim s tid tgt far
  wfld tgt 28 36 != 0 || ((far.map (fun f => wfld f 22 42)).getD 0) != 0
    || (if a.dev != devNo s then sc != .system
        else match tokenTile s a.rid a.col a.row with
          | some u => !sharesScope sc tid u
          | none => !a.far)

/-- Code of a scope. -/
def scopeNum : Scope → Nat
  | .tile => 0 | .group => 1 | .yard => 2 | .device => 3 | .system => 4

/-- A token arrives at its tile, whose word may be refused (R424), or finds no tile (R395). -/
def tokenCame (s : State) (tid : Nat) (g : Eng) (u : Option Nat) (off inc : Nat) : State :=
  match u with
  | some u => sendToken s (whoOf s tid g) u off inc
  | none => dropToken s (agentOf s tid)

/-- What becomes of a token that a router of this package holds until its tile starts: none while it is held, and while the region is
saved (R35, R294). -/
def heldToken (s : State) (rid col row : Nat) : Option (Option Nat) :=
  match s.region? rid, tokenTile s rid col row with
  | none, _ => some none
  | some _, none => none
  | some _, some u => if (s.tile u).started then some (some u) else none

/-- The message of a TSEND to another package. -/
def tokenMsg (s : State) (a : TokenAim) (tgt : Word) (inc : Nat) (sc : Scope) : UalMsg :=
  { UalMsg.base s 0 with ttgt := wfld tgt 0 28, trgn := a.rid, tinc := inc, tsco := scopeNum sc }

/-- TSEND: waits for the command it rides behind and for the engine's accesses, adds, and retires (R294). A token for a tile that has not
started is held at its router, and the TSEND does not retire until it is added (R35); one to another package waits while its port has
2^18 lines outstanding (R349). -/
def execTsend (tk : Tk) (tgt far : Reg) (inc : BitVec 3) (borne : Bool) (slot : Fin 16) (sc : Scope) (s : State) : Out :=
  let (tid, g) := s.cur
  let srcs := [tgt, far]
  let t := val s tgt
  let f := if far = .ro .zero then none else some (val s far)
  let a := tokenAim s tid t f
  if !ready s tk srcs none then .next s
  else if tokenBad s tid t f sc then .next (raiseOperand s tid g 0x08)
  else if (borne && ((s.tile tid).slot slot.val).act) || relHeld s tid g then .next s
  else if a.dev = devNo s then
    let u := tokenTile s a.rid a.col a.row
    if u.all (fun u => (s.tile u).started) then
      .next (finishS (tokenCame s tid g u a.off (inc.toNat + 1)) tid g tk srcs (Result.value none 0) true)
    else .next (s.setTile tid (startWait (s.tile tid) g tk srcs (.token a.rid a.col a.row a.off (inc.toNat + 1))))
  else if windowFull s 3 a.dev (a.col + 32 * a.row) (tokenMsg s a t inc.toNat sc) then .next s
  else
    match sendAs s 3 a.dev (a.col + 32 * a.row) (tokenMsg s a t inc.toNat sc)
        { Remote.base tid g 0 0 with isAtomic := true, op := .swap } with
    | none => .next (raiseRemote (countRec s (ErrRec.ofTile s 13 1 tid 0 [])) tid g 1 a.dev)
    | some (s, no) =>
      .next (s.setTile tid (startWait (s.tile tid) g tk srcs (.remote no 0 true false (.r 0))))

/-- TRECV at its bank: the word and the state after the subtraction; none while the word is below the count, as a poisoned word
always is (R295, R374). -/
def takeTokens (s : State) (tid off c : Nat) : Option (State × Nat) :=
  let k := tspKey tid (off % 2 ^ tspLog s tid)
  let v := leNat (readRun s 0 k 4)
  if c ≤ v then some (writeRun s 0 k (natLe 4 (v - c)), v - c) else none

/-- The sender that a TRECV names, if SV = 1 and its coordinate lies in the region (R295, R395). -/
def senderTile (s : State) (tid : Nat) (v : Word) : Option Nat :=
  if v.getLsbD 28 then tokenTile s ((s.tile tid).rgn.getD 0) (wfld v 18 5) (wfld v 23 5) else none

/-- TRECV: an acquire at its scope. It takes its tokens when it can retire (R288). -/
def execTrecv (tk : Tk) (d s1 : Reg) (c : BitVec 8) (_sc : Scope) (s : State) : Out :=
  let (tid, g) := s.cur
  let v := val s s1
  let off := wfld v 0 18
  if !ready s tk [s1] (some d) || accHeld ((s.tile tid).eng g) then .next s
  else if wfld v 29 35 != 0 || wfld v 0 2 != 0 then .next (raiseOperand s tid g 0x08)
  else
    match locate s (whoOf s tid g) .t (wd off) .atomic with
    | (s', .oob) => endNow s s' tk [s1] (Result.value (some d) 0)
    | (s', _) =>
      let s' := noteSpoiled s' tid (tspKey tid (off % 2 ^ tspLog s tid)) 4
      match takeTokens s' tid off c.toNat with
      | some (t, left) => endNow s t tk [s1] (Result.value (some d) (wd left))
      | none => .next (s'.setTile tid (startWait (s'.tile tid) g tk [s1] (.trecv off c.toNat (senderTile s tid v) d)))

def Wait.isTrecv : Wait → Bool
  | .trecv .. => true
  | _ => false

/-- TRECV_SATISFIED: the waiting TRECV finds its count and can retire: it takes it and retires. -/
def execTrecvSatisfied (tid : Nat) (s : State) : Out :=
  match flightAt (s.tile tid) .y Wait.isTrecv with
  | some (k, .trecv off c _ d) =>
    match takeTokens s tid off c with
    | some (t, left) =>
      let r := Result.value (some d) (wd left)
      .next (if completes (s.tile tid) .y k r then completeS t tid .y k r false else s)
    | none => .next s
  | _ => .next s

/-! ### Completion counters (R297) -/

/-- CADD: an atomic add at the counter's home, a release. -/
def execCadd (tk : Tk) (d s1 s2 : Reg) (_sc : Scope) (sp : CntSp) (s : State) : Out :=
  let (tid, g) := s.cur
  let srcs := [s1, s2]
  let e := (s.tile tid).eng g
  if !ready s tk srcs (some d) || accHeld e || relHeld s tid g then .next s
  else
    match locate s (whoOf s tid g) (cntSpace sp) (alignDown (val s s1) 8) .atomic with
    | (s', .oob) => endNow s s' tk srcs (Result.value (some d) 0)
    | (s, .noUnit) => .next (raiseOperand s tid g 0x0C)
    | (s, .xlate sub info) => .next (raiseXlate s tid g sub info)
    | (s, .at_ p) => .next (if clashes s tid g p 8 then s else amoAt s tid g tk srcs d p 8 .add (val s s2) 0 false)

/-- What a CWAIT reads: the value, a value that returns at once, or a request, or a fault. -/
def cwaitRead (s : State) (tid : Nat) (g : Eng) (sp : CntSp) (a : Word) : State × Loc :=
  locate s (whoOf s tid g) (cntSpace sp) a .read

/-- The tile's request for a peer's counter that is on its way. -/
def counterAsked (s : State) (tid dev pa : Nat) : Bool :=
  s.remotes.any (fun q => let r := q.2
    r.tile == tid && r.eng == .y && !r.host && !r.isAtomic && !r.isWrite && r.dev == dev && r.pa == pa)

/-- The counter's value as the package reads it now: zero where no path leads to it (R443, R444). A peer's counter is asked for, and its
value comes with the completion: none. -/
def counterValue (s : State) (tid : Nat) (p : Phys) : State × Option Word :=
  match p with
  | .mem k ident => (noteSpoiled s tid k 8, some (readNum s ident k 8))
  | .host pa =>
    let (s, bs, _) := hostRead s pa 8 (ErrRec.ofTile s 15 1 tid pa [])
    (s, some (wd (leNat bs)))
  | .peer dev pa key =>
    if counterAsked s tid dev pa then (s, none)
    else
      match portFor s dev (fld pa 8 10) with
      | none => (lostPath s tid pa, some 0)
      | some port => ((newRemote s { Remote.base tid .y pa 8 with host := false, dev := dev, port := port, key := key }).1, none)

/-- The value, if the counter has reached its target. -/
def reached (v : Option Word) (target : Word) : Option Word := v.filter (fun v => target ≤ v)

/-- CWAIT retires on the first value at least its target; an acquire. It does not read the counter while an older request of its engine to
it is unanswered (R107, R108); younger accesses wait for it, so that none is sent before it reads again. -/
def execCwait (tk : Tk) (d s1 s2 : Reg) (_sc : Scope) (sp : CntSp) (s : State) : Out :=
  let (tid, g) := s.cur
  let srcs := [s1, s2]
  let a := alignDown (val s s1) 8
  let target := val s s2
  if !ready s tk srcs (some d) || accHeld ((s.tile tid).eng g) then .next s
  else
    match cwaitRead s tid g sp a with
    | (s', .oob) => endNow s s' tk srcs (Result.value (some d) 0)
    | (s, .noUnit) => .next (raiseOperand s tid g 0x0C)
    | (s, .xlate sub info) => .next (raiseXlate s tid g sub info)
    | (s, .at_ p) =>
      if clashes s tid g p 8 then .next s
      else
        let (s, v) := counterValue s tid p
        match reached v target with
        | some v => .next (finishS s tid g tk srcs (Result.value (some d) v) false)
        | none => .next (s.setTile tid (startWait (s.tile tid) g tk srcs (.cwait sp a.toNat target d)))

def Wait.isCwait : Wait → Bool
  | .cwait .. => true
  | _ => false

/-- The wait is a CWAIT's on a counter of a peer. -/
def waitsFor (s : State) (tid dev pa : Nat) (w : Wait) : Bool :=
  match w with
  | .cwait sp a _ _ => match (cwaitRead s tid .y sp (wd a)).2 with | .at_ (.peer d p _) => d == dev && p == pa | _ => false
  | _ => false

/-- A peer's counter arrives: the CWAIT that waits for it retires, or asks again at the next CWAIT_SATISFIED (R297). -/
def counterCame (s : State) (tid dev pa : Nat) (v : Word) : State :=
  match flightAt (s.tile tid) .y (waitsFor s tid dev pa) with
  | some (k, .cwait _ _ target d) => if target ≤ v then completeS s tid .y k (Result.value (some d) v) false else s
  | _ => s

/-- CWAIT_SATISFIED: the waiting CWAIT reads its counter again. -/
def execCwaitSatisfied (tid : Nat) (s : State) : Out :=
  match flightAt (s.tile tid) .y Wait.isCwait with
  | some (k, .cwait sp a target d) =>
    match cwaitRead s tid .y sp (wd a) with
    | (s', .at_ p) =>
      let (s', v) := counterValue s' tid p
      match reached v target with
      | some v => .next (completeS s' tid .y k (Result.value (some d) v) false)
      | none => .next s'
    | (s', .xlate sub info) => .next (raiseXlate s' tid .y sub info)
    | (s', _) => .next s'
  | _ => .next s

/-! ### Walker requests and BEAT (R298, R301) -/

/-- The exhausted reply, and each granted one: x12 to x15 become full together (R38). -/
def walkReply (t : Tile) (x : List Word) : Tile :=
  ((range 12 4).zip x).foldl (fun t p => t.setX p.1 { val := p.2, full := true, res := false }) t

def exhaustedReply : List Word := [BitVec.allOnes 64, 0, 0, 0]

/-- Exchange registers that a reply fills are empty and not reserved (R45). -/
def replyRoom (t : Tile) (from_ n : Nat) : Bool := (range from_ n).all (fun k => !(t.x k).full && !(t.x k).res)

/-- Send a request of the tile to its walker block and wait, holding the registers of the reply. -/
def askWalker (s : State) (tid : Nat) (g : Eng) (tk : Tk) (shunt : Bool) (w : Wait) (from_ n : Nat) : State :=
  let t := startWait (s.tile tid) g tk [] w
  let s := s.setTile tid ((range from_ n).foldl (fun t k => t.setX k { t.x k with res := true }) t)
  match (s.tile tid).rgn with
  | some r => s.updRegion r (fun v => { v with reqs := v.reqs ++ [(v.dom, tixOf s tid, shunt)] })
  | none => s

def execNext (tk : Tk) (s : State) : Out :=
  let (tid, g) := s.cur
  let t := s.tile tid
  if !ready s tk [] none || !replyRoom t 12 4 then .next s
  else if t.walker.isSome then .next (askWalker s tid g tk false .next 12 4)
  else if !tokenRoom s tk then .next s
  else .next ((finishS s tid g tk [] (Result.value none 0) true).updTile tid (fun t => walkReply t exhaustedReply))

def execShunt (tk : Tk) (s : State) : Out :=
  let (tid, g) := s.cur
  let t := s.tile tid
  if !ready s tk [] none || !replyRoom t 15 1 then .next s
  else if t.walker.isSome then .next (askWalker s tid g tk true .shunt 15 1)
  else if !tokenRoom s tk then .next s
  else .next ((finishS s tid g tk [] (Result.value none 0) true).updTile tid
    (fun t => t.setX 15 { val := 0, full := true, res := false }))

/-- BEAT restarts the cadence count of a region with PERSIST = 1, when it can retire (R288). -/
def execBeat (tk : Tk) (s : State) : Out :=
  if !ready s tk [] none then .next s
  else
    let s' := match (s.tile s.cur.1).rgn with
      | some r => s.updRegion r (fun v => if v.lrec.persist then { v with wd := 0 } else v)
      | none => s
    endNow s s' tk [] (Result.value none 0)

/-! ### Saving and restoring (R53, R311, R312) -/

/-- Pairs of the twelve token FIFOs in the order of TOKS (R53). -/
def tokPairs : List (Eng × Eng) := engines.flatMap (fun p => (engines.filter (· != p)).map (fun q => (p, q)))

/-- XFULL and XREGS. -/
def packX (t : Tile) : List Byte × List Byte :=
  (natLe 8 ((range 0 16).foldl (fun a n => a + b2n (t.x n).full * 2 ^ n) 0),
    (range 0 16).flatMap (fun n => natLe 8 (t.x n).val.toNat))

/-- DESIGN CHOICE: the reserved bits of XFULL are ignored (notes/assumptions/79.md). -/
def unpackX (t : Tile) (full regs : List Byte) : Tile :=
  (range 0 16).foldl (fun t n =>
    t.setX n { t.x n with val := wd (rnum regs (8 * n) 8), full := tb (leNat full) n }) t

/-- TOKS. -/
def packToks (t : Tile) : List Byte :=
  natLe 8 (((range 0 12).zip tokPairs).foldl (fun a p => a + t.tok p.2.1 p.2.2 * 16 ^ p.1) 0)

/-- DESIGN CHOICE: the reserved bits of TOKS are ignored, and a count above 8 is taken as 8 (notes/assumptions/79.md). -/
def unpackToks (t : Tile) (bs : List Byte) : Tile :=
  ((range 0 12).zip tokPairs).foldl (fun t p => t.setTok p.2.1 p.2.2 (min (fld (leNat bs) (4 * p.1) 4) 8)) t

/-- BOQS. -/
def packBoqs (t : Tile) : List Byte :=
  others.flatMap (fun g =>
    let l := t.outcomes g
    natLe 8 (((range 0 l.length).zip l).foldl (fun a p => a + b2n p.2 * 2 ^ p.1) 0 + l.length % 32 * 2 ^ 16))

/-- DESIGN CHOICE: the reserved bits of BOQS are ignored (notes/assumptions/79.md). -/
def unpackBoqs (t : Tile) (bs : List Byte) : Tile :=
  ((range 0 3).zip others).foldl (fun t p =>
    let w := rnum bs (8 * p.1) 8
    t.setOutcomes p.2 ((range 0 (min (fld w 16 5) 16)).map (tb w))) t

/-- BARS: the local phases. -/
def packPhases (t : Tile) : List Byte := (range 0 8).map (fun b => BitVec.ofNat 8 (t.phase b))

def unpackPhases (t : Tile) (bs : List Byte) : Tile :=
  { t with ph := (range 0 8).map (fun b => (b, rnum bs b 1)) }

/-- The group record. -/
def packBar (b : Bar) : List Byte :=
  natLe 2 (b.p + b2n b.opened * 2 ^ 8) ++ natLe 2 b.mask ++ natLe 2 b.arr ++ natLe 2 b.early ++ natLe 2 b.nmask ++ natLe 6 0

/-- DESIGN CHOICE: the reserved bytes and bits of a group record are ignored (notes/assumptions/79.md). -/
def unpackBar (bs : List Byte) : Bar :=
  { p := rnum bs 0 1, opened := tb (rnum bs 1 1) 0, mask := rnum bs 2 2, arr := rnum bs 4 2, early := rnum bs 6 2, nmask := rnum bs 8 2 }

def packCent (c : Option Cent) : List Byte :=
  match c with
  | none => natLe 80 0
  | some c =>
    natLe 4 (1 + b2n c.granted * 2 + c.tag * 4 + c.rgn * 2 ^ 10) ++ natLe 4 c.expw ++ natLe 4 c.soff ++ natLe 4 c.slen
      ++ (range 0 16).flatMap (fun q => natLe 4 (NMap.findD c.counts q 0))

def unpackCent (bs : List Byte) : Option Cent :=
  let w := rnum bs 0 4
  if tb w 0 then
    some { granted := tb w 1, tag := fld w 2 8, rgn := fld w 10 12, expw := rnum bs 4 4, soff := rnum bs 8 4, slen := rnum bs 12 4,
           counts := (range 0 16).map (fun q => (q, rnum bs (16 + 4 * q) 4)) }
  else none

def packGroup (g : Group) : List Byte :=
  (range 0 8).flatMap (fun b => packBar (g.bar b)) ++ (range 0 8).flatMap (fun e => packCent (NMap.find? g.cents e)) ++ natLe 256 0

def unpackGroup (g : Group) (bs : List Byte) : Group :=
  { g with
    bars := (range 0 8).map (fun b => (b, unpackBar (bs.drop (16 * b))))
    cents := (range 0 8).filterMap (fun e => (unpackCent (bs.drop (0x80 + 80 * e))).map (fun c => (e, c))) }

/-- The parts of a run of n bytes that lie in the Yard, as (offset in the run, location, length): all of it, or in CHECK mode each of
its words that does (R424). -/
def yardParts (s : State) (w : Who) (acc : Acc) (a : Word) (n : Nat) : State × Except (Nat × Nat) (List (Nat × Nat × Nat)) :=
  let words := (range 0 (n / 8)).filterMap (fun j => match (locate s w .y (a + wd (8 * j)) acc).2 with
    | .at_ (.mem k _) => some (8 * j, k, 8)
    | _ => none)
  match locate s w .y a acc with
  | (s, .xlate sub info) => (s, .error (sub, info))
  | (s, .at_ (.mem k _)) =>
    match locate s w .y (a + wd (n - 8)) acc with
    | (s, .xlate sub info) => (s, .error (sub, info))
    | (s, .at_ _) => (s, .ok [(0, k, n)])
    | (s, _) => (s, .ok words)
  | (s, _) => (s, .ok words)

/-- Parts of runs of the context block: each run's first and last 8 bytes must be in the Yard, but for CHECK mode (R417, R424). -/
def yardRuns (s : State) (w : Who) (acc : Acc) : List (Word × Nat) → State × Except (Nat × Nat) (List (List (Nat × Nat × Nat)))
  | [] => (s, .ok [])
  | (a, n) :: r =>
    match yardParts s w acc (alignDown a 8) n with
    | (s, .error e) => (s, .error e)
    | (s, .ok l) =>
      let (s, m) := yardRuns s w acc r
      (s, m.map (fun m => l :: m))

/-- Write the parts of a run. -/
def writeParts (s : State) (l : List (Nat × Nat × Nat)) (bs : List Byte) : State :=
  l.foldl (fun s p => writeRun s 0 p.2.1 ((bs.drop p.1).take p.2.2)) s

/-- The n bytes of a run by its parts; the rest reads as zero. -/
def readParts (s : State) (l : List (Nat × Nat × Nat)) (n : Nat) : List Byte :=
  l.foldl (fun bs p => bs.take p.1 ++ s.st.bytes p.2.1 p.2.2 ++ bs.drop (p.1 + p.2.2)) (zeros n)

/-- The shape of a save: runs of bytes at their places in the Yard; `notes` number what is saved and where (R50, R53). -/
def saveOp (s : State) (tk : Tk) (srcs : List Reg) (runs : List (Word × List Byte)) (notes : List (Nat × Word)) : Out :=
  let (tid, g) := s.cur
  if !(s.tile tid).sys then .next (raisePriv s tid g)
  else if !ready s tk srcs none then .next s
  else
    match yardRuns s (whoOf s tid g) .write (runs.map (fun p => (p.1, p.2.length))) with
    | (s, .error e) => .next (raiseXlate s tid g e.1 e.2)
    | (s, .ok ks) =>
      let s := (ks.zip runs).foldl (fun s p => writeParts s p.1 p.2.2) s
      let s := notes.foldl (fun s p => noteSave s tid p.1 (alignDown p.2 8).toNat) s
      .next (finishS s tid g tk srcs (Result.value none 0) true)

/-- The shape of a restore: runs of bytes read from the Yard, then loaded. -/
def restOp (s : State) (tk : Tk) (srcs : List Reg) (runs : List (Word × Nat)) (load : State → Nat → List (List Byte) → State) : Out :=
  let (tid, g) := s.cur
  if !(s.tile tid).sys then .next (raisePriv s tid g)
  else if !ready s tk srcs none then .next s
  else
    match yardRuns s (whoOf s tid g) .read runs with
    | (s, .error e) => .next (raiseXlate s tid g e.1 e.2)
    | (s, .ok ks) =>
      let bs := (ks.zip runs).map (fun p => readParts s p.1 p.2.2)
      .next (finishS (load s tid bs) tid g tk srcs (Result.value none 0) true)

def execXsave (tk : Tk) (s1 : Reg) (s : State) : Out :=
  let a := val s s1
  let p := packX (s.tile s.cur.1)
  saveOp s tk [s1] [(a + 0x30, p.1), (a + 0x80, p.2)] [(0, a)]

def execXrest (tk : Tk) (s1 : Reg) (s : State) : Out :=
  let a := val s s1
  restOp s tk [s1] [(a + 0x30, 8), (a + 0x80, 128)] (fun s tid bs =>
    s.updTile tid (fun t => unpackX t (getAt bs 0 []) (getAt bs 1 [])))

def execFsave (tk : Tk) (s1 : Reg) (s : State) : Out :=
  saveOp s tk [s1] [(val s s1 + 0x38, packToks (s.tile s.cur.1))] [(1, val s s1)]

def execFrest (tk : Tk) (s1 : Reg) (s : State) : Out :=
  restOp s tk [s1] [(val s s1 + 0x38, 8)] (fun s tid bs => s.updTile tid (fun t => unpackToks t (getAt bs 0 [])))

def execQsave (tk : Tk) (s1 : Reg) (s : State) : Out :=
  saveOp s tk [s1] [(val s s1 + 0x40, packBoqs (s.tile s.cur.1))] [(2, val s s1)]

def execQrest (tk : Tk) (s1 : Reg) (s : State) : Out :=
  restOp s tk [s1] [(val s s1 + 0x40, 24)] (fun s tid bs => s.updTile tid (fun t => unpackBoqs t (getAt bs 0 [])))

def execBsave (tk : Tk) (s1 s2 : Reg) (s : State) : Out :=
  let tid := s.cur.1
  let grp := if s2 = .ro .zero then [] else [(val s s2, packGroup (s.group (groupOf tid)))]
  saveOp s tk [s1, s2] ((val s s1 + 0x58, packPhases (s.tile tid)) :: grp)
    ((3, val s s1) :: (if s2 = .ro .zero then [] else [(6, val s s2)]))

def execBrest (tk : Tk) (s1 s2 : Reg) (s : State) : Out :=
  let grp := if s2 = .ro .zero then [] else [(val s s2, 1024)]
  restOp s tk [s1, s2] ((val s s1 + 0x58, 8) :: grp) (fun s tid bs =>
    let s := s.updTile tid (fun t => unpackPhases t (getAt bs 0 []))
    match bs[1]? with
    | some b => s.setGroup (groupOf tid) (unpackGroup (s.group (groupOf tid)) b)
    | none => s)

end Sys2Proof.Machine
end

