-- ==== Sys2Proof/Machine/Interlock.lean ====
section
/-! DEFINITION. The Interlocking Unit: wait edges, probes, growth and victims (R145 to R150, R430 to R432), and their messages between
devices (R144, R349). -/

namespace Sys2Proof.Machine

/-! ### Wait edges (R146) -/

/-- The tile of an agent identity, with its device. -/
def agentTile (a : Nat) : Nat := a % 2048
def agentDev (a : Nat) : Nat := a / 2048 % 1024

/-- Edge of a slot that is blocked on a channel. -/
def slotEdge (s : State) (tid n : Nat) (v : Slot) : Option Edge :=
  if !chanBlocked s tid v then none
  else
    match NMap.find? (s.tile tid).chans (fld v.extv.toNat 5 4) with
    | none => none
    | some (h, writer) =>
      let kind := if writer then 1 else 0
      if handleHere s h then
        let e := chan s (handleChan h)
        let (bound, who) := if writer then (e.rbound, e.ragent) else (e.wbound, e.wagent)
        if !bound then none
        else if agentDev who = devNo s then
          some { dest := some (agentTile who), dev := devNo s, handle := h, kind := kind, slot := some n }
        else some { dest := none, dev := agentDev who, handle := h, kind := kind, slot := some n }
      else some { dest := none, dev := handleDev h, handle := h, kind := kind, slot := some n }

/-- Tiles of a barrier's mask that have not arrived in the open phase. -/
def missing (s : State) (gid b : Nat) : List Nat :=
  let v := (s.group gid).bar b
  ((range 0 16).filter (fun q => tb v.mask q && !tb v.arr q && !(s.tile (gid * 16 + q)).ended)).map (fun q => gid * 16 + q)

/-- Edges of one engine's waits: barriers, and tokens whose sender is named. -/
def engineEdges (s : State) (tid : Nat) (g : Eng) : List Edge :=
  ((s.tile tid).eng g).queue.flatMap (fun q => match q.stat with
    | .flight (.barrier b) _ _ _ =>
      (missing s (groupOf tid) b).map (fun u => { dest := some u, dev := devNo s, handle := 0, kind := 2, slot := none })
    | .flight (.trecv _ _ (some u) _) _ _ _ =>
      [{ dest := some u, dev := devNo s, handle := 0, kind := 3, slot := none }]
    | _ => [])

/-- Every outward edge of a tile. -/
def edgesOf (s : State) (tid : Nat) : List Edge :=
  (range 0 16).filterMap (fun n => slotEdge s tid n ((s.tile tid).slot n)) ++ engines.flatMap (engineEdges s tid)

/-! ### Probes (R147, R148) -/

/-- The 16 bytes of a probe. -/
def packProbe (p : Probe) : List Byte :=
  natLe 16 (p.origin + p.epoch * 2 ^ 24 + p.hops * 2 ^ 32 + p.minid * 2 ^ 40 + (p.cand.getD 0) * 2 ^ 64 + b2n p.cand.isSome * 2 ^ 86)

def unpackProbe (bs : List Byte) (dest : Nat) : Probe :=
  let v := leNat (bs.take 16)
  { origin := fld v 0 24, epoch := fld v 24 8, hops := fld v 32 8, minid := fld v 40 24,
    cand := if tb v 86 then some (fld v 64 22) else none, via := none, dest := dest }

/-- The candidate that a copy carries along an edge. -/
def candAlong (c : Option Nat) (e : Edge) : Option Nat :=
  if e.kind != 1 then c
  else match c with
    | none => some e.handle
    | some h => if e.handle < h then some e.handle else some h

/-- Send a copy along an edge; one that no port carries is lost (R432). -/
def sendProbe (s : State) (p : Probe) (e : Edge) : State :=
  let p := { p with cand := candAlong p.cand e, via := if p.hops = 0 then some e else p.via }
  match e.dest with
  | some u => { s with probes := s.probes ++ [{ p with dest := u }] }
  | none => (sendMsg s 4 e.dev (fld e.handle 0 12) { UalMsg.base s e.handle with body := packProbe p }).getD s

/-- Send copies along every edge of a tile. -/
def sendProbes (s : State) (tid : Nat) (p : Probe) : State := (edgesOf s tid).foldl (fun s e => sendProbe s p e) s

/-- Change a tile's Interlocking engine. -/
def updIl (s : State) (tid : Nat) (f : Il → Il) : State := s.updTile tid (fun t => { t with il := f t.il })

/-- The tile was blocked in the last cycle, and no trap has come since (R145). -/
def Tile.stillBlocked (t : Tile) : Bool := t.il.blk && !t.sys && t.enter.isNone

/-- PROBE_SEND: the count of a blocked tile has reached 4,096. -/
def execProbeSend (tile : Nat) (s : State) : Out :=
  let l := (s.tile tile).il
  if l.st == .count && (s.tile tile).stillBlocked && 4096 ≤ l.count then
    let ep := (l.epoch + 1) % 256
    let s := updIl s tile (fun l => { l with st := .probe, epoch := ep, wait := 0, returned := false })
    .next (sendProbes s tile
      { origin := agentOf s tile, epoch := ep, hops := 0, minid := agentOf s tile, cand := none, via := none, dest := 0 })
  else .next s

/-- The filter with a new entry; the oldest of eight goes. -/
def addFilter (f : List (Nat × Nat × Nat)) (origin epoch : Nat) : List (Nat × Nat × Nat) :=
  (if f.length < 8 then f else f.drop (f.length - 7)) ++ [(origin, epoch, 0)]

/-- A probe at a tile that is not its origin. -/
def probeAt (s : State) (p : Probe) : State :=
  let t := s.tile p.dest
  if !t.stillBlocked || t.il.filter.any (fun f => f.1 == p.origin && f.2.1 == p.epoch) then s
  else
    let s := updIl s p.dest (fun l => { l with filter := addFilter l.filter p.origin p.epoch })
    let q := { p with hops := p.hops + 1, minid := min p.minid (agentOf s p.dest) }
    if q.hops ≥ 64 then s else sendProbes s p.dest q

/-- PROBE_ARRIVAL. -/
def execProbeArrival (n : Nat) (s : State) : Out :=
  match s.probes[n]? with
  | none => .next s
  | some p =>
    if agentOf s p.dest = p.origin then .next s
    else .next (probeAt { s with probes := s.probes.eraseIdx n } p)

/-! ### Victims (R430, R431) -/

/-- The victim's edge on the cycle: the one by which the probe left that came back. DESIGN CHOICE: of a probe that came back from another
package it is the first edge to another package, since a probe's bytes do not name it (notes/assumptions/45.md). -/
def cycleEdge (s : State) (tid : Nat) (via : Option Edge) : Option Edge :=
  match via with
  | some e => some e
  | none => ((edgesOf s tid).find? (fun e => e.dest.isNone)).orElse (fun _ => (edgesOf s tid).head?)

/-- The victim trap with WHY: INFO names the candidate, or for WHY 1 the tile's edge on the cycle; SLOT is the slot of that edge. -/
def victim (s : State) (tid why cand : Nat) (via : Option Edge) : State :=
  let e? := cycleEdge s tid via
  let info := if why = 1 then
      match e? with
      | some e => (if e.slot.isSome then e.handle + 2 ^ 22 else 0) + e.kind * 2 ^ 23
      | none => 0
    else cand + 2 ^ 22 + 2 ^ 23
  let s := updIl s tid (fun l => { l with st := .victim })
  raiseImprecise s tid { code := 0x13, sub := why, eng := .e, impr := true, slot := e?.bind Edge.slot, info := info } true

/-- Ask the home of a candidate for growth; a request that no port carries gets no reply and is taken as done (R445). -/
def askGrowth (s : State) (tid h : Nat) (via : Option Edge) : State :=
  let u := updIl s tid (fun l => { l with st := .grow, cand := h, via := via })
  if handleHere s h then { u with grows := u.grows ++ [{ tile := tid, handle := h, reply := none }] }
  else (sendMsg u 5 (handleDev h) (fld h 0 12) (UalMsg.base u h)).getD (updIl s tid (fun l => { l with st := .count, count := 0 }))

/-- PROBE_RETURN: a probe is back at its origin. -/
def execProbeReturn (n : Nat) (s : State) : Out :=
  match s.probes[n]? with
  | none => .next s
  | some p =>
    let l := (s.tile p.dest).il
    if agentOf s p.dest != p.origin then .next s
    else
      let s := { s with probes := s.probes.eraseIdx n }
      if l.st != .probe || l.epoch != p.epoch || p.minid != p.origin then .next s
      else match p.cand with
        | some h => .next (askGrowth s p.dest h p.via)
        | none =>
          if l.armed then .next (victim s p.dest 1 0 p.via)
          else .next (updIl s p.dest (fun l => { l with st := .count, count := 0, armed := true }))

/-- PROBE_WAIT_EXPIRY. -/
def execProbeWaitExpiry (tile : Nat) (s : State) : Out :=
  let l := (s.tile tile).il
  if l.st == .probe && 4096 ≤ l.wait then .next (updIl s tile (fun l => { l with st := .count, count := 0 })) else .next s

/-- PROBE_FILTER_EXPIRY: entries that have stood for 4,096 cycles go. -/
def execProbeFilterExpiry (tile : Nat) (s : State) : Out :=
  .next (if (s.tile tile).il.filter.any (fun f => 4096 ≤ f.2.2) then
    updIl s tile (fun l => { l with filter := l.filter.filter (fun f => f.2.2 < 4096) }) else s)

/-! ### Growth (R150, R430) -/

/-- The writer of a channel here is blocked on full. -/
def writerFull (s : State) (h : Nat) : Bool :=
  let e := chan s (handleChan h)
  e.offered.isSome || (e.wbound && agentDev e.wagent == devNo s &&
    (let u := agentTile e.wagent
     (s.tile u).slots.any (fun p => p.2.opc == opSchw && chanBlocked s u p.2 &&
      ((NMap.find? (s.tile u).chans (fld p.2.extv.toNat 5 4)).map Prod.fst) == some h)))

/-- GROWTH_REQUEST: the home serves a request. -/
def execGrowthRequest (n : Nat) (s : State) : Out :=
  match s.grows[n]? with
  | none => .next s
  | some q =>
    if q.reply.isSome then .next s
    else
      let (s, why) := growChan s (handleChan q.handle) (writerFull s q.handle)
      .next { s with grows := s.grows.set n { q with reply := some why } }

/-- A reply at the tile that asked: done (0), or the WHY of a refusal. -/
def growthOver (s : State) (tid why : Nat) : State :=
  let l := (s.tile tid).il
  if l.st != .grow then s
  else if why != 0 then victim s tid why l.cand l.via
  else updIl s tid (fun l => if l.blk then { l with st := .count, count := 0 } else { l with st := .idle, armed := false })

/-- GROWTH_REPLY. -/
def execGrowthReply (n : Nat) (s : State) : Out :=
  match s.grows[n]? with
  | none => .next s
  | some q =>
    match q.reply with
    | none => .next s
    | some why => .next (growthOver { s with grows := s.grows.eraseIdx n } q.tile why)

/-! ### Messages from other devices (R349) -/

/-- Tiles here that write the channel of a handle. -/
def writersOf (s : State) (h : Nat) : List Nat :=
  (s.tiles.filter (fun p => p.2.started && p.2.chans.any (fun c => c.2 == (h, true)))).map Prod.fst

/-- No record is held in a channel or waits for it: only its reader can be blocked on it. -/
def Chan.isEmpty (e : Chan) : Bool := e.rptr == e.wptr && e.srptr == e.swptr && e.offered.isNone

/-- PROBE: at a home here the probe goes on to the end that the edge leads to, the writer of a channel that holds nothing, else the
reader; at a home elsewhere it has reached the writer. -/
def execProbe (msg : UalMsg) (s : State) : Out :=
  let h := msg.handle
  let passTo (u : Nat) (s : State) : State := { s with probes := s.probes ++ [unpackProbe msg.body u] }
  if handleHere s h then
    let e := chan s (handleChan h)
    let (bound, who) := if e.isEmpty then (e.wbound, e.wagent) else (e.rbound, e.ragent)
    if !bound then .next s
    else if agentDev who = devNo s then .next (passTo (agentTile who) s)
    else .next ((sendMsg s 4 (agentDev who) (fld h 0 12) { UalMsg.base s h with body := msg.body }).getD s)
  else .next ((writersOf s h).foldl (fun s u => passTo u s) s)

/-- GROW: a request from another device is served, and answered. -/
def execGrow (msg : UalMsg) (s : State) : Out :=
  let h := msg.handle
  if !handleHere s h then .next s
  else
    let (s, why) := growChan s (handleChan h) (writerFull s h)
    .next ((sendMsg s 6 msg.sdev (fld h 0 12) { UalMsg.base s h with ok := why == 0 }).getD s)

/-- GROWREPLY: the tiles that wait for this handle go on; a refusal carries no reason, which stays free. -/
def execGrowreply (msg : UalMsg) (s : State) : Out :=
  let ts := (s.tiles.filter (fun p => p.2.il.st == .grow && p.2.il.cand == msg.handle)).map Prod.fst
  let why := if msg.ok then 0 else 2 + (Config.freeWord s.ticks).toNat % 3
  .next (ts.foldl (fun s t => growthOver s t why) (if msg.ok then s else { s with ticks := s.ticks + 1 }))

/-- A record from another package binds its writer, is accepted and answered, or waits for room; a repeated one is only answered, and
one of a second writer or beyond SCOPE is refused (R131, R143, R445). -/
def recordIn (s : State) (msg : UalMsg) : State :=
  let h := msg.handle
  let c := handleChan h
  let e := chan s c
  let hdr := rnum msg.body 0 4
  let answer (s : State) (ok : Bool) : State := (sendMsg s 2 msg.sdev (fld h 0 12) { UalMsg.base s h with ok := ok }).getD s
  if !handleHere s h then s
  else if e.lastRemote = some (msg.sdev, msg.seq) then answer s true
  else if !e.en || e.closed || recSize hdr > e.cap then answer s false
  else
    match bindFar s c msg.sdev with
    | none => answer s false
    | some s =>
      let payload := (msg.body.drop 4).take (4 * recLen hdr)
      let marks := if recPoison hdr then 2 ^ recBlocks hdr - 1 else 0
      match accept s c hdr payload marks with
      | none => setChan s c { chan s c with offered := some msg }
      | some s => answer (setChan s c { chan s c with lastRemote := some (msg.sdev, msg.seq), offered := none }) true

/-- RECORD. -/
def execRecord (msg : UalMsg) (s : State) : Out := .next (recordIn s msg)

/-- Records of other packages that waited for room are offered again. -/
def retryRecords (s : State) : State :=
  s.chans.foldl (fun s p => match p.2.offered with | some m => recordIn s m | none => s) s

/-- Tile and slot here that wait for the answer of a handle's home. -/
def waitersOn (s : State) (h : Nat) : List (Nat × Nat) :=
  s.tiles.flatMap (fun p => p.2.slots.filterMap (fun q =>
    if q.2.act && q.2.opc == opSchw && q.2.inFlight &&
        ((NMap.find? p.2.chans (fld q.2.extv.toNat 5 4)).map Prod.fst) == some h then some (p.1, q.1) else none))

/-- A home on another package has accepted the record of a slot, the one that was taken last: its LAST says whether the channel is closed
(R135, R142). -/
def noteAccepted (s : State) (tid n : Nat) : State :=
  let v := (s.tile tid).slot n
  let r := (s.tile tid).ring (fld v.extv.toNat 0 5)
  let hdr := (slotRecord s (slotWho tid v) r ((r.taken + 2 ^ 32 - 1) % 2 ^ 32)).2.1
  s.updTile tid (fun t => { t with farLast := NMap.put t.farLast (fld v.extv.toNat 5 4) (recLast hdr) })

/-- ACCEPT: the writer's stream counts its record as accepted; a refusal is an error of the peer, which is counted (R392, R444). -/
def execAccept (msg : UalMsg) (s : State) : Out :=
  match (waitersOn s msg.handle).head? with
  | none => .next s
  | some (tid, n) =>
    let x := ((s.tile tid).slot n).extv.toNat
    if msg.ok then .next (acceptedStep (noteAccepted s tid n) tid n (fld x 0 5))
    else .next (stopSlot (updSlot (lostPath s tid 0) tid n (fun v => { v with inFlight := false })) tid n 0x14 3 (handleDev msg.handle))

/-- TOKEN: the add of a TSEND from another device, or a drop. -/
def execToken (msg : UalMsg) (s : State) : Out :=
  match tokenTile s msg.trgn (fld msg.ttgt 0 5) (fld msg.ttgt 5 5) with
  | some u => .next (addToken s u (fld msg.ttgt 10 18) (msg.tinc % 8 + 1))
  | none => .next (dropToken s 0)

end Sys2Proof.Machine
end

