-- ==== Sys2Proof/Machine/Walkers.lean ====
section
/-! DEFINITION. Chunks, walkers and their block (R31, R37 to R41, R52, R54, R299, R300). -/

namespace Sys2Proof.Machine

/-! ### Chunks (R31) -/

/-- C and B of a nest level. -/
def LaunchRec.chunkLen (r : LaunchRec) (i : Nat) : Nat := min (getAt r.chunks i 1) (getAt r.bounds i 1)
def LaunchRec.blocks (r : LaunchRec) (i : Nat) : Nat := if getAt r.bounds i 1 = 0 then 0 else cdiv (getAt r.bounds i 1) (r.chunkLen i)

/-- T. -/
def LaunchRec.total (r : LaunchRec) : Nat := r.blocks 0 * r.blocks 1 * r.blocks 2 * r.blocks 3

/-- Start points by level, and the length, of what is left of chunk number q at the levels of a list. -/
def chunkWalk (r : LaunchRec) : List Nat → Nat → NMap Nat × Nat
  | [], _ => ([], 1)
  | i :: l, q =>
    let b := r.blocks i
    let j := q % b * r.chunkLen i
    let n := min (r.chunkLen i) (getAt r.bounds i 1 - j)
    let (js, len) := chunkWalk r l (q / b)
    (NMap.put js i j, n * len)

/-- The words of a grant: x12 to x15 (R38). -/
def grantWords (r : LaunchRec) (b : Nat) : List Word :=
  let (js, len) := chunkWalk r r.order b
  let j (i : Nat) : Nat := NMap.findD js i 0
  [wd b, wd (j 0 + 2 ^ 32 * j 1), wd (j 2 + 2 ^ 32 * j 3), wd len]

/-! ### Spans (R37) -/

/-- The spans that a launch gives its walkers. -/
def launchSpans (r : LaunchRec) : NMap (Nat × Nat) :=
  (range 0 r.walkers).map (fun w => (w, (w * r.total / r.walkers, (w + 1) * r.total / r.walkers)))

def Region.span (r : Region) (w : Nat) : Nat × Nat := NMap.findD r.spans w (0, 0)
def Region.again (r : Region) (w : Nat) : List Nat := NMap.findD r.regrant w []

/-- Nothing is left for a walker to grant. -/
def Region.exhausted (r : Region) (w : Nat) : Bool := (r.span w).1 == (r.span w).2 && (r.again w).isEmpty

/-! ### Service (R38 to R41) -/

/-- One request comes before another (R41). -/
def reqBefore (p q : Nat × Nat × Bool) : Bool :=
  p.1 < q.1 || (p.1 == q.1 && (b2n p.2.2 < b2n q.2.2 || (p.2.2 == q.2.2 && p.2.1 ≤ q.2.1)))

/-- The request of a tile that the block would serve now, if it is first. -/
def dueReq (r : Region) (tix : Nat) (shunt : Bool) : Bool :=
  !r.frozen && match r.reqs.find? (fun q => q.2.1 == tix && q.2.2 == shunt) with
    | some q => r.reqs.all (reqBefore q)
    | none => false

/-- The region without a tile's request and with its current chunk retired (R39). -/
def Region.served (r : Region) (tix : Nat) (shunt : Bool) : Region :=
  { r with reqs := r.reqs.filter (fun q => !(q.2.1 == tix && q.2.2 == shunt)), curr := NMap.erase r.curr tix }

/-- Grant from a walker: the region after it and the chunk, if one is left. -/
def grantFrom (r : Region) (tix w : Nat) : Region × Option Nat :=
  match r.again w with
  | b :: rest => ({ r with regrant := NMap.put r.regrant w rest, curr := NMap.put r.curr tix (b, w) }, some b)
  | [] =>
    let (lo, hi) := r.span w
    if lo < hi then ({ r with spans := NMap.put r.spans w (lo + 1, hi), curr := NMap.put r.curr tix (lo, w) }, some lo)
    else (r, none)

/-- Write a reply's registers from a number on and retire the instruction that waits for it. -/
def landReply (s : State) (tid : Nat) (w : Wait) (from_ : Nat) (ws : List Word) : State :=
  match flightAt (s.tile tid) .y (fun v => v == w) with
  | none => s
  | some (k, _) =>
    let s := s.updTile tid (fun t => ((range from_ ws.length).zip ws).foldl (fun t p =>
      t.setX p.1 { val := p.2, full := true, res := false }) t)
    completeS s tid .y k (Result.value none 0) true

/-- NEXT_SERVICE. -/
def execNextService (rgn tix : Nat) (s : State) : Out :=
  match s.region? rgn with
  | none => .next s
  | some r =>
    if !dueReq r tix false then .next s
    else
      let tid := tileOfTix s r tix
      let r := r.served tix false
      match (s.tile tid).walker with
      | none => .next (landReply (s.setRegion rgn r) tid .next 12 exhaustedReply)
      | some w =>
        match grantFrom r tix w with
        | (r, some b) => .next (landReply (s.setRegion rgn r) tid .next 12 (grantWords r.lrec b))
        | (r, none) => .next (landReply (s.setRegion rgn r) tid .next 12 exhaustedReply)

/-- The walker with the largest remaining range, the lowest number among equals (R40). -/
def largestSpan (r : Region) : Nat :=
  (range 0 r.lrec.walkers).foldl (fun best w =>
    if (r.span best).2 - (r.span best).1 < (r.span w).2 - (r.span w).1 then w else best) 0

/-- A split for the walker of the tile that asks: the region after it and the number of chunks moved (R40). -/
def splitFor (r : Region) (own : Nat) : Region × Nat :=
  let c := largestSpan r
  let (lo, hi) := r.span c
  if !r.exhausted own || hi - lo < 2 then (r, 0)
  else
    let m := lo + cdiv (hi - lo) 2
    ({ r with spans := NMap.put (NMap.put r.spans c (lo, m)) own (m, hi) }, hi - m)

/-- SHUNT_SERVICE. -/
def execShuntService (rgn tix : Nat) (s : State) : Out :=
  match s.region? rgn with
  | none => .next s
  | some r =>
    if !dueReq r tix true then .next s
    else
      let tid := tileOfTix s r tix
      let r := r.served tix true
      match (s.tile tid).walker with
      | none => .next (landReply (s.setRegion rgn r) tid .shunt 15 [0])
      | some w =>
        let (r, n) := splitFor r w
        .next (landReply (s.setRegion rgn r) tid .shunt 15 [wd n])

/-! ### The walker block image (R52, R54) -/

/-- The 16 KiB image. -/
def packWalkers (r : Region) (layout : Nat) : List Byte :=
  natLe 8 (layout % 2 ^ 16 + r.lrec.walkers % 128 * 2 ^ 16 + b2n (r.killed || r.lostWalker) * 2 ^ 23) ++ natLe 56 0
    ++ (r.lrec.raw ++ natLe 128 0).take 128 ++ natLe 64 0
    ++ (range 0 64).flatMap (fun w => natLe 8 (r.span w).1 ++ natLe 8 (r.span w).2)
    ++ (range 0 1024).flatMap (fun t => match NMap.find? r.curr t with
      | some (b, w) => natLe 8 (b % 2 ^ 48 + w % 64 * 2 ^ 48 + 2 ^ 63)
      | none => natLe 8 0)
    ++ natLe 6912 0

/-- Spans and current chunks from an image. -/
def unpackSpans (bs : List Byte) (walkers : Nat) : NMap (Nat × Nat) :=
  (range 0 walkers).map (fun w => (w, (rnum bs (0x100 + 16 * w) 8, rnum bs (0x108 + 16 * w) 8)))

/-- DESIGN CHOICE: the reserved bits of a CURR entry are ignored (notes/assumptions/79.md). -/
def unpackCurr (bs : List Byte) (ntiles : Nat) : NMap (Nat × Nat) :=
  (range 0 ntiles).filterMap (fun t =>
    let v := rnum bs (0x500 + 8 * t) 8
    if tb v 63 then some (t, (fld v 0 48, fld v 48 6)) else none)

/-- Insert into a rising list of chunk numbers. -/
def regrantOf (curr : NMap (Nat × Nat)) (w : Nat) : List Nat :=
  (curr.filter (fun p => p.2.2 == w)).foldl (fun l p => setIns l p.2.1) []

end Sys2Proof.Machine
end

