-- ==== Sys2Proof/Machine/Launch.lean ====
section
/-! DEFINITION. Launch records, placement, launch images, and the start and retirement of regions (R29 to R36, R47, R85, R130, R223,
R333 to R335, R338, R396, R397, R411, R414, R450). -/

namespace Sys2Proof.Machine

/-! ### The launch record (R29, R396) -/

/-- A record of 128 bytes. -/
def recOf (bs : List Byte) : LaunchRec :=
  let w := rnum bs 0x48 8
  { entry := rnum bs 0 8, image := rnum bs 8 8, args := wd (rnum bs 0x10 8), ccaddr := rnum bs 0x18 8, ccinc := wd (rnum bs 0x20 8)
    bounds := (range 0 4).map (fun i => rnum bs (0x28 + 8 * i) 4)
    chunks := (range 0 4).map (fun i => rnum bs (0x2C + 8 * i) 4)
    width := fld w 0 4, height := fld w 4 4, walkers := fld w 8 7
    order := (range 0 4).map (fun i => fld w (16 + 2 * i) 2)
    prio := fld w 24 4, tsplog := fld w 32 5, gsplog := fld w 37 5, ccspace := fld w 42 2, ccscope := fld w 44 3
    idemp := tb w 48, persist := tb w 49, siding := rnum bs 0x50 2, cadence := rnum bs 0x54 4, seed := rnum bs 0x58 2
    imglen := rnum bs 0x5C 4, raw := bs }

/-- The product of the blocks up to a level. -/
def blocksUpTo (r : LaunchRec) (i : Nat) : Nat := (range 0 (i + 1)).foldl (fun a k => a * r.blocks k) 1

/-- The level whose bound makes T reach 2^48. -/
def longLevel (r : LaunchRec) : Option Nat :=
  if r.total < 2 ^ 48 then none else (range 0 4).find? (fun i => 2 ^ 48 ≤ blocksUpTo r i)

/-- Something at offset 0x48 fails. -/
def shapeBad (r : LaunchRec) (w : Nat) : Bool :=
  r.width == 0 || r.width > 8 || r.height == 0 || r.height > 8 || r.walkers == 0 || r.walkers > 64 || tb w 15
    || !(range 0 4).all r.order.contains || fld w 28 4 != 1 || r.tsplog < 12 || r.tsplog > 18
    || (1 ≤ r.gsplog && r.gsplog ≤ 11) || r.gsplog > 22 || r.ccspace == 3 || (r.ccspace == 1 && r.gsplog == 0)
    || r.ccscope ≥ 5 || tb w 47 || fld w 50 14 != 0

/-- Offset of the first failing field (R396). -/
def recFail (bs : List Byte) : Option Nat :=
  let r := recOf bs
  let level (i : Nat) : Nat × Bool := (0x28 + 8 * i, getAt r.chunks i 0 == 0 || longLevel r == some i)
  firstSub ([(0, r.entry % 32 != 0), (8, r.image % 32 != 0), (0x18, r.ccaddr % 8 != 0), level 0, level 1, level 2, level 3,
    (0x48, shapeBad r (rnum bs 0x48 8)),
    (0x50, rnum bs 0x52 2 != 0 || (r.cadence != 0) != r.persist), (0x58, rnum bs 0x5A 2 != 0 || r.imglen == 0),
    (0x60, rnum bs 0x60 32 != 0)])

/-! ### Counter adds of the Junction die (R47, R411, R450) -/

/-- What a CANCEL bit makes of an add that its guess of the counter's value has missed: the CAS that the Junction die tries next, from the
value that came. `src` − `cmp` is the number to be added, but for bit 63, which is set in every sum. -/
def nextCas (r : Remote) (old : Word) : Remote := { r with cmp := old, src := (r.src - r.cmp + old) ||| wd (2 ^ 63) }

/-- Add to a counter that a physical target names for a partition; `cancel` sets bit 63 of the sum in the same step (R411). DEDUCED: at a
peer, where no atomic does both, the die sends CAS, the first for a counter of 0, until one finds the value that it names (R345;
notes/assumptions/81.md). With no path to the counter the add is lost (R443, R444). -/
def physAdd (s : State) (part : Nat) (p : Phys) (inc : Word) (cancel : Bool) : State :=
  let bits : Word := if cancel then wd (2 ^ 63) else 0
  match p with
  | .mem k i => writeRun s i k (natLe 8 ((readNum s i k 8 + inc) ||| bits).toNat)
  | .host pa =>
    if hostUp s then writeRun s 0 (hostKey pa) (natLe 8 ((readNum s 0 (hostKey pa) 8 + inc) ||| bits).toNat)
    else countRec s { ErrRec.base s 15 1 with addr := pa, part := part }
  | .peer dev pa key =>
    match portFor s dev (fld pa 8 10) with
    | none => countRec s { ErrRec.base s 13 1 with addr := pa, part := part }
    | some port =>
      let r : Remote := { Remote.base jdWaiter .e pa 8 with
        host := false, dev := dev, isAtomic := true, op := .add, src := inc, port := port, key := key, part := part }
      (newRemote s (if cancel then nextCas { r with op := .cas } 0 else r)).1

/-- The completion add of a launch; a region gives the place of a counter in G or Y. The failure, if the access failed. DESIGN CHOICE: a
counter in Y whose partition has no window on the die when the launch is over gets no add, and the launch counts as complete; the driver
keeps EN = 1, and the spec gives the other case no fate (notes/assumptions/100.md). -/
def completionAdd (s : State) (part : Nat) (r : LaunchRec) (gid : Option Nat) (cancel : Bool) : State × Option JdFail :=
  match r.ccspace, gid with
  | 0, _ =>
    match translateJd s part r.ccaddr .atomic false with
    | (s, .ok p) => (physAdd s part p r.ccinc cancel, none)
    | (s, .error w) => (s, some (r.ccaddr, xsub w .atomic false))
  | 1, some g => (physAdd s part (.mem (gspKey g (r.ccaddr % 2 ^ r.gsplog)) 0) r.ccinc cancel, none)
  | 2, some g =>
    let die := g / 32
    let win := ywin s part die
    if tb win 14 then
      (physAdd s part (.mem (yardKey die (fld win 0 10 * 2 ^ 20 + r.ccaddr % 2 ^ (20 + fld win 10 4))) 0) r.ccinc cancel, none)
    else (s, none)
  | _, _ => (s, none)

/-- A launch is over: its counter is added to, and OUTST falls if the launch counts in it; a failed access freezes the queue with cause 1
(R322, R326, R450). -/
def completeLaunch (s : State) (part qid : Nat) (r : LaunchRec) (gid : Option Nat) (rid : Option Nat) (owes cancel : Bool) : State :=
  let (s, bad) := completionAdd s part r gid cancel
  let s := dropOutst s qid owes
  match bad with
  | none => s
  | some e => freezeQueue (count s 25) qid 1 rid none 3 (failBytes e)

/-- A launch completed as cancelled (R411). -/
def cancelLaunch (s : State) (part qid : Nat) (r : LaunchRec) (gid : Option Nat) (rid : Option Nat) (owes : Bool) : State :=
  completeLaunch s part qid r gid rid owes true

/-! ### Requests (R333, R334, R338) -/

/-- Ageing interval of a partition as a power of two (R332). -/
def ageLog (s : State) (part : Nat) : Nat := wfld (mreg s (0x100040 + 8 * part)) 8 5

/-- Effective priority of something entered at an SB cycle. -/
def effPrio (s : State) (part prio at_ : Nat) : Nat := min 63 (prio + (s.sbcyc - at_) / 2 ^ ageLog s part)

/-- Serve order of two requests. -/
def reqFirst (s : State) (a b : Req) : Bool :=
  let p := effPrio s a.part a.lrec.prio a.at_
  let q := effPrio s b.part b.lrec.prio b.at_
  q < p || (p == q && a.seq ≤ b.seq)

/-- Requests of a partition that may be served: the earliest of their queue, which is not frozen. -/
def servable (s : State) (part : Nat) : List Req :=
  s.marsh.filter (fun q => q.part == part && qState s q.qid != 4 && s.marsh.all (fun p => p.qid != q.qid || q.seq ≤ p.seq))

/-- The request whose turn it is. -/
def nextReq (s : State) (part : Nat) : Option Req := (servable s part).find? (fun q => (servable s part).all (reqFirst s q))

/-- A saved region comes before the request (R338). -/
def savedFirst (s : State) (q : Req) : Bool :=
  s.regions.any (fun p => p.2.st == .saved && p.2.part == q.part && qState s p.2.qid != 4
    && effPrio s q.part q.lrec.prio q.at_ ≤ effPrio s q.part p.2.lrec.prio p.2.savedAt)

/-! ### Places (R21, R332, R335) -/

/-- Pages of a rectangle. -/
def rectPages (px py w h : Nat) : List (Nat × Nat) :=
  (range 0 h).flatMap (fun y => (range 0 w).map (fun x => (px + x, py + y)))

/-- A region holds the page. -/
def pageTaken (s : State) (x y : Nat) : Bool :=
  s.regions.any (fun p => p.2.st != .saved && p.2.px ≤ x && x < p.2.px + p.2.lrec.width && p.2.py ≤ y
    && y < p.2.py + p.2.lrec.height)

/-- READY of a page and of a die. -/
def pageReady (s : State) (x y : Nat) : Bool := (mreg s 0x100).getLsbD (8 * y + x)
def dieReady (s : State) (die : Nat) : Bool := (mreg s 0x108).getLsbD (25 + die)

/-- HOT of a page's column. -/
def pageHot (s : State) (x y : Nat) : Bool :=
  let g := pageGroup s x y
  (mreg s (0x1000 + 8 * (17 * (g / 32) + g % 32))).getLsbD 48

/-- The page may take a region of the partition. -/
def pageGood (s : State) (part x y : Nat) : Bool :=
  x < 8 && y < 8 && (mreg s (0x1000C0 + 8 * part)).getLsbD (8 * y + x) && pageReady s x y && !pageTaken s x y && !pageHot s x y

/-- Walkers of a die that regions hold. -/
def walkersUsed (s : State) (die : Nat) : Nat :=
  (s.regions.filter (fun p => p.2.st != .saved && pageDie p.2.px p.2.py == die)).foldl (fun a p => a + p.2.lrec.walkers) 0

/-- The origin may take a region of the shape. -/
def originGood (s : State) (part w h walkers px py : Nat) : Bool :=
  (rectPages px py w h).all (fun p => pageGood s part p.1 p.2) && dieReady s (pageDie px py)
    && walkersUsed s (pageDie px py) + walkers ≤ 256

/-- The first origin in scan order. -/
def findOrigin (s : State) (part w h walkers : Nat) : Option (Nat × Nat) :=
  ((range 0 64).map (fun i => (i % 8, i / 8))).find? (fun p => originGood s part w h walkers p.1 p.2)

/-! ### The image (R34, R35, R397) -/

/-- Cut an image into entries, from a beat on: the entries, and a failing one: beat, column, row. -/
def parseImage (cols rows : Nat) : Nat → Nat → List Byte → List ImgEntry × Option (Nat × Nat × Nat)
  | 0, _, _ => ([], none)
  | fuel + 1, beat, bs =>
    if bs.isEmpty then ([], none)
    else
      let kind := rnum bs 0 1
      let col := fld (rnum bs 0 4) 8 5
      let row := fld (rnum bs 0 4) 13 5
      let n := rnum bs 4 2
      if !([1, 2, 3, 4, 5, 6, 7, 15].contains kind) || fld (rnum bs 0 4) 18 14 != 0 || rnum bs 6 2 != 0 || n == 0
          || bs.length < 32 * n || col ≥ cols || row ≥ rows then ([], some (beat, col, row))
      else
        let (es, f) := parseImage cols rows fuel (beat + n) (bs.drop (32 * n))
        ({ beat := beat, kind := kind, col := col, row := row, bytes := bs.take (32 * n) } :: es, f)

/-- The first entry of a row that goes back in column. -/
def outOfOrder : List ImgEntry → Option ImgEntry
  | a :: b :: r => if b.col < a.col then some b else outOfOrder (b :: r)
  | _ => none

/-- Entries by row, as the west-edge tiles receive them. -/
def byRow (rows : Nat) (es : List ImgEntry) : NMap (List ImgEntry) :=
  (range 0 rows).map (fun y => (y, es.filter (fun e => e.row == y)))

/-- The failure that the Junction die finds in an image as it reads it. -/
def imageFault (rows : Nat) (es : List ImgEntry) (f : Option (Nat × Nat × Nat)) : Option (Nat × Nat × Nat) :=
  match (byRow rows es).findSome? (fun p => outOfOrder p.2) with
  | some e => some (e.beat, e.col, e.row)
  | none => f

/-- A launch image fails (R397). -/
def imageFailed (s : State) (rid beat col row : Nat) : State :=
  match s.region? rid with
  | none => s
  | some r => freezeQueue (count s 25) r.qid 1 (some rid) none 1 (natLe 2 beat ++ natLe 1 col ++ natLe 1 row)

/-- Read a region's image and let it spread to the tiles that have not started; a failed access or a failing entry freezes the queue
(R35, R450). -/
def readImage (s : State) (rid : Nat) : State :=
  match s.region? rid with
  | none => s
  | some r =>
    match jdReadBeats s r.part r.lrec.image r.lrec.imglen with
    | (s, .error e) => freezeQueue (count s 25) r.qid 1 (some rid) none 2 (failBytes e)
    | (s, .ok bs) =>
      let (es, f) := parseImage r.cols (4 * r.lrec.height) (r.lrec.imglen + 1) 0 bs
      let due := es.filter (fun e => !(s.tile (tileAt s r.px r.py e.col e.row)).started)
      let s := s.setRegion rid { r with img := byRow (4 * r.lrec.height) due }
      match imageFault (4 * r.lrec.height) es f with
      | some (b, c, y) => imageFailed s rid b c y
      | none => s

/-! ### Placement (R334, R335) -/

/-- The column of a package page, as 17 × die + position. -/
def pageColumn (s : State) (x y : Nat) : Nat := 17 * (pageGroup s x y / 32) + pageGroup s x y % 32

/-- The hottest sensor among the columns of a rectangle, in quarter degrees. -/
def hottest (s : State) (px py w h : Nat) : Nat :=
  (rectPages px py w h).foldl (fun m p =>
    let v := mreg s (0x1000 + 8 * pageColumn s p.1 p.2)
    max m (max (wfld v 0 10) (wfld v 16 10))) 0

/-- Duty of a region for the samples as they stand: min(DT, DP) (R354). -/
def dutyFor (s : State) (px py w h : Nat) : Nat :=
  let p := mreg s 0x400
  let over_ : Int := (hottest s px py w h : Int) - 4 * (wfld p 32 8 : Int) + 32
  let dt : Nat := if over_ ≤ 0 then 64 else max 1 (64 - 8 * cdiv over_.toNat 4)
  min dt (wfld p 24 7)

/-- A region newly placed at an origin. -/
def newRegion (s : State) (q : Req) (px py : Nat) : Region :=
  { part := q.part, qid := q.qid, tag := q.tag, pkt := q.pkt, lrec := q.lrec, px := px, py := py, st := .configuring, dom := 0,
    duty := dutyFor s px py q.lrec.width q.lrec.height, dutyNext := dutyFor s px py q.lrec.width q.lrec.height, wd := 0,
    progress := false, budget := q.lrec.siding
    reserved := min q.lrec.siding ((poolFree s q.part).length - poolReserved s q.part), spans := launchSpans q.lrec, curr := [], regrant := [],
    frozen := false, reqs := [], img := [], imgFail := none, notResumable := false, lostWalker := false, killed := false, why := 0,
    moveTo := none, placedAt := s.placeNo, savedAt := 0, owes := q.owes, layout := 0, tiles := [], pages := [] }

/-- Groups of a region. -/
def regionGroups (s : State) (r : Region) : List Nat :=
  (rectPages r.px r.py r.lrec.width r.lrec.height).map (fun p => pageGroup s p.1 p.2)

/-- Give the tiles of a region their relative coordinates and nothing else; barriers and collective entries of its pages are at
reset. -/
def freshTiles (s : State) (rid : Nat) (r : Region) : State :=
  let s := (regionGroups s r).foldl (fun s g => s.setGroup g { s.group g with bars := [], cents := [] }) s
  (range 0 r.ntiles).foldl (fun s i =>
    s.setTile (tileOfTix s r i) { (s.tile (tileOfTix s r i)).fresh with rgn := some rid, col := i % r.cols, row := i / r.cols }) s

/-- Clear CHKST of a region (R425). -/
def clearChk (s : State) (rid : Nat) : State := setMreg (setMreg s (0x400000 + 16 * rid) 0) (0x400008 + 16 * rid) 0

/-- The new origin keeps the dies of every relative page (R88, R336, R338). -/
def sameDies (r : Region) (px py : Nat) : Bool :=
  (rectPages 0 0 r.lrec.width r.lrec.height).all (fun p =>
    pageDie (r.px + p.1) (r.py + p.2) == pageDie (px + p.1) (py + p.2))

/-- An activation holds pre-emptions, restores and SBFCMD commands: only its block, its abort or its commit ends that (R440). -/
def holdsStops (s : State) : Bool := s.sec.fwState == 2 || s.sec.fwState == 3

/-- A saved region may be restored at an origin. -/
def restoreGood (s : State) (r : Region) (px py : Nat) : Bool :=
  originGood s r.part r.lrec.width r.lrec.height r.lrec.walkers px py && sameDies r px py && qState s r.qid != 4
    && !holdsStops s && !s.swapped.contains r.part

/-- A move is under way in the partition: room is made for a request (R336). -/
def moving (s : State) (part : Nat) : Bool :=
  s.regions.any (fun p => p.2.part == part && match p.2.moveTo with
    | some o => p.2.st == .stopping || (p.2.st == .saved && restoreGood s p.2 o.1 o.2)
    | none => false)

/-- PLACE_REGION: the request of a partition whose turn it is, under a free region id; a partition that is swapped out takes none (R339). -/
def execPlaceRegion (part rgn : Nat) (s : State) : Out :=
  match nextReq s part with
  | none => .next s
  | some q =>
    let rest := { s with marsh := s.marsh.filter (fun p => p.seq != q.seq) }
    if q.lrec.idemp && !qSys s q.qid then
      let s := cancelLaunch rest q.part q.qid q.lrec none none q.owes
      .next (countRec s { ErrRec.base s 25 1 with cycsrc := 2, cyc := s.sbcyc, tag := q.tag, qid := q.qid, part := q.part,
                                                  detail := natLe 2 0x48 })
    else if rgn ≥ 4096 || (s.region? rgn).isSome || savedFirst s q || moving s part || s.swapped.contains part then .next s
    else
      match findOrigin s part q.lrec.width q.lrec.height q.lrec.walkers with
      | none => .next s
      | some (px, py) =>
        let r := newRegion s q px py
        .next (readImage (clearChk (freshTiles ({ rest with placeNo := s.placeNo + 1 }.setRegion rgn r) rgn r) rgn) rgn)

/-! ### Entries at a tile (R34, R35, R85, R130, R223, R245, R247, R397) -/

/-- The entry that reaches a tile next on its row: the head of the row's stream, if it is the tile's own. -/
def dueEntry (s : State) (tid : Nat) : Option (Nat × Region × ImgEntry × List ImgEntry) :=
  let t := s.tile tid
  match t.rgn with
  | none => none
  | some rid =>
    match s.region? rid with
    | none => none
    | some r =>
      match NMap.findD r.img t.row [] with
      | e :: rest => if e.col = t.col && r.st = .configuring then some (rid, r, e, rest) else none
      | [] => none

/-- The entry is as long as its count of n bindings of m bytes makes it. DESIGN CHOICE: the image of one that is not fails
(notes/assumptions/79.md). -/
def beatsFit (bs : List Byte) (n m : Nat) : Bool := rnum bs 4 2 == cdiv (16 + m * n) 32

/-- Bindings of a RING entry; none if one of them fails. DESIGN CHOICE: reserved bits of RING, CHAN and PORT entries are ignored; R397
lists no fate for them (notes/assumptions/79.md). -/
def takeRings (gsplog : Nat) (bs : List Byte) : Nat → Nat → Tile → Option Tile
  | 0, _, t => some t
  | n + 1, i, t =>
    let w := rnum bs (0x10 + 16 * i) 16
    let no := fld w 0 5
    let r : Ring :=
      { Ring.reset with bound := true, spG := tb w 5, isRec := tb w 6, logn := fld w 8 4, slot := fld w 16 16, base := fld w 32 32,
                        side := fld w 64 16, sbase := fld w 96 32 }
    if (t.ring no).bound || r.logn == 0 || r.logn > 12 || r.slot == 0 || r.slot > 8192 || r.side > 1024 || r.base % 32 != 0
        || r.sbase % 4 != 0 || (r.spG && gsplog == 0) then none
    else takeRings gsplog bs n (i + 1) (t.setRing no r)

/-- Bindings of a CHAN entry. -/
def takeChans (bs : List Byte) : Nat → Nat → Tile → Option Tile
  | 0, _, t => some t
  | n + 1, i, t =>
    let w := rnum bs (0x10 + 8 * i) 8
    let port := fld w 0 4
    if (NMap.find? t.chans port).isSome then none
    else takeChans bs n (i + 1) { t with chans := NMap.put t.chans port (fld w 8 22, tb w 4) }

/-- Bindings of a PORT entry. DESIGN CHOICE: an entry with NPORT 0 binds nothing; R397 lists no fate for it (notes/assumptions/79.md). -/
def takePorts (bs : List Byte) : Nat → Nat → Tile → Option Tile
  | 0, _, t => some t
  | n + 1, i, t =>
    let w := rnum bs (0x10 + 4 * i) 4
    let port := fld w 0 5
    let ring := fld w 8 5
    if (NMap.find? t.ports port).isSome || t.ports.any (fun p => p.2 == ring) then none
    else takePorts bs n (i + 1) { t with ports := NMap.put t.ports port ring }

/-- Where an entry lies in D. -/
def entryVa (r : Region) (e : ImgEntry) : Nat := (r.lrec.image + 32 * e.beat) % 2 ^ 64

/-- What an entry does to its tile; none if it fails (R397). -/
def takeEntry (r : Region) (e : ImgEntry) (t : Tile) : Option Tile :=
  let bs := e.bytes
  let has (k : Nat) : Bool := t.config.any (fun c => c.kind == k)
  match e.kind with
  | 1 => if has 1 then none else some t
  | 2 =>
    if entryHeader bs 2 37 && routeSelf bs then
      some { t with arr := { t.arr with routes := NMap.put t.arr.routes (rnum bs 8 1) (routeOf bs 4 (entryVa r e)) } }
    else none
  | 3 =>
    if entryHeader bs 3 137 && oppSelf bs then
      some { t with arr := { t.arr with opps := NMap.put t.arr.opps (rnum bs 8 1) (oppOf bs 4 (entryVa r e)) } }
    else none
  | 4 => let n := rnum bs 8 1
    if n == 0 || n > 32 || !beatsFit bs n 16 then none else takeRings r.lrec.gsplog bs n 0 t
  | 5 => let n := rnum bs 8 1
    if n == 0 || n > 16 || !beatsFit bs n 8 then none else takeChans bs n 0 t
  | 6 => if beatsFit bs (rnum bs 8 1) 4 then takePorts bs (rnum bs 8 1) 0 t else none
  | 7 =>
    let w := rnum bs 8 1
    if w = 0xFF then some { t with walker := none } else if w < r.lrec.walkers then some { t with walker := some w } else none
  | _ => some t

/-- Slot that a plane's entry, or count that a PORT entry, names. -/
def entrySlot (e : ImgEntry) : Nat := rnum e.bytes 8 1

/-- Plane entries of an image stand resident together at some time: no entry between them takes the slot of the earlier one (R393). -/
def standTogether (l : List ImgEntry) (a b : ImgEntry) : Bool :=
  a.beat < b.beat && !l.any (fun x => x.kind == a.kind && entrySlot x == entrySlot a && a.beat < x.beat && x.beat < b.beat)

/-- The join of a route entry and an opcode entry, if the one needs the other. -/
def entriesJoin (route opp : ImgEntry) : Bool :=
  let r := routeOf route.bytes 0 0
  let p := oppOf opp.bytes 0 0
  !(p.rslot == entrySlot route && p.rver == r.ver) || planesJoin r p

/-- An entry agrees with the tile's other entries: rings that ports name, and planes against bindings and against the plane entries before
them, those too whose slot a later entry took (R393, R397). -/
def entryFits (t : Tile) (e : ImgEntry) : Bool :=
  let slot := entrySlot e
  match e.kind with
  | 2 => routePorts t (routeOf e.bytes 0 0)
    && t.config.all (fun f => !(f.kind == 3 && standTogether t.config f e) || entriesJoin e f)
  | 3 => t.config.all (fun f => !(f.kind == 2 && standTogether t.config f e) || entriesJoin f e)
  | 6 => (range 0 slot).all (fun i => (t.ring (fld (rnum e.bytes (0x10 + 4 * i) 4) 8 5)).bound)
  | _ => true

/-- What fails once a tile has its LAST entry: an entry, PORT entries first, or none where the PROG entry is missing. -/
def lastFailure (t : Tile) : Option (Option Nat) :=
  match (t.config.filter (fun e => e.kind == 6) ++ t.config).find? (fun e => !entryFits t e) with
  | some e => some (some e.beat)
  | none => if t.config.any (fun c => c.kind == 1) then none else some none

/-- The beat that a failure names; where an entry is missing the manual gives none, so that the beat is free. -/
def failBeat (s : State) (rid : Nat) (t : Tile) (beat : Option Nat) : State :=
  match beat with
  | some b => imageFailed s rid b t.col t.row
  | none => imageFailed { s with ticks := s.ticks + 1 } rid ((Config.freeWord s.ticks).toNat % 2 ^ 16) t.col t.row

/-- The image has been sent and some tile of the region never took a LAST entry. -/
def lastMissing (s : State) (r : Region) : Option Nat :=
  if r.img.all (fun p => p.2.isEmpty) then
    (regionTiles s r).find? (fun u => let t := s.tile u; !t.started && !t.gotLast && !t.failed)
  else none

/-- The failure of a tile without LAST. -/
def noteMissing (s : State) (rid : Nat) : State :=
  match s.region? rid with
  | none => s
  | some r =>
    match lastMissing s r with
    | none => s
    | some u => failBeat s rid (s.tile u) none

/-- A tile takes its next entry, if it is of a kind; a tile that has failed or started lets it go (R397). -/
def entryStep (s : State) (tid kind : Nat) : State :=
  match dueEntry s tid with
  | none => s
  | some (rid, r, e, rest) =>
    if e.kind != kind then s
    else
      let t := s.tile tid
      let s := s.setRegion rid { r with img := NMap.put r.img t.row rest }
      if t.failed || t.started then noteMissing s rid
      else
        let taken := if t.gotLast then none else takeEntry r e t
        let t' := taken.map (fun u => { u with config := u.config ++ [e], gotLast := e.kind == 15 })
        match t' with
        | some u =>
          match (if e.kind = 15 then lastFailure u else none) with
          | some beat => failBeat (s.setTile tid { u with failed := true }) rid t beat
          | none => noteMissing (s.setTile tid u) rid
        | none => imageFailed (s.setTile tid { t with failed := true }) rid e.beat t.col t.row

def execProgEntry (tile : Nat) (s : State) : Out := .next (entryStep s tile 1)
def execRouteEntry (tile : Nat) (s : State) : Out := .next (entryStep s tile 2)
def execOpplaneEntry (tile : Nat) (s : State) : Out := .next (entryStep s tile 3)
def execRingEntry (tile : Nat) (s : State) : Out := .next (entryStep s tile 4)
def execChanEntry (tile : Nat) (s : State) : Out := .next (entryStep s tile 5)
def execPortEntry (tile : Nat) (s : State) : Out := .next (entryStep s tile 6)
def execWalkEntry (tile : Nat) (s : State) : Out := .next (entryStep s tile 7)
def execLastEntry (tile : Nat) (s : State) : Out := .next (entryStep s tile 15)

/-! ### Start (R30, R36, R131, R250) -/

/-- A seed as a generator takes it: 0 becomes 0xACE1 (R71). -/
def seedOf (n : Nat) : Nat := if n % 2 ^ 16 = 0 then 0xACE1 else n % 2 ^ 16

/-- Seed the generators of a tile. -/
def seedGens (t : Tile) (seed : Nat) : Tile :=
  (range 0 32).foldl (fun t p => t.setGen p (seedOf (Nat.xor seed (t.col * 1024 + t.row * 32 + p)))) t

/-- The engine's first bundle. -/
def progStart (r : Region) (t : Tile) (g : Eng) : Nat :=
  match t.config.find? (fun c => c.kind == 1) with
  | some e => (r.lrec.entry + 32 * rnum e.bytes (8 + 4 * g.num) 4) % 2 ^ 64
  | none => 0

/-- The state of a tile that starts: what the image bound, and every other thing at its value at reset. -/
def startTile (r : Region) (t : Tile) : Tile :=
  let cur := ((range 0 4).find? (fun k => (NMap.find? t.arr.opps k).isSome)).getD 0
  let u := { t.fresh with
    started := true, rgn := t.rgn, col := t.col, row := t.row, walker := t.walker, rings := t.rings, chans := t.chans, ports := t.ports,
    arr := { Arr.reset with routes := t.arr.routes, opps := t.arr.opps, cur := cur }, config := t.config, gotLast := true,
    preempt := t.preempt }
  let u := engines.foldl (fun u g => u.updEng g (fun e => { e with fetch := progStart r t g })) u
  (seedGens u r.lrec.seed).setPreempt t.preempt

/-- Every tile of a region runs. -/
def noteRunning (s : State) (rid : Nat) : State :=
  s.updRegion rid (fun r => if r.st == .configuring && (regionTiles s r).all (fun u => (s.tile u).started) then { r with st := .running } else r)

/-- An entry for the tile, or for one west of it, is still on its row's way: the tile has not had its last entry yet (R35). -/
def entryComing (r : Region) (t : Tile) : Bool := (NMap.findD r.img t.row []).any (fun e => e.col ≤ t.col)

/-- Beat of the CHAN entry that binds a port. -/
def chanBeat (t : Tile) (port : Nat) : Nat :=
  ((t.config.find? (fun c => c.kind == 5 &&
    (range 0 (rnum c.bytes 8 1)).any (fun i => fld (rnum c.bytes (0x10 + 8 * i) 8) 0 4 == port))).map ImgEntry.beat).getD 0

/-- TILE_START: the ports bind, the TSP is emptied, and the traffic that its router has held arrives (R35, R36, R131). -/
def execTileStart (tile : Nat) (s : State) : Out :=
  let t := s.tile tile
  match t.rgn with
  | none => .next s
  | some rid =>
    match s.region? rid with
    | none => .next s
    | some r =>
      if r.st != .configuring || t.started || t.failed || !t.gotLast || entryComing r t then .next s
      else
        match bindAll s tile t.chans with
        | .error p => .next (imageFailed (s.setTile tile { t with failed := true }) rid (chanBeat t p) t.col t.row)
        | .ok s =>
          let s := { s with st := s.st.clear (tspKey tile 0) (2 ^ r.lrec.tsplog) }
          .next (noteRunning (freeTokens (s.setTile tile { startTile r t with heldTok := t.heldTok }) tile) rid)

/-! ### Retirement (R47, R414) -/

/-- The write logs hold slots that no commit token has published: open ones, and full ones that are not FILLED yet (R243). -/
def logHeld (t : Tile) : Bool :=
  t.arr.outs.any (fun p => p.2.opened) || t.ports.any (fun p => 16 ≤ p.1 && (t.ring p.2).claimed != (t.ring p.2).filled)

/-- The array holds writes that no commit token has published, or may still write. -/
def unpublished (t : Tile) : Bool := logHeld t || !t.arr.firings.isEmpty || t.arr.commit

/-- Every tile has ended and every slot is idle. -/
def allOver (s : State) (r : Region) : Bool :=
  (regionTiles s r).all (fun u => (s.tile u).ended && !(s.tile u).sys && (s.tile u).slots.all (fun p => !p.2.act))

/-- Every walker is exhausted and no chunk is current. -/
def walkersDone (r : Region) : Bool := (range 0 r.lrec.walkers).all r.exhausted && r.curr.isEmpty

/-- Every access of the region's tiles to another agent is performed, so that the completion add is a release at any CCSCOPE (R47,
R115). -/
def allPerformed (s : State) (r : Region) : Bool :=
  let l := regionTiles s r
  s.remotes.all (fun p => p.2.unit = 17 || !l.contains p.2.tile)

/-- R47 holds. -/
def canRetire (s : State) (r : Region) : Bool :=
  r.st == .running && allOver s r && walkersDone r && (regionTiles s r).all (fun u => !unpublished (s.tile u)) && allPerformed s r

/-- What is left of the Siding budget of a region that retires, while a channel that its tiles wrote still holds segments (R137, R150). -/
def keepBudget (s : State) (rid : Nat) (r : Region) : State :=
  if s.chans.any (fun p => p.2.wrgn == some rid && p.2.wplaced == r.placedAt && 0 < p.2.nseg) then
    { s with pastBudgets := NMap.put s.pastBudgets r.placedAt r.budget }
  else s

/-- Give the pages of a region back; what its tiles held stays there until tiles start in their place (R36, R449). -/
def vacate (s : State) (rid : Nat) (r : Region) : State :=
  let s := (regionTiles s r).foldl (fun s u => s.updTile u Tile.left) s
  { s with creqs := s.creqs.filter (fun q => q.rgn != rid), cxfers := s.cxfers.filter (fun x => x.rgn != rid) }

/-- REGION_RETIRE. -/
def execRegionRetire (rgn : Nat) (s : State) : Out :=
  match s.region? rgn with
  | none => .next s
  | some r =>
    if !canRetire s r then .next s
    else
      let gid := pageGroup s r.px r.py
      let s := completeLaunch s r.part r.qid r.lrec (some gid) (some rgn) r.owes false
      let s := keepBudget (vacate s rgn r) rgn r
      .next { s with regions := NMap.erase s.regions rgn }

/-- REGION_UNRETIRABLE. -/
def execRegionUnretirable (rgn : Nat) (s : State) : Out :=
  match s.region? rgn with
  | none => .next s
  | some r =>
    let left := (range 0 r.lrec.walkers).any (fun w => (r.span w).1 < (r.span w).2)
    let log := (regionTiles s r).any (fun u => logHeld (s.tile u))
    let busy := (regionTiles s r).any (fun u => !(s.tile u).arr.firings.isEmpty || (s.tile u).arr.commit)
    if r.st == .running && allOver s r && !busy && (left || log) then
      .next (freezeQueue s r.qid 3 (some rgn) none (b2n left + 2 * b2n log) [])
    else .next s

end Sys2Proof.Machine
end

