-- ==== Sys2Proof/Machine/Preempt.lean ====
section
/-! DEFINITION. Pre-emption, saving and restoring of regions, killed regions, the watchdog and walker errors (R50 to R55, R237, R264,
R310, R405, R409, R412, R415). -/

namespace Sys2Proof.Machine

/-! ### Requests (R50, R52, R336, R337, R339) -/

/-- Ports of the tiles of a region are given up, and its transfers and requests go; then it is killed (R52). -/
def killAll (s : State) (rid : Nat) : State :=
  match s.region? rid with
  | none => s
  | some r =>
    let s := (regionTiles s r).foldl (fun s u => if (s.tile u).started then unbindAll s u (s.tile u).chans else s) s
    let s := { s with creqs := s.creqs.filter (fun q => q.rgn != rid), cxfers := s.cxfers.filter (fun x => x.rgn != rid) }
    killRegion s rid

/-- Pre-empt a region: one that meets R47 retires instead; an idempotent one is killed; an activation holds the pre-emption until it is
blocked, aborted or committed (R52, R337, R440). -/
def preempt (s : State) (rgn : Nat) : State :=
  match s.region? rgn with
  | none => s
  | some r =>
    if r.st == .saved || r.st == .stopping || canRetire s r then s
    else if holdsStops s then { s with heldStops := setIns s.heldStops rgn }
    else if r.lrec.idemp then killAll s rgn
    else stopRegion s rgn 0

/-- The pre-emptions that an activation has held begin (R440). -/
def releaseStops (s : State) : State := s.heldStops.foldl preempt { s with heldStops := [] }

/-- A region comes before another when room is made for a request: the lowest PRIO, the latest placed among equals (R337). -/
def yieldsFirst (a b : Nat × Region) : Bool :=
  a.2.lrec.prio < b.2.lrec.prio || (a.2.lrec.prio == b.2.lrec.prio
    && (b.2.placedAt < a.2.placedAt || (b.2.placedAt == a.2.placedAt && b.1 ≤ a.1)))

/-- Regions of a partition that hold pages and are not being stopped. -/
def running (s : State) (part : Nat) : List (Nat × Region) :=
  s.regions.filter (fun p => p.2.part == part && (p.2.st == .running || p.2.st == .configuring))

/-- The request of a partition whose turn it is, if it has no place as things stand and no region is being stopped for it. One that is
never placed (R436), or whose partition is swapped out (R339), needs none; while an activation runs, nothing is begun for one (R440). -/
def stuckReq (s : State) (part : Nat) : Option Req :=
  match nextReq s part with
  | none => none
  | some q =>
    if (findOrigin s part q.lrec.width q.lrec.height q.lrec.walkers).isSome
      || s.regions.any (fun p => p.2.part == part && p.2.st == .stopping) || (q.lrec.idemp && !qSys s q.qid)
      || s.swapped.contains part || holdsStops s then none
    else some q

/-- The region that the Marshaller pre-empts for a request: of PRIO strictly below its effective priority (R337). -/
def yielder (s : State) (q : Req) : Option Nat :=
  let l := (running s q.part).filter (fun p => p.2.lrec.prio < effPrio s q.part q.lrec.prio q.at_)
  (l.find? (fun p => l.all (yieldsFirst p))).map Prod.fst

/-! ### Moves (R336) -/

/-- The package without some regions. -/
def withoutRegions (s : State) (l : List (Nat × Region)) : State :=
  { s with regions := s.regions.filter (fun p => !(l.any (fun q => q.1 == p.1))) }

/-- Subsets of k elements of a list, in order. -/
def choose {α : Type} : Nat → List α → List (List α)
  | 0, _ => [[]]
  | _ + 1, [] => []
  | k + 1, a :: l => (choose k l).map (fun m => a :: m) ++ choose (k + 1) l

/-- Origins for regions, one after the other, that leave room for a request. -/
def seats (s : State) (q : Req) : List (Nat × Region) → Option (List (Nat × Nat × Nat))
  | [] => if (findOrigin s q.part q.lrec.width q.lrec.height q.lrec.walkers).isSome then some [] else none
  | (i, r) :: l =>
    ((range 0 64).map (fun k => (k % 8, k / 8))).findSome? (fun o =>
      if restoreGood s r o.1 o.2 then
        (seats (s.setRegion i { r with px := o.1, py := o.2 }) q l).map (fun m => (i, o) :: m)
      else none)

/-- The partition holds enough free, ready and cool pages for a request. -/
def enoughPages (s : State) (q : Req) : Bool :=
  q.lrec.width * q.lrec.height ≤ ((range 0 64).filter (fun k => pageGood s q.part (k % 8) (k / 8))).length

/-- The moves that make room for a request: the fewest regions, of effective priority no higher than its own, each with its new
origin. An idempotent region is not moved, since it would start over. -/
def moves (s : State) (q : Req) : Option (List (Nat × Nat × Nat)) :=
  let l := (running s q.part).filter (fun p => !p.2.lrec.idemp && p.2.lrec.prio ≤ effPrio s q.part q.lrec.prio q.at_)
  if enoughPages s q then
    (range 1 l.length).findSome? (fun k => (choose k l).findSome? (fun m => seats (withoutRegions s m) q m))
  else none

/-- Begin the moves: each region is stopped, and its new origin noted. -/
def beginMoves (s : State) (l : List (Nat × Nat × Nat)) : State :=
  l.foldl (fun s m => preempt (s.updRegion m.1 (fun r => { r with moveTo := some m.2 })) m.1) s

/-! ### A swap (R339) -/

/-- Pre-empt every region of a partition and unmap every queue of it. Until it is swapped in again, none of its queues is mapped, and none
of its regions is placed or restored. -/
def swapOut (s : State) (part : Nat) : State :=
  let s := { s with swapped := setIns s.swapped part }
  let s := ((s.regions.filter (fun p => p.2.part == part)).map Prod.fst).foldl preempt s
  (s.threads.filterMap (fun p => p.2.q)).foldl (fun s q => if qPart s q = part then afterUnmap (unmap s q) q else s) s

/-- The region is the one that the Marshaller pre-empts for a request that neither placement nor compaction serves (R337). -/
def displaceFor (s : State) (rgn : Nat) (q : Req) : State :=
  if (moves s q).isNone && yielder s q = some rgn then preempt s rgn else s

/-- The region takes part in the moves that make room for a request, which begin (R336). -/
def moveFor (s : State) (rgn : Nat) (q : Req) : State :=
  match moves s q with
  | some l => if l.any (fun m => m.1 == rgn) then beginMoves s l else s
  | none => s

/-- PREEMPT_REQUEST: the Signal Box pre-empts the region for a request that has no place, or moves it to make room for one, or swaps a
partition out or in. -/
def execPreemptRequest (ask : Preemption) (s : State) : Out :=
  let stuck := (s.region? ask.rgn).bind (fun r => stuckReq s r.part)
  match ask.why with
  | .swap => .next (if ask.rgn < 16 then swapOut s ask.rgn else s)
  | .swapIn => .next { s with swapped := setDel s.swapped ask.rgn }
  | .displace => .next ((stuck.map (displaceFor s ask.rgn)).getD s)
  | .move => .next ((stuck.map (moveFor s ask.rgn)).getD s)

/-! ### The trap of a tile (R50, R51, R131, R237, R264, R310) -/

/-- Slots that still wait for an answer from outside the tile: a commit position counts only writes that are performed (R237). -/
def slotsOpen (s : State) (tid : Nat) : Bool :=
  (range 0 16).any (fun n => let v := (s.tile tid).slot n
    v.act && (v.inFlight || slotWritesOut s tid n || (v.opc == opClst && outstanding s tid n != 0)))

/-- An active slot stops at its commit position; a command that has nothing to move ends but for its add (R237). -/
def stopAt (tid : Nat) (s : State) (n : Nat) : State :=
  let v := (s.tile tid).slot n
  let s := if v.held || v.addpend || v.opc = opSbar || v.opc = opStash || v.opc = opClst then s else closeSlot s tid n
  if ((s.tile tid).slot n).act then updSlot (parkSlot s tid n) tid n (fun v => { v with stopped := true, joined := false }) else s

/-- Every active slot stops; requests for reservations are withdrawn. -/
def stopSlots (s : State) (tid : Nat) : State :=
  let s := (range 0 16).foldl (stopAt tid) s
  match (s.tile tid).rgn with
  | some rid => { s with creqs := s.creqs.filter (fun q => q.rgn != rid || q.granted) }
  | none => s

/-! ### The context block (R53, R286) -/

/-- Version 1 of the save layout, as the executing image names it (R53, R440). -/
def packHead (s : State) (t : Tile) : List Byte := natLe 8 (s.sec.layx % 2 ^ 16 + t.col % 32 * 2 ^ 16 + t.row % 32 * 2 ^ 21)

/-- PCS. -/
def packPcs (t : Tile) : List Byte := engines.flatMap (fun g => natLe 8 (t.special (6 + g.num)).toNat)

/-- GPRS: the registers of E, A, M and Y. -/
def packRegs (t : Tile) : List Byte := engines.flatMap (fun g => (range 0 32).flatMap (fun n => natLe 8 (t.priv g n).toNat))

def unpackRegs (t : Tile) (rd : Nat → Nat → Nat) : Tile :=
  engines.foldl (fun t g => (range 0 32).foldl (fun t n => t.setPriv g n (wd (rd (256 * g.num + 8 * n) 8))) t) t

/-- SPECIAL. -/
def packSpecial (t : Tile) : List Byte := (range 0 64).flatMap (fun n => natLe 8 (t.special n).toNat)

/-- The bits of a special register that are fields of it; the others are reserved and read zero (R6, R162 to R165, R399, R400). -/
def srFields (n : Nat) : Word := if n = 4 then 7 else if (24 ≤ n && n < 32) || 40 ≤ n then 0 else srWritable n

def unpackSpecial (t : Tile) (rd : Nat → Nat → Nat) : Tile :=
  (range 0 64).foldl (fun t n => t.setSpecial n (wd (rd (8 * n) 8) &&& srFields n)) t

/-- A record of PLANES: source address, version, source space, resident. -/
def packPlane (p : Option (Nat × Nat × Nat)) : List Byte :=
  match p with
  | some (addr, ver, sp) => natLe 8 addr ++ natLe 8 (ver % 256 + sp % 8 * 256 + 2 ^ 11)
  | none => natLe 16 0

/-- Port descriptors of a route slot; zeros if it is not resident. -/
def packPorts (p : Option RoutePlane) : List Byte :=
  match p with
  | some r => (r.inp ++ r.out).flatMap (natLe 4)
  | none => natLe 128 0

/-- The record of a plane, of the route slots and then the opcode slots; one whose copy was struck is not resident (R408). -/
def planeRecord (a : Arr) (k : Nat) : Option (Nat × Nat × Nat) :=
  if a.lost.contains k then none
  else if k < 2 then (NMap.find? a.routes k).map (fun r => (r.addr, r.ver, r.sp))
  else (NMap.find? a.opps (k - 2)).map (fun p => (p.addr, p.ver, p.sp))

/-- Planes whose recorded source is a die-absolute Yard address. -/
def dieAbsPlanes (a : Arr) : List Nat := (range 0 6).filter (fun k => (planeRecord a k).any (fun p => 8 ≤ p.2.2))

/-- MCMDS. -/
def packMcmds (t : Tile) (dom : Nat) : List Byte :=
  natLe 32 t.retmap.toNat
    ++ (range 0 6).flatMap (fun k => packPlane (planeRecord t.arr k))
    ++ natLe 8 (t.arr.cur % 4 + (match t.arr.swap with | some (k, _) => 4 + k % 4 * 8 | none => 0) + t.arr.eotc % 32 * 32)
    ++ natLe 8 ((t.arr.swap.map Prod.snd).getD 0) ++ natLe 8 dom ++ natLe 8 0
    ++ (range 0 2).flatMap (fun k => packPorts (NMap.find? t.arr.routes k))
    ++ natLe 8 t.accPois.toNat ++ natLe 88 0

/-- ACCS. -/
def packAccs (t : Tile) : List Byte := t.accList.flatMap (natLe 4)

/-- What the trap leaves in the context block: the fields that no save instruction writes (notes/assumptions/77.md). -/
def writeCtx (s : State) (tid ctx : Nat) (pcs : List Byte) : State :=
  let t := s.tile tid
  let put (s : State) (off : Nat) (bs : List Byte) : State := writeRun s 0 (yardKey (dieOf tid) (ctx + off)) bs
  let s := put s 0 (packHead s t ++ pcs ++ natLe 8 t.preds.toNat)
  let s := put s 0x60 (natLe 8 t.cyc)
  let s := put s 0x100 (packRegs t ++ packSpecial t)
  let s := put s 0xD00 (packMcmds t (domNow s tid))
  put s 0x1000 (packAccs t)

/-- Where the engines of a tile that is stopped in system code stand. -/
def stoppedPcs (t : Tile) : List Byte := engines.flatMap (fun g => natLe 8 ((headPc (t.eng g)).getD ((t.eng g).fetch + (t.eng g).lane)))

/-- A TSP with its full bits goes to the Yard (R53). -/
def storeTsp (s : State) (tid img len : Nat) : State :=
  let s := copyRun s (yardKey (dieOf tid) img) (tspKey tid 0) len
  writeRun s 0 (yardKey (dieOf tid) (img + len)) ((range 0 (len / 32)).map (fun b => BitVec.ofNat 8 ((range 0 8).foldl (fun a i =>
    if s.st.full.contains (tspKey tid (4 * (8 * b + i))) then a + 2 ^ i else a) 0)))

/-- The tile is stopped in system code, and its region is being stopped: it is saved with its system state (R409). -/
def stoppedInSys (t : Tile) : Bool := t.halted && t.sys

/-- Save a tile that is stopped in system code: its ports are given up, and the whole of its context block is written. DEDUCED: its TSP
image lies behind the block (R53, R409; notes/assumptions/32.md). -/
def saveStopped (s : State) (tid ctx : Nat) : State :=
  let s := dropArray (stopSlots s tid) tid
  let s := noteCtx (unbindAll s tid (s.tile tid).chans) tid 16 ctx
  let t := s.tile tid
  let put (s : State) (p : Nat × List Byte) : State := writeRun s 0 (yardKey (dieOf tid) (ctx + p.1)) p.2
  let s := [(0x30, (packX t).1 ++ packToks t ++ packBoqs t ++ packPhases t), (0x80, (packX t).2)].foldl put (writeCtx s tid ctx (stoppedPcs t))
  let s := ((range 0 ctxPieces).map (fun p => (ctxOff p, ctxBytes t 16 p))).foldl put s
  let s := storeTsp s tid (ctx + 8192) (2 ^ tspLog s tid)
  s.updTile tid (fun t => { t.setPreempt none with
    ctx := some ctx, saves := (range 0 5).map (fun k => (k, ctx)) ++ [(5, ctx + 8192)] })

/-- A tile about to take its pre-emption trap: nothing waits in its walkers, and every slot is parked. -/
def parkTile (s : State) (tile : Nat) : State := stopSlots (withdrawS s tile) tile

/-- No matrix command, plane load or PWR of the tile is under way (R285). -/
def matrixIdle (t : Tile) : Bool := t.cmds.isEmpty && (planesInFlight t).isEmpty

/-- Its ports are given up, and the trap waits. It comes after every other entry of its cycle, so that no exception of the cycle can come
first (R405). -/
def preemptWaits (s : State) (tile sub : Nat) : State :=
  let s := unbindAll s tile (s.tile tile).chans
  let s := updIl s tile (fun l => { l with blk := false, st := .idle, count := 0, armed := false })
  let tr : Trap := { code := 0x10, sub := sub, eng := .e, impr := true, slot := none, info := 0 }
  { s.updTile tile (fun t => { t.setPreempt none with enter := some tr }) with inCycle := false }

/-- PREEMPT_TRAP: system code's context block for the tile lies at a die-absolute Yard address. A tile that is stopped in system code takes
no trap and is saved as it stands, once its matrix commands and plane loads have retired (R276, R286). The array drops back when the trap
is taken (R264). The trap is put off while an engine's address has to be read from a peer's memory. -/
def execPreemptTrap (place : TrapAt) (s : State) : Out :=
  let tile := place.tile
  let ctx := place.ctx
  let t := s.tile tile
  match t.preempt with
  | none => .next s
  | some sub =>
    if !t.started || t.enter.isSome || slotsOpen s tile || ctx % 8192 != 0 || ctx + 8192 > 0x30000000 then .next s
    else if stoppedInSys t then
      .next (if matrixIdle t && ctx + 8192 + 2 ^ tspLog s tile + 2 ^ tspLog s tile / 32 ≤ 0x30000000 then saveStopped s tile ctx else s)
    else if t.sys || t.halted then .next s
    else
      let w := parkTile s tile
      if !trapReady (w.tile tile) then .next w
      else
        let u := tryEnter (preemptWaits (dropArray w tile) tile sub) tile
        if (u.tile tile).sys then
          .next (writeCtx { u.updTile tile (fun t => { t with ctx := some ctx }) with inCycle := s.inCycle } tile ctx (packPcs (u.tile tile)))
        else .next { u with starved := true }

/-! ### Saving (R50, R53, R54, R129, R311, R312) -/

/-- Cells or poisoned units of a range. -/
def cellsIn (m : List Host.Cell) (k n : Nat) : List Host.Cell := m.filter (fun c => k ≤ c.1 && c.1 < k + n)
def keysIn (l : List Nat) (k n : Nat) : List Nat := l.filter (fun a => k ≤ a && a < k + n)

/-- System code has saved the tile: every field of its context block, and its TSP by STASH (R50, R53). -/
def tileSaved (t : Tile) : Bool :=
  match t.ctx with
  | some c => (range 0 5).all (fun k => NMap.find? t.saves k == some c) && (NMap.find? t.saves 5).isSome
  | none => false

/-- The tile is ready for the walker block's image: it never started, or it is saved. -/
def tileStopped (s : State) (tid : Nat) : Bool :=
  let t := s.tile tid
  !t.started || tileSaved t

/-- The Yard address of the group record that system code of a page has written (R311). -/
def pageRecord (s : State) (gid : Nat) : Option Nat :=
  (range (gid * 16) 16).findSome? (fun u => NMap.find? (s.tile u).saves 6)

/-- A page is saved: its tiles, and its group record if one of them has started. -/
def pageSaved (s : State) (gid : Nat) : Bool :=
  (range (gid * 16) 16).all (fun u => !(s.tile u).started || (s.tile u).halted) || (pageRecord s gid).isSome

/-- Where a saved tile lies. -/
def savedTile (s : State) (tid : Nat) : SavedTile :=
  let t := s.tile tid
  let c := t.ctx.getD 0
  { started := t.started, ctx := c, img := (NMap.find? t.saves 5).getD 0, order := NMap.findD s.orders (yardKey (dieOf tid) c) []
    heldTok := t.heldTok, dieAbs := dieAbsPlanes t.arr }

/-- A page's group record, and its GSP by offset, which travels with the page (R129). DEDUCED: where no system code has written a record,
the barriers and entries themselves are kept (R310; notes/assumptions/101.md). -/
def savedPage (s : State) (gid : Nat) (len : Nat) : SavedPage :=
  let k := gspKey gid 0
  { grec := pageRecord s gid
    bars := if (pageRecord s gid).isSome then [] else (s.group gid).bars
    cents := if (pageRecord s gid).isSome then [] else (s.group gid).cents
    mem := (cellsIn s.st.mem k len).map (fun c => (c.1 - k, c.2))
    poison := (keysIn s.st.poison k len).map (· - k) }

/-- WALKER_IMAGE_WRITE: at a die-absolute Yard address of the origin's die, after system code has saved every tile; the region is
saved and its pages are free. -/
def execWalkerImageWrite (rgn addr : Nat) (s : State) : Out :=
  match s.region? rgn with
  | none => .next s
  | some r =>
    let gs := regionGroups s r
    if r.st != .stopping || addr % 32 != 0 || addr + 16384 > 0x30000000
      || !(r.killed || ((regionTiles s r).all (tileStopped s) && gs.all (pageSaved s))) then .next s
    else
      let tiles := (range 0 r.ntiles).map (fun i => (i, savedTile s (tileOfTix s r i)))
      let pages := ((range 0 gs.length).zip gs).map (fun p => (p.1, savedPage s p.2 (2 ^ r.lrec.gsplog)))
      let img := packWalkers r s.sec.layx
      let s := (chunk 64 256 img).zip (range 0 256) |>.foldl (fun s p =>
        writeRun s 0 (yardKey (pageDie r.px r.py) (addr + 64 * p.2)) p.1) s
      let s := { vacate s rgn r with creqs := s.creqs }
      .next (s.setRegion rgn { r with
        st := .saved, savedAt := s.sbcyc, layout := s.sec.layx, tiles := tiles
        pages := if r.killed then [] else pages, reqs := [] })

/-! ### Restoring (R52, R55, R131, R286, R338, R415) -/

/-- Put saved cells of a page back at a key. -/
def placeCells (s : State) (k len : Nat) (mem : List Host.Cell) (poison : List Nat) : State :=
  let st := s.st.clear k len
  { s with st := { st with
      mem := mem.foldl (fun m c => memSet m (k + c.1) c.2) st.mem
      poison := poison.foldl (fun l a => setIns l (k + a)) st.poison } }

/-- STASH copies a TSP back with its full bits (R55, R234). -/
def loadTsp (s : State) (tid img len : Nat) : State :=
  let k := yardKey (dieOf tid) img
  let s := copyRun s (tspKey tid 0) k len
  let bits := s.st.num (k + len) (len / 32)
  { s with st := (range 0 (len / 4)).foldl (fun st i => if tb bits i then st else st.setEmpty (tspKey tid (4 * i)) 4) s.st }

/-- The bindings, walker and program of a tile, taken again from the launch image; or the beat that fails (R55, R85, R397). -/
def configure (r : Region) : List ImgEntry → Tile → Except Nat Tile
  | [], t => .ok t
  | e :: l, t =>
    if e.kind = 2 || e.kind = 3 then configure r l t
    else match takeEntry r e t with
      | none => .error e.beat
      | some u => configure r l { u with config := u.config ++ [e], gotLast := u.gotLast || e.kind == 15 }

/-- DESIGN CHOICE: reserved bits of PRED, HEAD and the plane records are ignored (notes/assumptions/79.md). Everything of the context block
but the planes: `rd off n` is the number in n bytes of the block at `off` (R53, R286). -/
def loadBlock (t : Tile) (rd : Nat → Nat → Nat) (order : List Nat) : Tile :=
  let bytes (off n : Nat) : List Byte := natLe n (rd off n)
  let t := { t with started := true, preds := BitVec.ofNat 8 (rd 0x28 8) ||| 1, cyc := rd 0x60 8 }
  let t := unpackX t (bytes 0x30 8) (bytes 0x80 128)
  let t := unpackPhases (unpackBoqs (unpackToks t (bytes 0x38 8)) (bytes 0x40 24)) (bytes 0x58 8)
  let t := unpackSpecial (unpackRegs t (fun o n => rd (0x100 + o) n)) (fun o n => rd (0x500 + o) n)
  let t := loadSlots t none (fun o => bytes (0x700 + o) 64) (some order)
  let t := loadRings t (fun o => bytes (0xB00 + o) 16)
  let a := rd 0xD80 8
  { t.setAcc ((range 0 1024).map (fun i => rd (0x1000 + 4 * i) 4)) with
    retmap := BitVec.ofNat 256 (rd 0xD00 32)
    accPois := BitVec.ofNat 32 (rd 0xEA0 8)
    endAt := if (t.special 10).getLsbD 19 then (t.special 6).toNat else 0
    arr := { Arr.reset with
      cur := fld a 0 2, swap := if tb a 2 then some (fld a 3 2, rd 0xD88 8) else none, eotc := fld a 5 5 } }

/-- A resident plane is read again from its recorded source and given its recorded version; PORTD gives its port descriptors (R286). A
source in the Yard is read through the window of R87, but for the planes `abs`. -/
def reloadPlane (s : State) (tid : Nat) (abs : List Nat) (rd : Nat → Nat → Nat) (k : Nat) : State :=
  let w := rd (0xD28 + 16 * k) 8
  let addr := rd (0xD20 + 16 * k) 8
  let ver := fld w 0 8
  let sp := fld w 8 3 + (if abs.contains k then 8 else 0)
  let op := 2 ≤ k
  if !tb w 11 then s
  else match readEntry s (sourceWho s tid sp) (spOf (sp % 8)) (wd addr) (planeWords op) with
    | (s, .ok bs) => s.updTile tid (fun t => { t with arr :=
        if op then { t.arr with opps := NMap.put t.arr.opps (k - 2) { oppOf bs sp addr with ver := ver } }
        else { t.arr with routes := NMap.put t.arr.routes k { routeOf bs sp addr with
          ver := ver
          inp := (range 0 16).map (fun n => rd (0xDA0 + 128 * k + 4 * n) 4)
          out := (range 0 16).map (fun n => rd (0xDE0 + 128 * k + 4 * n) 4) } } })
    | (s, .error _) => s

/-- Every plane is reloaded; the marker count is full if the current plane's fan-in is reached, and is a committed value (R264). -/
def reloadPlanes (s : State) (tid : Nat) (abs : List Nat) (rd : Nat → Nat → Nat) : State :=
  let s := (range 0 6).foldl (fun s k => reloadPlane s tid abs rd k) s
  s.updTile tid (fun t =>
    let t := t.endGot 1
    let full := match NMap.find? t.arr.opps t.arr.cur with
      | some p => p.eotn != 0 && t.arr.eotc ≥ p.eotn
      | none => false
    { t with arr := { t.arr with eotFull := full, eotKept := (t.arr.eotc, full) } })

/-- Bring a saved tile back from the Yard and the launch image, bind its ports and return it from its trap; one that never started is
configured again. What fails is given by the beat of its entry (R55, R131, R397). -/
def restoreTile (s : State) (rid : Nat) (r : Region) (es : List ImgEntry) (i : Nat) (v : SavedTile) : Except (Nat × Nat × Nat) State :=
  let tid := tileOfTix s r i
  let col := i % r.cols
  let row := i / r.cols
  let fresh := { (s.tile tid).fresh with rgn := some rid, col := col, row := row, heldTok := v.heldTok, got := (s.tile tid).got }
  if !v.started then .ok (s.setTile tid fresh)
  else
    match configure r (es.filter (fun e => e.col == col && e.row == row)) fresh with
    | .error b => .error (b, col, row)
    | .ok t =>
      let k := yardKey (dieOf tid) v.ctx
      let s := loadTsp s tid v.img (2 ^ r.lrec.tsplog)
      let rd (off n : Nat) : Nat := s.st.num (k + off) n
      let s := rereadNests (reloadPlanes (s.setTile tid (loadBlock t rd v.order)) tid v.dieAbs rd) tid 16
      let t := s.tile tid
      match bindAll s tid (if (t.special 10).getLsbD 19 then t.chans.filter (fun p => portBusy t p.1) else t.chans) with
      | .error p => .error (chanBeat t p, col, row)
      | .ok s => .ok (leaveS s tid)

/-- Bring the saved tiles of a region back in turn. -/
def restoreTiles (s : State) (rid : Nat) (r : Region) (es : List ImgEntry) : NMap SavedTile → Except (Nat × Nat × Nat) State
  | [] => .ok s
  | (i, v) :: l =>
    match restoreTile s rid r es i v with
    | .error f => .error f
    | .ok s => restoreTiles s rid r es l

/-- Bring a page back: its GSP, and its barriers and entries, from the record that system code has written or as they were kept (R129, R310,
R312). -/
def restorePage (s : State) (r : Region) (gid : Nat) (v : SavedPage) : State :=
  let s := placeCells s (gspKey gid 0) (2 ^ r.lrec.gsplog) v.mem v.poison
  match v.grec with
  | some a => s.setGroup gid (unpackGroup (s.group gid) (s.st.bytes (yardKey (gid / 32) a) 1024))
  | none => s.setGroup gid { s.group gid with bars := v.bars, cents := v.cents }

/-- The region as its image gives it: spans and current chunks, and for a killed one the chunks to grant again (R52, R54, R415). -/
def reloadWalkers (r : Region) (bs : List Byte) : Region :=
  if r.killed && r.lostWalker then { r with spans := launchSpans r.lrec, curr := [], regrant := [] }
  else
    let curr := unpackCurr bs r.ntiles
    let r := { r with spans := unpackSpans bs r.lrec.walkers }
    if r.killed then
      { r with curr := [], regrant := (range 0 r.lrec.walkers).map (fun w =>
          (w, (r.again w).foldl setIns (regrantOf curr w))) }
    else { r with curr := curr }

/-- The domain cycle count that the region's tiles have saved (R251, R286). -/
def savedDom (s : State) (r : Region) : Nat :=
  match r.tiles.find? (fun p => p.2.started) with
  | some (i, v) => s.st.num (yardKey (dieOf (tileOfTix s r i)) (v.ctx + 0xD90)) 8
  | none => r.dom

/-- The origin of a region's move can still be had: nothing but regions of the same move, which are being stopped, stands in the way
(R336). -/
def moveGood (s : State) (r : Region) (o : Nat × Nat) : Bool :=
  restoreGood (withoutRegions s (s.regions.filter (fun p => p.2.part == r.part && p.2.moveTo.isSome && p.2.st == .stopping))) r o.1 o.2

/-- The origin is the one of the region's move, if it is under way and can still be had. -/
def atMove (s : State) (r : Region) (px py : Nat) : Bool :=
  match r.moveTo with
  | some o => o == (px, py) || !moveGood s r o
  | none => true

/-- A killed region's tiles that had not started get back the tokens that their routers hold (R35). -/
def giveTokens (s : State) (r : Region) (tiles : NMap SavedTile) : State :=
  tiles.foldl (fun s p => s.updTile (tileOfTix s r p.1) (fun t => { t with heldTok := p.2.heldTok })) s

/-- REGION_RESTORE: at an origin, with the walker block image at its Yard address. One that is restarted after an error of its walkers has
its cycle count at 0, as at a placement (R251, R415). -/
def execRegionRestore (rgn px py addr : Nat) (s : State) : Out :=
  match s.region? rgn with
  | none => .next s
  | some old =>
    if old.st != .saved || addr + 16384 > 0x30000000 || !restoreGood s old px py || !atMove s old px py then .next s
    else
      let bs := s.st.bytes (yardKey (pageDie px py) addr) 16384
      let r := reloadWalkers { old with px := px, py := py } bs
      let r := { r with st := .configuring, frozen := false, wd := 0, killed := false, lostWalker := false, tiles := [], pages := [],
                        dom := if old.killed && old.lostWalker then 0 else old.dom, moveTo := none
                        dutyNext := dutyFor s px py old.lrec.width old.lrec.height }
      if old.killed then
        .next (readImage (giveTokens (freshTiles (s.setRegion rgn r) rgn r) r old.tiles) rgn)
      else
        match jdReadBeats s old.part old.lrec.image old.lrec.imglen with
        | (s, .error e) => .next (freezeQueue (count s 25) old.qid 1 (some rgn) none 2 (failBytes e))
        | (s, .ok img) =>
          let all := old.tiles.all (fun p => p.2.started)
          let s' := s.setRegion rgn { r with st := if all then .running else .configuring, dom := savedDom s old }
          let gs := regionGroups s' r
          let s' := ((range 0 gs.length).zip gs).foldl (fun s p =>
            match NMap.find? old.pages p.1 with | some v => restorePage s r p.2 v | none => s) s'
          match restoreTiles s' rgn r (parseImage r.cols (4 * r.lrec.height) (r.lrec.imglen + 1) 0 img).1 old.tiles with
          | .error (b, col, row) =>
            .next (freezeQueue (count s 25) old.qid 1 (some rgn) none 1 (natLe 2 b ++ natLe 1 col ++ natLe 1 row))
          | .ok s' => .next (if all then s' else readImage s' rgn)

/-! ### The watchdog (R412, R413) -/

/-- Limit of a region's watchdog, if it has one. -/
def wdLimit (s : State) (r : Region) : Option Nat :=
  if r.lrec.persist then some (r.lrec.cadence * 1024)
  else
    let h := wfld (mreg s (0x100300 + 8 * r.part)) 0 16
    if h = 0 then none else some (h * 2 ^ 16)

/-- WATCHDOG_FIRE. -/
def execWatchdogFire (rgn : Nat) (s : State) : Out :=
  match s.region? rgn with
  | none => .next s
  | some r =>
    match wdLimit s r with
    | none => .next s
    | some n =>
      if (r.st == .running || r.st == .configuring) && n ≤ r.wd then
        .next (freezeQueue (count s 24) r.qid 2 (some rgn) none 0 [])
      else .next s

/-! ### Errors of walker state (R415) -/

/-- WALKER_STATE_ERROR: an idempotent region is killed and starts over; any other loses the walker's span, and its queue is
frozen. -/
def execWalkerStateError (rgn w : Nat) (s : State) : Out :=
  match s.region? rgn with
  | none => .next s
  | some r =>
    if r.st == .saved || w ≥ r.lrec.walkers then .next s
    else
      let s := count s 29
      if r.lrec.idemp then
        .next ((killAll s rgn).updRegion rgn (fun v => { v with lostWalker := true }))
      else
        let s := s.setRegion rgn { r with
          frozen := true, lostWalker := true, notResumable := true, spans := NMap.put r.spans w (0, 0), regrant := NMap.erase r.regrant w }
        .next (freezeQueue s r.qid 4 (some rgn) none 0 [])

end Sys2Proof.Machine
end

