-- ==== Sys2Proof/Machine/SignalBox.lean ====
section
/-! DEFINITION. The Signal Box: packets, queue threads, commands and the scheduler (R314 to R331, R343, R410, R411, R434 to R438). -/

namespace Sys2Proof.Machine

/-! ### Packets (R315, R316, R323, R434) -/

/-- Type and TAG of a header. -/
def hdrType (h : Nat) : Nat := fld h 0 8
def hdrTag (h : Nat) : Nat := fld h 16 16

/-- Address of the packet that the queue carries out next. -/
def packetVa (s : State) (q : Nat) : Nat := if qInJump s q then qget s q 0x40 else ringVa s q

/-- Index j of the array packet, or RIDX (R434). -/
def packetNo (s : State) (q : Nat) : Nat :=
  if qInJump s q then
    match (jdRead s (qPart s q) (ringVa s q + 0x10) 8).2 with
    | .ok bs => fld (leNat bs) 0 16 - jumpLeft s q
    | .error _ => 0
  else qRidx s q

/-- The first of a list of words that is not zero, by its offset. -/
def firstWord (bs : List Byte) (offs : List Nat) : Option Nat := offs.find? (fun o => rnum bs o 8 != 0)

/-- Offset of the first failing field of a packet (R434). -/
def packetFault (bs : List Byte) (arr : Bool) : Option Nat :=
  let h := rnum bs 0 8
  let ty := hdrType h
  let w (o : Nat) : Nat := rnum bs o 8
  if ty > 6 || fld h 9 7 != 0 || fld h 32 32 != 0 || (arr && (ty == 0 || ty == 6)) then some 0
  else match ty with
    | 2 => if w 8 % 64 != 0 then some 8 else firstWord bs [0x10, 0x18, 0x20, 0x28, 0x30, 0x38]
    | 3 => firstSub [(8, w 8 % 8 != 0), (0x18, fld (w 0x18) 0 3 ≥ 5 || fld (w 0x18) 3 61 != 0)] <|> firstWord bs [0x20, 0x28, 0x30, 0x38]
    | 4 => firstSub [(8, w 8 % 8 != 0), (0x18, fld (w 0x18) 0 3 ≥ 5 || fld (w 0x18) 4 60 != 0)] <|> firstWord bs [0x20, 0x28, 0x30, 0x38]
    | 6 => firstSub [(8, w 8 % 64 != 0), (0x10, fld (w 0x10) 0 16 == 0 || fld (w 0x10) 16 48 != 0)]
        <|> firstWord bs [0x18, 0x20, 0x28, 0x30, 0x38]
    | 0 => none
    | _ => firstWord bs [8, 0x10, 0x18, 0x20, 0x28, 0x30, 0x38]

/-! ### The loop of a queue thread (R318) -/

/-- Queues are served: SBQTAB.EN, and no activation drains the threads (R325, R440). -/
def serving (s : State) : Bool := (mreg s 0x100000).getLsbD 0 && s.sec.fwState != 3

/-- A thread goes on: its queue is served, or an activation drains and the add of its packet has been performed (R440). -/
def mayServe (s : State) (t : Nat) : Bool := serving s || ((mreg s 0x100000).getLsbD 0 && (thr s t).siga)

/-- A thread that has no packet under way reads its next one and, if it is of the row's type and well formed, carries it out. An
INVALID header blocks it. -/
def packetStep (s : State) (t ty : Nat) (f : State → Nat → List Byte → State) : State :=
  let th := thr s t
  match th.q with
  | none => s
  | some q =>
    if !mayServe s t || th.blocked || th.siga || qWaiting s q then s
    else
      match jdRead s (qPart s q) (packetVa s q) 64 with
      | (s, .error e) => accessFreeze s q e
      | (s, .ok bs) =>
        let h := rnum bs 0 8
        if hdrType h = 0 && !qInJump s q then setThr s t { th with blocked := true, since := s.sbcyc }
        else if (packetFault bs (qInJump s q)).isSome || hdrType h != ty then s
        else f s q bs

/-- MALFORMED_PACKET: it is not consumed, and the queue is frozen with cause 6. An INVALID header blocks the thread before any check. -/
def execMalformedPacket (t : Nat) (s : State) : Out :=
  let th := thr s t
  match th.q with
  | none => .next s
  | some q =>
    if !serving s || th.blocked || th.siga || qWaiting s q then .next s
    else
      match jdRead s (qPart s q) (packetVa s q) 64 with
      | (s, .error e) => .next (accessFreeze s q e)
      | (s, .ok bs) =>
        if hdrType (rnum bs 0 8) = 0 && !qInJump s q then .next (setThr s t { th with blocked := true, since := s.sbcyc })
        else match packetFault bs (qInJump s q) with
          | some off => .next (freezeQueue (count s 25) q 6 none none off (natLe 8 (packetNo s q)))
          | none => .next s

/-- NOP_PACKET. -/
def execNopPacket (t : Nat) (s : State) : Out := .next (packetStep s t 1 (fun s q bs => endPacket s t q (rnum bs 0 8)))

/-- Number that a launch carries to the Marshaller: the ring packet's, with the array index of a JUMP. -/
def launchNo (s : State) (q : Nat) : Nat := qRidx s q * 2 ^ 16 + (if qInJump s q then jumpLeft s q else 0)

/-- Numbers of the launches that the queue has handed on from the ring packet of its last one: those that its JUMP has reached are among
them (R437). -/
def handedOn (s : State) (q : Nat) : List Nat := NMap.findD s.handed q []

/-- The launch has been handed on already: a packet that is carried out again is the last of the ring that has handed any on (R437). -/
def launchKnown (s : State) (q no : Nat) : Bool := (handedOn s q).contains no

/-- Hand a checked record to the Marshaller, or in cancel mode complete it as cancelled (R319, R411). -/
def handLaunch (s : State) (q tag : Nat) (r : LaunchRec) : State :=
  let part := qPart s q
  let no := launchNo s q
  if launchKnown s q no then s
  else
    let s := qset { s with handed := NMap.put s.handed q (no :: (handedOn s q).filter (fun m => m / 2 ^ 16 == no / 2 ^ 16)) } q 0x50 (qget s q 0x50 + 1)
    if s.cancel.contains q then cancelLaunch s part q r none none true
    else
      { s with
        marsh := s.marsh ++ [{ part := part, qid := q, pkt := no, tag := tag, lrec := r, at_ := s.sbcyc, seq := s.marshNo, owes := true }]
        marshNo := s.marshNo + 1 }

/-- LAUNCH. -/
def execLaunch (t : Nat) (s : State) : Out :=
  .next (packetStep s t 2 (fun s q bs =>
    let part := qPart s q
    let a := rnum bs 8 8
    match jdReadBeats s part a 4 with
    | (s, .error e) => freezeQueue (count s 25) q 1 none none 2 (failBytes e)
    | (s, .ok rb) =>
      match recFail rb with
      | some off => freezeQueue (count s 25) q 1 none none 0 (natLe 2 off)
      | none => endPacket (handLaunch s q (hdrTag (rnum bs 0 8)) (recOf rb)) t q (rnum bs 0 8)))

/-- A WAITC completes: cancel mode follows bit 63 of the value (R411). -/
def noteCancel (s : State) (q : Nat) (v : Word) : State :=
  { s with cancel := if v.getLsbD 63 then setIns s.cancel q else setDel s.cancel q }

/-- The header that the swap at the end of a packet compares: the one read when the packet was begun. -/
def heldHdr (s : State) (t h : Nat) : Nat := ((thr s t).hdr).getD h

/-- Keep the header of a packet that takes more than one step. -/
def keepHdr (s : State) (t h : Nat) : State := setThr s t { thr s t with hdr := some (heldHdr s t h) }

/-- WADDR and WTARGET of a BARRIER. DESIGN CHOICE: WADDR is all ones, which no CADDR is; the spec gives it no value for a BARRIER
(R324; notes/assumptions/73.md). -/
def barrierWord : Nat := 2 ^ 64 - 1

/-- The wait of a control block is a BARRIER's. -/
def barrierWait (s : State) (q : Nat) : Bool := qget s q 0x38 == barrierWord && qget s q 0x30 == barrierWord

/-- A WAITC on its counter: it completes, or its wait stands in the control block (R320). -/
def waitOn (s : State) (t q a target h : Nat) : State :=
  match jdRead s (qPart s q) a 8 with
  | (s, .error e) => accessFreeze s q e
  | (s, .ok cb) =>
    if target ≤ leNat cb then endPacket (noteCancel s q (wd (leNat cb))) t q (heldHdr s t h)
    else qFlag (qset (qset (keepHdr s t h) q 0x30 a) q 0x38 target) q 14 true

/-- A wait under way is looked at again, without its packet. -/
def resumeWait (s : State) (t : Nat) (f : State → Nat → State) (start : State) : State :=
  match (thr s t).q with
  | none => s
  | some q => if qWaiting s q then (if serving s then f s q else s) else start

/-- WAITC: reads its counter, and completes or waits with its place kept in the control block. -/
def waitcStep (s : State) (t : Nat) : State :=
  resumeWait s t (fun s q => if barrierWait s q then s else waitOn s t q (qget s q 0x30) (qget s q 0x38) 0)
    (packetStep s t 3 (fun s q bs => waitOn s t q (rnum bs 8 8) (rnum bs 0x10 8) (rnum bs 0 8)))

def execWaitc (t : Nat) (s : State) : Out := .next (waitcStep s t)

/-- SIGC: an add is noted in SIGA, and the packet ends in the thread's next step; a store ends it at once (R321, R437). -/
def sigcStep (s : State) (t : Nat) : State :=
  packetStep s t 4 (fun s q bs =>
    let a := rnum bs 8 8
    let h := rnum bs 0 8
    let store := tb (rnum bs 0x18 8) 3
    let cancel := s.cancel.contains q
    let v := wd (rnum bs 0x10 8)
    if store then
      match jdStore s (qPart s q) a (natLe 8 (if cancel then v ||| wd (2 ^ 63) else v).toNat) .write with
      | (s, .error e) => accessFreeze s q e
      | (s, .ok ()) => endPacket s t q h
    else
      match translateJd s (qPart s q) a .atomic false with
      | (s, .error w) => accessFreeze s q (a, xsub w .atomic false)
      | (s, .ok p) =>
        let s := keepHdr (physAdd s (qPart s q) p v cancel) t h
        setThr s t { thr s t with siga := true })

def execSigc (t : Nat) (s : State) : Out :=
  match (thr s t).q with
  | none => .next s
  | some q =>
    if (thr s t).siga then .next (if mayServe s t then endPacket s t q (heldHdr s t 0) else s)
    else .next (sigcStep s t)

/-- BARRIER completes when OUTST is 0. -/
def barrierOn (s : State) (t q h : Nat) : State :=
  if qget s q 0x50 = 0 then endPacket s t q (heldHdr s t h)
  else qFlag (qset (qset (keepHdr s t h) q 0x30 barrierWord) q 0x38 barrierWord) q 14 true

def barrierStep (s : State) (t : Nat) : State :=
  resumeWait s t (fun s q => if barrierWait s q then barrierOn s t q 0 else s)
    (packetStep s t 5 (fun s q bs => barrierOn s t q (rnum bs 0 8)))

def execBarrier (t : Nat) (s : State) : Out := .next (barrierStep s t)

/-- JUMP: the queue goes on in the array. -/
def execJump (t : Nat) (s : State) : Out :=
  .next (packetStep s t 6 (fun s q bs =>
    let s := setThr s t { thr s t with hdr := some (rnum bs 0 8) }
    qFlag (qset (qset s q 0x40 (rnum bs 8 8)) q 0x48 (fld (rnum bs 0x10 8) 0 16)) q 15 true))

/-- ADDRESS_WATCH_WAKE: the thread reads the header, or the counter of its WAITC, again. -/
def execAddressWatchWake (t : Nat) (s : State) : Out :=
  let th := thr s t
  match th.q with
  | none => .next s
  | some q =>
    if th.blocked then
      if qHost s q && !th.woken then .next s
      else
        match headerAt s q with
        | (s, .error e) => .next (accessFreeze (setThr s t { th with blocked := false, woken := false }) q e)
        | (s, .ok h) => .next (setThr s t { th with blocked := hdrType h = 0, woken := false })
    else if qWaiting s q then .next (if barrierWait s q then barrierStep s t else waitcStep s t)
    else .next s

/-! ### Kicks (R327, R343) -/

/-- DOORBELL_WRITE: a write to a watched DOORBELL word is handled. -/
def execDoorbellWrite (q : Nat) (s : State) : Out :=
  if s.kicks.contains q then .next (kick { s with kicks := s.kicks.erase q } q) else .next s

/-- FNCFG of a function (R342). -/
def fnPart (s : State) (fn : Nat) : Nat := wfld (mreg s (0x800 + 8 * fn)) 0 4
def fnOn (s : State) (fn : Nat) : Bool := (mreg s (0x800 + 8 * fn)).getLsbD 4

/-- HOST_DOORBELL_WRITE: by the PF (16), or a VF of the queue's partition. -/
def execHostDoorbellWrite (fn q : Nat) (s : State) : Out :=
  if !fnOn s fn || q ≥ 4096 then .next s
  else if fn = 16 || qPart s q = fnPart s fn then .next (kick s q)
  else .next (count s 25)

/-! ### Priorities (R329) -/

/-- SINCE. -/
def qSince (s : State) (q : Nat) : Nat := qget s q 0x28

/-- EPRIO by the rule of R329. -/
def qEprio (s : State) (q : Nat) : Nat :=
  if qState s q = 2 then min 63 (qPrio s q + (s.sbcyc - qSince s q) / 2 ^ ageLog s (qPart s q)) else qPrio s q

/-- STATE.EPRIO follows the rule. -/
def setEprio (s : State) (q : Nat) : State := qset s q 0x20 (setFld (qget s q 0x20) 8 6 (qEprio s q))

/-! ### Commands (R326, R410, R411, R436) -/

/-- The next command, if it is this one: pop it. -/
def takeCmd (s : State) (fz : Bool) (op q : Nat) : Option (State × Nat) :=
  match s.sbcmds with
  | (f, w) :: r => if f = fz && wfld w 12 4 = op && wfld w 0 12 = q then some ({ s with sbcmds := r }, w.toNat) else none
  | [] => none

/-- Launches handed on before ENABLE no longer count in OUTST, nor answer to their packet numbers, which start again at 0 (R322, R326,
R437). -/
def forgetLaunches (s : State) (q : Nat) : State :=
  { s with
    handed := NMap.erase s.handed q
    marsh := s.marsh.map (fun r => if r.qid = q then { r with owes := false } else r)
    regions := s.regions.map (fun p => (p.1, if p.2.qid = q then { p.2 with owes := false } else p.2)) }

/-- ENABLE. -/
def execSbqcmdEnable (q : Nat) (s : State) : Out :=
  match takeCmd s false 0 q with
  | none => .next s
  | some (s, _) =>
    if qState s q != 0 then .next s
    else
      let s := qset (qset (qset s q 0x10 0) q 0x18 0) q 0x50 0
      .next (watchQueue (qEnter (forgetLaunches s q) q 1 0 (qPrio s q)) q)

/-- A queue stands at a packet boundary, mapped or not. -/
def atBoundary (s : State) (q : Nat) : Bool :=
  !qWaiting s q && !qInJump s q && !((qThread s q).map (fun t => (thr s t).siga)).getD false

/-- DISABLE. A FROZEN queue stands where it is, at a boundary or not (R328). -/
def execSbqcmdDisable (q : Nat) (s : State) : Out :=
  match takeCmd s false 1 q with
  | none => .next s
  | some (s', _) =>
    if qState s q = 0 then .next s'
    else if qState s q != 4 && !atBoundary s q then .next s
    else
      let s' := qEnter (unmap s' q) q 0 0 (qPrio s' q)
      .next { s' with watch := NMap.erase s'.watch q }

/-- KICK. -/
def execSbqcmdKick (q : Nat) (s : State) : Out :=
  match takeCmd s false 2 q with
  | none => .next s
  | some (s, _) => .next (kick s q)

/-- PRIO; EPRIO follows R329. -/
def execSbqcmdPrio (q prio : Nat) (s : State) : Out :=
  match takeCmd s false 3 q with
  | none => .next s
  | some (s', w) =>
    if fld w 16 4 != prio then .next s
    else
      .next (setEprio (qset s' q 8 (setFld (qget s' q 8) 4 4 prio)) q)

/-- RESUME: refused while a region of the queue is not resumable. -/
def execSbfcmdResume (q : Nat) (s : State) : Out :=
  if holdsStops s then .next s
  else
    match takeCmd s true 0 q with
    | none => .next s
    | some (s, _) =>
      if qState s q != 4 || s.regions.any (fun p => p.2.qid == q && p.2.notResumable) then .next (count s 25)
      else .next (pend s q)

/-- Discard a saved region as cancelled. -/
def discardRegion (s : State) (rid : Nat) : State :=
  match s.region? rid with
  | none => s
  | some r =>
    let s := cancelLaunch s r.part r.qid r.lrec (some (pageGroup s r.px r.py)) (some rid) r.owes
    { keepBudget s rid r with regions := NMap.erase s.regions rid, creqs := s.creqs.filter (fun c => c.rgn != rid) }

/-- CANCEL: waits until every region of the queue is saved. -/
def execSbfcmdCancel (q : Nat) (s : State) : Out :=
  if holdsStops s then .next s
  else
    match takeCmd s true 1 q with
    | none => .next s
    | some (s', _) =>
      if qState s' q != 4 then .next (count s' 25)
      else if s.regions.any (fun p => p.2.qid == q && p.2.st != .saved) then .next s
      else .next ((regionsOf s' q).foldl discardRegion (pend { s' with cancel := setIns s'.cancel q } q))

/-- FREEZE. -/
def execSbfcmdFreeze (q : Nat) (s : State) : Out :=
  if holdsStops s then .next s
  else
    match takeCmd s true 2 q with
    | none => .next s
    | some (s', _) =>
      if qState s' q = 0 || qState s' q = 4 then .next (count s' 25)
      else .next (freezeQueue s' q 5 none none 0 [])

/-- CLEAR. -/
def execSbfcmdClear (q : Nat) (s : State) : Out :=
  if holdsStops s then .next s
  else
    match takeCmd s true 3 q with
    | none => .next s
    | some (s, _) => if s.cancel.contains q then .next { s with cancel := setDel s.cancel q } else .next (count s 25)

/-! ### The scheduler (R328 to R331) -/

/-- Fields of SBPART (R332). -/
def partBudget (s : State) (p : Nat) : Nat := wfld (mreg s (0x100040 + 8 * p)) 0 6
def partMinres (s : State) (p : Nat) : Nat := 64 * wfld (mreg s (0x100040 + 8 * p)) 16 16
def partIdlet (s : State) (p : Nat) : Nat := 64 * wfld (mreg s (0x100040 + 8 * p)) 32 16

/-- The best of a list under an order. -/
def bestOf (less : Nat → Nat → Bool) : List Nat → Option Nat
  | [] => none
  | a :: l => match bestOf less l with
    | none => some a
    | some b => if less b a then some b else some a

/-- The pending queue of a partition with the highest EPRIO. -/
def pendingBest (s : State) (p : Nat) : Option Nat :=
  bestOf (fun a b => qEprio s a > qEprio s b || (qEprio s a = qEprio s b && (qSince s a < qSince s b || (qSince s a = qSince s b && a < b))))
    ((range 0 4096).filter (fun q => qState s q == 2 && qPart s q == p))

/-- Mapped queues of a partition. -/
def mappedOf (s : State) (p : Nat) : List Nat :=
  (s.threads.filterMap (fun t => t.2.q)).filter (fun q => qPart s q == p)

/-- The mapped queue that displacement would take, of those resident for MINRES. -/
def displaced (s : State) (p : Nat) : Option Nat :=
  bestOf (fun a b => qEprio s a < qEprio s b || (qEprio s a = qEprio s b && (qSince s a < qSince s b || (qSince s a = qSince s b && a > b))))
    ((mappedOf s p).filter (fun q => partMinres s p ≤ s.sbcyc - qSince s q))

/-- The lowest free thread. -/
def freeThread (s : State) : Option Nat := (range 0 32).find? (fun t => (thr s t).q.isNone)

/-- Map a queue onto a thread; a JUMP or a wait under way takes its header from the ring again (R331), and a failed read of it freezes the
queue (R450). -/
def mapOn (s : State) (q t : Nat) : State :=
  let s := setThr (qEnter s q 3 t (qPrio s q)) t { Thr.reset with q := some q }
  if qWaiting s q || qInJump s q then
    match headerAt s q with
    | (s, .ok v) => setThr s t { thr s t with hdr := some v }
    | (s, .error e) => accessFreeze s q e
  else s

/-- One decision for a partition; none if neither step applies (R330), or the partition is swapped out (R339). -/
def schedStep (s : State) (p : Nat) : Option State :=
  match if s.swapped.contains p then none else pendingBest s p with
  | none => none
  | some c =>
    match (if (mappedOf s p).length < partBudget s p then freeThread s else none) with
    | some t => some (mapOn s c t)
    | none =>
      match displaced s p with
      | none => none
      | some v =>
        if qEprio s c > qEprio s v then
          match qThread s v with
          | some t => some (mapOn (afterUnmap (unmap s v) v) c t)
          | none => none
        else none

/-- Decisions for a partition until neither step applies: a queue loses its age when it is displaced, so fewer than 2^22 apply. -/
def schedPart (s : State) (p : Nat) : Nat → State
  | 0 => s
  | fuel + 1 => match schedStep s p with
    | some s => schedPart s p fuel
    | none => s

/-- The scheduler thread runs: every partition in turn, and a heartbeat. -/
def schedule (s : State) : State :=
  if serving s then { (range 0 16).foldl (fun s p => schedPart s p (2 ^ 22)) s with heartbeat := s.sbcyc } else { s with heartbeat := s.sbcyc }

/-- SCHEDULER_WAKE. -/
def execSchedulerWake (s : State) : Out := .next (schedule s)

/-- AGEING_STEP: EPRIO of a pending queue follows R329, and the scheduler wakes. -/
def execAgeingStep (q : Nat) (s : State) : Out :=
  if q < 4096 && qState s q = 2 && fld (qget s q 0x20) 8 6 != qEprio s q then .next (schedule (setEprio s q))
  else .next s

/-- MINRES_REACHED. -/
def execMinresReached (q : Nat) (s : State) : Out :=
  if q < 4096 && qState s q = 3 && partMinres s (qPart s q) ≤ s.sbcyc - qSince s q then .next (schedule s) else .next s

/-- IDLE_TIMEOUT. -/
def execIdleTimeout (t : Nat) (s : State) : Out :=
  let th := thr s t
  match th.q with
  | none => .next s
  | some q =>
    let n := partIdlet s (qPart s q)
    if th.blocked && !qWaiting s q && n != 0 && n ≤ s.sbcyc - th.since then .next (afterUnmap (unmap s q) q) else .next s

/-! ### Faults of the Signal Box (R437, R438) -/

/-- A queue thread faults: reset, and its queue, unmapped with RIDX published (R331), returns to PENDING with the packet under way, in a
JUMP the array packet, at its start, or is frozen. -/
def threadFault (s : State) (t : Nat) : State :=
  let th := thr s t
  match th.q with
  | none => s
  | some q =>
    let s := count s 26
    if th.siga then freezeQueue s q 7 none none 0 []
    else
      match releaseThread (qFlag s q 14 false) q false with
      | (s, none) => pend s q
      | (s, some f) => endFreeze s q f

def execSbThreadFault (t : Nat) (s : State) : Out := .next (threadFault s t)

/-- SCHEDULER_THREAD_FAULT: thread 32 starts again at its entry. -/
def execSchedulerThreadFault (s : State) : Out := .next (schedule s)

/-- SB_HEARTBEAT_TIMEOUT: every mapped queue is handled as for a thread fault. -/
def execSbHeartbeatTimeout (s : State) : Out :=
  if 2 ^ 24 ≤ s.sbcyc - s.heartbeat then
    .next { (s.threads.map Prod.fst).foldl threadFault s with heartbeat := s.sbcyc }
  else .next s

end Sys2Proof.Machine
end

