-- ==== Sys2Proof/Machine/Mgmt.lean ====
section
/-! DEFINITION. The Junction die's management space, bring-up, samples, invalidation of translations and the KV unit's commands
(R7, R17, R20, R87, R96 to R101, R332, R351, R352, R354, R421, R422, R425, R436). -/

namespace Sys2Proof.Machine

/-! ### Bring-up (R17, R20, R36, R351, R352) -/

/-- RESET: every piece of state is at its reset value. Host memory is not the package's; the repair record and what anti-rollback
storage holds stay (R380, R439, R442). The model's own agenda and count of free values go on. -/
def execReset (s : State) : Out :=
  .next { State.reset with
    agenda := s.agenda, ticks := s.ticks, repair := s.repair
    st := { Store.reset with mem := s.st.mem.filter (fun c => isHost c.1) }
    sec := { Sec.reset with rollback := s.sec.rollback, leaf := s.sec.leaf, gen := s.sec.gen, cert := s.sec.cert } }

/-- A bit of READY: 0 to 63 are the pages, 64 up the bits of 0x0108. -/
def readyBit (s : State) (bit : Nat) : Bool :=
  if bit < 64 then (mreg s 0x100).getLsbD bit else (mreg s 0x108).getLsbD (bit - 64)

/-- A register with one bit set or cleared. -/
def withBit (v : Word) (i : Nat) (b : Bool) : Word := wd (setFld v.toNat i 1 (b2n b))

/-- Set or clear a bit of READY. -/
def setReady (s : State) (bit : Nat) (b : Bool) : State :=
  if bit < 64 then setMreg s 0x100 (withBit (mreg s 0x100) bit b) else setMreg s 0x108 (withBit (mreg s 0x108) (bit - 64) b)

/-- The pages of a die. -/
def diePages (die : Nat) : List Nat := (range 0 64).filter (fun i => pageDie (i % 8) (i / 8) == die)

/-- Firmware's bring-up writes for a die: COLMAP, and SPARE and INUSE of its columns. -/
def writeColmap (s : State) (die retired : Nat) : State :=
  let s := setMreg s (0x300 + 4 * die) (wd (retired % 32))
  (range 0 17).foldl (fun s pos =>
    let off := 0x1000 + 8 * (17 * die + pos)
    let inuse := if pos = 16 then retired < 16 else pos != retired
    setMreg s off (withBit (mreg s off) 50 inuse)) s

/-- RETIRED that the repair record gives a die: the position recorded first, which takes the spare, or 31 (R17, R380). -/
def retiredOf (s : State) (die : Nat) : Nat :=
  ((s.repair.find? (fun c => c / 17 == die && c % 17 != 16)).map (· % 17)).getD 31

/-- FUNCTION_READY of a bit of a READY word (R351). Firmware applies the repair record to COLMAP of a die before the die's bit is set. -/
def execFunctionReady (word pos : Nat) (s : State) : Out :=
  let bit := 64 * word + pos
  if pos ≥ 64 || bit ≥ 94 || (bit != 64 && !readyBit s 64) then .next s
  else if bit < 64 then
    let x := bit % 8
    let y := bit / 8
    if !readyBit s (89 + pageDie x y) || s.repair.contains (pageColumn s x y) then .next s else .next (setReady s bit true)
  else if 89 ≤ bit && bit < 93 then
    let die := bit - 89
    let s := if (diePages die).any (readyBit s) || readyBit s bit then s else writeColmap s die (retiredOf s die)
    .next (setReady s bit true)
  else if 77 ≤ bit && bit < 89 then
    let off := 0x608 + 8 * (bit - 77)
    .next (setReady (setMreg s off (withBit (mreg s off) 10 true)) bit true)
  else .next (setReady s bit true)

/-! ### Samples (R20, R354) -/

/-- One whole sample of a column. -/
def sampleColumn (v : Word) (ctemp ytemp : Nat) : Word :=
  let n := setFld (setFld v.toNat 0 10 ctemp) 16 10 ytemp
  let n := setFld n 48 1 (b2n (fld n 32 10 ≤ max (fld n 0 10) (fld n 16 10)))
  wd (setFld n 56 8 (fld n 56 8 + 1))

/-- THERMAL_SAMPLE: a column that the list does not name has not changed its temperature. -/
def execThermalSample (samples : List (Nat × Nat × Nat)) (s : State) : Out :=
  .next ((range 0 68).foldl (fun s c =>
    let v := mreg s (0x1000 + 8 * c)
    let t := (samples.find? (fun p => p.1 == c)).map Prod.snd |>.getD (wfld v 0 10, wfld v 16 10)
    setMreg s (0x1000 + 8 * c) (sampleColumn v t.1 t.2)) s)

/-- POWER_SAMPLE: PWR, DP, and the duty that each placed region takes at the next run of 64 pulses. -/
def execPowerSample (watts : Nat) (s : State) : Out :=
  let v := (mreg s 0x400).toNat
  let dp := fld v 24 7
  let dp := if fld v 0 12 < watts then max 1 (dp - 4) else min 64 (dp + 1)
  let s := setMreg s 0x400 (wd (setFld (setFld v 12 12 watts) 24 7 dp))
  .next { s with regions := s.regions.map (fun p =>
    (p.1, { p.2 with dutyNext := dutyFor s p.2.px p.2.py p.2.lrec.width p.2.lrec.height })) }

/-! ### Writes to registers (R6, R7) -/

/-- Bits lo to lo + n − 1. -/
def bits (lo n : Nat) : Nat := (2 ^ n - 1) * 2 ^ lo

/-- The RW bits of a register that has no row of its own; 0 for every other offset. -/
def rwMask (off : Nat) : Nat :=
  let slot (base step n : Nat) : Bool := base ≤ off && off < base + step * n && (off - base) % step == 0
  if off = 0x400 then bits 0 12 + bits 32 8
  else if off = 0x600 then bits 0 10
  else if slot 0x608 8 12 then bits 0 10
  else if slot 0x800 8 17 then bits 0 5 + bits 12 36
  else if slot 0x1000 8 68 then bits 32 10
  else if slot 0x2400 8 16 then 1 + bits 12 52
  else if slot 0x2480 8 16 then 1 + bits 6 58
  else if slot 0x2500 8 16 then bits 0 11 + bits 21 27
  else if off = 0x100000 then 1 + bits 19 45
  else if slot 0x100300 8 16 then bits 0 16
  else if off = 0x200000 then bits 0 64
  else if off = 0x200010 then bits 0 64
  else 0

/-- A word with some bits taken from another. -/
def merge (mask : Nat) (old new : Word) : Word := (old &&& ~~~(wd mask)) ||| (new &&& wd mask)

/-- SBQCMD and SBFCMD: a command joins the one order of R410; a reserved OP is counted and complete at once (R326, R436). -/
def postCommand (s : State) (fz : Bool) (v : Word) : State :=
  if wfld v 12 4 ≥ 4 then count s 25 else { s with sbcmds := s.sbcmds ++ [(fz, v)] }

/-- A write to TLBINV, KVOP, KEYREQ, FWCTL or ATTREQ: the request is outstanding with its fields as defined. DESIGN CHOICE: a reserved OP
has no effect and is not counted; the spec gives it no fate (notes/assumptions/82.md). -/
def postRequest (s : State) (off : Nat) (v : Word) : State :=
  let post (mask : Nat) : State := { s with jobs := s.jobs ++ [(off, v &&& wd mask)] }
  match off with
  | 0x2C00 => if wfld v 4 2 = 3 then s else { s with tlbinv := s.tlbinv ++ [v &&& wd (bits 0 8 + bits 16 48)] }
  | 0x2C10 => post (bits 0 6 + bits 8 (if wfld v 4 2 = 1 then 56 else 28))
  | 0x500 => if wfld v 10 2 < 2 && wfld v 0 10 != 0 then post (bits 0 12) else s
  | 0x520 => if wfld v 0 2 = 3 then s else post (bits 0 2 + (if wfld v 0 2 = 0 then bits 12 52 else 0))
  | _ => post (bits 6 58)

/-- Registers whose write is a request. -/
def isRequest (off : Nat) : Bool := [0x2C00, 0x2C10, 0x500, 0x520, 0x530].contains off

/-- A request is done: the first outstanding one of its register, or, with none outstanding, one that is written and done in one step.
None if another one comes first. -/
def takeJob (s : State) (off : Nat) (w : Word) : Option State :=
  match s.jobs.find? (fun j => j.1 == off) with
  | none => some s
  | some j => if j.2 = w then some { s with jobs := s.jobs.erase j } else none

/-- The state once a request is taken, or as it was if another one comes first. -/
def onJob (s : State) (off : Nat) (w : Word) (f : State → State) : Out := .next (((takeJob s off w).map f).getD s)

/-- A request of a register is incomplete: BUSY. -/
def jobOpen (s : State) (off : Nat) : Bool := s.jobs.any (fun j => j.1 == off)

/-- REGISTER_WRITE: RW fields change; RO and reserved bits, and offsets where no register lies, ignore it. -/
def execRegisterWrite (off : Nat) (v : Word) (s : State) : Out :=
  if off = 0x100140 then .next (postCommand s false v)
  else if off = 0x100160 then .next (postCommand s true v)
  else if isRequest off then .next (postRequest s off v)
  else if rwMask off = 0 then .next s
  else .next (setMreg s off (merge (rwMask off) (mreg s off) v))

/-- YWIN_WRITE. -/
def execYwinWrite (p m : Nat) (v : Word) (s : State) : Out :=
  if p ≥ 16 || m ≥ 4 then .next s
  else if wfld v 10 4 > 9 || wfld v 0 10 + 2 ^ wfld v 10 4 > 768 then .next (count s 25)
  else .next (setMreg s (0x2000 + 0x20 * p + 8 * m) (wd (wfld v 0 15)))

/-- The RW bits of SBPART. -/
def sbpartMask : Nat := bits 0 6 + bits 8 5 + bits 16 32

/-- EPRIO of a partition's pending queues follows a new ageing interval (R329, R332). -/
def refreshEprio (s : State) (p : Nat) : State :=
  ((range 0 4096).filter (fun q => qState s q == 2 && qPart s q == p)).foldl setEprio s

/-- SBPART_WRITE. -/
def execSbpartWrite (p : Nat) (v : Word) (s : State) : Out :=
  if p ≥ 16 then .next s
  else
    let rest := (range 0 16).foldl (fun a q => if q = p then a else a + partBudget s q) 0
    if rest + wfld v 0 6 > 32 then .next (count s 25)
    else .next (refreshEprio (setMreg s (0x100040 + 8 * p) (v &&& wd sbpartMask)) p)

/-- PARTPG_WRITE. -/
def execPartpgWrite (p : Nat) (v : Word) (s : State) : Out :=
  if p ≥ 16 then .next s
  else if (range 0 16).any (fun q => q != p && (mreg s (0x1000C0 + 8 * q) &&& v) != 0) then .next (count s 25)
  else .next (setMreg s (0x1000C0 + 8 * p) v)

/-- CHKST_CLEAR: writing 1 to V clears V and MORE. -/
def execChkstClear (rgn : Nat) (v : Word) (s : State) : Out :=
  if rgn ≥ 4096 || !v.getLsbD 0 then .next s
  else .next (setMreg s (0x400000 + 16 * rgn) (mreg s (0x400000 + 16 * rgn) &&& ~~~(3 : Word)))

/-! ### Invalidation (R96, R97) -/

/-- The word of a TLBINV write. -/
def tlbinvWord (part op size target : Nat) : Word :=
  wd (part % 16 + op % 4 * 2 ^ 4 + size % 4 * 2 ^ 6 + target % 2 ^ 48 * 2 ^ 16)

def execTlbinvPage (part size : Nat) (va : Word) (s : State) : Out :=
  .next { s with tlbinv := s.tlbinv ++ [tlbinvWord part 0 size (wfld va 16 48)] }

def execTlbinvPartition (part : Nat) (s : State) : Out := .next { s with tlbinv := s.tlbinv ++ [tlbinvWord part 1 0 0] }

def execTlbinvKvIndex (part idx : Nat) (s : State) : Out :=
  .next { s with tlbinv := s.tlbinv ++ [tlbinvWord part 2 0 (idx % 2 ^ 28)] }

/-- Size of a page by its code, as a power of two (R90, R97). -/
def pageLog (size : Nat) : Nat := getAt [16, 21, 25, 29] size 16

/-- The invalidation names a held translation. -/
def invalidates (w : Word) (e : Tlb) : Bool :=
  let log := pageLog (wfld w 6 2)
  let base := wfld w 16 48 * 2 ^ 16 / 2 ^ log * 2 ^ log
  e.part == wfld w 0 4 && match wfld w 4 2 with
    | 0 => e.base < base + 2 ^ log && base < e.base + 2 ^ e.log
    | 1 => true
    | 2 => match e.kv with | some (i, _, _) => i == wfld w 16 28 | none => false
    | _ => false

/-- The partition of a request to another agent: its tile's, or its own; a message has none. -/
def Remote.partition (s : State) (r : Remote) : Option Nat :=
  if r.tile = msgWaiter then none else if r.tile ≥ 2048 then some r.part else some (partOf s r.tile)

/-- No access of the partition still waits for another agent. -/
def accessesDone (s : State) (part : Nat) : Bool := s.remotes.all (fun p => p.2.partition s != some part)

/-- TLB_INVALIDATION_COMPLETE: the oldest one. -/
def execTlbInvalidationComplete (s : State) : Out :=
  match s.tlbinv with
  | [] => .next s
  | w :: r =>
    if !accessesDone s (wfld w 0 4) then .next s
    else
      .next { s with
        tlbinv := r
        tiles := s.tiles.map (fun p => (p.1, { p.2 with utlb := p.2.utlb.filter (fun e => !invalidates w e) }))
        groups := s.groups.map (fun p => (p.1, { p.2 with tlb := p.2.tlb.filter (fun e => !invalidates w e) })) }

/-- PAGE_WALK: a walk for a tile fills the TLBs with a valid leaf, and leaves nothing if it faults. -/
def execPageWalk (tile : Nat) (va : Word) (s : State) : Out :=
  let part := partOf s tile
  let a := va.toNat
  if (tlbFind s tile part a).isSome then .next s
  else
    match walk s part a with
    | .fail why ea => .next (if why = 8 then tableErr s part ea [] else s)
    | .leaf l log =>
      if leafClass l = 2 then .next (kvTranslate s tile part l log a .read).1
      else .next (tlbFill s tile { part := part, base := a - a % 2 ^ log, log := log, leaf := l, kv := none, plog := log })

/-! ### Commands of the KV unit (R100, R101, R421, R422) -/

/-- DETAIL of a record of R421: bits [35:4] of the KVOP word. -/
def kvopDetail (op dst : Nat) : List Byte := natLe 4 (op + dst % 2 ^ 28 * 16)

/-- A map entry: valid and block. An entry that reads uncorrectable counts as an error and is not used. -/
def kvEntry (s : State) (part v : Nat) : Nat := leNat (readRun s (keyIdent s 0) (kvMapAt s part v) 4)

/-- The index has an entry, and the unit is enabled. -/
def kvHas (s : State) (part v : Nat) : Bool := kvEnabled s part && v < kvField s part 0x24 4

/-- Write a map entry. -/
def kvSetEntry (s : State) (part v e : Nat) : State := jdWrite s (kvMapAt s part v) 4 e

/-- The word of a KVOP write. -/
def kvopWord (part op dst src : Nat) : Word := wd (part % 16 + op * 2 ^ 4 + dst % 2 ^ 28 * 2 ^ 8 + src % 2 ^ 28 * 2 ^ 36)

/-- MAP: a block of the free ring with count 1, or no entry if the ring is empty. -/
def kvopMap (s : State) (part dst : Nat) : State :=
  if part ≥ 16 || !kvHas s part dst then s
  else
    match kvPop s part (kvField s part 0x20 4 + 1) with
    | (s, none) =>
      let s := kvSetEntry s part dst (setFld (kvEntry s part dst) 31 1 0)
      dropKv (tableErr s part 0 (kvopDetail 0 dst)) part dst
    | (s, some q) =>
      let q := q % 2 ^ 25
      let s := jdWrite s (kvRefAt s part q) 2 1
      dropKv (kvSetEntry s part dst (q + 2 ^ 31)) part dst

/-- SHARE: DST maps to SRC's block, whose count rises if it can. -/
def kvopShare (s : State) (part dst src : Nat) : State :=
  if part ≥ 16 || !kvHas s part dst || !kvHas s part src then s
  else
    match kvBlock s part src with
    | .error 8 => tableErr s part (kvMapAt s part src) []
    | .error _ => s
    | .ok q =>
      let (s, n) := kvCountS s part q
      if n + 1 > 65535 then tableErr s part 0 (kvopDetail 1 dst)
      else
        let s := jdWrite s (kvRefAt s part q) 2 (n + 1)
        dropKv (dropKv (kvSetEntry s part dst (q % 2 ^ 25 + 2 ^ 31)) part dst) part src

/-- DROP: DST is unmapped, and its block's 16-bit count falls. -/
def kvopDrop (s : State) (part dst : Nat) : State :=
  if part ≥ 16 || !kvHas s part dst then s
  else
    match kvBlock s part dst with
    | .error 8 => tableErr s part (kvMapAt s part dst) []
    | .error _ => s
    | .ok q =>
      let (s, n) := kvCountS s part q
      let n := (n + 65535) % 65536
      let s := dropKv (kvSetEntry s part dst (setFld (kvEntry s part dst) 31 1 0)) part dst
      let s := jdWrite s (kvRefAt s part q) 2 n
      if n != 0 then s else (kvPush s part q).getD (tableErr s part 0 (kvopDetail 2 dst))

/-- FREEADD: the block joins the free ring, or its count reads 0 (R421). -/
def kvopFreeadd (s : State) (part blk : Nat) : State :=
  if part ≥ 16 || !kvEnabled s part then s
  else (kvPush s part blk).getD (jdWrite (tableErr s part 0 (kvopDetail 3 blk)) (kvRefAt s part blk) 2 0)

/-- KVOP_MAP, KVOP_SHARE, KVOP_DROP and KVOP_FREEADD. -/
def execKvopMap (part dst : Nat) (s : State) : Out := onJob s 0x2C10 (kvopWord part 0 dst 0) (fun s => kvopMap s part dst)
def execKvopShare (part dst src : Nat) (s : State) : Out :=
  onJob s 0x2C10 (kvopWord part 1 dst src) (fun s => kvopShare s part dst src)
def execKvopDrop (part dst : Nat) (s : State) : Out := onJob s 0x2C10 (kvopWord part 2 dst 0) (fun s => kvopDrop s part dst)
def execKvopFreeadd (part blk : Nat) (s : State) : Out := onJob s 0x2C10 (kvopWord part 3 blk 0) (fun s => kvopFreeadd s part blk)

/-- KV_WRITE: a write to a map index reaches the KV unit under a page's KEY. One that needs a block and finds none changes nothing;
its access faults where it was made. -/
def execKvWrite (part idx off key : Nat) (bytes : List Byte) (s : State) : Out :=
  if part ≥ 16 || off + bytes.length > 16384 then .next s
  else
    match kvOwn s part idx (key % 1024) with
    | (s, .error _) => .next s
    | (s, .ok q) => .next (writeRun s (keyIdent s (key % 1024)) (kvBlockAt s part q + off) bytes)

/-! ### What registers read (R6, R7) -/

/-- FWST (R439): BUSY while a request is open, or an activation is under way. -/
def fwst (s : State) : Word :=
  let busy := jobOpen s 0x520 || s.sec.fwState = 2 || s.sec.fwState = 3
  wd (s.sec.fwState + b2n busy * 2 ^ 3 + s.sec.fwResult * 2 ^ 4 + s.sec.nblk * 2 ^ 8 + s.sec.layx * 2 ^ 20 + s.sec.lays * 2 ^ 36)

/-- SBTHR of a thread (R325). -/
def sbthr (s : State) (t : Nat) : Word :=
  match (thr s t).q with
  | some q => wd (q + 2 ^ 12 + qPart s q * 2 ^ 13)
  | none => 0

/-- The words of SBTSH of a thread (R438). -/
def sbtsh (s : State) (t : Nat) (high : Bool) : Word :=
  match (thr s t).q with
  | some q => if high then wd (qget s q 0x50 % 2 ^ 32 + b2n (thr s t).siga * 2 ^ 32) else wd (qRidx s q)
  | none => 0

/-- A 64-bit word of a map with one bit for each queue. -/
def queueMap (f : Nat → Bool) (i : Nat) : Word := wd ((range 0 64).foldl (fun a k => if f (64 * i + k) then a + 2 ^ k else a) 0)

/-- RDUTY of a region id (R340). -/
def rduty (s : State) (r : Nat) : Word :=
  match s.region? r with
  | some v => if v.st == .saved then 0 else wd (v.duty + 128)
  | none => 0

/-- A word of a channel table entry (R128). -/
def chanRead (e : Chan) (word : Nat) : Word :=
  match word with
  | 0 => wd (b2n e.en + 2 * b2n e.home + 4 * e.scope + 2 ^ 4 * e.logcap + 2 ^ 8 * e.part + 2 ^ 12 * b2n e.spill + 2 ^ 13 * b2n e.closed
      + 2 ^ 14 * b2n e.wbound + 2 ^ 15 * b2n e.rbound + 2 ^ 16 * e.nseg + 2 ^ 32 * e.base)
  | 1 => wd (e.gpos + 2 ^ 32 * e.wptr)
  | 2 => wd (e.rptr + 2 ^ 32 * e.swptr)
  | 3 => wd (e.srptr + 2 ^ 32 * e.wagent)
  | 4 => wd (e.ragent + 2 ^ 32 * e.recs)
  | 5 => wd (fld (e.grows + 2 ^ 32 * (range 0 16).foldl (fun a i => a + 2 ^ (10 * i) * NMap.findD e.segs i 0) 0) 0 64)
  | 6 => wd (fld ((range 0 16).foldl (fun a i => a + 2 ^ (10 * i) * NMap.findD e.segs i 0) 0) 32 64)
  | 7 => wd (fld ((range 0 16).foldl (fun a i => a + 2 ^ (10 * i) * NMap.findD e.segs i 0) 0) 96 64)
  | _ => 0

/-- BUSY and DEPTH of a list of outstanding requests. DESIGN CHOICE: with more outstanding than the field's greatest value, which
software must not do, DEPTH reads that value (notes/assumptions/83.md). -/
def depthWord (n most : Nat) : Word := wd (b2n (n != 0) + min n most * 2)

/-- A read of BAR2 (R343). -/
def bar2Read (_s : State) (_fn _off : Nat) : Word := 0

/-- The 64-bit word that a read of the management space returns; write-only registers and offsets without a register read
zero. DESIGN CHOICE: of the successor certificate the registers from 0x0540 to 0x05F8 give the first bytes; its length is not given
(R442; notes/assumptions/84.md). -/
def mgmtRead (s : State) (off : Nat) : Word :=
  let slot (base step n : Nat) : Bool := base ≤ off && off < base + step * n && (off - base) % step == 0
  if off = 0x508 then wd (b2n (jobOpen s 0x500))
  else if off = 0x528 then fwst s
  else if off = 0x538 then wd (b2n (jobOpen s 0x530) + s.sec.attResult * 16)
  else if slot 0x540 8 24 then wd (rnum s.sec.cert (off - 0x540) 8)
  else if off = 0x2C08 then depthWord s.tlbinv.length 16
  else if off = 0x2C18 then wd (b2n (jobOpen s 0x2C10))
  else if off = 0x100148 then depthWord s.sbcmds.length 8
  else if off = 0x100150 then wd s.sbcyc
  else if slot 0x100200 8 32 then sbthr s ((off - 0x100200) / 8)
  else if slot 0x100400 8 64 then sbtsh s ((off - 0x100400) / 16) ((off - 0x100400) / 8 % 2 == 1)
  else if slot 0x101000 8 64 then queueMap (fun q => qState s q == 2) ((off - 0x101000) / 8)
  else if slot 0x101200 8 64 then queueMap s.sec.blocked.contains ((off - 0x101200) / 8)
  else if slot 0x102000 8 4096 then rduty s ((off - 0x102000) / 8)
  else if slot 0x200100 8 32 then (if off = 0x2001F8 then 0 else wd (NMap.findD s.errcnt ((off - 0x200100) / 8) 0))
  else if off = 0x200018 then wd s.jcyc
  else if 0x40000 ≤ off && off < 0x80000 && off % 8 = 0 then chanRead (chan s ((off - 0x40000) / 64)) (off / 8 % 8)
  else mreg s off

end Sys2Proof.Machine
end

