-- ==== Sys2Proof/Machine/Errors.lean ====
section
/-! DEFINITION. Faults that strike from outside, and capacity that is removed (R370 to R373, R375, R379, R380, R403, R408, R432, R433). -/

namespace Sys2Proof.Machine

/-! ### Removing capacity (R379, R380) -/

/-- Placed regions that hold a package page. -/
def regionsOn (s : State) (x y : Nat) : List Nat :=
  (s.regions.filter (fun p => p.2.st != .saved && p.2.px ≤ x && x < p.2.px + p.2.lrec.width && p.2.py ≤ y
    && y < p.2.py + p.2.lrec.height)).map Prod.fst

/-- A column becomes a candidate for retirement: its page leaves READY, the repair record names it, and its regions are pre-empted. -/
def removeColumn (s : State) (c : Nat) : State :=
  if s.repair.contains c then s
  else
    let s := { s with repair := s.repair ++ [c] }
    match (range 0 64).find? (fun i => pageColumn s (i % 8) (i / 8) == c) with
    | none => s
    | some i =>
      if !readyBit s i then s
      else
        let s := setReady s i false
        let s := (regionsOn s (i % 8) (i / 8)).foldl preempt s
        countRec s (ErrRec.base s 27 3)

/-- Column of a scratchpad or Yard location (R13, R15, R22). -/
def columnOf (s : State) (k : Nat) : Option Nat :=
  if isHbm k || isHost k then none
  else if k < 2 ^ 41 then
    let die := (k - 2 ^ 40) / 2 ^ 30
    some (17 * die + posOf s die ((k - 2 ^ 40) % 2 ^ 30 / 0x3000000))
  else
    let g := if k < 2 ^ 42 then (k - 2 ^ 41) / 2 ^ 22 else (k - 2 ^ 42) / 2 ^ 18 / 16
    some (17 * (g / 32) + g % 32)

/-- Column of a tile. -/
def tileColumn (tid : Nat) : Nat := 17 * (tid / 512) + tid / 16 % 32

/-- A second event of one place within 2^32 JCYC; the event is noted. -/
def again (s : State) (place : Nat) : State × Bool :=
  ({ s with poisonLog := (place, s.jcyc) :: s.poisonLog }, s.poisonLog.any (fun p => p.1 == place && s.jcyc - p.2 ≤ 2 ^ 32))

/-- Place of an HBM row among the noted events. -/
def rowPlace (k : Nat) : Nat := 68 + Config.hbmRow k

/-- A row is due for repair. -/
def rowDue (s : State) (k : Nat) : State := { s with rows := setIns s.rows (Config.hbmRow k) }

/-! ### Faults (R371 to R373, R403, R408, R433) -/

/-- A corrected error of a class that corrections count in: of scratchpads, Yards, HBM and firmware SRAM, replays of parity, and retries of
links. It leaves no record (R376, R377, R437). -/
def strikeCorrected (s : State) (cls k : Nat) : State :=
  if cls = 4 then
    let (s, twice) := again (count s 4) (rowPlace k)
    if twice then rowDue s k else s
  else if [0, 2, 7, 10, 12, 14, 26].contains cls then count s cls
  else s

/-- Class of a poisoned unit. -/
def unitClass (k : Nat) : Nat := if isHbm k then 5 else if k < 2 ^ 41 then 3 else 1

/-- A unit fails correction and is poisoned. -/
def strikeUnit (s : State) (k : Nat) (tile : Option Nat) : State :=
  if isHost k then s
  else
    let s := { s with st := s.st.poisonRun k 1 }
    let a := locAddr (unitOf k)
    let s := countRec s (match tile with
      | some t => ErrRec.ofTile s (unitClass k) 1 t a []
      | none => { ErrRec.base s (unitClass k) 1 with addr := a })
    match columnOf s k with
    | none => rowDue s k
    | some c =>
      let (s, twice) := again s c
      if twice then removeColumn s c else s

/-- What a parity error leaves: the register reads zero, the ring counter as RELEASED (R403). -/
def parityLoss (t : Tile) (sub : Nat) (g : Eng) (num cnt : Nat) : Tile :=
  match sub with
  | 1 => if num < 32 then t.setPriv g num 0 else t
  | 2 => if 32 ≤ num && num < 48 then t.setX (num - 32) { t.x (num - 32) with val := 0, full := false } else t
  | _ =>
    let r := t.ring num
    match cnt with
    | 0 => t.setRing num { r with claimed := r.released }
    | 1 => t.setRing num { r with filled := r.released }
    | 2 => t.setRing num { r with taken := r.released }
    | _ => t

/-- HWFAULT. -/
def strikeParity (s : State) (tid sub : Nat) (g : Eng) (num cnt : Nat) : State :=
  if sub = 0 || 3 < sub || !(s.tile tid).started then s
  else
    let s := s.updTile tid (fun t => parityLoss t sub g num cnt)
    let s := raiseImprecise s tid
      { code := 0x11, sub := sub, eng := g, impr := true, slot := none, info := num % 64 + g.num * 64 } false
    removeColumn s (tileColumn tid)

/-- A persistent residue error is counted and logged, and the column is a candidate for retirement (R372, R380). -/
def persistent (s : State) (tid : Nat) : State :=
  removeColumn (countRec s (ErrRec.ofTile s 9 1 tid 0 [])) (tileColumn tid)

/-- One more mismatch of an operator or K step: the state with its count, and whether the row of three is complete (R372). -/
def mismatch (s : State) (tid key : Nat) : State × Bool :=
  let n := NMap.findD (s.tile tid).arr.replays key 0 / 2 + 1
  (s.updTile tid (fun t => { t with arr := { t.arr with
    replays := if n < 3 then NMap.put t.arr.replays key (2 * n) else NMap.erase t.arr.replays key } }), 3 ≤ n)

/-- The operator of an opcode slot's plane at a PE with a group and a cycle. -/
def operatorAt (a : Arr) (oslot pe grp cyc : Nat) : Option OpWord :=
  (NMap.find? a.opps oslot).bind (fun p => p.ops.find? (fun o => o.pe == pe && opGrp o.word == grp && opCyc o.word == cyc))

/-- Poison every valid lane of the latest vector written to a PE register. -/
def poisonReg (a : Arr) (pe reg : Nat) : Arr :=
  let k := 8 * pe + reg
  let l := NMap.findD a.regs k []
  match l.getLast? with
  | none => a
  | some w => { a with regs := NMap.put a.regs k (l.dropLast ++ [{ w with vec := { w.vec with pois := w.vec.vld } }]) }

/-- A residue mismatch of an operator: the array is dropped to its last commit token and runs again; the third in a row poisons the
operator's result, and the work goes on (R264, R372). -/
def strikeOperator (s : State) (tid oslot pe grp cyc : Nat) : State :=
  match operatorAt (s.tile tid).arr oslot pe grp cyc with
  | none => s
  | some o =>
    match mismatch s tid (replayKey oslot pe grp cyc) with
    | (s, false) => dropArray (count s 8) tid
    | (s, true) =>
      persistent (if opWd o.word then s.updTile tid (fun t => { t with arr := poisonReg t.arr pe (opDst o.word) }) else s) tid

/-- A row of the accumulator is poisoned as the commands behind a multiply find it: what a drain forms of it is poisoned too, up to one that
clears the marks of the rows. The commands, and whether the mark still stands behind them (R375). -/
def spoilRow (row : Nat) : List MCmd → List MCmd × Bool
  | [] => ([], true)
  | c :: l =>
    let c := { c with poisons := c.poisons ++ (c.rowRuns.filter (fun p => p.1 == row)).map Prod.snd }
    if c.clears then (c :: l, false)
    else
      let (l, on) := spoilRow row l
      (c :: l, on)

/-- The multiply of an id leaves a poisoned row. -/
def spoilBehind (t : Tile) (id row : Nat) : Tile :=
  let ahead := t.cmds.takeWhile (fun d => d.id != id)
  match t.cmds.drop ahead.length with
  | [] => t
  | c :: l =>
    let (l, on) := spoilRow row l
    { t with cmds := ahead ++ c :: l, accPois := if on then t.accPois ||| BitVec.ofNat 32 (2 ^ row) else t.accPois }

/-- A residue mismatch of a K step of the multiply under way, met in a row of the accumulator: the K step runs again; the third in a row
poisons the row. K steps run one after the other, so that the mismatches of another one are no longer in a row (R274, R372). -/
def strikeStep (s : State) (tid kstep row : Nat) : State :=
  match (s.tile tid).cmds.find? (fun c => 0 < c.ksteps) with
  | none => s
  | some c =>
    if c.ksteps ≤ kstep then s
    else
      let key := 2 * kstep + 2 ^ 32 * c.id
      let s := s.updTile tid (fun t => { t with arr := { t.arr with
        replays := t.arr.replays.filter (fun p => p.1 % 2 = 1 || p.1 = key) } })
      match mismatch s tid key with
      | (s, false) => count s 8
      | (s, true) => persistent (s.updTile tid (fun t => spoilBehind t c.id (row % 32))) tid

/-- A struck plane copy is not resident any more, and the array drops to its last commit token; it is corrected by a refetch (R370,
R408). -/
def strikePlane (s : State) (tid plane : Nat) : State :=
  if (planeRecord (s.tile tid).arr plane).isNone then s
  else (dropArray (count s 29) tid).updTile tid (fun t => { t with arr := { t.arr with lost := setIns t.arr.lost plane } })

/-- Capacity of the package is lost: a DEGRADED record, whose class the spec does not give and is left free (notes/assumptions/2.md). -/
def noteLoss (s : State) : State :=
  countRec { s with ticks := s.ticks + 1 } (ErrRec.base s ((Config.freeWord s.ticks).toNat % 31) 3)

/-- A die function is lost: its bit of READY clears (R379). -/
def strikeDie (s : State) (d : Nat) : State := if d < 4 && readyBit s (89 + d) then noteLoss (setReady s (89 + d) false) else s

/-- The reply to a growth request is lost on its way: it is taken as done (R445). -/
def strikeReply (s : State) (tid : Nat) : State := if handleHere s (s.tile tid).il.cand then s else growthOver s tid 0

/-- The queue of a region is frozen with cause 4. -/
def freezeState (s : State) (rid : Nat) : State :=
  match s.region? rid with
  | some r => freezeQueue s r.qid 4 (some rid) none 0 []
  | none => s

/-- An uncorrectable error of a collective entry (R433). -/
def strikeEntry (s : State) (gid e : Nat) : State :=
  let g := s.group gid
  match NMap.find? g.cents e with
  | none => s
  | some c =>
    let s := s.setGroup gid { g with cents := NMap.put g.cents e { c with counts := [] } }
    freezeState (count s 29) c.rgn

/-- An uncorrectable error of a channel table entry freezes the queues of the regions at its ends (R371). -/
def strikeChan (s : State) (c : Nat) : State :=
  let e := chan s c
  let s := count s 29
  let s := match (if e.wbound then e.wrgn else none) with | some r => freezeState s r | none => s
  match (if e.rbound then (s.tile (e.ragent % 2048)).rgn else none) with
  | some r => freezeState s r
  | none => s

/-- A held translation is found uncorrectable: it goes, and the next access fetches it again. A group's goes with those of its tiles (R95,
R371, R423). -/
def strikeTlb (s : State) (grp : Bool) (n va : Nat) : State :=
  let keep (l : List Tlb) : List Tlb := l.filter (fun e => !(e.base ≤ va && va < e.base + 2 ^ e.log))
  let drop (s : State) (u : Nat) : State := s.updTile u (fun t => { t with utlb := keep t.utlb })
  if grp then (range (16 * n) 16).foldl drop (s.setGroup n { s.group n with tlb := keep (s.group n).tlb }) else drop s n

/-- A fault strikes. -/
def strike (s : State) (u : Upset) : State :=
  match u with
  | .corrected cls k => strikeCorrected s cls k
  | .replay tid oslot pe grp cyc => strikeOperator s tid oslot pe grp cyc
  | .unit k tile => strikeUnit s k tile
  | .parity tid sub g num cnt => strikeParity s tid sub g num cnt
  | .residue tid kstep row => strikeStep s tid kstep row
  | .plane tid plane => strikePlane s tid plane
  | .tlb grp n va => strikeTlb s grp n va
  | .centry gid e => strikeEntry s gid e
  | .chan c => strikeChan s c
  | .probeLost n => { s with probes := s.probes.eraseIdx n }
  | .hostRead line => { s with hostBad := setIns s.hostBad line }
  | .die d => strikeDie s d
  | .replyLost tid => strikeReply s tid

/-! ### Rows of the table -/

/-- MESH_LINK_LOST: traffic takes the other dimension order, which no program sees (R27, R371). -/
def execMeshLinkLost (_link : Nat) (s : State) : Out := .next (countRec s (ErrRec.base s 11 3))

/-- HBM_ROW_REPAIR: the row of an address, if it is due; its units stay as they are. -/
def execHbmRowRepair (pa : Nat) (s : State) : Out :=
  let row := Config.hbmRow pa
  if s.rows.contains row then .next (countRec { s with rows := setDel s.rows row } { ErrRec.base s 6 0 with addr := pa })
  else .next s

/-- HBM_STACK_LOST: its bit of READY clears. -/
def execHbmStackLost (k : Nat) (s : State) : Out :=
  if k ≥ 8 || !readyBit s (69 + k) then .next s
  else .next (noteLoss { setReady s (69 + k) false with lostStacks := setIns s.lostStacks k })

end Sys2Proof.Machine
end

