-- ==== Sys2Proof/Machine/Firmware.lean ====
section
/-! DEFINITION. Firmware updates, attestation and keys (R102, R103, R353, R439 to R442). -/

namespace Sys2Proof.Machine

/-- Change the security state. -/
def updSec (s : State) (f : Sec → Sec) : State := { s with sec := f s.sec }

/-- A failed operation: RESULT, and a count in class 26. -/
def fwFail (s : State) (result : Nat) : State := updSec (count s 26) (fun c => { c with fwResult := result })

/-- Copy the image and verify its signature and its leaf index. -/
def stageImage (s : State) (src : Nat) : State :=
  if s.sec.fwState = 2 || s.sec.fwState = 3 then fwFail s 4
  else
    let img := readRun s (keyIdent s 0) (src / 4096 * 4096 % 2 ^ 39) Config.imageLen
    if !Config.signatureGood img then fwFail s 1
    else if Config.imageLeaf img ≤ s.sec.rollback then fwFail s 2
    else
      updSec s (fun c => { c with
        fwState := 1, fwResult := 0, nblk := 0, blocked := [], staged := some img, meass := Config.measure img
        lays := Config.imageLayout img % 2 ^ 16 })

/-- The word of a FWCTL write. -/
def fwWord (op src : Nat) : Word := wd (op + src / 4096 % 2 ^ 52 * 2 ^ 12)

/-- FW_STAGE. -/
def execFwStage (src : Nat) (s : State) : Out := onJob s 0x520 (fwWord 0 src) (fun s => stageImage s src)

/-- The image reads a save layout (R440). -/
def readsLayout (l v : Nat) : Bool := v ≤ l && l ≤ v + 2

/-- Queues that own a saved region of a layout that the staged image does not read, ascending. -/
def blockedQueues (s : State) : List Nat :=
  (s.regions.filter (fun p => p.2.st == .saved && !readsLayout s.sec.lays p.2.layout)).foldl (fun l p => setIns l p.2.qid) []

/-- A save is under way, whose region must be examined once it is saved. -/
def saveUnderWay (s : State) : Bool := s.regions.any (fun p => p.2.st == .stopping)

/-- An activation is blocked by the queues of a list; what it held resumes. -/
def blockActivation (s : State) (l : List Nat) : State :=
  releaseStops (updSec (count s 26) (fun c => { c with fwState := 1, fwResult := 3, nblk := l.length, blocked := l }))

/-- The checks of an activation end once no save is under way: the threads drain, or the activation is blocked. -/
def endChecks (s : State) : State :=
  if s.sec.fwState != 2 || saveUnderWay s then s
  else match blockedQueues s with
    | [] => updSec s (fun c => { c with fwState := 3 })
    | l => blockActivation s l

/-- ACTIVATE: from STAGED the checks begin; no other state fits. -/
def beginChecks (s : State) : State :=
  if s.sec.fwState = 1 then updSec s (fun c => { c with fwState := 2, fwResult := 0, nblk := 0, blocked := [] }) else fwFail s 4

/-- ACTIVATE is written and not taken yet. -/
def activateAsked (s : State) : Bool := (s.jobs.find? (fun j => j.1 == 0x520)).any (fun j => j.2 == fwWord 1 0)

/-- FW_ACTIVATE: an ACTIVATE that is written is taken; in CHECKING with none written, the checks end. -/
def execFwActivate (s : State) : Out :=
  if s.sec.fwState = 2 && !activateAsked s then .next (endChecks s) else onJob s 0x520 (fwWord 1 0) beginChecks

/-- Every queue thread stands at a packet boundary, or inside a packet that a save keeps (R440). -/
def threadsDrained (s : State) : Bool := s.threads.all (fun p => !p.2.siga)

/-- The staged image becomes the executing one, and what the activation held resumes. -/
def commitImage (s : State) (img : List Byte) : State :=
  releaseStops (updSec s (fun c => { c with
    fwState := 4, fwResult := 0, layx := c.lays, lays := 0, staged := none, measx := c.meass, meass := []
    rollback := Config.imageLeaf img }))

/-- FW_COMMIT. A region that a freeze has saved since the checks is examined too (DEDUCED, notes/assumptions/52.md). -/
def execFwCommit (s : State) : Out :=
  match s.sec.fwState, s.sec.staged with
  | 3, some img =>
    if threadsDrained s && !saveUnderWay s then
      .next (match blockedQueues s with | [] => commitImage s img | l => blockActivation s l)
    else .next s
  | _, _ => .next s

/-- ABORT: CHECKING and DRAINING end, and what they held resumes; no other state fits. -/
def abortActivation (s : State) : State :=
  if holdsStops s then releaseStops (updSec s (fun c => { c with fwState := 1, fwResult := 0 })) else fwFail s 4

/-- FW_ABORT. -/
def execFwAbort (s : State) : Out := onJob s 0x520 (fwWord 2 0) abortActivation

/-! ### Attestation (R441, R442) -/

/-- The quote key is used up. -/
def quotesOver (c : Sec) : Bool := c.gen == 255 && c.leaf ≥ 2 ^ 20 - 1

/-- The next leaf: the last one signs the root of the next generation's tree. -/
def nextLeaf (c : Sec) : Sec :=
  let c := { c with leaf := c.leaf + 1 }
  if c.leaf = 2 ^ 20 - 1 && c.gen < 255 then { c with leaf := 0, gen := c.gen + 1, cert := Config.successor c.gen } else c

/-- The 128 bytes that a quote signs. -/
def quoteBody (c : Sec) (nonce : List Byte) : List Byte :=
  natLe 4 (1 + c.fwState * 2 ^ 16 + c.gen * 2 ^ 19) ++ natLe 4 c.leaf ++ nonce ++ (c.measx ++ natLe 32 0).take 32
    ++ (c.meass ++ natLe 32 0).take 32 ++ natLe 24 0

/-- The signature of a quote: the leaf used, then what the key makes of the body. DEDUCED: the index stands in the byte order of R2
(notes/assumptions/85.md). -/
def quoteSig (c : Sec) (body : List Byte) : List Byte := natLe 4 c.leaf ++ (Config.quote body ++ natLe 2816 0).take 2816

/-- The quote that a request asks for, or its refusal. -/
def giveQuote (s : State) (addr : Nat) : State :=
  let c := s.sec
  if quotesOver c then updSec (count s 26) (fun c => { c with attResult := 5 })
  else
    let ident := keyIdent s 0
    let req := readRun s ident (addr / 64 * 64 % 2 ^ 39) 64
    let body := quoteBody c (req.take 32)
    let s := { s with sec := { nextLeaf c with attResult := 0 } }
    let s := if c.leaf + 1 = 2 ^ 20 - 2 ^ 16 then countRec s (ErrRec.base s 26 1) else s
    let s := if quotesOver s.sec then countRec s (ErrRec.base s 26 3) else s
    writeRun s ident (leNat ((req.drop 32).take 8) % 2 ^ 39) (body ++ quoteSig c body)

/-- ATTESTATION_REQUEST. -/
def execAttestationRequest (addr : Nat) (s : State) : Out :=
  onJob s 0x530 (wd (addr / 64 % 2 ^ 58 * 64)) (fun s => giveQuote s addr)

/-! ### Keys (R353) -/

/-- KEY_GENERATE. -/
def execKeyGenerate (slot : Nat) (s : State) : Out :=
  if slot = 0 || slot ≥ 1024 then .next s
  else onJob s 0x500 (wd slot) (fun s => updSec s (fun c => { c with keys := NMap.put c.keys slot c.keyNo, keyNo := c.keyNo + 1 }))

/-- KEY_ERASE. -/
def execKeyErase (slot : Nat) (s : State) : Out :=
  if slot = 0 || slot ≥ 1024 then .next s
  else onJob s 0x500 (wd (slot + 2 ^ 10)) (fun s => updSec s (fun c => { c with keys := NMap.erase c.keys slot }))

end Sys2Proof.Machine
end

