-- ==== Sys2Proof/Machine/Links.lean ====
section
/-! DEFINITION. The host port and UALink: accesses through BAR4, completions, requests of peers, and links that go down (R341 to R347,
R443 to R445, R450). -/

namespace Sys2Proof.Machine

/-! ### BAR4 (R342, R344, R450) -/

/-- D virtual address of a BAR4 offset. -/
def barVa (s : State) (fn off : Nat) : Nat := (wfld (mreg s (0x800 + 8 * fn)) 12 36 * 4096 + off) % 2 ^ 64

/-- A request that one function's BAR4 takes: inside the aperture, and inside one 4 KiB block as the link requires. -/
def barGood (fn off n : Nat) : Bool := fn ≤ 16 && 0 < n && off + n ≤ 2 ^ 38 && off % 4096 + n ≤ 4096

/-- Answer the host: data, or Unsupported Request. -/
def answerHost (s : State) (ok : Bool) (v : Nat) : State := { s with hostOut := s.hostOut ++ [(b2n (!ok), v)] }

/-- Count and log a BAR4 access that failed. -/
def barFail (s : State) (fn va sub : Nat) : State :=
  countRec s { ErrRec.base s 25 1 with part := fnPart s fn, detail := natLe 6 va ++ natLe 1 sub ++ natLe 1 fn }

/-- The identity of a request by a BAR4 access to a peer, in the place of its tile. -/
def barWaiter : Nat := 2049

/-- A write or AtomicOp through BAR4 to a peer is not performed yet: the host's accesses are performed in the order received, and wait for
its completion (R123, R344, R347). DEDUCED: the functions have one requester, the host (notes/assumptions/102.md). -/
def barBusy (s : State) : Bool := s.remotes.any (fun p => p.2.tile = barWaiter)

/-- The access takes place later, once another agent has answered. -/
def later (s : State) : Out := .next { s with jdStarved := true }

/-- BAR4_READ. -/
def execBar4Read (fn off n : Nat) (s : State) : Out :=
  if !barGood fn off n then .next s
  else if !fnOn s fn then .next (answerHost s false 0)
  else if barBusy s then later s
  else
    let va := barVa s fn off
    match translateJd s (fnPart s fn) va .read false with
    | (s, .error w) => .next (answerHost (barFail s fn va (xsub w .read false)) false 0)
    | (s, .ok p) =>
      let (s, bs) := physRead s (fnPart s fn) p n
      .next (answerHost s true (leNat bs))

/-- Poison the units that a poisoned write touches (R443). -/
def poisonAt (s : State) (p : Phys) (n : Nat) : State :=
  match p with
  | .mem k _ => { s with st := s.st.poisonRun k n }
  | .host pa => { s with st := s.st.poisonRun (hostKey pa) n }
  | .peer _ _ _ => s

/-- BAR4_WRITE: a release at SYSTEM scope; a function that is off drops it. -/
def execBar4Write (fn off : Nat) (bytes : List Byte) (poisoned : Bool) (s : State) : Out :=
  if !barGood fn off bytes.length || !fnOn s fn then .next s
  else if barBusy s then later s
  else
    let va := barVa s fn off
    match translateJd s (fnPart s fn) va .write false with
    | (s, .error w) => .next (barFail s fn va (xsub w .write false))
    | (s, .ok p) =>
      let s := physWriteAs s { Remote.base barWaiter .e 0 0 with part := fnPart s fn, unit := fn + 1 } p bytes
      if poisoned then
        .next (countRec (poisonAt s p bytes.length) { ErrRec.base s 15 1 with part := fnPart s fn })
      else .next s

/-- BAR4_ATOMICOP: FetchAdd, Swap and CAS, on an aligned word. -/
def execBar4Atomicop (fn off : Nat) (op : AmoOp) (dbl : Bool) (src cmp : Word) (s : State) : Out :=
  let n := if dbl then 8 else 4
  if !barGood fn off n || off % n != 0 then .next s
  else if !fnOn s fn || !hostServes op then .next (answerHost s false 0)
  else if barBusy s then later s
  else
    let va := barVa s fn off
    match translateJd s (fnPart s fn) va .atomic false with
    | (s, .error w) => .next (answerHost (barFail s fn va (xsub w .atomic false)) false 0)
    | (s, .ok (.mem k i)) =>
      let (s, old) := amoStep s i k n op src cmp
      .next (answerHost s true old)
    | (s, .ok (.host pa)) =>
      let (s, old) := amoStep s 0 (hostKey pa) n op src cmp
      .next (answerHost s true old)
    | (s, .ok (.peer dev pa key)) =>
      match portFor s dev (fld pa 8 10) with
      | none => .next (answerHost (countRec s { ErrRec.base s 13 1 with addr := pa, part := fnPart s fn }) false 0)
      | some port =>
        .next (newRemote s { Remote.base barWaiter .e pa n with
          host := false, dev := dev, isAtomic := true, op := op, src := src, cmp := cmp, port := port, key := key
          part := fnPart s fn, unit := fn + 1 }).1

/-! ### Completions (R443, R444) -/

/-- The instruction of a tile that waits for a request: engine position, zero extension, destination. -/
def waiterAt (t : Tile) (g : Eng) (no : Nat) : Option (Nat × Bool × Reg) :=
  match flightAt t g (fun w => match w with | .remote n _ _ _ _ => n == no | _ => false) with
  | some (k, .remote _ _ zx _ d) => some (k, zx, d)
  | _ => none

/-- The request of a stream slot's counter add: its slot. -/
def addSlot (r : Remote) : Option Nat :=
  if !r.host && r.isAtomic && r.tile < 2048 && 1 ≤ r.unit && r.unit ≤ 16 then some (r.unit - 1) else none

/-- A line that a reader has asked a peer for has come, or the peer has refused it: zeros, poisoned (R444). -/
def fillLine (s : State) (no : Nat) (r : Remote) (bs : List Byte) (err : Bool) : State :=
  let data := if err then natLe 64 0 else (bs ++ natLe 64 0).take 64
  putAsked { s with remotes := NMap.erase s.remotes no } r.tile
    ((asked s r.tile).map (fun g => if g.no = no then { g with data := some (data, err) } else g))

/-- The CAS of the Junction die at a peer's counter has found another value than the one it named: it tries again (R411). -/
def casMissed (r : Remote) (v : Nat) : Bool := r.tile = jdWaiter && r.isAtomic && r.op == .cas && r.cmp != wd v

/-- A request is over: the instruction that waits for it completes with a value of n bytes, or the slot's add is done. The value of
a peer's counter reaches the CWAIT that asked for it. -/
def answerRemote (s : State) (no : Nat) (r : Remote) (v : Nat) : State :=
  let s := { s with remotes := NMap.erase s.remotes no }
  if r.tile = barWaiter then answerHost s true (v % 2 ^ (8 * r.n))
  else if r.tile ≥ 2048 then (if casMissed r v then (newRemote s (nextCas r (wd v))).1 else s)
  else match addSlot r with
    | some n => idleSlot s r.tile n
    | none =>
      match waiterAt (s.tile r.tile) r.eng no with
      | some (k, zx, d) =>
        completeS s r.tile r.eng k (Result.value (some d) (extend (zx && !r.isAtomic) r.n (wd (v % 2 ^ (8 * r.n))))) true
      | none => if r.host || r.isAtomic then s else counterCame s r.tile r.dev r.pa (wd v)

/-- A request ends in REMOTE with a SUB (R444): its issuer takes the exception, and an instruction that made it is withdrawn, since its access
has not been performed at its home (R288). -/
def failRemote (s : State) (no : Nat) (r : Remote) (sub : Nat) : State :=
  let info := if r.host then 1024 else r.dev
  let s := { s with remotes := NMap.erase s.remotes no }
  if r.tile = barWaiter then answerHost s false 0
  else if r.tile ≥ 2048 then s
  else match addSlot r with
    | some n => stopSlot (updSlot s r.tile n (fun v => { v with inFlight := false })) r.tile n 0x14 sub info
    | none =>
      match waiterAt (s.tile r.tile) r.eng no with
      | some (k, _, _) => raiseRemote (unissue s r.tile r.eng k) r.tile r.eng sub info
      | none => s

/-- A record of a tile's access to another agent that is contained. -/
def contained (s : State) (cls : Nat) (r : Remote) : State :=
  if r.tile < 2048 then countRec s (ErrRec.ofTile s cls 1 r.tile r.pa []) else countRec s { ErrRec.base s cls 1 with addr := r.pa }

/-- A host request with its completion: a read returns the data; an atomic is performed there. -/
def hostServe (s : State) (no : Nat) (r : Remote) : State :=
  if r.isAtomic then
    let (s, old) := amoStep s 0 (hostKey r.pa) r.n r.op r.src r.cmp
    answerRemote s no r old
  else answerRemote s no r (leNat (readRun s 0 (hostKey r.pa) r.n))

/-- PCIE_COMPLETION: the data, or zero for a poisoned one. -/
def execPcieCompletion (n : Nat) (poisoned : Bool) (s : State) : Out :=
  match NMap.find? s.remotes n with
  | none => .next s
  | some r =>
    if !r.host then .next s
    else if poisoned then .next (answerRemote (contained s 15 r) n r 0)
    else .next (hostServe s n r)

/-- COMPLETION_TIMEOUT: a read of a host page without completion returns zero. -/
def execCompletionTimeout (n : Nat) (s : State) : Out :=
  match NMap.find? s.remotes n with
  | none => .next s
  | some r => if r.host then .next (answerRemote (contained s 15 r) n r 0) else .next s

/-- The message that a request carries: KIND and message. -/
def Remote.message (s : State) (r : Remote) : Option (Nat × UalMsg) :=
  if r.tile = msgWaiter then (s.ualOut[r.src.toNat]?).map Prod.snd else none

/-- The stream whose record goes to a handle's home stops with REMOTE (R392, R444). -/
def failRecord (s : State) (h sub : Nat) : State :=
  match (waitersOn s h).head? with
  | none => s
  | some (tid, n) =>
    stopSlot (updSlot (lostPath s tid 0) tid n (fun v => { v with inFlight := false })) tid n 0x14 sub (handleDev h)

/-- A store that waits for its write to a peer retires. -/
def storeOver (s : State) (no : Nat) (r : Remote) : State :=
  if 2048 ≤ r.tile || r.unit != 0 then s
  else match waiterAt (s.tile r.tile) r.eng no with
    | some (k, _, _) => completeS s r.tile r.eng k (Result.value none 0) true
    | none => s

/-- A write to a peer is over; one that the peer refuses is dropped, and a refused record stops its stream. -/
def writeOver (s : State) (no : Nat) (r : Remote) (err : Bool) : State :=
  let s := storeOver { s with remotes := NMap.erase s.remotes no } no r
  let s := if r.tile < 2048 && 1 ≤ r.unit && r.unit ≤ 16 then writesDone s r.tile (r.unit - 1) else s
  if !err then s
  else match r.message s with
    | some (1, m) => failRecord s m.handle 3
    | _ => contained s 13 r

/-- Entries that wait for peers' answers take place again. -/
def wake (s : State) : State := { s with agenda := s.deferred ++ s.agenda, deferred := [] }

/-- The value in a peer's answer: an atomic's own, or the bytes that a plain read asked for, out of the 64-byte line (R345). -/
def answerValue (r : Remote) (data : List Byte) : Nat := if r.isAtomic then rnum data 0 8 else rnum data (r.pa % 64) r.n

/-- What a peer's answer to a request does. -/
def peerAnswered (s : State) (n : Nat) (r : Remote) (data : List Byte) (err : Bool) : State :=
  if r.isWrite then writeOver s n r err
  else if r.unit = 17 then fillLine (if err then contained s 13 r else s) n r data err
  else if !err then answerRemote s n r (answerValue r data)
  else if r.isAtomic then failRemote (contained s 13 r) n r 3
  else answerRemote (contained s 13 r) n r 0

/-- PEER_COMPLETION: a plain read that the peer answers with an error returns zero, and a plain write is dropped; every other request
raises REMOTE. Each error is counted (R444). -/
def execPeerCompletion (n : Nat) (data : List Byte) (err : Bool) (s : State) : Out :=
  match NMap.find? s.remotes n with
  | none => .next s
  | some r => .next (if r.host then s else wake (peerAnswered s n r data err))

/-! ### Links that go down (R443, R445) -/

/-- Queues whose packets lie in host memory and that are enabled. -/
def hostQueues (s : State) : List Nat :=
  if (mreg s 0x100000).getLsbD 0 then (range 0 4096).filter (fun q => qHost s q && qState s q != 0) else []

/-- PCIE_LINK_DOWN: READY.HOST clears; what waits for the host ends; queues in host memory are frozen with cause 8. -/
def execPcieLinkDown (s : State) : Out :=
  if !hostUp s then .next s
  else
    let s := setReady s 66 false
    let s := s.remotes.foldl (fun s p =>
      if !p.2.host then s
      else if p.2.isAtomic then failRemote (count s 15) p.1 p.2 1
      else answerRemote (contained s 15 p.2) p.1 p.2 0) s
    let s := countRec s (ErrRec.base s 15 3)
    .next ((hostQueues s).foldl (fun s q => freezeQueue s q 8 none none 0 []) s)

/-- A message in flight goes out again with its header whole by another port: RECORD, ACCEPT and PROBE. A record that no port
carries stops its stream; any other message is lost. While that port has no room for its lines, the message waits, on no port: port 12
(R349). -/
def resendMsg (s : State) (no : Nat) (r : Remote) (kind : Nat) (m : UalMsg) : State :=
  let gone := { s with remotes := NMap.erase s.remotes no }
  if kind = 1 || kind = 2 || kind = 4 then
    match portFor s r.dev (fld m.handle 0 12) with
    | some p =>
      if windowUsed s p + (msgWrites kind m).length ≥ 2 ^ 18 then
        { s with remotes := NMap.put s.remotes no { r with port := 12 }, deferred := s.deferred ++ [.resend no] }
      else (sendVia gone p kind r.dev m r).1
    | none => if kind = 1 then failRecord gone m.handle 1 else gone
  else gone

/-- A plain write in flight goes out again by another port as the same request, or is dropped. -/
def resendWrite (s : State) (no : Nat) (r : Remote) : State :=
  match s.peerOut[r.src.toNat]?, portFor s r.dev (fld (r.pa / 64 * 64) 8 10) with
  | some w, some p =>
    { s with
      peerOut := s.peerOut ++ [{ w with port := p }]
      remotes := NMap.put s.remotes no { r with port := p, src := wd s.peerOut.length } }
  | _, _ => writeOver (contained s 13 r) no r false

/-- A plain read in flight goes out again by another port; with none it returns zero, poisoned. -/
def resendRead (s : State) (no : Nat) (r : Remote) : State :=
  match portFor s r.dev (fld r.pa 8 10) with
  | some p => { s with remotes := NMap.put s.remotes no { r with port := p } }
  | none => if r.unit = 17 then fillLine (contained s 13 r) no r [] true else answerRemote (contained s 13 r) no r 0

/-- A request in flight on a port that went down: reads, writes and messages go out again; an atomic or a token cannot. -/
def resend (s : State) (no : Nat) (r : Remote) : State :=
  if r.isAtomic then failRemote (contained s 13 r) no r 2
  else match r.message s with
    | some (kind, m) => resendMsg s no r kind m
    | none => if r.isWrite then resendWrite s no r else resendRead s no r

/-- A message that waits for room on a port goes out again. -/
def resendHeld (s : State) (no : Nat) : State :=
  match NMap.find? s.remotes no with
  | some r => if r.port = 12 then resend s no r else s
  | none => s

/-- Tiles whose GROW is in flight on the port: it gets no reply and is taken as done. -/
def growsOut (s : State) (port : Nat) : List Nat :=
  (s.tiles.filter (fun p => p.2.il.st == .grow && !handleHere s p.2.il.cand
    && s.remotes.any (fun r => !r.2.host && r.2.port == port
      && (r.2.message s).any (fun m => m.1 == 5 && m.2.handle == p.2.il.cand)))).map Prod.fst

/-- UAL_PORT_DOWN. -/
def execUalPortDown (p : Nat) (s : State) : Out :=
  let off := 0x608 + 8 * p
  if p ≥ 12 || !(mreg s off).getLsbD 10 then .next s
  else
    let s := setReady (setMreg s off (withBit (mreg s off) 10 false)) (77 + p) false
    let s := countRec s (ErrRec.base s 13 3)
    let grows := growsOut s p
    let s := s.remotes.foldl (fun s q => if !q.2.host && q.2.port == p then resend s q.1 q.2 else s) s
    .next (wake (grows.foldl (fun s t => growthOver s t 0) s))

/-! ### Requests of peers (R102, R345, R349, R444) -/

/-- Answer a peer. -/
def answerPeer (s : State) (dev : Nat) (err : Bool) (bs : List Byte) : State := { s with peerAns := s.peerAns ++ [(dev, err, bs)] }

/-- The window that encapsulated messages are written to. -/
def inWindow (pa : Nat) : Bool := windowBase ≤ pa && pa < windowBase + windowLen

/-- A run that a peer may reach: inside HBM, within one request, under a key slot that is not empty. -/
def peerReach (s : State) (pa n key : Nat) : Bool := pa + n ≤ 2 ^ 39 && 0 < n && n ≤ 256 && keyIdent s (key % 1024) != 0

/-- A request has a size that the link has, and lies aligned to it (R345). DESIGN CHOICE: one of another size is answered with an error
(notes/assumptions/86.md). -/
def peerSize (pa n : Nat) : Bool := (n == 64 || n == 128 || n == 256) && pa % n == 0

/-- PEER_READ. -/
def execPeerRead (dev pa n key : Nat) (s : State) : Out :=
  if !peerSize pa n || !peerReach s pa n key || s.st.poisoned pa n then .next (answerPeer s dev true [])
  else .next (answerPeer s dev false (readRun s (keyIdent s (key % 1024)) pa n))

/-- The runs of bytes that a write enables, by their addresses. -/
def enabledRuns (pa : Nat) : List (Option Byte) → List (Nat × List Byte)
  | [] => []
  | none :: r => enabledRuns (pa + 1) r
  | some b :: r =>
    match enabledRuns (pa + 1) r with
    | (a, bs) :: l => if a = pa + 1 then (pa, b :: bs) :: l else (pa, [b]) :: (a, bs) :: l
    | [] => [(pa, [b])]

/-- The state that a message leaves. -/
def stateOf (s : State) : Out → State
  | .next t => t
  | _ => s

/-- A whole message acts by its KIND; a reserved KIND does nothing. DESIGN CHOICE: the spec gives a reserved KIND no fate
(notes/assumptions/86.md). -/
def messageIn (s : State) (kind : Nat) (m : UalMsg) : State :=
  match kind with
  | 1 => recordIn s m
  | 2 => stateOf s (execAccept m s)
  | 3 => stateOf s (execToken m s)
  | 4 => stateOf s (execProbe m s)
  | 5 => stateOf s (execGrow m s)
  | 6 => stateOf s (execGrowreply m s)
  | _ => s

/-- A write into the window by a device and port: it begins or continues a message, which acts once every write has arrived. -/
def windowWrite (s : State) (from_ line : Nat) (bytes : List Byte) : State :=
  let here (w : Nat × Nat × List Byte) : Bool := w.1 == from_ && w.2.1 == line
  let bs := (((s.winIn.find? here).map (fun w => w.2.2)).getD []) ++ bytes
  let rest := s.winIn.filter (fun w => !here w)
  if bs.length < 32 || bs.length < 32 + msgLen bs then { s with winIn := rest ++ [(from_, (line + 1) % 2 ^ 18, bs)] }
  else messageIn { s with winIn := rest } (msgKind bs) (unpackMsg bs)

/-- PEER_WRITE: the enabled bytes of a request, to memory or, from the first byte of a line, into the window. -/
def execPeerWrite (src : Station) (pa key : Nat) (bytes : List (Option Byte)) (s : State) : Out :=
  let dev := src.dev
  if inWindow pa then
    .next (answerPeer (if pa % 256 = 0 then windowWrite s (dev % 1024 + 1024 * src.port) ((pa - windowBase) / 256) (bytes.filterMap id) else s)
      dev false [])
  else if !peerSize pa bytes.length || !peerReach s pa bytes.length key then .next (answerPeer s dev true [])
  else
    .next (answerPeer ((enabledRuns pa bytes).foldl (fun s w => writeRun s (keyIdent s (key % 1024)) w.1 w.2) s) dev false [])

/-- PEER_ATOMIC. -/
def execPeerAtomic (dev pa key : Nat) (op : AmoOp) (dbl : Bool) (src cmp : Word) (s : State) : Out :=
  let n := if dbl then 8 else 4
  if op == .fadd || !peerReach s pa n key || pa % n != 0 || s.st.poisoned pa n then .next (answerPeer s dev true [])
  else
    let (s, old) := amoStep s (keyIdent s (key % 1024)) pa n op src cmp
    .next (answerPeer s dev false (natLe n old))

end Sys2Proof.Machine
end

