-- ==== Sys2Proof/Machine/Dispatch.lean ====
section
/-! DEFINITION. The meaning of each row of the opcode table, one arm for each. -/

namespace Sys2Proof.Machine

def exec (i : Instr) (s : State) : Host.Outcome State Fault Refusal :=
  match i with
  | .reset => Sys2Proof.Machine.execReset s
  | .functionReady word pos => Sys2Proof.Machine.execFunctionReady word pos s
  | .thermalSample samples => Sys2Proof.Machine.execThermalSample samples s
  | .powerSample watts => Sys2Proof.Machine.execPowerSample watts s
  | .registerWrite off v => Sys2Proof.Machine.execRegisterWrite off v s
  | .ywinWrite p m v => Sys2Proof.Machine.execYwinWrite p m v s
  | .channelTableWrite die c word v => Sys2Proof.Machine.execChannelTableWrite die c word v s
  | .sbpartWrite p v => Sys2Proof.Machine.execSbpartWrite p v s
  | .partpgWrite p v => Sys2Proof.Machine.execPartpgWrite p v s
  | .chkstClear rgn v => Sys2Proof.Machine.execChkstClear rgn v s
  | .tlbinvPage part size va => Sys2Proof.Machine.execTlbinvPage part size va s
  | .tlbinvPartition part => Sys2Proof.Machine.execTlbinvPartition part s
  | .tlbinvKvIndex part idx => Sys2Proof.Machine.execTlbinvKvIndex part idx s
  | .tlbInvalidationComplete => Sys2Proof.Machine.execTlbInvalidationComplete s
  | .kvopMap part dst => Sys2Proof.Machine.execKvopMap part dst s
  | .kvopShare part dst src => Sys2Proof.Machine.execKvopShare part dst src s
  | .kvopDrop part dst => Sys2Proof.Machine.execKvopDrop part dst s
  | .kvopFreeadd part blk => Sys2Proof.Machine.execKvopFreeadd part blk s
  | .kvWrite part idx off key bytes => Sys2Proof.Machine.execKvWrite part idx off key bytes s
  | .pageWalk tile va => Sys2Proof.Machine.execPageWalk tile va s
  | .fetchBundle tile => Sys2Proof.Machine.execFetchBundle tile s
  | .preciseException tile eng => Sys2Proof.Machine.execPreciseException tile eng s
  | .trapEntry tile => Sys2Proof.Machine.execTrapEntry tile s
  | .preemptRequest ask => Sys2Proof.Machine.execPreemptRequest ask s
  | .preemptTrap place => Sys2Proof.Machine.execPreemptTrap place s
  | .walkerImageWrite rgn addr => Sys2Proof.Machine.execWalkerImageWrite rgn addr s
  | .regionRestore rgn px py addr => Sys2Proof.Machine.execRegionRestore rgn px py addr s
  | .regionRetire rgn => Sys2Proof.Machine.execRegionRetire rgn s
  | .regionUnretirable rgn => Sys2Proof.Machine.execRegionUnretirable rgn s
  | .watchdogFire rgn => Sys2Proof.Machine.execWatchdogFire rgn s
  | .walkerStateError rgn w => Sys2Proof.Machine.execWalkerStateError rgn w s
  | .placeRegion part rgn => Sys2Proof.Machine.execPlaceRegion part rgn s
  | .progEntry tile => Sys2Proof.Machine.execProgEntry tile s
  | .routeEntry tile => Sys2Proof.Machine.execRouteEntry tile s
  | .opplaneEntry tile => Sys2Proof.Machine.execOpplaneEntry tile s
  | .ringEntry tile => Sys2Proof.Machine.execRingEntry tile s
  | .chanEntry tile => Sys2Proof.Machine.execChanEntry tile s
  | .portEntry tile => Sys2Proof.Machine.execPortEntry tile s
  | .walkEntry tile => Sys2Proof.Machine.execWalkEntry tile s
  | .lastEntry tile => Sys2Proof.Machine.execLastEntry tile s
  | .tileStart tile => Sys2Proof.Machine.execTileStart tile s
  | .nextService rgn tix => Sys2Proof.Machine.execNextService rgn tix s
  | .shuntService rgn tix => Sys2Proof.Machine.execShuntService rgn tix s
  | .streamService tile => Sys2Proof.Machine.execStreamService tile s
  | .sbarComplete tile slot => Sys2Proof.Machine.execSbarComplete tile slot s
  | .syncLoadServed tile eng => Sys2Proof.Machine.execSyncLoadServed tile eng s
  | .trecvSatisfied tile => Sys2Proof.Machine.execTrecvSatisfied tile s
  | .cwaitSatisfied tile => Sys2Proof.Machine.execCwaitSatisfied tile s
  | .matrixCommandRetire tile id => Sys2Proof.Machine.execMatrixCommandRetire tile id s
  | .planeLoadComplete tile => Sys2Proof.Machine.execPlaneLoadComplete tile s
  | .switchTakesEffect tile => Sys2Proof.Machine.execSwitchTakesEffect tile s
  | .groupFire tile g => Sys2Proof.Machine.execGroupFire tile g s
  | .commitToken tile => Sys2Proof.Machine.execCommitToken tile s
  | .portPrefetch tile port => Sys2Proof.Machine.execPortPrefetch tile port s
  | .markerTake tile port => Sys2Proof.Machine.execMarkerTake tile port s
  | .markerEmit tile => Sys2Proof.Machine.execMarkerEmit tile s
  | .planeRefetch tile plane => Sys2Proof.Machine.execPlaneRefetch tile plane s
  | .channelAccept tile slot => Sys2Proof.Machine.execChannelAccept tile slot s
  | .channelTake tile slot => Sys2Proof.Machine.execChannelTake tile slot s
  | .probeSend tile => Sys2Proof.Machine.execProbeSend tile s
  | .probeArrival n => Sys2Proof.Machine.execProbeArrival n s
  | .probeReturn n => Sys2Proof.Machine.execProbeReturn n s
  | .probeWaitExpiry tile => Sys2Proof.Machine.execProbeWaitExpiry tile s
  | .probeFilterExpiry tile => Sys2Proof.Machine.execProbeFilterExpiry tile s
  | .growthRequest n => Sys2Proof.Machine.execGrowthRequest n s
  | .growthReply n => Sys2Proof.Machine.execGrowthReply n s
  | .collectiveGrant => Sys2Proof.Machine.execCollectiveGrant s
  | .collectiveTransfer n => Sys2Proof.Machine.execCollectiveTransfer n s
  | .addressWatchWake thr => Sys2Proof.Machine.execAddressWatchWake thr s
  | .malformedPacket thr => Sys2Proof.Machine.execMalformedPacket thr s
  | .nopPacket thr => Sys2Proof.Machine.execNopPacket thr s
  | .launch thr => Sys2Proof.Machine.execLaunch thr s
  | .waitc thr => Sys2Proof.Machine.execWaitc thr s
  | .sigc thr => Sys2Proof.Machine.execSigc thr s
  | .barrier thr => Sys2Proof.Machine.execBarrier thr s
  | .jump thr => Sys2Proof.Machine.execJump thr s
  | .doorbellWrite q => Sys2Proof.Machine.execDoorbellWrite q s
  | .hostDoorbellWrite fn q => Sys2Proof.Machine.execHostDoorbellWrite fn q s
  | .sbqcmdEnable q => Sys2Proof.Machine.execSbqcmdEnable q s
  | .sbqcmdDisable q => Sys2Proof.Machine.execSbqcmdDisable q s
  | .sbqcmdKick q => Sys2Proof.Machine.execSbqcmdKick q s
  | .sbqcmdPrio q prio => Sys2Proof.Machine.execSbqcmdPrio q prio s
  | .sbfcmdResume q => Sys2Proof.Machine.execSbfcmdResume q s
  | .sbfcmdCancel q => Sys2Proof.Machine.execSbfcmdCancel q s
  | .sbfcmdFreeze q => Sys2Proof.Machine.execSbfcmdFreeze q s
  | .sbfcmdClear q => Sys2Proof.Machine.execSbfcmdClear q s
  | .schedulerWake => Sys2Proof.Machine.execSchedulerWake s
  | .ageingStep q => Sys2Proof.Machine.execAgeingStep q s
  | .minresReached q => Sys2Proof.Machine.execMinresReached q s
  | .idleTimeout thr => Sys2Proof.Machine.execIdleTimeout thr s
  | .sbThreadFault thr => Sys2Proof.Machine.execSbThreadFault thr s
  | .schedulerThreadFault => Sys2Proof.Machine.execSchedulerThreadFault s
  | .sbHeartbeatTimeout => Sys2Proof.Machine.execSbHeartbeatTimeout s
  | .fwStage src => Sys2Proof.Machine.execFwStage src s
  | .fwActivate => Sys2Proof.Machine.execFwActivate s
  | .fwCommit => Sys2Proof.Machine.execFwCommit s
  | .fwAbort => Sys2Proof.Machine.execFwAbort s
  | .attestationRequest addr => Sys2Proof.Machine.execAttestationRequest addr s
  | .keyGenerate slot => Sys2Proof.Machine.execKeyGenerate slot s
  | .keyErase slot => Sys2Proof.Machine.execKeyErase slot s
  | .bar4Read fn off n => Sys2Proof.Machine.execBar4Read fn off n s
  | .bar4Write fn off bytes poisoned => Sys2Proof.Machine.execBar4Write fn off bytes poisoned s
  | .bar4Atomicop fn off op dbl src cmp => Sys2Proof.Machine.execBar4Atomicop fn off op dbl src cmp s
  | .completionTimeout n => Sys2Proof.Machine.execCompletionTimeout n s
  | .pcieLinkDown => Sys2Proof.Machine.execPcieLinkDown s
  | .peerRead dev pa n key => Sys2Proof.Machine.execPeerRead dev pa n key s
  | .peerWrite src pa key bytes => Sys2Proof.Machine.execPeerWrite src pa key bytes s
  | .peerAtomic dev pa key op dbl src cmp => Sys2Proof.Machine.execPeerAtomic dev pa key op dbl src cmp s
  | .record msg => Sys2Proof.Machine.execRecord msg s
  | .accept msg => Sys2Proof.Machine.execAccept msg s
  | .token msg => Sys2Proof.Machine.execToken msg s
  | .probe msg => Sys2Proof.Machine.execProbe msg s
  | .grow msg => Sys2Proof.Machine.execGrow msg s
  | .growreply msg => Sys2Proof.Machine.execGrowreply msg s
  | .ualPortDown p => Sys2Proof.Machine.execUalPortDown p s
  | .meshLinkLost link => Sys2Proof.Machine.execMeshLinkLost link s
  | .hbmRowRepair pa => Sys2Proof.Machine.execHbmRowRepair pa s
  | .nop tk ign => Sys2Proof.Machine.execNop tk ign s
  | .add tk d s1 s2 w => Sys2Proof.Machine.execAdd tk d s1 s2 w s
  | .sub tk d s1 s2 w => Sys2Proof.Machine.execSub tk d s1 s2 w s
  | .mul tk d s1 s2 hi w => Sys2Proof.Machine.execMul tk d s1 s2 hi w s
  | .and tk d s1 s2 => Sys2Proof.Machine.execAnd tk d s1 s2 s
  | .or tk d s1 s2 => Sys2Proof.Machine.execOr tk d s1 s2 s
  | .xor tk d s1 s2 => Sys2Proof.Machine.execXor tk d s1 s2 s
  | .shl tk d s1 s2 w => Sys2Proof.Machine.execShl tk d s1 s2 w s
  | .shr tk d s1 s2 arith w => Sys2Proof.Machine.execShr tk d s1 s2 arith w s
  | .min tk d s1 s2 u => Sys2Proof.Machine.execMin tk d s1 s2 u s
  | .max tk d s1 s2 u => Sys2Proof.Machine.execMax tk d s1 s2 u s
  | .cmp tk c d s1 s2 => Sys2Proof.Machine.execCmp tk c d s1 s2 s
  | .sel tk d s1 s2 => Sys2Proof.Machine.execSel tk d s1 s2 s
  | .bfx tk d s1 pos len => Sys2Proof.Machine.execBfx tk d s1 pos len s
  | .bfi tk d s1 pos len => Sys2Proof.Machine.execBfi tk d s1 pos len s
  | .addi tk d s1 imm ext => Sys2Proof.Machine.execAddi tk d s1 imm ext s
  | .andi tk d s1 imm ext => Sys2Proof.Machine.execAndi tk d s1 imm ext s
  | .ori tk d s1 imm ext => Sys2Proof.Machine.execOri tk d s1 imm ext s
  | .xori tk d s1 imm ext => Sys2Proof.Machine.execXori tk d s1 imm ext s
  | .shli tk d s1 n w => Sys2Proof.Machine.execShli tk d s1 n w s
  | .shri tk d s1 n arith w => Sys2Proof.Machine.execShri tk d s1 n arith w s
  | .li tk d imm ext => Sys2Proof.Machine.execLi tk d imm ext s
  | .lih tk d imm ext => Sys2Proof.Machine.execLih tk d imm ext s
  | .cnt tk d s1 mode w ign => Sys2Proof.Machine.execCnt tk d s1 mode w ign s
  | .tsel tk src imm => Sys2Proof.Machine.execTsel tk src imm s
  | .ldT tk d base idx sz zx ord ext => Sys2Proof.Machine.execLdT tk d base idx sz zx ord ext s
  | .ldP tk d base idx sz zx ord ext => Sys2Proof.Machine.execLdP tk d base idx sz zx ord ext s
  | .ldG tk d base idx sz zx ord ext => Sys2Proof.Machine.execLdG tk d base idx sz zx ord ext s
  | .ldY tk d base idx sz zx ord ext => Sys2Proof.Machine.execLdY tk d base idx sz zx ord ext s
  | .ldD tk d base idx sz zx ord ext => Sys2Proof.Machine.execLdD tk d base idx sz zx ord ext s
  | .stT tk src base idx sz ord ext => Sys2Proof.Machine.execStT tk src base idx sz ord ext s
  | .stP tk src base idx sz ord ext => Sys2Proof.Machine.execStP tk src base idx sz ord ext s
  | .stG tk src base idx sz ord ext => Sys2Proof.Machine.execStG tk src base idx sz ord ext s
  | .stY tk src base idx sz ord ext => Sys2Proof.Machine.execStY tk src base idx sz ord ext s
  | .stD tk src base idx sz ord ext => Sys2Proof.Machine.execStD tk src base idx sz ord ext s
  | .br tk pub kIgn off => Sys2Proof.Machine.execBr tk pub kIgn off s
  | .bt tk pub k off => Sys2Proof.Machine.execBt tk pub k off s
  | .bf tk pub k off => Sys2Proof.Machine.execBf tk pub k off s
  | .call tk pub kIgn off => Sys2Proof.Machine.execCall tk pub kIgn off s
  | .jr tk link s1 => Sys2Proof.Machine.execJr tk link s1 s
  | .pcmp tk c comb k s1 s2 => Sys2Proof.Machine.execPcmp tk c comb k s1 s2 s
  | .pcmpi tk c k s1 imm ext => Sys2Proof.Machine.execPcmpi tk c k s1 imm ext s
  | .plog tk op k ka kb => Sys2Proof.Machine.execPlog tk op k ka kb s
  | .pget tk d => Sys2Proof.Machine.execPget tk d s
  | .pset tk mask vals => Sys2Proof.Machine.execPset tk mask vals s
  | .pub tk pub k ign => Sys2Proof.Machine.execPub tk pub k ign s
  | .bqs tk pub off ext => Sys2Proof.Machine.execBqs tk pub off ext s
  | .div tk d s1 s2 u w => Sys2Proof.Machine.execDiv tk d s1 s2 u w s
  | .rem tk d s1 s2 u w => Sys2Proof.Machine.execRem tk d s1 s2 u w s
  | .fadd tk d s1 s2 fmt rnd => Sys2Proof.Machine.execFadd tk d s1 s2 fmt rnd s
  | .fsub tk d s1 s2 fmt rnd => Sys2Proof.Machine.execFsub tk d s1 s2 fmt rnd s
  | .fmul tk d s1 s2 fmt rnd => Sys2Proof.Machine.execFmul tk d s1 s2 fmt rnd s
  | .fma tk d s1 s2 s3 fmt rnd => Sys2Proof.Machine.execFma tk d s1 s2 s3 fmt rnd s
  | .fcvt tk d s1 dst src rnd => Sys2Proof.Machine.execFcvt tk d s1 dst src rnd s
  | .fcmp tk c fmt k s1 s2 => Sys2Proof.Machine.execFcmp tk c fmt k s1 s2 s
  | .trap tk ign code => Sys2Proof.Machine.execTrap tk ign code s
  | .rfe tk ign => Sys2Proof.Machine.execRfe tk ign s
  | .mfs tk d n => Sys2Proof.Machine.execMfs tk d n s
  | .mts tk src n => Sys2Proof.Machine.execMts tk src n s
  | .icsync tk ign => Sys2Proof.Machine.execIcsync tk ign s
  | .fence tk ign scope => Sys2Proof.Machine.execFence tk ign scope s
  | .endTile tk ign => Sys2Proof.Machine.execEndTile tk ign s
  | .folA tk off => Sys2Proof.Machine.execFolA tk off s
  | .sld tk slot ra rb sp sc cc ring clamp => Sys2Proof.Machine.execSld tk slot ra rb sp sc cc ring clamp s
  | .sst tk slot ra rb sp sc cc ring clamp => Sys2Proof.Machine.execSst tk slot ra rb sp sc cc ring clamp s
  | .sgath tk slot ra rb sp sc cc ring roww rstr => Sys2Proof.Machine.execSgath tk slot ra rb sp sc cc ring roww rstr s
  | .sscat tk slot ra rb sp sc cc ring roww rstr => Sys2Proof.Machine.execSscat tk slot ra rb sp sc cc ring roww rstr s
  | .srec tk slot ra sc cc src dst => Sys2Proof.Machine.execSrec tk slot ra sc cc src dst s
  | .smc tk slot ra rb sp sc cc ring clamp mask => Sys2Proof.Machine.execSmc tk slot ra rb sp sc cc ring clamp mask s
  | .scpy tk slot ra rb sp sc cc dsp => Sys2Proof.Machine.execScpy tk slot ra rb sp sc cc dsp s
  | .schr tk slot ra sc cc ring port => Sys2Proof.Machine.execSchr tk slot ra sc cc ring port s
  | .schw tk slot ra sc cc ring port commit => Sys2Proof.Machine.execSchw tk slot ra sc cc ring port commit s
  | .sbar tk slot sc cc => Sys2Proof.Machine.execSbar tk slot sc cc s
  | .swait tk slot ra sc => Sys2Proof.Machine.execSwait tk slot ra sc s
  | .stash tk slot ra rb sc cc restore ctx => Sys2Proof.Machine.execStash tk slot ra rb sc cc restore ctx s
  | .scnt tk slot ra rb sp => Sys2Proof.Machine.execScnt tk slot ra rb sp s
  | .sstat tk slot d => Sys2Proof.Machine.execSstat tk slot d s
  | .wfill tk d c ring => Sys2Proof.Machine.execWfill tk d c ring s
  | .wfree tk d c ring => Sys2Proof.Machine.execWfree tk d c ring s
  | .rpop tk d c ring => Sys2Proof.Machine.execRpop tk d c ring s
  | .radv tk d c ring => Sys2Proof.Machine.execRadv tk d c ring s
  | .mma tk ringA ringB keepA keepB ext => Sys2Proof.Machine.execMma tk ringA ringB keepA keepB ext s
  | .mmaT tk ringA ringB keepA keepB ext => Sys2Proof.Machine.execMmaT tk ringA ringB keepA keepB ext s
  | .zacc tk ext => Sys2Proof.Machine.execZacc tk ext s
  | .ldacc tk s1 s2 add ext => Sys2Proof.Machine.execLdacc tk s1 s2 add ext s
  | .drain tk s1 rm zafter ext => Sys2Proof.Machine.execDrain tk s1 rm zafter ext s
  | .qnt tk s1 rm zafter ext => Sys2Proof.Machine.execQnt tk s1 rm zafter ext s
  | .mwait tk id => Sys2Proof.Machine.execMwait tk id s
  | .mwaitAll tk => Sys2Proof.Machine.execMwaitAll tk s
  | .folM tk off => Sys2Proof.Machine.execFolM tk off s
  | .ldrp tk sp s1 s2 => Sys2Proof.Machine.execLdrp tk sp s1 s2 s
  | .ldop tk sp s1 s2 => Sys2Proof.Machine.execLdop tk sp s1 s2 s
  | .swop tk d oslot now align => Sys2Proof.Machine.execSwop tk d oslot now align s
  | .pwr tk s1 s2 => Sys2Proof.Machine.execPwr tk s1 s2 s
  | .amoT tk d s1 s2 op dbl ext => Sys2Proof.Machine.execAmoT tk d s1 s2 op dbl ext s
  | .amoP tk d s1 s2 op dbl ext => Sys2Proof.Machine.execAmoP tk d s1 s2 op dbl ext s
  | .amoG tk d s1 s2 op dbl ext => Sys2Proof.Machine.execAmoG tk d s1 s2 op dbl ext s
  | .amoY tk d s1 s2 op dbl ext => Sys2Proof.Machine.execAmoY tk d s1 s2 op dbl ext s
  | .amoD tk d s1 s2 op dbl ext => Sys2Proof.Machine.execAmoD tk d s1 s2 op dbl ext s
  | .folY tk off => Sys2Proof.Machine.execFolY tk off s
  | .arrive tk src bar => Sys2Proof.Machine.execArrive tk src bar s
  | .wait tk bar => Sys2Proof.Machine.execWait tk bar s
  | .tsend tk tgt far inc borne slot sc => Sys2Proof.Machine.execTsend tk tgt far inc borne slot sc s
  | .trecv tk d s1 c sc => Sys2Proof.Machine.execTrecv tk d s1 c sc s
  | .next tk => Sys2Proof.Machine.execNext tk s
  | .shunt tk => Sys2Proof.Machine.execShunt tk s
  | .beat tk => Sys2Proof.Machine.execBeat tk s
  | .cadd tk d s1 s2 sc sp => Sys2Proof.Machine.execCadd tk d s1 s2 sc sp s
  | .cwait tk d s1 s2 sc sp => Sys2Proof.Machine.execCwait tk d s1 s2 sc sp s
  | .clst tk ctl s1 s2 => Sys2Proof.Machine.execClst tk ctl s1 s2 s
  | .clstat tk d s1 => Sys2Proof.Machine.execClstat tk d s1 s
  | .clstatWait tk d s1 => Sys2Proof.Machine.execClstatWait tk d s1 s
  | .clstatFree tk ign s1 => Sys2Proof.Machine.execClstatFree tk ign s1 s
  | .xsave tk s1 => Sys2Proof.Machine.execXsave tk s1 s
  | .xrest tk s1 => Sys2Proof.Machine.execXrest tk s1 s
  | .fsave tk s1 => Sys2Proof.Machine.execFsave tk s1 s
  | .frest tk s1 => Sys2Proof.Machine.execFrest tk s1 s
  | .qsave tk s1 => Sys2Proof.Machine.execQsave tk s1 s
  | .qrest tk s1 => Sys2Proof.Machine.execQrest tk s1 s
  | .bsave tk s1 s2 => Sys2Proof.Machine.execBsave tk s1 s2 s
  | .brest tk s1 s2 => Sys2Proof.Machine.execBrest tk s1 s2 s
  | .pcieCompletion n poisoned => Sys2Proof.Machine.execPcieCompletion n poisoned s
  | .peerCompletion n data err => Sys2Proof.Machine.execPeerCompletion n data err s
  | .hbmStackLost k => Sys2Proof.Machine.execHbmStackLost k s

end Sys2Proof.Machine
end

