-- ==== Sys2Proof/Machine/Settle.lean ====
section
/-! DEFINITION. Instructions in flight whose wait is over: they retire in the next step of their engine (R35, R44, R207, R231, R269, R293,
R308). -/

namespace Sys2Proof.Machine

/-- Retire the k-th entry of an engine's queue if what it waits for has come; none if it waits on. Waits that end by an event row of
their own are left to it. A tile that is stopped only lets a PWR retire, which its save waits for (R285). -/
def settleEntry (s : State) (tid : Nat) (g : Eng) (k : Nat) (q : QEntry) : Option State :=
  let t := s.tile tid
  let over_ (b : Bool) (r : Result) : Option State := if b then some (completeS s tid g k r false) else none
  match q.stat with
  | .flight w sig _ _ =>
    if t.halted && !w.isPlane then none
    else match w with
    | .push r keep => if mayRetire t g ((t.eng g).queue.take k) r sig then some (completeS s tid g k r keep) else none
    | .rfe => if (rfeAt t g).isSome then some (settleRfe s tid g) else none
    | .token rid col row off inc =>
      (heldToken s rid col row).map (fun u => completeS (tokenCame s tid g u off inc) tid g k (Result.value none 0) true)
    | .swait mask => over_ (slotsIdle t mask) (Result.value none 0)
    | .pwr _ till => if till ≤ t.cyc && completes t g k (Result.value none 0) then some (completeS s tid g k (Result.value none 0) true) else none
    | .mwait id => over_ (mwaitOver t id) (Result.value none 0)
    | .barrier b => over_ (phaseOver s tid b) (Result.value none 0)
    | .clstat tag d => over_ (centReady s tid tag) (Result.value (some d) (clstatWord s tid tag))
    | .arrive b mask _ => (deliverArrive s tid b mask).map (fun s => completeS s tid g k (Result.value none 0) true)
    | _ => none
  | _ => none

/-- The oldest entry of a list that can retire; k is the position of its head. -/
def settleFrom (s : State) (tid : Nat) (g : Eng) : Nat → List QEntry → Option State
  | _, [] => none
  | k, q :: r =>
    match settleEntry s tid g k q with
    | some s' => some s'
    | none => settleFrom s tid g (k + 1) r

/-- One wait of an engine that is over. -/
def settle (s : State) (tid : Nat) (g : Eng) : Option State :=
  let t := s.tile tid
  if !t.started then none else settleFrom s tid g 0 (t.eng g).queue

end Sys2Proof.Machine
end

