-- ==== Sys2Proof/Machine/Time.lean ====
section
/-! DEFINITION. Time: pulses of the undivided clock, and the cycles that they deliver to each region (R4, R56 to R58, R145, R150, R161,
R251, R314, R378, R412). -/

namespace Sys2Proof.Machine

/-! ### Waiting engines (R145) -/

/-- A wait that R145 names. -/
def Wait.blocks : Wait → Bool
  | .swait _ | .barrier _ | .arrive _ _ _ | .cwait _ _ _ _ | .trecv _ _ _ _ | .push _ _ => true
  | _ => false

/-- Waits of an engine's instructions in flight. -/
def flights (e : EngSt) : List Wait :=
  e.queue.filterMap (fun q => match q.stat with | .flight w _ _ _ => some w | _ => none)

/-- The instruction that an engine would issue next. -/
def nextInstr (t : Tile) (g : Eng) : Option Instr :=
  match (nextEntry t g).map QEntry.kind with
  | some (.instr w x) => match decodeLane g w x with | .ok i => some i | _ => none
  | _ => none

/-- The slot that a stream command or a collective part takes. -/
def slotTaken (s : State) : Instr → Option Nat
  | .sld _ n .. | .sst _ n .. | .sgath _ n .. | .sscat _ n .. | .srec _ n .. | .smc _ n .. | .scpy _ n .. | .schr _ n .. | .schw _ n ..
  | .sbar _ n .. | .stash _ n .. | .scnt _ n .. => some n.val
  | .clst _ ctl _ _ => some (ctlSlot (val s ctl))
  | _ => none

/-- The device of a target outside the executing region that is not this package. -/
def farDev (s : State) (far : Reg) : Option Nat :=
  if far = .ro .zero || wfld (val s far) 12 10 = devNo s then none else some (wfld (val s far) 12 10)

/-- What holds the next instruction of the engine that runs is none of the waits of R145: a slot that is busy, a P access or a multicast
to a tile that has not started, a token for another package whose port has no room, or a plane that is pending, on its way or in use. A
peer's answer that is awaited is told by `flights`, as any other instruction in flight is. -/
def heldOtherwise (s : State) (i : Instr) : Bool :=
  let t := s.tile s.cur.1
  let far (a : Word) : Bool := peerHeld s s.cur.1 .p a
  match i with
  | .ldP _ _ base idx sz _ _ ext => far (memAddr (val s base) (val s idx) ext (szBytes sz))
  | .stP _ _ base idx sz _ ext => far (memAddr (val s base) (val s idx) ext (szBytes sz))
  | .amoP _ _ s1 _ _ _ ext => far (val s s1 + (amoOff ext).signExtend 64)
  | .smc _ n _ _ _ _ _ _ _ mask => (t.slot n.val).act || (maskTiles s.cur.1 mask.toNat).any (fun u => !(s.tile u).started)
  | .tsend _ _ far _ _ _ _ => (farDev s far).isSome
  | .swop .. | .pwr .. | .ldrp .. | .ldop .. => t.arr.swap.isSome || !(planesInFlight t).isEmpty || !t.arr.firings.isEmpty
  | i => ((slotTaken s i).map (fun n => (t.slot n).act)).getD false

/-- Running the engine's next instruction changes nothing in the tile: it is held. -/
def heldNow (s : State) (tid : Nat) (g : Eng) : Bool :=
  let s := { s with cur := (tid, g) }
  match nextInstr (s.tile tid) g with
  | none => false
  | some i => match exec i s with
    | .next s' => s'.tile tid == s.tile tid
    | _ => false

/-- The engine cannot issue its next instruction now, in a wait that R145 names: running it changes nothing in the tile. What waits for
an instruction in flight is told by `flights`. -/
def stuck (s : State) (tid : Nat) (g : Eng) : Bool :=
  heldNow s tid g && ((nextInstr (s.tile tid) g).any (fun i => !heldOtherwise { s with cur := (tid, g) } i))

/-- The engine waits in hardware. -/
def engineWaits (s : State) (tid : Nat) (g : Eng) : Bool :=
  let e := (s.tile tid).eng g
  (flights e).all Wait.blocks && (settle s tid g).isNone
    && match nextEntry (s.tile tid) g with
       | none => !(flights e).isEmpty
       | some _ => stuck s tid g

/-- The tile is blocked in a cycle. -/
def blockedNow (s : State) (tid : Nat) : Bool :=
  let t := s.tile tid
  t.live && !t.sys && !t.ended && !t.moved && engines.all (engineWaits s tid)

/-! ### The Interlocking engine (R148, R150, R430) -/

/-- Its part of a delivered cycle. -/
def ilCycle (l : Il) (blk : Bool) : Il :=
  let l := { l with blk := blk, filter := l.filter.map (fun (f : Nat × Nat × Nat) => (f.1, f.2.1, f.2.2 + 1)), armed := l.armed && blk }
  match l.st with
  | .idle => if blk then { l with st := .count, count := 0 } else l
  | .count => if blk then { l with count := l.count + 1 } else { l with st := .idle }
  | .probe => if blk then { l with wait := l.wait + 1 } else { l with st := .idle }
  | .grow => l
  | .victim => l

/-! ### The watchdog (R412) -/

/-- The slot is blocked on a channel whose other end is unbound or outside the region. -/
def blockedOutside (s : State) (tid n : Nat) : Bool :=
  let v := (s.tile tid).slot n
  chanBlocked s tid v && match slotEdge s tid n v with
    | none => true
    | some e => match e.dest with
      | none => true
      | some u => (s.tile u).rgn != (s.tile tid).rgn

/-- The rings that an instruction waits on; of the operands of a multiply, those with no slot to read (R270). -/
def ringsOf (t : Tile) : Instr → List Nat
  | .wfill _ _ _ r | .wfree _ _ _ r | .rpop _ _ _ r | .radv _ _ _ r => [r.val]
  | .mma _ a b _ _ _ | .mmaT _ a b _ _ _ => [a.val, b.val].filter (fun r => (t.ring r).filled == readPos t r)
  | _ => []

/-- A waiting engine is in a wait that the watchdog does not count. -/
def pausedWait (s : State) (tid : Nat) (g : Eng) : Bool :=
  let t := s.tile tid
  (flights (t.eng g)).any (fun w => match w with
    | .cwait _ _ _ _ => true
    | .clstat _ _ => true
    | .trecv _ _ none _ => true
    | .trecv _ _ (some u) _ => (s.tile u).rgn != t.rgn
    | .swait mask => (range 0 16).all (fun n => !tb mask n || !(t.slot n).act || blockedOutside s tid n)
    | _ => false)
    || (((nextInstr t g).map (ringsOf t)).getD []).any (fun r =>
        (range 0 16).any (fun n => fld (t.slot n).extv.toNat 0 5 == r && blockedOutside s tid n))

/-- A unit of the tile works for the instruction, which waits for nothing. -/
def Wait.works : Wait → Bool
  | .matrix _ | .plane .. | .pwr .. => true
  | _ => false

/-- The engine is a waiting engine of R412: whatever it waits for, it moves nothing now. -/
def waitsAtAll (s : State) (tid : Nat) (g : Eng) : Bool :=
  let e := (s.tile tid).eng g
  (settle s tid g).isNone
    && match nextEntry (s.tile tid) g with
       | none => (flights e).any (fun w => !w.works)
       | some _ => heldNow s tid g

/-- The tile does not make the cycle count: no slot moves data, and it has ended or each of its waiting engines is in a wait that does
not count. DEDUCED: a tile none of whose engines waits makes it count (notes/assumptions/87.md). -/
def tilePaused (s : State) (tid : Nat) : Bool :=
  let t := s.tile tid
  !t.moved && (t.ended || (t.started && engines.any (waitsAtAll s tid)
    && engines.all (fun g => !waitsAtAll s tid g || pausedWait s tid g)))

/-- The watchdog's part of a delivered cycle. -/
def wdCycle (s : State) (r : Region) : Nat :=
  if !r.lrec.persist && r.progress then 0
  else if (regionTiles s r).all (tilePaused s) then r.wd
  else r.wd + 1

/-! ### A delivered cycle of a region (R4, R161, R251) -/

/-- A tile's part: its array, then its counts. -/
def tileCycle (now : Nat) (s : State) (tid : Nat) : State :=
  if !(s.tile tid).started then s
  else
    let s := arrayCycle s tid now
    let b := blockedNow s tid
    s.updTile tid (fun t => { t with cyc := (t.cyc + 1) % 2 ^ 64, il := ilCycle t.il b })

/-- A tile of a region that is being pre-empted only counts its cycles: its array waits for its trap, and it is not blocked (R145, R251,
R264). -/
def stoppingCycle (s : State) (tid : Nat) : State :=
  if !(s.tile tid).started then s
  else s.updTile tid (fun t => { t with cyc := (t.cyc + 1) % 2 ^ 64, il := ilCycle t.il false })

/-- One delivered cycle of a placed region. DEDUCED: the domain cycle count of one that is being pre-empted has stopped since the request
(R251; notes/assumptions/103.md). -/
def regionCycle (s : State) (rid : Nat) : State :=
  match s.region? rid with
  | none => s
  | some r =>
    let tiles := regionTiles s r
    let s := tiles.foldl (if r.st == .stopping then stoppingCycle else tileCycle r.dom) s
    match s.region? rid with
    | none => s
    | some r =>
      let w := wdCycle s r
      let s := tiles.foldl (fun s t => s.updTile t (fun v => { v with moved := false })) s
      if r.st == .stopping then s.setRegion rid { r with progress := false }
      else s.setRegion rid { r with dom := (r.dom + 1) % 2 ^ 64, wd := w, progress := false }

/-! ### Pulses of the undivided clock (R57, R314, R378) -/

/-- Pulse i of a run of 64 is delivered at duty d. -/
def delivered (i d : Nat) : Bool := i * d / 64 < (i + 1) * d / 64

/-- One region at a pulse: a new duty at the first pulse of a run, and a cycle if the pulse is delivered. -/
def regionPulse (i : Nat) (s : State) (rid : Nat) : State :=
  let s := if i = 0 then s.updRegion rid (fun r => { r with duty := r.dutyNext }) else s
  match s.region? rid with
  | none => s
  | some r => if r.st == .saved || !delivered i r.duty then s else regionCycle s rid

/-- One pulse: records of other packages that wait for room are offered again, the regions, then JCYC; three SB cycles pass in four
pulses. -/
def onePulse (s : State) : State :=
  let s := (s.regions.map Prod.fst).foldl (regionPulse (s.jcyc % 64)) (retryRecords s)
  { s with jcyc := s.jcyc + 1, sbcyc := s.sbcyc + ((s.jcyc + 1) * 3 / 4 - s.jcyc * 3 / 4) }

/-- Pulses of the undivided clock. -/
def passPulses (s : State) : Nat → State
  | 0 => s
  | n + 1 => passPulses (onePulse s) n

end Sys2Proof.Machine
end

