-- ==== Sys2Proof/Machine/Run.lean ====
section
/-! DEFINITION. What one entry of the agenda does, and an instruction placed for the next step (notes/assumptions/1.md,
notes/assumptions/9.md). -/

namespace Sys2Proof.Machine

/-- The row is an instruction of a tile, which runs from an engine's queue. -/
def tileInstr (i : Instr) : Bool :=
  match i with
  | .nop .. | .add .. | .sub .. | .mul .. | .and .. | .or .. | .xor .. | .shl .. | .shr .. | .min .. | .max ..
  | .cmp .. | .sel .. | .bfx .. | .bfi .. | .addi .. | .andi .. | .ori .. | .xori .. | .shli .. | .shri .. | .li ..
  | .lih .. | .cnt .. | .tsel .. | .ldT .. | .ldP .. | .ldG .. | .ldY .. | .ldD .. | .stT .. | .stP .. | .stG ..
  | .stY .. | .stD .. | .br .. | .bt .. | .bf .. | .call .. | .jr .. | .pcmp .. | .pcmpi .. | .plog .. | .pget ..
  | .pset .. | .pub .. | .bqs .. | .div .. | .rem .. | .fadd .. | .fsub .. | .fmul .. | .fma .. | .fcvt ..
  | .fcmp .. | .trap .. | .rfe .. | .mfs .. | .mts .. | .icsync .. | .fence .. | .endTile .. | .folA .. | .sld ..
  | .sst .. | .sgath .. | .sscat .. | .srec .. | .smc .. | .scpy .. | .schr .. | .schw .. | .sbar .. | .swait ..
  | .stash .. | .scnt .. | .sstat .. | .wfill .. | .wfree .. | .rpop .. | .radv .. | .mma .. | .mmaT .. | .zacc ..
  | .ldacc .. | .drain .. | .qnt .. | .mwait .. | .mwaitAll .. | .folM .. | .ldrp .. | .ldop .. | .swop ..
  | .pwr .. | .amoT .. | .amoP .. | .amoG .. | .amoY .. | .amoD .. | .folY .. | .arrive .. | .wait .. | .tsend ..
  | .trecv .. | .next .. | .shunt .. | .beat .. | .cadd .. | .cwait .. | .clst .. | .clstat .. | .clstatWait ..
  | .clstatFree .. | .xsave .. | .xrest .. | .fsave .. | .frest .. | .qsave .. | .qrest .. | .bsave .. | .brest .. => true
  | _ => false

/-- An engine of a tile moves: a wait that is over retires, or its next instruction runs, or fetch fills its queue. -/
def runEngine (s : State) (tid : Nat) (g : Eng) : Out :=
  let s := { s with cur := (tid, g) }
  match settle s tid g with
  | some s' => .next s'
  | none =>
    match nextEntry (s.tile tid) g with
    | none => exec (.fetchBundle tid) s
    | some q =>
      match q.kind with
      | .instr w x =>
        match decodeLane g w x with
        | .ok i => exec i s
        | _ => exec (.preciseException tid g) s
      | _ => exec (.preciseException tid g) s

/-! ### What an entry names (R131, R448) -/

/-- The driver points TVEC of a tile that has not started at a handler. DEDUCED: R448 says that it does, and no register or row of the
table is named for it (notes/assumptions/70.md). -/
def pointTvec (s : State) (tid : Nat) (v : Word) : State :=
  if (s.tile tid).started then s else s.updTile tid (fun t => t.setSpecial 5 (wd (v.toNat / 32 * 32)))

/-- The row is an access of the host: through BAR4, a doorbell, or a write of a register. -/
def fromHost : Instr → Bool
  | .bar4Read .. | .bar4Write .. | .bar4Atomicop .. | .hostDoorbellWrite .. | .registerWrite .. | .channelTableWrite .. | .ywinWrite ..
  | .sbpartWrite .. | .partpgWrite .. | .chkstClear .. | .tlbinvPage .. | .tlbinvPartition .. | .tlbinvKvIndex .. => true
  | _ => false

/-- The entry is an access of the host. -/
def hostAct : Act → Bool
  | .event i | .again _ (.event i) => fromHost i
  | _ => false

/-- An earlier access of the host is not performed yet, so that a later one waits: its requests are performed in the order received
(R123, R344; notes/assumptions/102.md). -/
def hostHeld (s : State) : Bool := barBusy s || s.deferred.any hostAct

/-- A row of the table takes place; an access of the host waits for those before it. -/
def actEvent (s : State) (i : Instr) : Out :=
  if tileInstr i then .next s else if fromHost i && hostHeld s then later s else exec i s

/-- What an entry that gathers no others names takes place. -/
def actPlain (s : State) (a : Act) : Out :=
  match a with
  | .run tid g => runEngine s tid g
  | .pulses n => .next (passPulses s n)
  | .serve tid n => .next (serveSlot s tid n)
  | .own tid va => .next (ownBlock s tid va)
  | .resend no => .next (resendHeld s no)
  | .event i => actEvent s i
  | .upset u => .next (strike s u)
  | .tvec tid v => .next (pointTvec s tid v)
  | .farWriter c agent bound => .next (farBind s c agent bound)
  | .cycle _ | .cycleEnd | .again _ _ => .next s

/-! ### Entries of one cycle (R41, R81, R84, R100, R139, R382, R405, R415, R418) -/

/-- The engine that an entry stands for. -/
def actEngine (a : Act) : Option (Nat × Eng) :=
  match a with
  | .run tid g | .event (.syncLoadServed tid g) | .event (.preciseException tid g) => some (tid, g)
  | .event (.matrixCommandRetire tid _) | .event (.planeLoadComplete tid) => some (tid, .m)
  | .event (.trecvSatisfied tid) | .event (.cwaitSatisfied tid) => some (tid, .y)
  | .event (.commitToken tid) | .event (.portPrefetch tid _) => some (tid, .a)
  | _ => none

/-- The next instruction of an engine that runs. -/
def actInstr (s : State) (a : Act) : Option Instr :=
  match a with
  | .run tid g => nextInstr (s.tile tid) g
  | _ => none

/-- An engine reaches the TSP of another tile, or its mailboxes, over the mesh. -/
def overMesh (s : State) (a : Act) : Bool :=
  match a with
  | .run tid g =>
    let s := { s with cur := (tid, g) }
    let other (x : Word) : Bool := wfld x 20 4 != peerOf tid
    match nextInstr (s.tile tid) g with
    | some (.ldP _ _ base idx sz _ _ ext) => other (memAddr (val s base) (val s idx) ext (szBytes sz))
    | some (.stP _ _ base idx sz _ ext) => other (memAddr (val s base) (val s idx) ext (szBytes sz))
    | some (.amoP _ _ s1 _ _ _ ext) => other (val s s1 + (amoOff ext).signExtend 64)
    | some (.tsend _ tgt far _ _ _ _) =>
      let a := tokenAim s tid (val s tgt) (if far = .ro .zero then none else some (val s far))
      a.dev = devNo s && tokenTile s a.rid a.col a.row != some tid
    | _ => false
  | _ => false

/-- The map index of the KV block that an address of a partition's table lies in. -/
def blockOf (s : State) (part va : Nat) : Option Nat :=
  match walk s part va with
  | .leaf l log => if leafClass l = 2 then some (leafFrame l + va % 2 ^ log / 16384) else none
  | .fail _ _ => none

/-- The map index that the Junction die writes to for an entry: through BAR4, for KV_WRITE, and a completion counter's. -/
def jdBlock (s : State) (a : Act) : Option Nat :=
  match a with
  | .event (.kvWrite _ idx _ _ _) => some idx
  | .event (.bar4Write fn off _ _) | .event (.bar4Atomicop fn off _ _ _ _) => blockOf s (fnPart s fn) (barVa s fn off)
  | .event (.regionRetire rgn) => (s.region? rgn).bind (fun r => if r.lrec.ccspace = 0 then blockOf s r.part r.lrec.ccaddr else none)
  | _ => none

/-- The map index that the entry writes to through the KV unit, with the tile index of the writer; the Junction die comes behind the
tiles. -/
def kvWrites (s t : State) (a : Act) : Option (Nat × Nat) :=
  match jdBlock s a with
  | some v => some (v, 2 ^ 20)
  | none => (kvGrants s t).head?.map (fun g => (g.1, g.2.1))

/-- Place of an engine's accesses among those of a cycle. -/
def engineRank : Eng → Nat
  | .m => 7 | .a => 8 | .e => 9 | .y => 10

/-- The place of an entry by what it is: growth, acceptance and takes (R139), END (R405), errors of walker state (R415), NEXT before SHUNT
(R41), and a pre-emption trap (R405). -/
def kindKey (s : State) (a : Act) : Option (Nat × Nat × Nat) :=
  match a with
  | .event (.growthRequest _) | .event (.grow _) => some (3, 0, 0)
  | .event (.channelAccept ..) | .event (.record _) => some (4, 0, 0)
  | .event (.channelTake ..) => some (5, 0, 0)
  | .event (.walkerStateError _ _) => some (14, 0, 0)
  | .event (.nextService rgn tix) => some (15, rgn, tix)
  | .event (.shuntService rgn tix) => some (16, rgn, tix)
  | .event (.preemptTrap _) => some (17, 0, 0)
  | _ => match actInstr s a with
    | some (.endTile _ _) => some (13, 0, 0)
    | _ => none

/-- A step has asked a tile to stop: a pre-emption, a freeze, a watchdog. -/
def stopsTile (s t : State) : Bool := t.tiles.any (fun p => (s.tile p.1).preempt.isNone && p.2.preempt.isSome)

/-- The place of any other entry: one that stops tiles comes behind an END (R405), traffic of the mesh behind the engines (R81), and
releases and fills of rings before what claims and takes (R84). `t` is what the entry would leave by itself. -/
def accessKey (s t : State) (a : Act) : Nat × Nat × Nat :=
  if stopsTile s t then (14, 0, 0)
  else if overMesh s a then (11, 0, 0)
  else match ringRank s t, actEngine a with
    | 1, _ => (1, 0, 0)
    | 2, _ => (2, 0, 0)
    | _, some (tid, g) => (engineRank g, tid, 0)
    | _, none => (11, 0, 0)

/-- The place of an entry among those of one cycle: what raises an exception comes behind the accesses, since the other engines still issue
in that cycle (R382, R418); then what `kindKey` names, writes through the KV unit by map index and tile index (R100), and what `accessKey`
names. -/
def cycleKey (s : State) (a : Act) : Nat × Nat × Nat :=
  match actPlain { s with inCycle := true } a with
  | .next t =>
    match raisedBy s t, kindKey s a, kvWrites s t a with
    | some k, _, _ => (12, k)
    | _, some k, _ => k
    | _, _, some k => (0, k)
    | _, _, _ => accessKey s t a
  | _ => (11, 0, 0)

/-- A take of the cycle finds a record of an earlier cycle, or a channel that is closed (R139). -/
def mayTake (s : State) : Act → Bool
  | .event (.channelTake tile slot) => recordWaits s tile slot
  | _ => true

/-- A round of services of a tile's slots, which is ordered slot by slot. -/
def roundTile : Act → Option Nat
  | .event (.streamService tid) => some tid
  | _ => none

/-- In a cycle, an engine without an instruction only fetches: what it then takes issues in a later one (R153, R382). -/
def asFetch (s : State) (a : Act) : Act :=
  match a with
  | .run tid g => if (settle { s with cur := (tid, g) } tid g).isNone && (nextEntry (s.tile tid) g).isNone then .event (.fetchBundle tid) else a
  | _ => a

/-- A tile's fetch unit reads one bundle in a cycle (R153). -/
def oneFetch : List Act → List Act
  | [] => []
  | a :: r => a :: (oneFetch r).filter (fun b => match a with | .event (.fetchBundle _) => b != a | _ => true)

/-- What takes place of entries of one cycle that are no rounds of services. -/
def cycleEntries (s : State) (l : List Act) : List Act :=
  oneFetch ((l.filter (fun a => (roundTile a).isNone && mayTake s a)).map (asFetch s))

/-- Entries, each with its place; an access of the host comes nowhere before one that was received earlier, whose place is `low` (R123). -/
def placed (s : State) : Nat × Nat × Nat → List Act → List ((Nat × Nat × Nat) × Act)
  | _, [] => []
  | low, a :: r =>
    let k := cycleKey s a
    if hostAct a then
      let k := if keyBefore k low then low else k
      (k, a) :: placed s k r
    else (k, a) :: placed s low r

/-- Tiles whose slots are served in the cycle. -/
def roundTiles (l : List Act) : List Nat := (l.filterMap roundTile).eraseDups

/-- The state after the writes through the KV unit and the releases and fills of rings of a cycle (R84). -/
def afterEarly (s : State) (l : List Act) : State :=
  let early := inOrder ((placed s (0, 0, 0) (cycleEntries s l)).filter (fun p => p.1.1 ≤ 2))
  (roundTiles l).foldl afterRings
    (early.foldl (fun s a => match actPlain s a with | .next t => t | _ => s) { s with inCycle := true })

/-- Slots that are served in the cycle, by tile. -/
def cycleRounds (s s1 : State) (l : List Act) : List (Nat × List Nat) := (roundTiles l).map (fun tid => (tid, roundOf s s1 tid))

/-- Entries of one cycle in the order that the rules give them, the same at every bank. -/
def orderCycle (s : State) (l : List Act) : List Act :=
  let s1 := afterEarly s l
  inOrder (placed s (0, 0, 0) (cycleEntries s l) ++ (cycleRounds s s1 l).flatMap (fun p => roundActs s s1 p.1 p.2))

/-- The next n entries fall in one cycle. -/
def beginCycle (s : State) (n : Nat) : State :=
  if s.inCycle then s
  else
    let l := s.agenda.take n
    { (cycleRounds s (afterEarly s l) l).foldl (fun s p => noteRound s p.1 p.2) s with
      inCycle := true, agenda := orderCycle s l ++ .cycleEnd :: s.agenda.drop n }

/-! ### One entry -/

/-- What an entry of the agenda names takes place. -/
def act (s : State) (a : Act) : Out :=
  match a with
  | .cycle n => .next (beginCycle s n)
  | .cycleEnd => .next (endCycle s)
  | .again _ b => actPlain s b
  | _ => actPlain s a

/-- The unit of the Junction die that an entry's reads of peers' memory are made for: one for each engine that runs, that of the entry
which takes place again, or else a new one. -/
def actUnit (s : State) (a : Act) : Nat :=
  match a with
  | .run tid g => 4 * tid + g.num
  | .again u _ => u
  | _ => 8192 + s.reqNo

/-- An entry lacks bytes of a peer's memory, or room for a message: nothing of it takes place but the reads that it has sent, and it takes
place again once a peer has answered. An engine that runs tries again by itself (R345, R349). -/
def postpone (s t : State) (a : Act) (u : Nat) : State :=
  let k := keepAsked s t
  match a with
  | .run _ _ => k
  | .again _ b => { k with deferred := k.deferred ++ [.again u b] }
  | _ => { k with deferred := k.deferred ++ [.again u a] }

/-- What an entry leaves: it is postponed, or the lines that it has read for the Junction die are given up. -/
def settleAct (s t : State) (a : Act) (u : Nat) : State :=
  if t.jdStarved || t.starved then postpone s t a u
  else { t with jdGot := t.jdGot.filter (fun g => g.unit != u) }

/-- One entry takes place. -/
def takeAct (s : State) (a : Act) : Out :=
  let s := { s with starved := false, jdStarved := false, jdUnit := actUnit s a }
  match act s a with
  | .next t => .next (settleAct s t a (actUnit s a))
  | o => o

/-- The head of the agenda takes place, or the engine that `cur` names moves. -/
def stepOnce (s : State) : Out :=
  match s.agenda with
  | a :: r => takeAct { s with agenda := r } a
  | [] => takeAct s (.run s.cur.1 s.cur.2)

/-- A row's word as the next instruction of its engine, on a started tile with nothing else to do. Bits above 32 are the extension
lane. -/
def placeWord (s : State) (nbits w : Nat) : State :=
  let g := tableEng (w % 2 ^ 32)
  let x : Option Lane := if nbits ≤ 32 then none else some (BitVec.ofNat 32 (w >>> 32))
  let entry : QEntry := { bundle := 0, lane := 1, kind := .instr (BitVec.ofNat 32 w) x, stat := .unissued }
  let s := s.updTile 0 (fun t => ({ t with started := true }).updEng g (fun e => { e with queue := [entry] }))
  { s with cur := (0, g), agenda := [] }

end Sys2Proof.Machine
end

