-- ==== Sys2Proof/Machine/Step.lean ====
section
/-! DEFINITION. One step of the package (notes/assumptions/1.md). -/

namespace Sys2Proof.Machine

/-- One step. -/
def step (s : State) : Host.Outcome State Fault Refusal := stepOnce s

/-- The state with a row's word as the instruction that the next step runs (notes/assumptions/9.md). -/
def State.withFetchWord (s : State) (nbits w : Nat) : State := placeWord s nbits w

end Sys2Proof.Machine
end

