-- ==== Sys2Proof/Safety.lean ====
section
/-! DEFINITION. What counts as a safe state, and the terms that statements use: when an instruction goes, and what it leaves as it
was when it retires. -/

namespace Sys2Proof.Machine

/-- Storage is in canonical form (notes/assumptions/5.md). -/
def State.memOk (s : State) : Prop := Memory.wf s.st.mem

/-- The counters of a ring stand in order, as differences from RELEASED modulo 2^32, and no more slots are claimed than the ring has (R83). -/
def Ring.inOrder (r : Ring) : Prop :=
  r.n < 2 ^ 32 ∧ diff32 r.taken r.released ≤ diff32 r.filled r.released ∧ diff32 r.filled r.released ≤ diff32 r.claimed r.released ∧
    diff32 r.claimed r.released ≤ r.n

/-- Tokens that the instructions in flight of an engine q have taken from the FIFO that p fills; a withdrawal gives them back (R44, R182). -/
def tokensOut (a : Tile) (p q : Eng) : Nat :=
  ((a.eng q).queue.filter (fun e => match e.stat with | .flight _ _ (some r) _ => r == p | _ => false)).length

/-- No agent lacks bytes of a peer's memory (R345): every entry of the agenda begins so. -/
def Fed (s : State) : Prop := s.starved = false ∧ s.jdStarved = false

/-! ### When an instruction goes (R44, R45, R113, R179, R201) -/

/-- The partner that the token field signals (R156, R163). -/
def partner (s : State) (tk : Tk) : Option Eng :=
  if tkSignals tk then some ((s.tile s.cur.1).sigp s.cur.2) else none

/-- The next instruction of the engine that runs has every wait met, and nothing keeps its result from retiring: its token
FIFO has room (R44), and what a join carries is performed (R113). -/
structure Goes (s : State) (tk : Tk) (srcs : List Reg) (dst : Option Reg) (pub : BitVec 3) : Prop where
  waits : ready s tk srcs dst = true
  room : sigRoom (s.tile s.cur.1) s.cur.2 (partner s tk) = true
  joined : joinFree ((s.tile s.cur.1).eng s.cur.2).queue dst pub (partner s tk) = true

/-! ### What stays as it was -/

/-- What a step leaves of an entry that comes to t from b, where `n` is the unit that its reads of peers' memory are made for: t; or, if it lacks
bytes of a peer's memory, b with the reads that have gone out, and the entry set aside to take place again, unless it is an engine's, which
tries again by itself (R345). -/
def Kept (b : State) (n : Nat) (again : Option Act) (t : State) : State :=
  if t.jdStarved || t.starved then
    let k := keepAsked b t
    match again with | none => k | some a => { k with deferred := k.deferred ++ [.again n a] }
  else { t with jdGot := t.jdGot.filter (fun g => g.unit != n) }

/-- The entry at hand is off the agenda, and no agent lacks bytes yet. -/
def begun (s : State) (n : Nat) : State := { s with agenda := s.agenda.tail, starved := false, jdStarved := false, jdUnit := n }

/-- One step is this entry, and nothing else. -/
def StepIs (s : State) (n : Nat) (again : Option Act) (o : Out) : Prop :=
  step s = match o with | .next t => .next (Kept (begun s n) n again t) | r => r

/-- Only one tile, and the note that its region made progress (R412), may differ. -/
structure SameBut (tid : Nat) (s t : State) : Prop where
  /-- Other tiles. -/
  tiles : ∀ u, u ≠ tid → t.tile u = s.tile u
  /-- Regions, but for the note. -/
  regions : ∀ r, (t.region? r).map (fun v => { v with progress := true }) = (s.region? r).map (fun v => { v with progress := true })
  /-- Every other field of the state: storage, groups, channels, management registers, queues, counters and the rest. -/
  rest : { t with tiles := s.tiles, regions := s.regions } = s

/-- Only the tile that runs may differ. -/
abbrev OtherwiseSame (s t : State) : Prop := SameBut s.cur.1 s t

/-- Every byte of storage reads as before. -/
def BytesSame (s t : State) : Prop := ∀ k, t.st.byte k = s.st.byte k

/-- Every byte outside a run of n bytes at k reads as before; HBM units that the run writes are left out where they were held under
another key than the one it writes under (R102). -/
def BytesSameOutside (s t : State) (k n ident : Nat) : Prop :=
  ∀ a, (a < k ∨ k + n ≤ a) →
    (isHbm k = true → unitOf a ∈ unitsOf k n → ∀ w, NMap.find? s.st.ktag (unitOf a) = some w → w = ident) →
    t.st.byte a = s.st.byte a

/-- What an instruction of engine g of a tile a leaves in b as it retires: tokens by its token field, exchange registers by its
sources and destination, its own registers by its destination, its place in the queue; the other engines stay. -/
structure TileRetired (a b : Tile) (g : Eng) (tk : Tk) (srcs : List Reg) (dst : Option Reg) (v : Word) : Prop where
  /-- The private registers of the engine: the destination takes the value, number 0 discards it (R160). -/
  own : ∀ n : Fin 32, b.priv g n.val = if dst = some (.r n) ∧ n.val ≠ 0 then v else a.priv g n.val
  /-- Exchange registers: the destination becomes full, each one read becomes empty (R45). -/
  exch : ∀ n : Fin 16, b.x n.val =
    if dst = some (.x n) then { val := v, full := true, res := false }
    else if Reg.x n ∈ srcs then { a.x n.val with full := false } else a.x n.val
  /-- Tokens (R44). -/
  toks : ∀ p q, b.tok p q =
    a.tok p q - b2n (tkWaits tk && p == a.waitp g && q == g) + b2n (tkSignals tk && p == g && q == a.sigp g)
  /-- The instruction leaves the queue as retired. -/
  queue : (b.eng g).queue = pruneQ (setFirst (a.eng g).queue .retired)
  /-- The rest of the engine. -/
  engine : { b.eng g with regs := (a.eng g).regs, queue := (a.eng g).queue } = a.eng g
  /-- The other engines. -/
  others : ∀ h, h ≠ g → b.eng h = a.eng h

/-- Fields of the tile that TileRetired does not name, without the predicates: special registers, outcomes, rings, slots, array,
accumulator, barriers and the rest. -/
def TileKept (a b : Tile) : Prop :=
  { b with e := a.e, a := a.a, m := a.m, y := a.y, xs := a.xs, toks := a.toks, preds := a.preds } = a

/-- An instruction retires with a value for its destination and changes nothing else. -/
structure Retired (s t : State) (tk : Tk) (srcs : List Reg) (dst : Option Reg) (v : Word) : Prop where
  tile : TileRetired (s.tile s.cur.1) (t.tile s.cur.1) s.cur.2 tk srcs dst v
  kept : TileKept (s.tile s.cur.1) (t.tile s.cur.1)
  preds : (t.tile s.cur.1).preds = (s.tile s.cur.1).preds
  same : OtherwiseSame s t
  bytes : BytesSame s t

/-- An instruction retires with new predicates and changes nothing else. -/
structure RetiredPreds (s t : State) (tk : Tk) (srcs : List Reg) (p : BitVec 8) : Prop where
  tile : TileRetired (s.tile s.cur.1) (t.tile s.cur.1) s.cur.2 tk srcs none 0
  kept : TileKept (s.tile s.cur.1) (t.tile s.cur.1)
  preds : (t.tile s.cur.1).preds = p
  same : OtherwiseSame s t
  bytes : BytesSame s t

/-- The result of an instruction that writes one value: it retires with the value, and nothing else changes. -/
def Writes (i : Instr) (s : State) (tk : Tk) (srcs : List Reg) (d : Reg) (v : Word) : Prop :=
  ∃ t, exec i s = .next t ∧ Retired s t tk srcs (some d) v

/-- The result of an instruction that writes predicates: it retires, each predicate reads as f says, and nothing else changes. -/
def WritesPreds (i : Instr) (s : State) (tk : Tk) (srcs : List Reg) (f : Fin 8 → Bool) : Prop :=
  ∃ t p, exec i s = .next t ∧ RetiredPreds s t tk srcs p ∧ ∀ j, (t.tile s.cur.1).pred j = f j

/-- The predicates with one of them new; k0 reads 1 whatever is written (R160, R198). -/
def onePred (s : State) (k : Fin 8) (v : Bool) (j : Fin 8) : Bool :=
  if j = k ∧ k ≠ 0 then v else (s.tile s.cur.1).pred j

/-! ### Transfers of control (R155, R199 to R202) -/

/-- PUB names the queue towards an engine (R157, R201). -/
def pubNames (pub : BitVec 3) (h : Eng) : Bool :=
  match h with | .e => false | .a => pub.getLsbD 0 | .m => pub.getLsbD 1 | .y => pub.getLsbD 2

/-- What an engine's fetch does: it stays, or it moves to a bundle, and what was not issued is discarded (R155). -/
structure FetchMoved (a b : EngSt) (to_ : Option Nat) : Prop where
  queue : b.queue = to_.elim (pruneQ (setFirst a.queue .retired))
    (fun _ => (pruneQ (setFirst a.queue .retired)).filter (fun q => !q.isUnissued))
  fetch : b.fetch = to_.elim a.fetch (fun x => x - x % 32)
  lane : b.lane = to_.elim a.lane (fun _ => 0)
  skip : b.skip = to_.elim a.skip (fun _ => 0)
  served : b.served = a.served

/-- A branch retires: it publishes its outcome to the queues that PUB names, writes its link, and moves the fetch of its engine if
it transfers control; nothing else changes. -/
structure Branched (s t : State) (tk : Tk) (srcs : List Reg) (pub : BitVec 3) (out : Bool) (link : Option Reg) (v : Word)
    (to_ : Option Nat) : Prop where
  own : ∀ n : Fin 32, (t.tile s.cur.1).priv s.cur.2 n.val =
    if link = some (.r n) ∧ n.val ≠ 0 then v else (s.tile s.cur.1).priv s.cur.2 n.val
  exch : ∀ n : Fin 16, (t.tile s.cur.1).x n.val =
    if link = some (.x n) then { val := v, full := true, res := false }
    else if Reg.x n ∈ srcs then { (s.tile s.cur.1).x n.val with full := false } else (s.tile s.cur.1).x n.val
  toks : ∀ p q, (t.tile s.cur.1).tok p q =
    (s.tile s.cur.1).tok p q - b2n (tkWaits tk && p == (s.tile s.cur.1).waitp s.cur.2 && q == s.cur.2)
      + b2n (tkSignals tk && p == s.cur.2 && q == (s.tile s.cur.1).sigp s.cur.2)
  outcomes : ∀ h, (t.tile s.cur.1).outcomes h = (s.tile s.cur.1).outcomes h ++ if pubNames pub h then [out] else []
  fetch : FetchMoved ((s.tile s.cur.1).eng s.cur.2) ((t.tile s.cur.1).eng s.cur.2) to_
  others : ∀ h, h ≠ s.cur.2 → (t.tile s.cur.1).eng h = (s.tile s.cur.1).eng h
  kept : { t.tile s.cur.1 with
    e := (s.tile s.cur.1).e, a := (s.tile s.cur.1).a, m := (s.tile s.cur.1).m, y := (s.tile s.cur.1).y,
    xs := (s.tile s.cur.1).xs, toks := (s.tile s.cur.1).toks, boq := (s.tile s.cur.1).boq } = s.tile s.cur.1
  same : OtherwiseSame s t
  bytes : BytesSame s t

/-- Every instruction of the engine that has issued has retired, and the outcome queues named have room (R201, R401). -/
def BranchReady (s : State) (pub : BitVec 3) : Prop :=
  ((s.tile s.cur.1).eng s.cur.2).quiet = true ∧ pubRoom (s.tile s.cur.1) pub = true

/-- Bundle and lane in which the engine that runs stands, and the target of a direct transfer (R158). -/
def target (s : State) (off : BitVec 17) : Nat := (BitVec.ofNat 64 (hereBundle s) + off.signExtend 64 * 32).toNat

/-- What a condition means (R186). -/
def condMeans (c : Cond) (a b : Word) : Prop :=
  match c with
  | .eq => a = b
  | .ne => a ≠ b
  | .lt => a.toInt < b.toInt
  | .ge => a.toInt ≥ b.toInt
  | .ltu => a.toNat < b.toNat
  | .geu => a.toNat ≥ b.toNat
  | .gt => a.toInt > b.toInt
  | .le => a.toInt ≤ b.toInt

/-- What a floating-point condition means; a NaN is unordered with every value (R197). -/
def fcondMeans (c : FCond) (a b : FVal) : Bool :=
  let un := a == .nan || b == .nan
  match c with
  | .eq => !un && a.eqv b
  | .lt => !un && a.lt b
  | .le => !un && (a.lt b || a.eqv b)
  | .un => un
  | .ne => un || !a.eqv b

/-- The value that the low bits of a register hold in a format (R195). -/
def floatIn (f : FFmt) (v : Word) : FVal := (FFmt.fmt f).value (v.toNat % 2 ^ (FFmt.fmt f).width)

/-- An exact value rounded once to a format, zero-extended (R195). -/
def floatOut (f : FFmt) (r : Rnd) (v : FVal) : Word := BitVec.ofNat 64 (v.round (FFmt.fmt f) (Rnd.mode r) 0)

/-- Exponent bits, fraction bits and bias of a kind of FCVT; none for an integer (R62, R196). -/
def kindShape : CvtKind → Option (Nat × Nat × Int)
  | .f32 => some (8, 23, 127) | .f16 => some (5, 10, 15) | .bf16 => some (8, 7, 127) | .i64 | .u64 => none

/-- m × 2^e as a numerator and a denominator. -/
def fracPow (m : Nat) (e : Int) : Nat × Nat := (m * 2 ^ e.toNat, 2 ^ (-e).toNat)

/-- Order and equality of two such fractions. -/
def FracLe (a b : Nat × Nat) : Prop := a.1 * b.2 ≤ b.1 * a.2
def FracEq (a b : Nat × Nat) : Prop := a.1 * b.2 = b.1 * a.2

/-- The magnitude that a finite code has (R62). -/
def codeMag (eb mb : Nat) (bias : Int) (c : Nat) : Nat × Nat :=
  let e := c / 2 ^ mb % 2 ^ eb
  let m := c % 2 ^ mb
  if e = 0 then fracPow m (1 - bias - mb) else fracPow (2 ^ mb + m) (e - bias - mb)

/-- The integer that n/d rounds to: toward zero, or to the nearest, a tie to the even one (R70). -/
def RoundsTo (rtz : Bool) (n d k : Nat) : Prop :=
  if rtz then k * d ≤ n ∧ n < (k + 1) * d
  else 2 * k * d ≤ 2 * n + d ∧ 2 * n ≤ (2 * k + 1) * d ∧ (2 * k * d = 2 * n + d ∨ 2 * n = (2 * k + 1) * d → k % 2 = 0)

/-- The code y is ±x rounded to a floating kind: the grid at x is 2^(E − mb), where E is the exponent of x, or the least one for a
subnormal; past the largest finite value y is infinite, or the largest finite value toward zero; the sign stays (R70). -/
def RoundsToFloat (eb mb : Nat) (bias : Int) (rtz neg : Bool) (x : Nat × Nat) (y : Nat) : Prop :=
  y < 2 ^ (eb + mb + 1) ∧ y.testBit (eb + mb) = neg ∧ (x.1 = 0 → y % 2 ^ (eb + mb) = 0) ∧
    ∀ e : Int, FracLe (fracPow 1 e) x → ¬ FracLe (fracPow 1 (e + 1)) x →
      let q : Int := max e (1 - bias) - mb
      ∃ k, RoundsTo rtz (x.1 * 2 ^ (-q).toNat) (x.2 * 2 ^ q.toNat) k ∧
        (¬ FracLe (fracPow 1 (bias + 1)) (fracPow k q) →
          y / 2 ^ mb % 2 ^ eb ≠ 2 ^ eb - 1 ∧ FracEq (codeMag eb mb bias y) (fracPow k q)) ∧
        (FracLe (fracPow 1 (bias + 1)) (fracPow k q) →
          y % 2 ^ (eb + mb) = if rtz then (2 ^ eb - 1) * 2 ^ mb - 1 else (2 ^ eb - 1) * 2 ^ mb)

/-- An integer brought into the range of an integer kind, as its code. -/
def saturated (dst : CvtKind) (i : Int) : Nat :=
  if dst = .u64 then (max 0 (min (2 ^ 64 - 1) i)).toNat else (max (-2 ^ 63) (min (2 ^ 63 - 1) i) % 2 ^ 64).toNat

/-- The code y is what FCVT makes of the code x (R196). -/
def Converts (src dst : CvtKind) (rtz : Bool) (x y : Nat) : Prop :=
  if dst = src then y = x else
    match kindShape dst, (CvtKind.fmt src).value x with
    | some (eb, mb, _), .nan =>
      if dst = .f32 then
        let m := if src = .f16 then 10 else 7
        y = x / 2 ^ 15 % 2 * 2 ^ 31 + 255 * 2 ^ 23 + x % 2 ^ m * 2 ^ (23 - m)
      else y = (2 ^ eb - 1) * 2 ^ mb + 2 ^ (mb - 1)
    | some (eb, mb, _), .inf neg => y = (if neg then 2 ^ (eb + mb) else 0) + (2 ^ eb - 1) * 2 ^ mb
    | some (eb, mb, bias), .num neg m e => RoundsToFloat eb mb bias rtz neg (fracPow m e) y
    | none, .nan => y = 0
    | none, .inf neg => y = saturated dst (if neg then -2 ^ 64 else 2 ^ 64)
    | none, .num neg m e => ∃ k, RoundsTo rtz (fracPow m e).1 (fracPow m e).2 k ∧ y = saturated dst (if neg then -(k : Int) else k)

/-! ### Retiring with a further effect -/

/-- An instruction retires with a value, and the tile takes one further change f; nothing else changes. -/
structure RetiredWith (s t : State) (tk : Tk) (srcs : List Reg) (dst : Option Reg) (v : Word) (f : Tile → Tile) : Prop where
  tile : ∃ b, TileRetired (s.tile s.cur.1) b s.cur.2 tk srcs dst v ∧ TileKept (s.tile s.cur.1) b ∧
    b.preds = (s.tile s.cur.1).preds ∧ t.tile s.cur.1 = f b
  same : OtherwiseSame s t
  bytes : BytesSame s t

/-- The instruction answers a next state in which it has retired with a value and the tile has taken a further change. -/
def Does (i : Instr) (s : State) (tk : Tk) (srcs : List Reg) (dst : Option Reg) (v : Word) (f : Tile → Tile) : Prop :=
  ∃ t, exec i s = .next t ∧ RetiredWith s t tk srcs dst v f

/-- The k-th entry of an engine is in flight with a wait, and its result may retire: its token FIFO has room, and what a join carries is
performed. -/
structure InFlight (a : Tile) (g : Eng) (k : Nat) (w : Wait) (sig : Option Eng) (dst : Option Reg) : Prop where
  held : ∃ pop xs, ((a.eng g).queue[k]?).map QEntry.stat = some (.flight w sig pop xs)
  room : sigRoom a g sig = true
  joined : joinFree ((a.eng g).queue.take k) dst 0 sig = true

/-- What the k-th entry of an engine, in flight until now, leaves as it retires with a value. -/
structure TileCompleted (a b : Tile) (g : Eng) (k : Nat) (sig : Option Eng) (dst : Option Reg) (v : Word) : Prop where
  own : ∀ n : Fin 32, b.priv g n.val = if dst = some (.r n) ∧ n.val ≠ 0 then v else a.priv g n.val
  exch : ∀ n : Fin 16, b.x n.val = if dst = some (.x n) then { val := v, full := true, res := false } else a.x n.val
  toks : ∀ p q, b.tok p q = a.tok p q + b2n (p == g && sig == some q)
  queue : (b.eng g).queue = pruneQ (setStat (a.eng g).queue k .retired)
  engine : { b.eng g with regs := (a.eng g).regs, queue := (a.eng g).queue } = a.eng g
  others : ∀ h, h ≠ g → b.eng h = a.eng h
  kept : { b with e := a.e, a := a.a, m := a.m, y := a.y, xs := a.xs, toks := a.toks } = a

/-- In t, the k-th entry of an engine of s has retired with a value, and nothing else has changed. -/
structure Completed (s t : State) (tid : Nat) (g : Eng) (k : Nat) (sig : Option Eng) (dst : Option Reg) (v : Word) : Prop where
  tile : TileCompleted (s.tile tid) (t.tile tid) g k sig dst v
  same : SameBut tid s t
  bytes : BytesSame s t

/-- What an instruction of engine g of a tile leaves as it issues and waits: the token it waits for is popped, exchange registers that it
reads are empty, an exchange destination is reserved, and its entry is in flight (R44, R45, R179). -/
structure TileIssued (a b : Tile) (g : Eng) (tk : Tk) (srcs : List Reg) (w : Wait) : Prop where
  exch : ∀ n : Fin 16, b.x n.val =
    let x := if Reg.x n ∈ srcs then { a.x n.val with full := false } else a.x n.val
    if w.dst? = some (.x n) then { x with res := true } else x
  toks : ∀ p q, b.tok p q = a.tok p q - b2n (tkWaits tk && p == a.waitp g && q == g)
  entry : ∃ pop xs, (b.eng g).queue = pruneQ (setFirst (a.eng g).queue
    (.flight w (if tkSignals tk then some (a.sigp g) else none) pop xs))
  engine : { b.eng g with queue := (a.eng g).queue } = a.eng g
  others : ∀ h, h ≠ g → b.eng h = a.eng h
  kept : { b with e := a.e, a := a.a, m := a.m, y := a.y, xs := a.xs, toks := a.toks } = a

/-- The instruction waits: nothing changes (R179). -/
def Waits (i : Instr) (s : State) : Prop := exec i s = .next s

/-! ### Special registers (R162 to R165, R208) -/

/-- Bit j of special register n takes what MTS writes. -/
def srTakes (n j : Nat) : Bool :=
  if n < 4 then j < 4
  else if n = 4 then j = 1
  else if n = 5 then 5 ≤ j
  else if n < 10 then j ≠ 3 && j ≠ 4
  else if n = 10 then j < 25 || 31 < j
  else if n < 15 then j ≠ 3 && j ≠ 4
  else true

/-- TOKSEL of an engine names its owner as a partner (R390). -/
def selfPartner (g : Eng) (v : Word) : Bool := v.toNat % 4 = g.num || v.toNat / 4 % 4 = g.num

/-! ### Exceptions (R206, R207, R399, R400, R402) -/

/-- No instruction of the tile is in flight, and no matrix command. -/
def Calm (a : Tile) : Prop := (∀ g, (a.eng g).quiet = true) ∧ a.cmds = []

/-- User code runs: the tile has started, has not ended, and nothing keeps it. -/
structure UserRuns (a : Tile) : Prop where
  started : a.started = true
  ended : a.ended = false
  halted : a.halted = false
  enter : a.enter = none
  sys : a.sys = false
  preempt : a.preempt = none

/-- A trap raised now is entered in the same step: no cycle is under way, whose entries may raise another one that comes first (R383), and
the address of an engine whose queue is empty can be told without an answer from a peer. -/
structure EntersAt (s : State) (tid : Nat) (tr : Trap) : Prop where
  alone : s.inCycle = false
  pcs : (entryPcs (withdrawS (s.setTile tid { s.tile tid with enter := some tr }) tid) tid).1.starved = false

/-- The same for the tile that runs. -/
abbrev EntersNow (s : State) (tr : Trap) : Prop := EntersAt s s.cur.1 tr

/-- The tile b is what entry into system code leaves of the tile a. An engine that holds an instruction has its program counter
at the oldest one that has not retired. -/
structure TrapEntered (a b : Tile) (code sub : Nat) (g : Eng) (impr : Bool) (slot : Option Nat) (info : Nat) : Prop where
  tpc : ∀ (h : Eng) (p : Nat), headPc (a.eng h) = some p → b.special (6 + h.num) = BitVec.ofNat 64 p
  frame : ∀ h : Eng, b.special (11 + h.num) = b.special (6 + h.num)
  masks : ∀ h : Eng, fld (b.special 15).toNat (16 * h.num) 16 = (a.eng h).mask
  cause : b.special 10 = BitVec.ofNat 64 (code + sub * 2 ^ 8 + (if impr then 0 else g.num) * 2 ^ 16 + (if impr then 1 else 0) * 2 ^ 18
    + slot.getD 0 * 2 ^ 20 + (if slot.isSome then 1 else 0) * 2 ^ 24 + info % 2 ^ 32 * 2 ^ 32)
  sys : b.sys = true
  check : b.check = a.check
  others : ∀ n, n < 4 ∨ n = 5 ∨ 15 < n → b.special n = a.special n
  fetch : ∀ h, (b.eng h).queue = [] ∧ (b.eng h).fetch = (a.special 5).toNat / 32 * 32 ∧ (b.eng h).lane = 0 ∧ (b.eng h).skip = 0
  regs : ∀ h, (b.eng h).regs = (a.eng h).regs
  /-- The tile no longer counts as blocked, and nothing has been saved since this entry (R145, R53). -/
  fresh : b.il = { a.il with blk := false } ∧ b.ctx = none ∧ b.saves = []
  /-- What fetch has asked of peers' memory is given up. -/
  got : b.got = a.got.filter (fun x => x.unit != 0)
  kept : { b with e := a.e, a := a.a, m := a.m, y := a.y, sr := a.sr, enter := a.enter, il := a.il, ctx := a.ctx, saves := a.saves,
                  got := a.got } = a

/-- Beside the tile that runs, an entry into system code may clear what the tile had asked of its walkers. -/
structure TrapSame (s t : State) : Prop where
  tiles : ∀ u, u ≠ s.cur.1 → t.tile u = s.tile u
  regions : ∀ r, (t.region? r).map (fun v => { v with progress := true, reqs := [] }) =
    (s.region? r).map (fun v => { v with progress := true, reqs := [] })
  rest : { t with tiles := s.tiles, regions := s.regions } = s

/-! ### Loads and stores (R77 to R82, R190 to R193) -/

/-- Bytes of a size. -/
def sizeBytes : Size → Nat
  | .b => 1 | .h => 2 | .w => 4 | .d => 8

/-- The address of a load or store: base, index and the extension's offset, with the low bits of its size cleared (R79, R159, R191). -/
def accessAddr (s : State) (base idx : Reg) (ext : Option MemExt) (n : Nat) : Word :=
  let a := val s base + val s idx + (match ext with | none => 0 | some e => e.off.signExtend 64)
  a - BitVec.ofNat 64 (a.toNat % n)

/-- A value of n bytes extended to a register: with zeros, or with its sign. -/
def extended (zx : Bool) (n : Nat) (v : Nat) : Word :=
  if zx then BitVec.ofNat 64 (v % 2 ^ (8 * n)) else (BitVec.ofNat 64 v <<< (64 - 8 * n)).sshiftRight (64 - 8 * n)

/-- Nothing holds the access back: no earlier acquire of the engine is open, a release has every earlier access performed, a write to a
peer by its completion, and the tile that a P access names has started (R35, R110, R112, R347). -/
def AccessFree (s : State) (sp : Space) (a : Word) (rel : Bool) : Prop :=
  accHeld ((s.tile s.cur.1).eng s.cur.2) = false ∧
    (rel = true → accPending ((s.tile s.cur.1).eng s.cur.2) = false) ∧
    (sp = .p → (s.tile (groupOf s.cur.1 * 16 + a.toNat / 2 ^ 20 % 16)).started = true)

/-- The engine that runs finds storage of the package at an address: the location, the identity of its key, and what finding it
changes, which is the TLBs and what a walk or a copied block leaves (R90 to R100). -/
def Finds (s : State) (sp : Space) (a : Word) (acc : Acc) (s' : State) (k ident : Nat) : Prop :=
  locate s (whoOf s s.cur.1 s.cur.2) sp a acc = (s', .at_ (.mem k ident))

/-- The bytes of a location as a number, lowest first. -/
def heldAt (s : State) (ident k n : Nat) : Nat := leNat (readRun s ident k n)

/-- What an atomic of n bytes leaves in memory, if it writes (R289). -/
def amoGives (op : AmoOp) (n old src cmp : Nat) : Option Nat :=
  let m := 2 ^ (8 * n)
  match op with
  | .swap => some (src % m)
  | .add => some ((old + src) % m)
  | .and => some (Nat.land old src % m)
  | .or => some (Nat.lor old src % m)
  | .xor => some (Nat.xor old src % m)
  | .min => some (if sxi src (8 * n) < sxi old (8 * n) then src % m else old % m)
  | .max => some (if sxi old (8 * n) < sxi src (8 * n) then src % m else old % m)
  | .minu => some (if src % m < old % m then src % m else old % m)
  | .maxu => some (if old % m < src % m then src % m else old % m)
  | .cas => if old = cmp % m then some (src % m) else none
  | .fadd => some (fadd32 old (src % 2 ^ 32))

/-! ### Streams (R210, R236) -/

/-- What a slot holds once a command has taken it: the fields of R236, from the command's start. -/
structure SlotTaken (a : Tile) (old v : Slot) (code sp : Nat) (sc : Scope) (cc : Bool) (nrec : Nat) (rbv rav : Word) (x : Nat) : Prop where
  opc : v.opc = code
  act : v.act = true
  held : v.held = a.slots.any (fun p => p.2.act && p.2.opc == 0x49 && !p.2.addpend)
  cc : v.cc = cc
  sc : v.sc = sc
  sp : v.sp = sp
  addpend : v.addpend = false
  closed : v.closed = (old.closed && code != 0x47)
  nrec : v.nrec = nrec
  rbv : v.rbv = rbv
  rav : v.rav = rav
  pos : v.pos = 0
  extv : v.extv = BitVec.ofNat 32 x
  counter : v.cv = old.cv ∧ v.csp = old.csp ∧ v.caddr = old.caddr ∧ v.cinc = old.cinc
  fresh : v.opened = false ∧ v.stopped = false ∧ v.inFlight = false

/-! ### Matrix commands (R267) -/

/-- A matrix command with these ids may issue. -/
def MatFree (a : Tile) (x : MatExt) : Prop :=
  (∀ i ∈ [x.p1, x.p2, x.id], i = 0 ∨ a.retmap.getLsbD i.toNat = true) ∧ a.cmds.length < 8

/-- A matrix command issues from u: it is in flight and stands among the commands as c, its id reads as not retired, and the tile stands
as P says; no byte of memory changes. -/
def MatIssued (i : Instr) (s u : State) (tk : Tk) (srcs : List Reg) (x : MatExt) (c : MCmd) (P : Tile → Prop) : Prop :=
  ∃ t, exec i s = .next t ∧ SameBut s.cur.1 u t ∧ u.cur = s.cur ∧
    (let b := t.tile s.cur.1
     P b ∧ b.cmds = (s.tile s.cur.1).cmds ++ [c] ∧ (∀ j < 256, b.retmap.getLsbD j = (decide (j ≠ x.id.toNat) && (s.tile s.cur.1).retmap.getLsbD j)) ∧
     (∃ e : Tile, TileIssued (s.tile s.cur.1) e s.cur.2 tk srcs (.matrix x.id.toNat) ∧ (∀ g, b.eng g = e.eng g) ∧ b.xs = e.xs ∧ b.toks = e.toks))

/-! ### Regions (R35, R47, R335) -/

/-- The machine right after a request has been given its pages, before its image is read. -/
def placedAs (s : State) (q : Req) (rgn px py : Nat) : State :=
  clearChk (freshTiles (({ s with marsh := s.marsh.filter (fun p => p.seq != q.seq), placeNo := s.placeNo + 1 }).setRegion rgn
    (newRegion s q px py)) rgn (newRegion s q px py)) rgn

/-- Bits of a register as they stood, but for those of a mask, which are another word's. -/
def TakesBits (mask : Nat) (old new got : Word) : Prop :=
  ∀ j < 64, got.getLsbD j = if mask.testBit j then new.getLsbD j else old.getLsbD j

/-! ### Packets (R315, R318) -/

/-- A thread with nothing under way serves a queue and has read its next packet. -/
structure PacketRead (s u : State) (t q : Nat) (bs : List Byte) : Prop where
  serves : (thr s t).q = some q
  runs : serving s = true
  free : (thr s t).blocked = false ∧ (thr s t).siga = false ∧ qWaiting s q = false
  read : jdRead s (qPart s q) (packetVa s q) 64 = (u, .ok bs)
  valid : hdrType (rnum bs 0 8) ≠ 0 ∨ qInJump u q = true

/-- It is well formed and of a type. -/
structure PacketIs (s u : State) (t q : Nat) (bs : List Byte) (type : Nat) : Prop where
  read : PacketRead s u t q bs
  good : packetFault bs (qInJump u q) = none
  type : hdrType (rnum bs 0 8) = type

/-- The next command at the Signal Box is this one, and r follows it. -/
def NextCommand (s : State) (fz : Bool) (op q : Nat) (w : Word) (r : List (Bool × Word)) : Prop :=
  s.sbcmds = (fz, w) :: r ∧ wfld w 12 4 = op ∧ wfld w 0 12 = q

/-! ### Encodings (R166 to R171) -/

/-- The engines in whose code space an instruction lies: all four, E and A, or one; no engine for an event. -/
def spaces (i : Instr) : List Eng :=
  match i with
  | .nop .. | .add .. | .addi .. | .li .. | .lih .. | .tsel .. => [.e, .a, .m, .y]
  | .sub .. | .mul .. | .and .. | .or .. | .xor .. | .shl .. | .shr .. | .min .. | .max .. | .cmp .. | .sel .. | .bfx .. | .bfi ..
  | .andi .. | .ori .. | .xori .. | .shli .. | .shri .. | .cnt .. | .ldT .. | .ldP .. | .ldG .. | .ldY .. | .ldD .. | .stT ..
  | .stP .. | .stG .. | .stY .. | .stD .. => [.e, .a]
  | .br .. | .bt .. | .bf .. | .call .. | .jr .. | .pcmp .. | .pcmpi .. | .plog .. | .pget .. | .pset .. | .pub .. | .bqs ..
  | .div .. | .rem .. | .fadd .. | .fsub .. | .fmul .. | .fma .. | .fcvt .. | .fcmp .. | .trap .. | .rfe .. | .mfs .. | .mts ..
  | .icsync .. | .fence .. | .endTile .. => [.e]
  | .folA .. | .sld .. | .sst .. | .sgath .. | .sscat .. | .srec .. | .smc .. | .scpy .. | .schr .. | .schw .. | .sbar ..
  | .swait .. | .stash .. | .scnt .. | .sstat .. | .wfill .. | .wfree .. | .rpop .. | .radv .. => [.a]
  | .mma .. | .mmaT .. | .zacc .. | .ldacc .. | .drain .. | .qnt .. | .mwait .. | .mwaitAll .. | .folM .. | .ldrp .. | .ldop ..
  | .swop .. | .pwr .. => [.m]
  | .amoT .. | .amoP .. | .amoG .. | .amoY .. | .amoD .. | .folY .. | .arrive .. | .wait .. | .tsend .. | .trecv .. | .next ..
  | .shunt .. | .beat .. | .cadd .. | .cwait .. | .clst .. | .clstat .. | .clstatWait .. | .clstatFree .. | .xsave .. | .xrest ..
  | .fsave .. | .frest .. | .qsave .. | .qrest .. | .bsave .. | .brest .. => [.y]
  | _ => []

end Sys2Proof.Machine
end

