-- ==== Sys2Proof/Certificates/Slice0/Obligations.lean ====
section
/-! DEFINITION. The statements for the provers. -/

open Sys2Proof Sys2Proof.Machine

/-! ### The shared integer subset -/

/-- R183: ADD, SUB, MUL, MIN, MAX write D with n bits, wrapping, sign-extended; nothing else changes. -/
def Obligations.IntegerArithmetic : Prop :=
  ∀ (s : State) (tk : Tk) (d s1 s2 : Reg), Goes s tk [s1, s2] (some d) 0 →
    let a := val s s1
    let b := val s s2
    (∀ w, Writes (.add tk d s1 s2 w) s tk [s1, s2] d (if w then ((a + b).setWidth 32).signExtend 64 else a + b)) ∧
    (∀ w, Writes (.sub tk d s1 s2 w) s tk [s1, s2] d (if w then ((a - b).setWidth 32).signExtend 64 else a - b)) ∧
    (∀ w, Writes (.mul tk d s1 s2 .low w) s tk [s1, s2] d (if w then ((a * b).setWidth 32).signExtend 64 else a * b)) ∧
    Writes (.mul tk d s1 s2 .hiS false) s tk [s1, s2] d (BitVec.ofInt 64 (a.toInt * b.toInt / 2 ^ 64)) ∧
    Writes (.mul tk d s1 s2 .hiU false) s tk [s1, s2] d (BitVec.ofNat 64 (a.toNat * b.toNat / 2 ^ 64)) ∧
    Writes (.min tk d s1 s2 false) s tk [s1, s2] d (if a.toInt < b.toInt then a else b) ∧
    Writes (.min tk d s1 s2 true) s tk [s1, s2] d (if a.toNat < b.toNat then a else b) ∧
    Writes (.max tk d s1 s2 false) s tk [s1, s2] d (if b.toInt < a.toInt then a else b) ∧
    Writes (.max tk d s1 s2 true) s tk [s1, s2] d (if b.toNat < a.toNat then a else b)

/-- R183, R184: AND, OR, XOR and the shifts, by a register or by an immediate amount, of 64 or of 32 bits. -/
def Obligations.LogicAndShifts : Prop :=
  ∀ (s : State) (tk : Tk) (d s1 s2 : Reg),
    let a := val s s1
    (Goes s tk [s1, s2] (some d) 0 →
      let b := val s s2
      Writes (.and tk d s1 s2) s tk [s1, s2] d (a &&& b) ∧
      Writes (.or tk d s1 s2) s tk [s1, s2] d (a ||| b) ∧
      Writes (.xor tk d s1 s2) s tk [s1, s2] d (a ^^^ b) ∧
      Writes (.shl tk d s1 s2 false) s tk [s1, s2] d (a <<< (b.toNat % 64)) ∧
      Writes (.shl tk d s1 s2 true) s tk [s1, s2] d ((a.setWidth 32 <<< (b.toNat % 32)).signExtend 64) ∧
      Writes (.shr tk d s1 s2 false false) s tk [s1, s2] d (a >>> (b.toNat % 64)) ∧
      Writes (.shr tk d s1 s2 true false) s tk [s1, s2] d (a.sshiftRight (b.toNat % 64)) ∧
      Writes (.shr tk d s1 s2 false true) s tk [s1, s2] d ((a.setWidth 32 >>> (b.toNat % 32)).signExtend 64) ∧
      Writes (.shr tk d s1 s2 true true) s tk [s1, s2] d (((a.setWidth 32).sshiftRight (b.toNat % 32)).signExtend 64)) ∧
    (Goes s tk [s1] (some d) 0 → ∀ n : BitVec 6,
      Writes (.shli tk d s1 n false) s tk [s1] d (a <<< n.toNat) ∧
      Writes (.shli tk d s1 n true) s tk [s1] d ((a.setWidth 32 <<< (n.toNat % 32)).signExtend 64) ∧
      Writes (.shri tk d s1 n false false) s tk [s1] d (a >>> n.toNat) ∧
      Writes (.shri tk d s1 n true false) s tk [s1] d (a.sshiftRight n.toNat) ∧
      Writes (.shri tk d s1 n false true) s tk [s1] d ((a.setWidth 32 >>> (n.toNat % 32)).signExtend 64) ∧
      Writes (.shri tk d s1 n true true) s tk [s1] d (((a.setWidth 32).sshiftRight (n.toNat % 32)).signExtend 64))

/-- R185: LI is code 0x16 and LIH code 0x17 of every engine; each takes its own immediate or the 49 bits that an extension lane makes, LIH keeps
the low half of D and has D 0–31 only. Beside them the immediate forms of ADD, AND, OR and XOR, with 11 bits or 43 (R184 in part). -/
def Obligations.ImmediateForms : Prop :=
  ∀ (s : State) (tk : Tk) (d s1 : Reg),
    (Goes s tk [s1] (some d) 0 → ∀ (imm : BitVec 11) (ext : Option Lane),
      let m : Word := match ext with | none => imm.signExtend 64 | some x => (x ++ imm : BitVec 43).signExtend 64
      Writes (.addi tk d s1 imm ext) s tk [s1] d (val s s1 + m) ∧
      Writes (.andi tk d s1 imm ext) s tk [s1] d (val s s1 &&& m) ∧
      Writes (.ori tk d s1 imm ext) s tk [s1] d (val s s1 ||| m) ∧
      Writes (.xori tk d s1 imm ext) s tk [s1] d (val s s1 ^^^ m)) ∧
    (∀ (imm : BitVec 17) (ext : Option Lane),
      let m : Word := match ext with | none => imm.signExtend 64 | some x => (x ++ imm : BitVec 49).signExtend 64
      (Goes s tk [] (some d) 0 → Writes (.li tk d imm ext) s tk [] d m) ∧
      (Goes s tk [d] (some d) 0 →
        Writes (.lih tk d imm ext) s tk [d] d (m.setWidth 32 ++ (val s d).setWidth 32))) ∧
    (∀ (g : Eng) (w : Lane) (x : Option Lane),
      let op := w.toNat / 2 ^ 23 % 2 ^ 7
      let n := w.toNat / 2 ^ 17 % 2 ^ 6
      let t := Tk.ofBits (w.extractLsb' 30 2)
      (op = 0x16 → (∀ h : n < 32, decodeLane g w x = .ok (.li t (.r ⟨n, h⟩) (w.extractLsb' 0 17) x)) ∧
        (∀ h : n - 32 < 16, 32 ≤ n → decodeLane g w x = .ok (.li t (.x ⟨n - 32, h⟩) (w.extractLsb' 0 17) x))) ∧
      (op = 0x17 → (∀ h : n < 32, decodeLane g w x = .ok (.lih t (.r ⟨n, h⟩) (w.extractLsb' 0 17) x)) ∧
        (32 ≤ n → decodeLane g w x = .illField false)))

/-- R186 to R188: CMP writes 1 where its condition holds and 0 where it does not; SEL chooses by D; BFX and BFI take and put
fields; CNT counts. -/
def Obligations.CompareSelectAndFields : Prop :=
  ∀ (s : State) (tk : Tk) (d s1 s2 : Reg),
    let a := val s s1
    (Goes s tk [s1, s2] (some d) 0 → ∀ c : Cond,
      (condMeans c a (val s s2) → Writes (.cmp tk c d s1 s2) s tk [s1, s2] d 1) ∧
      (¬ condMeans c a (val s s2) → Writes (.cmp tk c d s1 s2) s tk [s1, s2] d 0)) ∧
    (Goes s tk [d, s1, s2] (some d) 0 → Writes (.sel tk d s1 s2) s tk [d, s1, s2] d (if val s d ≠ 0 then a else val s s2)) ∧
    (Goes s tk [s1] (some d) 0 → ∀ (p : BitVec 6) (n : BitVec 5),
      Writes (.bfx tk d s1 p n) s tk [s1] d (BitVec.ofNat 64 (a.toNat / 2 ^ p.toNat % 2 ^ (n.toNat + 1)))) ∧
    (Goes s tk [d, s1] (some d) 0 → ∀ (p : BitVec 6) (n : BitVec 5),
      ∃ v : Word, Writes (.bfi tk d s1 p n) s tk [d, s1] d v ∧ ∀ i < 64,
        v.getLsbD i = if p.toNat ≤ i ∧ i ≤ p.toNat + n.toNat then a.getLsbD (i - p.toNat) else (val s d).getLsbD i) ∧
    (Goes s tk [s1] (some d) 0 → ∀ (w : Bool) (ign : BitVec 6),
      let n := if w then 32 else 64
      (∃ v : Word, Writes (.cnt tk d s1 .pop w ign) s tk [s1] d v ∧ v.toNat = ((List.range n).filter (fun i => a.getLsbD i)).length) ∧
      (∃ v : Word, Writes (.cnt tk d s1 .lz w ign) s tk [s1] d v ∧ v.toNat ≤ n ∧ (∀ i, n - v.toNat ≤ i → i < n → a.getLsbD i = false)
        ∧ (v.toNat < n → a.getLsbD (n - 1 - v.toNat) = true)) ∧
      (∃ v : Word, Writes (.cnt tk d s1 .tz w ign) s tk [s1] d v ∧ v.toNat ≤ n ∧ (∀ i < v.toNat, a.getLsbD i = false)
        ∧ (v.toNat < n → a.getLsbD v.toNat = true)))

/-! ### The E engine: division, floating point, predicates, control -/

/-- R194: quotients round toward zero and remainders take the dividend's sign; a zero divisor gives all ones and the dividend; the
one overflowing case wraps. Division raises nothing. What the `.u.w` forms give is the model's reading (DEDUCED,
notes/assumptions/88.md). -/
def Obligations.Division : Prop :=
  ∀ (s : State) (tk : Tk) (d s1 s2 : Reg), Goes s tk [s1, s2] (some d) 0 →
    let a := val s s1
    let b := val s s2
    Writes (.div tk d s1 s2 true false) s tk [s1, s2] d (if b = 0 then BitVec.allOnes 64 else BitVec.ofNat 64 (a.toNat / b.toNat)) ∧
    Writes (.div tk d s1 s2 false false) s tk [s1, s2] d
      (if b = 0 then BitVec.allOnes 64 else BitVec.ofInt 64 (a.toInt.tdiv b.toInt)) ∧
    Writes (.div tk d s1 s2 false true) s tk [s1, s2] d
      (if b.setWidth 32 = 0#32 then BitVec.allOnes 64
       else (BitVec.ofInt 32 ((a.setWidth 32).toInt.tdiv (b.setWidth 32).toInt)).signExtend 64) ∧
    Writes (.div tk d s1 s2 true true) s tk [s1, s2] d
      (if b.setWidth 32 = 0#32 then BitVec.allOnes 64
       else (BitVec.ofNat 32 ((a.setWidth 32).toNat / (b.setWidth 32).toNat)).signExtend 64) ∧
    Writes (.rem tk d s1 s2 true false) s tk [s1, s2] d (if b = 0 then a else BitVec.ofNat 64 (a.toNat % b.toNat)) ∧
    Writes (.rem tk d s1 s2 false false) s tk [s1, s2] d (if b = 0 then a else BitVec.ofInt 64 (a.toInt.tmod b.toInt)) ∧
    Writes (.rem tk d s1 s2 false true) s tk [s1, s2] d
      (if b.setWidth 32 = 0#32 then (a.setWidth 32).signExtend 64
       else (BitVec.ofInt 32 ((a.setWidth 32).toInt.tmod (b.setWidth 32).toInt)).signExtend 64) ∧
    Writes (.rem tk d s1 s2 true true) s tk [s1, s2] d
      (if b.setWidth 32 = 0#32 then (a.setWidth 32).signExtend 64
       else (BitVec.ofNat 32 ((a.setWidth 32).toNat % (b.setWidth 32).toNat)).signExtend 64)

/-- R195, R196: each floating-point instruction forms its exact result and rounds it once; FMA's product is exact. FCVT between one
kind and itself copies the low bits; between others it rounds once to the grid of the destination, goes to infinity or to the largest
finite value past it, saturates to an integer kind, keeps the payload of a NaN that it widens, makes any other NaN canonical, and makes
an integer 0 of it. The results stand zero-extended in D; nothing else changes. -/
def Obligations.FloatingPoint : Prop :=
  ∀ (s : State) (tk : Tk) (d s1 s2 s3 : Reg) (f : FFmt) (r : Rnd),
    let a := floatIn f (val s s1)
    let b := floatIn f (val s s2)
    (Goes s tk [s1, s2] (some d) 0 →
      Writes (.fadd tk d s1 s2 f r) s tk [s1, s2] d (floatOut f r (a.add b)) ∧
      Writes (.fsub tk d s1 s2 f r) s tk [s1, s2] d (floatOut f r (a.add b.neg)) ∧
      Writes (.fmul tk d s1 s2 f r) s tk [s1, s2] d (floatOut f r (a.mul b))) ∧
    (Goes s tk [s1, s2, s3] (some d) 0 →
      Writes (.fma tk d s1 s2 s3 f r) s tk [s1, s2, s3] d (floatOut f r ((a.mul b).add (floatIn f (val s s3))))) ∧
    (Goes s tk [s1] (some d) 0 → ∀ dst src : CvtKind,
      let n := (CvtKind.fmt src).width
      let x := (val s s1).toNat % 2 ^ n
      Writes (.fcvt tk d s1 dst src r) s tk [s1] d
        (BitVec.ofNat 64 (fcvtVal dst src r (val s s1)).toNat) ∧
      Converts src dst (r == .rtz) x (fcvtVal dst src r (val s s1)).toNat)

/-- R197, R198: the instructions that write predicates write the one they name, or those of PSET's mask, and no other; k0 reads 1;
PGET reads all eight. Each waits while an older instruction in flight still writes a predicate that it names (R179). -/
def Obligations.Predicates : Prop :=
  ∀ (s : State) (tk : Tk) (s1 s2 : Reg) (k : Fin 8),
    (Goes s tk [s1, s2] none 0 → predsFree s (predMask k) = true →
      (∀ (c : Cond) (v : Bool), (v = true ↔ condMeans c (val s s1) (val s s2)) →
        WritesPreds (.pcmp tk c .set k s1 s2) s tk [s1, s2] (onePred s k v) ∧
        WritesPreds (.pcmp tk c .and k s1 s2) s tk [s1, s2] (onePred s k ((s.tile s.cur.1).pred k && v)) ∧
        WritesPreds (.pcmp tk c .or k s1 s2) s tk [s1, s2] (onePred s k ((s.tile s.cur.1).pred k || v))) ∧
      (∀ (c : FCond) (f : FFmt), WritesPreds (.fcmp tk c f k s1 s2) s tk [s1, s2]
        (onePred s k (fcondMeans c (floatIn f (val s s1)) (floatIn f (val s s2)))))) ∧
    (Goes s tk [s1] none 0 → predsFree s (predMask k) = true → ∀ (c : Cond) (imm : BitVec 11) (ext : Option Lane) (v : Bool),
      (v = true ↔ condMeans c (val s s1) (match ext with | none => imm.signExtend 64 | some x => (x ++ imm : BitVec 43).signExtend 64)) →
      WritesPreds (.pcmpi tk c k s1 imm ext) s tk [s1] (onePred s k v)) ∧
    (Goes s tk [] none 0 →
      (∀ ka kb : Fin 8, predsFree s (predMask k ||| predMask ka ||| predMask kb) = true →
        let a := (s.tile s.cur.1).pred ka
        let b := (s.tile s.cur.1).pred kb
        WritesPreds (.plog tk .and k ka kb) s tk [] (onePred s k (a && b)) ∧
        WritesPreds (.plog tk .or k ka kb) s tk [] (onePred s k (a || b)) ∧
        WritesPreds (.plog tk .xor k ka kb) s tk [] (onePred s k (a != b)) ∧
        WritesPreds (.plog tk .andn k ka kb) s tk [] (onePred s k (a && !b))) ∧
      (∀ mask vals : BitVec 8, predsFree s (mask &&& 0xFE) = true → WritesPreds (.pset tk mask vals) s tk []
        (fun j => if mask.getLsbD j.val ∧ j ≠ 0 then vals.getLsbD j.val else (s.tile s.cur.1).pred j))) ∧
    (∀ d : Reg, Goes s tk [] (some d) 0 → predsFree s 0xFF = true →
      ∃ v : Word, Writes (.pget tk d) s tk [] d v ∧ v.toNat < 256 ∧ ∀ j : Fin 8, v.getLsbD j.val = (s.tile s.cur.1).pred j) ∧
    (predsFree s (predMask k) = false →
      (∀ (c : Cond) (b : Combine), Waits (.pcmp tk c b k s1 s2) s) ∧
      (∀ (c : Cond) (imm : BitVec 11) (ext : Option Lane), Waits (.pcmpi tk c k s1 imm ext) s) ∧
      (∀ (c : FCond) (f : FFmt), Waits (.fcmp tk c f k s1 s2) s) ∧
      (∀ (op : PlogOp) (j : Fin 8), Waits (.plog tk op k j j) s ∧ Waits (.plog tk op j k j) s ∧ Waits (.plog tk op j j k) s) ∧
      (∀ mask vals : BitVec 8, mask &&& predMask k = predMask k → Waits (.pset tk mask vals) s) ∧
      (∀ d : Reg, Waits (.pget tk d) s))

/-- R155, R199 to R201: BR and CALL always transfer control to their bundle plus 32 times the offset, BT and BF as their predicate
says; CALL leaves the next bundle's address in e31 and JR.l in D; JR goes to S1 with its low five bits cleared; each publishes its
outcome to the queues that PUB names; nothing else changes. -/
def Obligations.Branches : Prop :=
  ∀ (s : State) (tk : Tk) (pub kIgn : BitVec 3) (k : Fin 8) (off : BitVec 17),
    let to_ := target s off
    let back : Word := BitVec.ofNat 64 (hereBundle s) + 32
    (Goes s tk [] none pub → BranchReady s pub →
      (∃ t, exec (.br tk pub kIgn off) s = .next t ∧ Branched s t tk [] pub true none back (some to_)) ∧
      (∃ t, exec (.bt tk pub k off) s = .next t ∧
        Branched s t tk [] pub ((s.tile s.cur.1).pred k) none back (if (s.tile s.cur.1).pred k then some to_ else none)) ∧
      (∃ t, exec (.bf tk pub k off) s = .next t ∧
        Branched s t tk [] pub (!(s.tile s.cur.1).pred k) none back (if (s.tile s.cur.1).pred k then none else some to_))) ∧
    (Goes s tk [] (some (.r 31)) pub → BranchReady s pub →
      ∃ t, exec (.call tk pub kIgn off) s = .next t ∧ Branched s t tk [] pub true (some (.r 31)) back (some to_)) ∧
    (∀ (link : Option Reg) (s1 : Reg), Goes s tk [s1] link 0 → BranchReady s 0 →
      ∃ t, exec (.jr tk link s1) s = .next t ∧
        Branched s t tk [s1] 0 true link back (some ((val s s1).toNat / 32 * 32)))

/-- R201 to R203: PUB publishes a predicate and transfers nothing; it waits for the predicate and for an older PUB; FOL takes the oldest outcome of its engine's queue and transfers
control if it is 1, and waits for one; BQS branches on the status of a ring or of a channel port under its mask, SENSE inverting it: a ring's READY, FREE and POISON as its counters
and the poison words of its oldest slot say, and R142's bits for a port whose channel has its home in this package. -/
def Obligations.OutcomesAndStatus : Prop :=
  ∀ (s : State) (tk : Tk) (pub : BitVec 3) (k : Fin 8) (off : BitVec 17),
    (Goes s tk [] none pub → predsFree s (predMask k) = true → publishes ((s.tile s.cur.1).eng s.cur.2) = false →
      pubRoom (s.tile s.cur.1) pub = true → ∃ t, exec (.pub tk pub k off) s = .next t ∧ Branched s t tk [] pub ((s.tile s.cur.1).pred k) none 0 none) ∧
    (∀ (o : Bool) (rest : List Bool) (i : Instr), i ∈ [Instr.folA tk off, .folM tk off, .folY tk off] →
      (s.tile s.cur.1).outcomes s.cur.2 = o :: rest → Goes s tk [] none 0 → ((s.tile s.cur.1).eng s.cur.2).quiet = true →
      ∃ t, exec i s = .next t ∧
        Branched (s.updTile s.cur.1 (fun a => a.setOutcomes s.cur.2 rest)) t tk [] 0 false none 0 (if o then some (target s off) else none)) ∧
    (∀ (i : Instr), i ∈ [Instr.folA tk off, .folM tk off, .folY tk off] → (s.tile s.cur.1).outcomes s.cur.2 = [] → Waits i s) ∧
    (∀ (x : BqsExt), Goes s tk [] none pub → BranchReady s pub →
      let seen := if x.chan then chanStatus s s.cur.1 (x.index.val % 16) else (s, ringStatus s s.cur.1 x.index.val)
      let taken := (seen.2 &&& x.mask != 0) != x.sense
      ∃ t, exec (.bqs tk pub off x) s = .next t ∧
        Branched seen.1 t tk [] pub taken none (BitVec.ofNat 64 (hereBundle s) + 32) (if taken then some (target s off) else none)) ∧
    (∀ n : Nat,
      let r := (s.tile s.cur.1).ring n
      let side := fun (from_ len : Nat) => leNat (spaceBytes s s.cur.1 r.spG (r.sideOff r.taken + from_) len)
      let nblk := if r.isRec then (side 0 4 % 2 ^ 16 * 4 + 127) / 128
        else slotBlocks (side 0 4 / 2 ^ 16 % 2 ^ 6) (side 0 4 / 2 ^ 22 % 2 ^ 4) (32 * r.slot)
      (r.bound = false → ringStatus s s.cur.1 n = 0) ∧
      (r.bound = true → ∀ b < 5, (ringStatus s s.cur.1 n).getLsbD b = match b with
        | 0 => r.filled != r.taken
        | 1 => diff32 r.claimed r.released != 2 ^ r.logn
        | 4 => r.filled != r.taken && r.side != 0 && side 4 (4 * ((nblk + 31) / 32)) != 0
        | _ => false)) ∧
    (∀ (port h : Nat) (writer : Bool), NMap.find? (s.tile s.cur.1).chans port = some (h, writer) → handleHere s h = true →
      let c := handleChan h
      (chanStatus s s.cur.1 port).1 = s ∧
      ∀ b < 5, (chanStatus s s.cur.1 port).2.getLsbD b = match b with
        | 0 => !writer && (headAt s c).2.isSome
        | 1 => writer && (s.tile s.cur.1).slots.any (fun p =>
            p.2.extv.toNat / 32 % 16 == port && p.2.act && !p.2.held && !p.2.addpend && !p.2.stopped && p.2.opc == 0x48 &&
              decide (p.2.pos < p.2.rav.toNat) &&
              (let r := (s.tile s.cur.1).ring (p.2.extv.toNat % 32)
               r.filled != r.taken &&
                roomFor (chan s c) (32 * ((4 * (1 + leNat (spaceBytes s s.cur.1 r.spG (r.sideOff r.taken) 4) % 2 ^ 16) + 31) / 32)) == .full))
        | 2 => (chan s c).closed
        | 3 => (chan s c).spill
        | _ => !writer && match (headAt s c).2 with | some (sd, pos) => (recordAt s c sd pos).2.hdr / 2 ^ 18 % 2 == 1 | none => false) ∧
    (∀ port : Nat, NMap.find? (s.tile s.cur.1).chans port = none → chanStatus s s.cur.1 port = (s, 0))

/-! ### System instructions -/

/-- R112, R163, R164, R189, R204, R208: NOP changes nothing; MFS reads any special register that exists; MTS writes the bits that the register
takes, TOKSEL.E to TOKSEL.Y from any code and the others from system code; TSEL writes the TOKSEL of its own engine with four bits. FENCE
retires once every earlier access of its engine is performed, those to peers too, and else waits. -/
def Obligations.SpecialRegisters : Prop :=
  ∀ (s : State) (tk : Tk),
    (Goes s tk [] none 0 →
      (∀ ign, Does (.nop tk ign) s tk [] none 0 id) ∧
      (∀ ign sc, accPending ((s.tile s.cur.1).eng s.cur.2) = false → Does (.fence tk ign sc) s tk [] none 0 id)) ∧
    (∀ ign sc, accPending ((s.tile s.cur.1).eng s.cur.2) = true → Waits (.fence tk ign sc) s) ∧
    (∀ (d : Reg) (n : Fin 64), sregExists n = true → Goes s tk [] (some d) 0 → Writes (.mfs tk d n) s tk [] d ((s.tile s.cur.1).special n.val)) ∧
    (∀ (src : Reg) (n : Fin 64), sregExists n = true → Goes s tk [src] none 0 → ((s.tile s.cur.1).eng s.cur.2).quiet = true →
      (n.val < 4 ∨ (s.tile s.cur.1).sys = true) → (n.val < 4 → selfPartner (Eng.ofNum n.val) (val s src) = false) →
      ∃ v : Word, Does (.mts tk src n) s tk [src] none 0 (fun a => a.setSpecial n.val v) ∧
        ∀ j < 64, v.getLsbD j = if srTakes n.val j then (val s src).getLsbD j else ((s.tile s.cur.1).special n.val).getLsbD j) ∧
    (∀ (src : Reg) (imm : BitVec 17), Goes s tk [src] none 0 → selfPartner s.cur.2 (val s src ||| imm.setWidth 64) = false →
      Does (.tsel tk src imm) s tk [src] none 0
        (fun a => a.setSpecial s.cur.2.num (BitVec.ofNat 64 ((val s src ||| imm.setWidth 64).toNat % 16))))

/-- R205: ICSYNC retires alone; each engine then discards what it has not issued and fetches again from there.
R209, R406: END retires alone; the tile is ended at the END's address, no engine holds an instruction that has not issued, and
system code ends with it. -/
def Obligations.IcsyncAndEnd : Prop :=
  (∀ (s : State) (tk : Tk) (ign : BitVec 6), Goes s tk [] none 0 → ((s.tile s.cur.1).eng s.cur.2).quiet = true →
    ∃ t b, exec (.icsync tk ign) s = .next t ∧ OtherwiseSame s t ∧ BytesSame s t ∧
      TileRetired (s.tile s.cur.1) b s.cur.2 tk [] none 0 ∧ TileKept (s.tile s.cur.1) b ∧
      TileKept { b with got := b.got.filter (fun x => x.unit != 0) } (t.tile s.cur.1) ∧
      ∀ h, ((t.tile s.cur.1).eng h).regs = (b.eng h).regs ∧
        (∀ q ∈ ((t.tile s.cur.1).eng h).queue, q.isUnissued = false) ∧
        (∀ q, (b.eng h).queue.find? QEntry.isUnissued = some q →
          ((t.tile s.cur.1).eng h).fetch = q.bundle ∧ ((t.tile s.cur.1).eng h).lane = q.lane) ∧
        ((b.eng h).queue.find? QEntry.isUnissued = none → (t.tile s.cur.1).eng h = b.eng h)) ∧
  (∀ (s : State) (tk : Tk) (ign : BitVec 6), Goes s tk [] none 0 → ((s.tile s.cur.1).eng s.cur.2).quiet = true →
    let a := s.tile s.cur.1
    ∃ t, exec (.endTile tk ign) s = .next t ∧
      let b := t.tile s.cur.1
      b.ended = true ∧ b.endAt = hereBundle s + hereLane s ∧ b.sys = false ∧
      (∀ h, (b.eng h).regs = (a.eng h).regs ∧ ∀ q ∈ (b.eng h).queue, q.isUnissued = false) ∧
      b.slots = a.slots ∧ b.cmds = a.cmds ∧ b.xs = a.xs ∧ b.preds = a.preds ∧
      ∀ u, u ≠ s.cur.1 → t.tile u = s.tile u)

/-- R206, R399, R400: TRAP in user code retires, and the tile enters system code: TPC and the fault frame of each engine name its oldest
instruction that has not retired, which for E is the one after the TRAP, TCAUSE holds code 1 and the instruction's code, SYS is set, and
every engine fetches at TVEC. Registers, exchange registers, tokens, outcomes and slots stand. -/
def Obligations.TrapEntersSystemCode : Prop :=
  ∀ (s : State) (tk : Tk) (ign : BitVec 6) (code : BitVec 17), Goes s tk [] none 0 → UserRuns (s.tile s.cur.1) → Calm (s.tile s.cur.1) →
    EntersNow (finishS s s.cur.1 s.cur.2 tk [] (Result.value none 0) true)
      { code := 1, sub := 0, eng := s.cur.2, impr := false, slot := none, info := code.toNat } →
    ∃ t b, exec (.trap tk ign code) s = .next t ∧ TileRetired (s.tile s.cur.1) b s.cur.2 tk [] none 0 ∧ TileKept (s.tile s.cur.1) b ∧
      b.preds = (s.tile s.cur.1).preds ∧ TrapEntered b (t.tile s.cur.1) 1 0 s.cur.2 false none code.toNat ∧
      TrapSame s t ∧ BytesSame s t

/-- R207, R402: RFE returns every engine to its TPC, with its retire mask where TPC still holds what the fault frame recorded; SYS clears,
and stopped slots resume. -/
def Obligations.RfeReturns : Prop :=
  ∀ (s : State) (tk : Tk) (ign : BitVec 6), Goes s tk [] none 0 → (s.tile s.cur.1).sys = true → Calm (s.tile s.cur.1) →
    (s.tile s.cur.1).after = [] →
    let a := s.tile s.cur.1
    ∃ t, exec (.rfe tk ign) s = .next t ∧ OtherwiseSame s t ∧ BytesSame s t ∧
      let b := t.tile s.cur.1
      b.sys = false ∧ b.check = a.check ∧
      (∀ h, (b.eng h).regs = (a.eng h).regs ∧ (b.eng h).queue = [] ∧
        (b.eng h).fetch = (a.special (6 + h.num)).toNat / 32 * 32 ∧ (b.eng h).lane = (a.special (6 + h.num)).toNat % 8 ∧
        (b.eng h).skip = if a.special (6 + h.num) = a.special (11 + h.num) then fld (a.special 15).toNat (16 * h.num) 16 else 0) ∧
      (∀ p q, b.tok p q = a.tok p q - b2n (tkWaits tk && p == a.waitp s.cur.2 && q == s.cur.2)
        + b2n (tkSignals tk && p == s.cur.2 && q == a.sigp s.cur.2)) ∧
      (∀ n, n ≠ 4 → b.special n = a.special n) ∧
      b.slots = a.slots.map (fun p => (p.1, { p.2 with stopped := false })) ∧
      b.ended = ((a.special 10).getLsbD 19 || a.ended) ∧
      { b with e := a.e, a := a.a, m := a.m, y := a.y, toks := a.toks, sr := a.sr, slots := a.slots, arr := a.arr, il := a.il,
               ended := a.ended, got := a.got } = a ∧
      b.got = a.got.filter (fun x => x.unit != 0)

/-- R389, R390: RFE, and MTS to a register above TOKSEL.Y, raise PRIV in user code, and a TOKSEL value that names its own engine raises
OPERAND with SUB 0x0B: the engine stays at the instruction, nothing of it takes place, and system code is entered. -/
def Obligations.PrivilegeAndOwnPartner : Prop :=
  ∀ (s : State) (tk : Tk), UserRuns (s.tile s.cur.1) → Calm (s.tile s.cur.1) → atHead (s.tile s.cur.1) s.cur.2 = true →
    let enters (i : Instr) (code sub : Nat) : Prop :=
      EntersNow s { code := code, sub := sub, eng := s.cur.2, impr := false, slot := none, info := 0 } →
      ∃ t, exec i s = .next t ∧ TrapEntered (s.tile s.cur.1) (t.tile s.cur.1) code sub s.cur.2 false none 0 ∧ TrapSame s t ∧ BytesSame s t
    (∀ ign, enters (.rfe tk ign) 5 0) ∧
    (∀ (src : Reg) (n : Fin 64), sregExists n = true → 4 ≤ n.val → enters (.mts tk src n) 5 0) ∧
    (∀ (src : Reg) (n : Fin 64), n.val < 4 → selfPartner (Eng.ofNum n.val) (val s src) = true → Goes s tk [src] none 0 →
      enters (.mts tk src n) 6 0x0B) ∧
    (∀ (src : Reg) (imm : BitVec 17), selfPartner s.cur.2 (val s src ||| imm.setWidth 64) = true → Goes s tk [src] none 0 →
      enters (.tsel tk src imm) 6 0x0B)

/-! ### Loads, stores, atomics -/

/-- R77, R80, R82, R87: with CHECK off, spaces T, P and G wrap in the allocations of the tile, the peer and the page, and Y in the window of
the partition, for system code in the first 768 MiB of the die. -/
def Obligations.SpacesWrap : Prop :=
  ∀ (s : State) (a : Word) (acc : Acc), (s.tile s.cur.1).check = false →
    let tid := s.cur.1
    let n := a.toNat
    let win := (mreg s (0x2000 + 0x20 * partOf s tid + 8 * (tid / 512))).toNat
    Finds s .t a acc s (2 ^ 42 + tid * 2 ^ 18 + n % 2 ^ tspLog s tid) 0 ∧
    Finds s .p a acc s (2 ^ 42 + (tid / 16 * 16 + n / 2 ^ 20 % 16) * 2 ^ 18 + n % 2 ^ 18 % 2 ^ tspLog s tid) 0 ∧
    (gspLog s tid ≠ 0 → Finds s .g a acc s (2 ^ 41 + tid / 16 * 2 ^ 22 + n % 2 ^ gspLog s tid) 0) ∧
    ((s.tile tid).sys = false → win / 2 ^ 14 % 2 = 1 →
      Finds s .y a acc s (2 ^ 40 + tid / 512 * 2 ^ 30 + (win % 2 ^ 10 * 2 ^ 20 + n % 2 ^ (20 + win / 2 ^ 10 % 16))) 0) ∧
    ((s.tile tid).sys = true → n < 0x30000000 → Finds s .y a acc s (2 ^ 40 + tid / 512 * 2 ^ 30 + n) 0)

/-- R79, R191, R192, R374: a load of each space writes D with the bytes at its address, extended; a poisoned unit reads zero and is
recorded. Nothing else changes beyond what finding the place changed. -/
def Obligations.LoadsRead : Prop :=
  ∀ (s s' : State) (tk : Tk) (d base idx : Reg) (sz : Size) (zx : Bool) (ord : LdOrd) (ext : Option MemExt) (k ident : Nat),
    ∀ p ∈ [(Space.t, Instr.ldT), (.p, .ldP), (.g, .ldG), (.y, .ldY), (.d, .ldD)],
      let n := sizeBytes sz
      let a := accessAddr s base idx ext n
      ord ≠ .sync → Goes s tk [base, idx] (some d) 0 → AccessFree s p.1 a false → Finds s p.1 a .read s' k ident →
      ∃ t, exec (p.2 tk d base idx sz zx ord ext) s = .next t ∧
        Retired (noteSpoiled s' s.cur.1 k n) t tk [base, idx] (some d) (extended zx n (heldAt s' ident k n))

/-- R82, R193: a synchronising load of full words, behind no other one that waits for them, reads them and sets them empty; otherwise it waits
at its bank with nothing read, and SYNC_LOAD_SERVED completes it the same way. -/
def Obligations.SynchronisingLoads : Prop :=
  (∀ (s : State) (tk : Tk) (d base idx : Reg) (sz : Size) (zx : Bool) (ext : Option MemExt),
    let tid := s.cur.1
    let n := sizeBytes sz
    let k := 2 ^ 42 + tid * 2 ^ 18 + (accessAddr s base idx ext n).toNat % 2 ^ tspLog s tid
    let free := allFull s k n = true ∧ aheadAt (s.tile tid) k n s.reqNo = false
    (s.tile tid).check = false → Goes s tk [base, idx] (some d) 0 → accHeld ((s.tile tid).eng s.cur.2) = false →
    (free → ∃ t, exec (.ldT tk d base idx sz zx .sync ext) s = .next t ∧
      let u := noteSpoiled s tid k n
      Retired { u with st := u.st.setEmpty k n } t tk [base, idx] (some d) (extended zx n (heldAt s 0 k n)) ∧
      ∀ w ∈ wordsOf k n, w ∉ t.st.full) ∧
    (¬ free → ∃ t, exec (.ldT tk d base idx sz zx .sync ext) s = .next t ∧ t.st = s.st ∧
      TileIssued (s.tile tid) (t.tile tid) s.cur.2 tk [base, idx] (.syncLoad k n s.reqNo zx d))) ∧
  (∀ (s : State) (tid : Nat) (g : Eng) (i k n seq : Nat) (zx : Bool) (d : Reg) (sig : Option Eng),
    flightAt (s.tile tid) g Wait.isSync = some (i, .syncLoad k n seq zx d) →
    InFlight (s.tile tid) g i (.syncLoad k n seq zx d) sig (some d) →
    allFull s k n = true → aheadAt (s.tile tid) k n seq = false →
    ∃ t, exec (.syncLoadServed tid g) s = .next t ∧
      let u := noteSpoiled s tid k n
      Completed { u with st := u.st.setEmpty k n } t tid g i sig (some d) (extended zx n (heldAt s 0 k n)))

/-- R79, R82, R191, R373: a store of each space writes the low bytes of its source at its address, marks TSP words full, and changes no other
byte; a byte of a poisoned unit that the store does not cover stays poisoned. -/
def Obligations.StoresWrite : Prop :=
  ∀ (s s' : State) (tk : Tk) (src base idx : Reg) (sz : Size) (ord : StOrd) (ext : Option MemExt) (k ident : Nat),
    ∀ p ∈ [(Space.t, Instr.stT), (.p, .stP), (.g, .stG), (.y, .stY), (.d, .stD)],
      let n := sizeBytes sz
      let a := accessAddr s base idx ext n
      Goes s tk [src, base, idx] none 0 → AccessFree s p.1 a (ord == .rel) → Finds s p.1 a .write s' k ident → k % n = 0 →
      ∃ t, exec (p.2 tk src base idx sz ord ext) s = .next t ∧
        Retired (writeRun s' ident k (natLe n (val s src).toNat)) t tk [src, base, idx] none 0 ∧
        (∀ j < n, (s'.st.poison.contains (unitOf (k + j)) = false ∨ unitLen k = n) →
          (t.st.byte (k + j)).toNat = (val s src).toNat / 2 ^ (8 * j) % 256) ∧
        BytesSameOutside s' t k n ident ∧
        (isTsp k = true → ∀ w ∈ wordsOf k n, w ∈ t.st.full) ∧
        (isTsp k = false → t.st.full = s'.st.full)

/-- R289, R290: an atomic of each space reads its location, writes the result of its operation there in the same step, and gives D the old
value with its sign; CAS writes only where the location equals D. No other byte changes. -/
def Obligations.AtomicsReadModifyWrite : Prop :=
  ∀ (s s' : State) (tk : Tk) (d s1 s2 : Reg) (op : AmoOp) (dbl : Bool) (off : BitVec 24) (ord : AmoOrd) (sc : Scope) (k ident : Nat),
    let ext : AmoExt := { off := off, ord := ord, scope := sc }
    let n := if dbl then 8 else 4
    let srcs := if op = .cas then [s1, s2, d] else [s1, s2]
    let sum := val s s1 + off.signExtend 64
    let a := sum - BitVec.ofNat 64 (sum.toNat % n)
    let u := noteSpoiled s' s.cur.1 k n
    let old := heldAt u ident k n
    (op = .fadd → dbl = false) → Goes s tk srcs (some d) 0 →
    (∀ p ∈ [(Space.t, Instr.amoT tk d s1 s2 op dbl (some ext)), (.p, .amoP tk d s1 s2 op dbl (some ext)),
        (.g, .amoG tk d s1 s2 op dbl (some ext)), (.y, .amoY tk d s1 s2 op dbl (some ext)), (.d, .amoD tk d s1 s2 op dbl ext)],
      AccessFree s p.1 a (ord == .rel || ord == .acqrel) → Finds s p.1 a .atomic s' k ident →
      ∃ t, exec p.2 s = .next t ∧
        Retired ((amoGives op n old (val s s2).toNat (val s d).toNat).elim u (fun v => writeRun u ident k (natLe n v))) t tk srcs (some d)
          (extended false n old)) ∧
    (off = 0 → ord = .plain →
      ∀ p ∈ [(Instr.amoT tk d s1 s2 op dbl none, Instr.amoT tk d s1 s2 op dbl (some ext)),
        (.amoP tk d s1 s2 op dbl none, .amoP tk d s1 s2 op dbl (some ext)), (.amoG tk d s1 s2 op dbl none, .amoG tk d s1 s2 op dbl (some ext)),
        (.amoY tk d s1 s2 op dbl none, .amoY tk d s1 s2 op dbl (some ext))], exec p.1 s = exec p.2 s)

/-- R424, R425: in CHECK mode an access of T, P, G or Y outside its range goes nowhere: a load and an atomic write 0, a store writes nothing,
and CHKST of the region holds the first offence, or that there were several; the offences of one cycle are kept until it ends. -/
def Obligations.CheckModeStops : Prop :=
  ∀ (s : State) (tk : Tk) (d s1 s2 : Reg) (r : Nat),
    let tid := s.cur.1
    let a := s.tile tid
    let chk := mreg s (0x400000 + 16 * r)
    let win := (mreg s (0x2000 + 0x20 * partOf s tid + 8 * (tid / 512))).toNat
    let outside (sp : Space) (n : Nat) : Prop :=
      (sp = .t ∧ 2 ^ tspLog s tid ≤ n) ∨
      (sp = .p ∧ (2 ^ 24 ≤ n ∨ n / 2 ^ 18 % 4 ≠ 0 ∨ 2 ^ tspLog s tid ≤ n % 2 ^ 18)) ∨
      (sp = .g ∧ (gspLog s tid = 0 ∨ 2 ^ gspLog s tid ≤ n)) ∨
      (sp = .y ∧ ((a.sys = true ∧ 0x30000000 ≤ n) ∨ (a.sys = false ∧ (win / 2 ^ 14 % 2 = 0 ∨ 2 ^ (20 + win / 2 ^ 10 % 16) ≤ n))))
    let low (space wr : Nat) : Word :=
      BitVec.ofNat 64 (1 + space * 4 + wr * 2 ^ 5 + tixOf s tid % 1024 * 2 ^ 7 + s.cur.2.num * 2 ^ 17)
    let after (space wr : Nat) (x : Word) : State :=
      if s.inCycle then
        { s with offences := s.offences ++ [{ rgn := r, tix := tixOf s tid, eng := s.cur.2.num, addr := x, low := low space wr }] }
      else if chk.getLsbD 0 then setMreg s (0x400000 + 16 * r) (chk ||| 2)
      else setMreg (setMreg s (0x400000 + 16 * r) (low space wr)) (0x400008 + 16 * r) x
    a.check = true → a.rgn = some r →
    (∀ (sz : Size) (zx : Bool) (ord : LdOrd) (ext : Option MemExt),
      ∀ p ∈ [(Space.t, 0, Instr.ldT), (.p, 1, .ldP), (.g, 2, .ldG), (.y, 3, .ldY)],
        let x := accessAddr s s1 s2 ext (sizeBytes sz)
        Goes s tk [s1, s2] (some d) 0 → AccessFree s p.1 x false → outside p.1 x.toNat →
        ∃ t, exec (p.2.2 tk d s1 s2 sz zx ord ext) s = .next t ∧ Retired (after p.2.1 0 x) t tk [s1, s2] (some d) 0) ∧
    (∀ (sz : Size) (ord : StOrd) (ext : Option MemExt),
      ∀ p ∈ [(Space.t, 0, Instr.stT), (.p, 1, .stP), (.g, 2, .stG), (.y, 3, .stY)],
        let x := accessAddr s s1 s2 ext (sizeBytes sz)
        Goes s tk [d, s1, s2] none 0 → AccessFree s p.1 x (ord == .rel) → outside p.1 x.toNat →
        ∃ t, exec (p.2.2 tk d s1 s2 sz ord ext) s = .next t ∧ Retired (after p.2.1 1 x) t tk [d, s1, s2] none 0) ∧
    (∀ (op : AmoOp) (dbl : Bool) (ext : AmoExt),
      ∀ p ∈ [(Space.t, 0, Instr.amoT), (.p, 1, .amoP), (.g, 2, .amoG), (.y, 3, .amoY)],
        let srcs := if op = .cas then [s1, s2, d] else [s1, s2]
        let sum := val s s1 + ext.off.signExtend 64
        let x := sum - BitVec.ofNat 64 (sum.toNat % (if dbl then 8 else 4))
        Goes s tk srcs (some d) 0 → AccessFree s p.1 x (ext.ord == .rel || ext.ord == .acqrel) → outside p.1 x.toNat →
        ∃ t, exec (p.2.2 tk d s1 s2 op dbl (some ext)) s = .next t ∧ Retired (after p.2.1 1 x) t tk srcs (some d) 0)

/-- R391, R417: a G access of a page without GSP and a Y access without a window raise OPERAND with SUB 0x0C; a D access whose address is not
below 2^48 raises XLATE imprecisely with WHY 4 and the kind of the access, 0 for a load, 1 for a store and 2 for an atomic; nothing is read
or written. -/
def Obligations.AccessesThatTrap : Prop :=
  ∀ (s : State) (tk : Tk) (d s1 s2 : Reg) (sz : Size) (zx : Bool) (lo : LdOrd) (so : StOrd) (ext : Option MemExt) (op : AmoOp) (dbl : Bool)
    (x : AmoExt),
    let tile := s.tile s.cur.1
    let enters (i : Instr) (code sub : Nat) (impr : Bool) (info : Nat) : Prop :=
      EntersNow s { code := code, sub := sub, eng := s.cur.2, impr := impr, slot := none, info := info } →
      ∃ t, exec i s = .next t ∧ TrapEntered tile (t.tile s.cur.1) code sub s.cur.2 impr none info ∧ TrapSame s t ∧ BytesSame s t
    let traps (g y dd : Instr) (a : Word) (kind : Nat) : Prop :=
      (gspLog s s.cur.1 = 0 → enters g 6 0x0C false 0) ∧
      ((ywin s (partOf s s.cur.1) (s.cur.1 / 512)).testBit 14 = false → enters y 6 0x0C false 0) ∧
      (a.toNat ≥ 2 ^ 48 → tlbFind s s.cur.1 (partOf s s.cur.1) a.toNat = none → enters dd 0x12 (4 + 16 * kind) true (a.toNat / 2 ^ 16 % 2 ^ 32))
    let a := accessAddr s s1 s2 ext (sizeBytes sz)
    let sum := val s s1 + x.off.signExtend 64
    let srcs := if op = .cas then [s1, s2, d] else [s1, s2]
    let rel := x.ord == .rel || x.ord == .acqrel
    UserRuns tile → Calm tile → atHead tile s.cur.2 = true → tile.check = false →
    (Goes s tk [s1, s2] (some d) 0 → AccessFree s .d a false →
      traps (.ldG tk d s1 s2 sz zx lo ext) (.ldY tk d s1 s2 sz zx lo ext) (.ldD tk d s1 s2 sz zx lo ext) a 0) ∧
    (Goes s tk [d, s1, s2] none 0 → AccessFree s .d a (so == .rel) →
      traps (.stG tk d s1 s2 sz so ext) (.stY tk d s1 s2 sz so ext) (.stD tk d s1 s2 sz so ext) a 1) ∧
    (Goes s tk srcs (some d) 0 → AccessFree s .d sum rel →
      traps (.amoG tk d s1 s2 op dbl (some x)) (.amoY tk d s1 s2 op dbl (some x)) (.amoD tk d s1 s2 op dbl x)
        (sum - BitVec.ofNat 64 (sum.toNat % (if dbl then 8 else 4))) 2)

/-- R90, R91: a walk of the page table: each level's entry, found by its bits of the address, names the next table until one of them is a leaf;
an entry that is not valid ends it with WHY 1 and a poisoned one with WHY 8. -/
def Obligations.PageWalk : Prop :=
  ∀ (s : State) (va lev table fuel : Nat), lev < 5 →
    let at_ (l : Nat) : Nat × Nat := match l with | 4 => (39, 9) | 3 => (29, 10) | 2 => (25, 4) | 1 => (21, 4) | _ => (16, 5)
    let lo := (at_ lev).1
    let n := (at_ lev).2
    let addr := table + 8 * (va / 2 ^ lo % 2 ^ n)
    let e := leNat (readRun s (keyIdent s 0) addr 8)
    table % (8 * 2 ^ n) = 0 → table + 8 * 2 ^ n ≤ 2 ^ 39 →
    (s.st.poisoned addr 8 = true → walkFrom s va (fuel + 1) lev table = .fail 8 addr) ∧
    (s.st.poisoned addr 8 = false →
      (e % 2 = 0 → walkFrom s va (fuel + 1) lev table = .fail 1 addr) ∧
      (e % 4 = 3 → lev < 4 → leafGood e lo = true → walkFrom s va (fuel + 1) lev table = .leaf e lo) ∧
      (e % 128 = 1 → lev ≠ 0 → walkFrom s va (fuel + 1) lev table = walkFrom s va fuel (lev - 1) (e / 2 ^ 7 % 2 ^ 57 * 128)))

/-! ### Streams and rings -/

/-- R210, R214 to R216, R222 to R230: a stream command whose slot is idle and whose checks hold takes the slot with what R236 gives, from its
start, and retires; it runs at once unless an SBAR accepted before it has not completed. -/
def Obligations.StreamsAccepted : Prop :=
  ∀ (s : State) (tk : Tk) (slot : Fin 16) (ra rb : Reg) (sp dsp : Space) (sc : Scope) (cc : Bool) (ring dst : Fin 32) (clamp : Bool)
    (roww : BitVec 6) (rstr : BitVec 20) (mask : BitVec 16) (port : Fin 16),
    let tid := s.cur.1
    let a := s.tile tid
    let rec_ := recBytes s { whoOf s tid s.cur.2 with strm := true } (alignDown (val s ra) 32) 96
    let free (ring : Fin 32) (prod : Bool) : Prop := ringFault s tid ring.val prod (!prod) = none
    let b2 (b : Bool) : Nat := if b then 1 else 0
    let takes (i : Instr) (u : State) (srcs : List Reg) (opc sp nrec : Nat) (rbv rav : Word) (x : Nat) : Prop :=
      ∃ t v, exec i s = .next t ∧
        RetiredWith u t tk srcs none 0 (fun b => { b.setSlot slot.val v with seqNo := b.seqNo + 1 }) ∧
        SlotTaken a (a.slot slot.val) v opc sp sc cc nrec rbv rav x
    let nrec := (alignDown (val s ra) 32).toNat % 2 ^ 18
    (a.slot slot.val).act = false → accHeld (a.eng s.cur.2) = false → (cc = true → (a.slot slot.val).cv = true) →
    (Goes s tk [ra, rb] none 0 →
      (noSpace s tid sp = false → nestBad rec_.2 = false →
        (free ring true →
          takes (.sld tk slot ra rb sp sc cc ring clamp) rec_.1 [ra, rb] 0x40 (spNum sp) nrec (val s rb) 0 (ring.val + 32 * b2 clamp)) ∧
        (free ring false →
          takes (.sst tk slot ra rb sp sc cc ring clamp) rec_.1 [ra, rb] 0x41 (spNum sp) nrec (val s rb) 0 (ring.val + 32 * b2 clamp)) ∧
        (free ring true → rec_.2[8]? = some 4 →
          takes (.sgath tk slot ra rb sp sc cc ring roww rstr) rec_.1 [ra, rb] 0x42 (spNum sp) nrec (val s rb) 0
            (ring.val + 64 * roww.toNat + 4096 * rstr.toNat)) ∧
        (free ring false → rec_.2[8]? = some 4 →
          takes (.sscat tk slot ra rb sp sc cc ring roww rstr) rec_.1 [ra, rb] 0x43 (spNum sp) nrec (val s rb) 0
            (ring.val + 64 * roww.toNat + 4096 * rstr.toNat)) ∧
        ((∀ u ∈ maskTiles tid mask.toNat, (s.tile u).started = true ∧ ringFault s u ring.val true false = none) →
          takes (.smc tk slot ra rb sp sc cc ring clamp mask) rec_.1 [ra, rb] 0x45 (spNum sp) nrec (val s rb) 0
            (ring.val + 32 * b2 clamp + 2 ^ 16 * mask.toNat)) ∧
        (noSpace s tid dsp = false → rec_.2[8]? ≠ some 0 →
          takes (.scpy tk slot ra rb sp sc cc dsp) rec_.1 [ra, rb] 0x46 (spNum sp) nrec (val s rb) 0 (spNum dsp))) ∧
      (a.sys = true → (val s ra).toNat % 32 = 0 → (val s rb).toNat % 8192 = 0 → ∀ restore ctx : Bool,
        takes (.stash tk slot ra rb sc cc restore ctx) s [ra, rb] 0x4B 3 0 (val s rb) (val s ra) (b2 restore + 2 * b2 ctx))) ∧
    (Goes s tk [ra] none 0 →
      (free ring false → free dst true →
        takes (.srec tk slot ra sc cc ring dst) s [ra] 0x44 0 0 0 (val s ra) (ring.val + 32 * dst.val)) ∧
      (∀ h, NMap.find? a.chans port.val = some (h, false) → free ring true →
        takes (.schr tk slot ra sc cc ring port) s [ra] 0x47 5 0 0 (val s ra) (ring.val + 32 * port.val)) ∧
      (∀ h (commit : Bool), NMap.find? a.chans port.val = some (h, true) → free ring false →
        takes (.schw tk slot ra sc cc ring port commit) s [ra] 0x48 5 0 0 (val s ra) (ring.val + 32 * port.val + 512 * b2 commit))) ∧
    (Goes s tk [] none 0 → takes (.sbar tk slot sc cc) s [] 0x49 0 0 0 0 0)

/-- R210, R222, R389, R391: every stream command waits for its slot to be idle; in user code every one that names a ring, each ring operation and
MMA and MMA.T raise OPERAND with SUB 0x01 for a ring without a binding and 0x02 for a side that is held, and STASH raises PRIV. That these two
come before any other finding of R391 is the model's order (notes/assumptions/11.md, DEDUCED). -/
def Obligations.StreamsRefused : Prop :=
  ∀ (s : State) (tk : Tk) (slot : Fin 16) (ra rb : Reg) (sp : Space) (sc : Scope) (cc : Bool) (ring : Fin 32) (clamp : Bool),
    let a := s.tile s.cur.1
    let enters (i : Instr) (code sub : Nat) : Prop :=
      EntersNow s { code := code, sub := sub, eng := s.cur.2, impr := false, slot := none, info := 0 } →
      ∃ t, exec i s = .next t ∧ TrapEntered a (t.tile s.cur.1) code sub s.cur.2 false none 0 ∧ TrapSame s t ∧ BytesSame s t
    ((a.slot slot.val).act = true → ∀ (dsp : Space) (csp : CntSp) (dst : Fin 32) (roww : BitVec 6) (rstr : BitVec 20) (mask : BitVec 16)
        (port : Fin 16) (commit restore ctx : Bool),
      (∀ i ∈ [Instr.sld tk slot ra rb sp sc cc ring clamp, .sst tk slot ra rb sp sc cc ring clamp, .sgath tk slot ra rb sp sc cc ring roww rstr,
          .sscat tk slot ra rb sp sc cc ring roww rstr, .srec tk slot ra sc cc ring dst, .smc tk slot ra rb sp sc cc ring clamp mask,
          .scpy tk slot ra rb sp sc cc dsp, .schr tk slot ra sc cc ring port, .schw tk slot ra sc cc ring port commit, .sbar tk slot sc cc,
          .scnt tk slot ra rb csp], Waits i s) ∧
      (a.sys = true → Waits (.stash tk slot ra rb sc cc restore ctx) s)) ∧
    -- the rings that an instruction names: the tile, the ring, and whether it takes the producer side
    let refuses (l : List (Nat × Nat × Bool)) (i : Instr) : Prop :=
      let bound (q : Nat × Nat × Bool) : Bool := ((s.tile q.1).ring q.2.1).bound
      let held (q : Nat × Nat × Bool) : Bool := if q.2.2 then producerHeld s q.1 q.2.1 else consumerHeld s q.1 q.2.1
      ((∃ q ∈ l, bound q = false) → enters i 6 0x01) ∧ ((∀ q ∈ l, bound q = true) → (∃ q ∈ l, held q = true) → enters i 6 0x02)
    let tid := s.cur.1
    (UserRuns a → Calm a → atHead a s.cur.2 = true → a.check = false →
      ((a.slot slot.val).act = false → accHeld (a.eng s.cur.2) = false →
        (Goes s tk [ra, rb] none 0 → ∀ (roww : BitVec 6) (rstr : BitVec 20) (mask : BitVec 16),
          refuses [(tid, ring.val, true)] (.sld tk slot ra rb sp sc cc ring clamp) ∧
          refuses [(tid, ring.val, false)] (.sst tk slot ra rb sp sc cc ring clamp) ∧
          refuses [(tid, ring.val, true)] (.sgath tk slot ra rb sp sc cc ring roww rstr) ∧
          refuses [(tid, ring.val, false)] (.sscat tk slot ra rb sp sc cc ring roww rstr) ∧
          ((∀ u ∈ maskTiles tid mask.toNat, (s.tile u).started = true) →
            refuses ((maskTiles tid mask.toNat).map (fun u => (u, ring.val, true))) (.smc tk slot ra rb sp sc cc ring clamp mask)) ∧
          ∀ restore ctx, enters (.stash tk slot ra rb sc cc restore ctx) 5 0) ∧
        (Goes s tk [ra] none 0 → ∀ (dst : Fin 32) (port : Fin 16) (commit : Bool),
          refuses [(tid, ring.val, false), (tid, dst.val, true)] (.srec tk slot ra sc cc ring dst) ∧
          refuses [(tid, ring.val, true)] (.schr tk slot ra sc cc ring port) ∧
          refuses [(tid, ring.val, false)] (.schw tk slot ra sc cc ring port commit))) ∧
      (∀ (d : Reg) (c : RingCnt), Goes s tk (match c with | .imm _ => [] | .reg x => [x]) (some d) 0 →
        refuses [(tid, ring.val, false)] (.wfill tk d c ring) ∧ refuses [(tid, ring.val, true)] (.wfree tk d c ring) ∧
        refuses [(tid, ring.val, false)] (.rpop tk d c ring) ∧ refuses [(tid, ring.val, true)] (.radv tk d c ring)) ∧
      (Goes s tk [] none 0 → accHeld (a.eng s.cur.2) = false → ∀ (x : MatExt) (ringB : Fin 32) (keepA keepB : Bool), MatFree a x →
        refuses [(tid, ring.val, false), (tid, ringB.val, false)] (.mma tk ring ringB keepA keepB x) ∧
        refuses [(tid, ring.val, false), (tid, ringB.val, false)] (.mmaT tk ring ringB keepA keepB x)))

/-- R231 to R233: SWAIT retires once every slot that it names is idle, and else waits; SCNT binds a counter to an idle slot; SSTAT reads what a
slot is doing. -/
def Obligations.SlotInstructions : Prop :=
  ∀ (s : State) (tk : Tk) (slot : Fin 16) (ra rb d : Reg),
    let tid := s.cur.1
    let a := s.tile tid
    let v := a.slot slot.val
    (∀ sc, Goes s tk [ra] none 0 →
      let named (n : Nat) : Prop := n = slot.val ∨ (val s ra).getLsbD n = true
      ((∀ n < 16, named n → (a.slot n).act = false) → Does (.swait tk slot ra sc) s tk [ra] none 0 id) ∧
      ((∃ n < 16, named n ∧ (a.slot n).act = true) →
        ∃ t m, exec (.swait tk slot ra sc) s = .next t ∧ TileIssued a (t.tile tid) s.cur.2 tk [ra] (.swait m) ∧ SameBut tid s t ∧
          ∀ n < 16, m.testBit n = true ↔ named n)) ∧
    (∀ sp, Goes s tk [ra, rb] none 0 → v.act = false → noSpace s tid (cntSpace sp) = false →
      Does (.scnt tk slot ra rb sp) s tk [ra, rb] none 0 (fun b => b.setSlot slot.val
        { v with cv := true, csp := sp, caddr := val s ra - BitVec.ofNat 64 ((val s ra).toNat % 8), cinc := val s rb })) ∧
    (Goes s tk [] (some d) 0 → v.opc < 256 → ∃ w : Word, Writes (.sstat tk slot d) s tk [] d w ∧
      w.getLsbD 0 = v.act ∧ w.getLsbD 1 = v.held ∧ w.getLsbD 2 = ringBlocked s tid v ∧ w.getLsbD 3 = chanBlocked s tid v ∧
      w.getLsbD 4 = v.closed ∧ w.getLsbD 5 = v.addpend ∧ w.toNat / 2 ^ 8 % 2 ^ 8 = v.opc ∧ w.toNat / 2 ^ 16 = v.pos % 2 ^ 48)

/-- R235: the four ring operations of an engine on a bound ring whose side is free, for c slots, 1 to N: WFILL waits until c slots are filled and
gives the oldest one's place; WFREE claims c free slots; RPOP takes and releases c filled slots, whose T words become empty; RADV fills c
claimed slots.
R83: whatever the operands, none of the four brings the counters of a ring of its tile out of order. -/
def Obligations.RingOperations : Prop :=
  ∀ (s : State) (tk : Tk) (d : Reg) (c : RingCnt) (ring : Fin 32),
    let tid := s.cur.1
    let a := s.tile tid
    (∀ i ∈ [Instr.wfill tk d c ring, .wfree tk d c ring, .rpop tk d c ring, .radv tk d c ring], ∀ t, exec i s = .next t →
      (∀ n, (a.ring n).inOrder) → ∀ n, ((t.tile tid).ring n).inOrder) ∧
    let r := a.ring ring.val
    let k : Nat := match c with | .imm n => n.toNat | .reg x => (val s x).toNat % 2 ^ 13
    let srcs : List Reg := match c with | .imm _ => [] | .reg x => [x]
    let size := 2 ^ r.logn
    let place (i : Nat) : Word := BitVec.ofNat 64 ((r.base + i % size * (32 * r.slot)) % 2 ^ 32 + (r.sbase + i % size * (4 * r.side)) % 2 ^ 32 * 2 ^ 32)
    let leaves (i : Instr) (u : State) (r' : Ring) (v : Word) : Prop :=
      ∃ t, exec i s = .next t ∧ Retired (u.updTile tid (fun b => b.setRing ring.val r')) t tk srcs (some d) v
    let diff (x y : Nat) : Nat := (x + 2 ^ 32 - y % 2 ^ 32) % 2 ^ 32
    (Goes s tk srcs (some d) 0 → accHeld (a.eng s.cur.2) = false → r.bound = true → 1 ≤ k → k ≤ 4096 → k ≤ size →
    (ringFault s tid ring.val false true = none →
      (k ≤ diff r.filled r.taken → ∃ t, exec (.wfill tk d c ring) s = .next t ∧ Retired s t tk srcs (some d) (place r.taken)) ∧
      (diff r.filled r.taken < k → Waits (.wfill tk d c ring) s) ∧
      (accPending (a.eng s.cur.2) = false → k ≤ diff r.filled r.taken →
        leaves (.rpop tk d c ring) (emptySlots s tid r r.released k)
          { r with taken := (r.taken + k) % 2 ^ 32, released := (r.released + k) % 2 ^ 32 } (BitVec.ofNat 64 ((r.taken + k) % 2 ^ 32)) ∧
        (r.spG = false → ∀ i < k, ∀ o < 32 * r.slot,
          let at_ := 2 ^ 42 + tid * 2 ^ 18 + (r.base + (r.released + i) % size * (32 * r.slot) + o) % 2 ^ tspLog s tid
          at_ / 4 * 4 ∉ (emptySlots s tid r r.released k).st.full))) ∧
    (ringFault s tid ring.val true false = none →
      (diff r.claimed r.released + k ≤ size →
        leaves (.wfree tk d c ring) s { r with claimed := (r.claimed + k) % 2 ^ 32 } (place r.claimed)) ∧
      (size < diff r.claimed r.released + k → Waits (.wfree tk d c ring) s) ∧
      (accPending (a.eng s.cur.2) = false → k ≤ diff r.claimed r.filled →
        leaves (.radv tk d c ring) s { r with filled := (r.filled + k) % 2 ^ 32 } (BitVec.ofNat 64 ((r.filled + k) % 2 ^ 32)))))

/-- R212: a service goes to the slots that can make progress, from the one after the slot served last, in ascending number round to it
again, and to at most four of them: by what stands when its cycle begins, or with the releases and fills of the cycle (R84; the model's
reading, notes/assumptions/1.md, DEDUCED). These slots' services, one after another, are all that happens but the end of the cycle.
R210, R213: a service of a command that has done everything makes its slot idle, or leaves it owing the add of its counter; the slot that owes
an add to a G counter of the page adds it in its service and becomes idle.
R230: an SBAR behind which no earlier command of its tile may still write completes, and commands held behind it run. -/
def Obligations.StreamsComplete : Prop :=
  (∀ (s : State) (tid : Nat),
    let a := s.tile tid
    let order := (range 1 16).map (fun i => (a.lastSlot + i) % 16)
    let s1 := afterRings s tid
    let can (m : Nat) : Prop := slotServe s tid m ≠ none ∨ slotServe s1 tid m ≠ none
    a.started = true → a.halted = false → ∃ (t : State) (l served : List Nat), exec (.streamService tid) s = .next t ∧
      List.Sublist l order ∧ l.length ≤ 4 ∧ (∀ m ∈ l, can m) ∧
      (∀ before n after, order = before ++ n :: after → (∀ m ∈ before, ¬ can m) → can n → l.head? = some n) ∧
      ((∀ m ∈ order, ¬ can m) → l = []) ∧ ((∀ m, slotServe s tid m = none) → s1 = s) ∧
      ((∀ p ∈ roundActs s s1 tid l, ∀ va, p.2 ≠ .own tid va) → served.Perm l ∧
        let u := served.foldl (fun u m => serveSlot u tid m)
          { s.updTile tid (fun b => { b with lastSlot := l.getLastD b.lastSlot }) with inCycle := true }
        t = if s.inCycle then u else endCycle u)) ∧
  (∀ (s : State) (tid n : Nat),
    let a := s.tile tid
    let v := a.slot n
    Fed s → (∀ u, (s.tile u).enter = none) → n < 16 → a.started = true → a.halted = false → a.ended = false → (∀ m < 16, m ≠ n → (a.slot m).act = false) →
    v.act = true → v.held = false → v.stopped = false → v.inFlight = false → slotWritesOut s tid n = false →
    let idle : Slot := { v with act := false, held := false, addpend := false, opened := false, inFlight := false }
    (v.addpend = false →
      ((v.opc ∈ [0x40, 0x41, 0x42, 0x43, 0x45, 0x46] ∧ (nestOf v.nest).total ≤ v.pos) ∨ (v.opc = 0x44 ∧ v.rav.toNat ≤ v.pos)) →
      ∃ t, exec (.streamService tid) s = .next t ∧
        t.tile tid = { a.setSlot n (if v.cc then { v with opened := false, done := 0, pois := 0, addpend := true }
          else { idle with done := 0, pois := 0 }) with lastSlot := n, got := a.got.filter (fun x => x.unit != v.seq + 2) } ∧
        (∀ u, u ≠ tid → t.tile u = s.tile u) ∧ BytesSame s t) ∧
    (v.addpend = true → v.csp = .g → v.check = false → gspLog s tid ≠ 0 →
      let k := 2 ^ 41 + tid / 16 * 2 ^ 22 + (v.caddr.toNat - v.caddr.toNat % 8) % 2 ^ gspLog s tid
      ∃ t, exec (.streamService tid) s = .next t ∧ (t.tile tid).slot n = idle ∧
        (3 ≤ gspLog s tid → unitOf k ∉ s.st.poison → leNat (t.st.bytes k 8) = (leNat (s.st.bytes k 8) + v.cinc.toNat) % 2 ^ 64))) ∧
  (∀ (s : State) (tid n : Nat),
    let a := s.tile tid
    let v := a.slot n
    n < 16 → a.started = true → a.halted = false → a.ended = false → v.act = true → v.opc = 0x49 → v.held = false → v.addpend = false →
    v.stopped = false → v.cc = false → slotWritesOut s tid n = false → (∀ p ∈ a.slots, p.2.seq < v.seq → stillWrites p.2 = false) →
    ∃ t, exec (.sbarComplete tid n) s = .next t ∧ ((t.tile tid).slot n).act = false ∧
      ((∀ p ∈ a.slots, p.1 ≠ n → p.2.act = true → p.2.opc ≠ 0x49) → ∀ p ∈ (t.tile tid).slots, p.2.held = false))

/-- R134 to R136: a writer's record that has room on chip is accepted whole behind the others, its header and payload stand at the channel's
write position, and its ring slot is released; a reader takes the oldest record whole: its payload stands in the ring slot that it claims and
its header, with a bit for each poisoned block, in that slot's side-band. -/
def Obligations.ChannelRecords : Prop :=
  ∀ (s : State) (tid n h : Nat),
    let a := s.tile tid
    let v := a.slot n
    let ring := v.extv.toNat % 32
    let r := a.ring ring
    let c := handleChan h
    slotRuns s tid n v.opc = true → NMap.find? a.chans (v.extv.toNat / 32 % 16) = some (h, v.opc == 0x48) → handleHere s h = true →
    v.opened = false → v.inFlight = false → recordOut a h = false →
    let rest (t : State) : Prop := (∀ u, u ≠ tid → t.tile u = s.tile u) ∧ ((t.tile tid).slot n).pos = v.pos + 1
    (v.opc = 0x48 → v.pos < v.rav.toNat → r.filled ≠ r.taken → v.extv.getLsbD 9 = false →
      let rec_ := slotRecord s (slotWho tid v) r r.taken
      let hdr := rec_.2.1
      let bytes := natLe 4 hdr ++ rec_.2.2.1
      let e := chan s c
      4 + 4 * poisonWords (recBlocks hdr) ≤ r.sideLen →
      hdr / 2 ^ 24 % 256 < 0xF0 → hdr / 2 ^ 20 % 16 = 0 → rec_.2.2.1.length ≤ r.bytes → recSize hdr ≤ e.cap → e.closed = false →
      rec_.2.2.2 = 0 → recPoison hdr = false → e.spill = false → diff32 e.wptr e.rptr + recSize hdr ≤ e.cap →
      ∃ t, exec (.channelAccept tid n) s = .next t ∧ rest t ∧
        (∀ k, t.st.byte k = (onChipWrite rec_.1 c e e.wptr bytes).st.byte k) ∧
        (∀ i < bytes.length, s.st.poison = [] → some (t.st.byte (onChipKey c e (e.wptr + i))) = bytes[i]?) ∧
        (chan t c).wptr = (e.wptr + recSize hdr) % 2 ^ 32 ∧ (chan t c).recs = (e.recs + 1) % 2 ^ 32 ∧
        (chan t c).closed = recLast hdr ∧
        ((t.tile tid).ring ring).taken = (r.taken + 1) % 2 ^ 32 ∧ ((t.tile tid).ring ring).released = (r.released + 1) % 2 ^ 32) ∧
    (v.opc = 0x47 → v.pos < v.rav.toNat → (chan s c).spill = false → (chan s c).rptr ≠ (chan s c).wptr →
      diff32 r.claimed r.released < r.n →
      let e := chan s c
      let rec_ := (recordAt s c false e.rptr).2
      let p := poisonWords (recBlocks rec_.hdr)
      let w := slotWho tid v
      let at_ := ((r.claimed + 1) % 2 ^ 32 + 2 ^ 32 - 1) % 2 ^ 32
      rec_.payload.length ≤ r.bytes → 4 + 4 * p ≤ r.sideLen →
      ∃ t, exec (.channelTake tid n) s = .next t ∧ rest t ∧
        t.st = (slotWrite (slotWrite s w tid r.spG (r.slotOff at_) rec_.payload) w tid r.spG (r.sideOff at_)
          (natLe 4 rec_.hdr ++ natLe (4 * p) rec_.marks)).st ∧
        (chan t c).rptr = (e.rptr + recSize rec_.hdr) % 2 ^ 32 ∧
        ((t.tile tid).ring ring).claimed = (r.claimed + 1) % 2 ^ 32 ∧ ((t.tile tid).ring ring).filled = (r.filled + 1) % 2 ^ 32)

/-! ### Matrix commands, planes and the array -/

/-- R73, R267 to R280: a matrix command issues once its predecessors, and the last command of its own id, have retired and fewer than eight are in
flight. MMA and MMA.T multiply the operands of two ring slots into the accumulator and count an operand that is not finite, ZACC clears
the accumulator, LDACC loads or adds TSP words, and DRAIN and QNT take each row of the accumulator with its poison, to be written to TSP
when they retire, and clear it behind them if they say so. In CHECK mode, what lies out of range reads as zero and is not written.
Nothing is written to memory before the command retires. Within one segment the multiply adds the exact sum of products, scaled by the block scales
of the two rows, to an element and rounds once. That the accumulator changes, and a drain takes its snapshot, when the command issues, and memory
when it retires, is the model's reading (notes/assumptions/27.md, DEDUCED). -/
def Obligations.MatrixCommandsIssue : Prop :=
  (∀ (s : State) (tk : Tk) (x : MatExt) (s1 s2 : Reg),
    let tid := s.cur.1
    let a := s.tile tid
    let lim := 2 ^ tspLog s tid
    let noted (v : State) : Prop := { v with mgmt := s.mgmt, offences := s.offences } = s ∧ (a.check = false → v = s)
    MatFree a x →
    (Goes s tk [] none 0 → MatIssued (.zacc tk x) s s tk [] x { MCmd.base x.id.toNat 0x32 with clears := true } (fun b => b.acc = [] ∧ b.accPois = 0)) ∧
    (accHeld (a.eng s.cur.2) = false →
      (Goes s tk [] none 0 → ∀ (ringA ringB : Fin 32) (keepA keepB : Bool) (v w : State) (A B : MOperand),
        ringFault s tid ringA.val false true = none → ringFault s tid ringB.val false true = none →
        (a.ring ringA.val).filled ≠ readPos a ringA.val → (a.ring ringB.val).filled ≠ readPos a ringB.val →
        readOperand s tid ringA.val (readPos a ringA.val) = (v, some A) → readOperand v tid ringB.val (readPos a ringB.val) = (w, some B) →
        A.kc = B.kc →
        let u := if A.odd ∨ B.odd then count w 19 else w
        let issues (i : Instr) (code ks : Nat) : Prop :=
          MatIssued i s u tk [] x
            { MCmd.base x.id.toNat code with
              ringA := if keepA then none else some ringA.val
              ringB := if keepB || (!keepA && ringB == ringA) then none else some ringB.val
              reads := [ringA.val, ringB.val], ksteps := (A.kc + ks - 1) / ks }
            (fun b => (∀ i < 1024, NMap.findD b.acc i 0 = (multiply A B ks a.accList)[i]?.getD 0) ∧
              (B.pois.any id = true → b.accPois = BitVec.allOnes 32) ∧
              (B.pois.any id = false → ∀ i < 32, b.accPois.getLsbD i = (a.accPois.getLsbD i || A.pois[i]?.getD false)))
        noted w ∧
        issues (.mma tk ringA ringB keepA keepB x) 0x30 (768 / max (max (opWidth A.fmt) (opWidth B.fmt)) 4) ∧
        ((A.fmt = 0x10 ∨ A.fmt = 0x11) → B.fmt = 0x14 → issues (.mmaT tk ringA ringB keepA keepB x) 0x31 192)) ∧
      (Goes s tk [s1, s2] none 0 → (val s s1).toNat % 4 = 0 → (val s s2).toNat % 4 = 0 → ∀ add : Bool,
        let at_ (i j : Nat) : Nat := (val s s1 + val s s2 * BitVec.ofNat 64 i + BitVec.ofNat 64 (4 * j)).toNat
        let key (i j : Nat) : Nat := 2 ^ 42 + tid * 2 ^ 18 + at_ i j % lim
        let out (i j : Nat) : Bool := a.check && lim ≤ at_ i j
        let word (i j : Nat) : Nat := if out i j then 0 else heldAt s 0 (key i j) 4
        let bad (i : Nat) : Bool := (range 0 32).any (fun j => !out i j && s.st.poisoned (key i j) 4)
        ∃ u, noted u ∧ MatIssued (.ldacc tk s1 s2 add x) s u tk [s1, s2] x { MCmd.base x.id.toNat 0x33 with clears := !add } (fun b => ∀ i < 32,
          b.accPois.getLsbD i = ((add && a.accPois.getLsbD i) || bad i) ∧ ∀ j < 32, NMap.findD b.acc (32 * i + j) 0 =
            if add then fadd32 (NMap.findD a.acc (32 * i + j) 0) (word i j) else word i j)) ∧
      (Goes s tk [s1] none 0 → ∀ (rm : RMode) (zafter qnt : Bool),
        let rec_ := (recBytes s (matWho s tid) (alignDown (val s s1) 32) 32).2
        drainBad qnt rec_ = false →
        let f := (fmtOf (drFmt rec_)).getD .fp32
        let g := geomLen (drGeom rec_)
        let row (i : Nat) : DrainRow := drainRow qnt f g rm (drScale rec_) (a.gen i) ((a.accList.drop (32 * i)).take 32)
        let mark (i : Nat) : Bool := a.accPois.getLsbD i
        let put (o : Nat) (bs : List (Byte × Bool)) : List (Nat × Byte × Bool) :=
          (((range o bs.length).zip bs).filter (fun p => !a.check || p.1 < lim)).map (fun p => (2 ^ 42 + tid * 2 ^ 18 + p.1 % lim, p.2))
        let all := (range 0 32).flatMap (fun i => put (drOff rec_ + i * drPitch rec_) (rowBytes f.width (mark i) (row i)) ++
          if qnt then put (drSide rec_ + i * (32 / g)) (scaleRow g (mark i) (row i)) else [])
        let odd := (range 0 32).any (fun i => (row i).odd.any id)
        ∃ u c, noted u ∧ c.ringA = none ∧ c.ringB = none ∧ c.reads = [] ∧ c.id = x.id.toNat ∧ c.opc = (if qnt then 0x35 else 0x34) ∧ c.clears = zafter ∧
          c.writes.flatMap (fun w => (range w.1 w.2.length).zip w.2) = all.map (fun p => (p.1, p.2.1)) ∧
          c.poisons = (all.filter (fun p => p.2.2)).map (fun p => (p.1, 1)) ∧
          MatIssued (if qnt then .qnt tk s1 rm zafter x else .drain tk s1 rm zafter x) s
            (if odd then countRec u (ErrRec.ofTile u 19 1 tid 0 [if qnt then 1 else 4]) else u) tk [s1] x c
            (fun b => (zafter = true → b.acc = [] ∧ b.accPois = 0) ∧ (zafter = false → b.acc = a.acc ∧ b.accPois = a.accPois) ∧
              ∀ i < 32, b.gen i = if rm = .sr then (row i).gen % 2 ^ 16 else a.gen i)))) ∧
  ∀ (A B : MOperand) (ks : Nat) (acc : List Nat) (i j : Nat), i < 32 → j < 32 →
    let a := A.rows[i]?.getD []
    let b := B.rows[j]?.getD []
    a.length = A.kc → 0 < A.kc → A.kc ≤ segLenOf A B ks → b.length = A.kc →
    let sum := ((dot a b).scaled (scaleAt A.g (A.scales[i]?.getD []) 0)).scaled (scaleAt B.g (B.scales[j]?.getD []) 0)
    (multiply A B ks acc)[32 * i + j]? = some (((Fmt.fp32.value (acc[32 * i + j]?.getD 0)).add sum).round .fp32 .rne 0)

/-- R267, R269, R270, R276, R280: a command that may retire leaves the queue: its id reads as retired, each ring that it does not keep is popped, its
writes are made and their poison is set; nothing else changes. MWAIT retires once its id, or every command, has retired, and else waits.
That a drain's writes are made in the step of its retirement is the model's reading (notes/assumptions/27.md, DEDUCED). -/
def Obligations.MatrixCommandsRetire : Prop :=
  (∀ (s : State) (tid id k : Nat) (c : MCmd) (w : Wait) (sig : Option Eng),
    let a := s.tile tid
    a.cmds.find? (fun c => c.id == id) = some c → commandMayRetire a.cmds id = true →
    flightAt a .m (Wait.isMatrix id) = some (k, w) → InFlight a .m k w sig none →
    let pops (r : Nat) : Nat := (if c.ringA = some r then 1 else 0) + (if c.ringB = some r then 1 else 0)
    let v := c.writes.foldl (fun v w => writeRun v 0 w.1 w.2) (popRing (popRing s tid c.ringA) tid c.ringB)
    let u := { v with st := c.poisons.foldl (fun (st : Store) (p : Nat × Nat) => st.poisonRun p.1 p.2) v.st }.updTile tid (fun b =>
      { b with cmds := a.cmds.filter (fun d => d.id != id), retmap := a.retmap ||| BitVec.twoPow 256 id,
               arr := { a.arr with replays := a.arr.replays.filter (fun p => p.1 % 2 = 1 || p.1 / 2 ^ 32 != id) } })
    ∃ t, exec (.matrixCommandRetire tid id) s = .next t ∧ Completed u t tid .m k sig none 0 ∧
      (∀ r, pops r = 0 → (t.tile tid).ring r = a.ring r) ∧
      (∀ r, 0 < pops r → (t.tile tid).ring r = { a.ring r with
        taken := ((a.ring r).taken + pops r) % 2 ^ 32, released := ((a.ring r).released + pops r) % 2 ^ 32 }) ∧
      (∀ r, pops r ≤ diff32 (a.ring r).filled (a.ring r).taken → (a.ring r).inOrder → ((t.tile tid).ring r).inOrder) ∧
      t.st.mem = (c.writes.foldl (fun v w => writeRun v 0 w.1 w.2) s).st.mem) ∧
  (∀ (s : State) (tk : Tk) (id : BitVec 8), Goes s tk [] none 0 →
    let a := s.tile s.cur.1
    ((id = 0 ∨ a.retmap.getLsbD id.toNat = true) → Does (.mwait tk id) s tk [] none 0 (fun b => b)) ∧
    (id ≠ 0 → a.retmap.getLsbD id.toNat = false → ∃ t, exec (.mwait tk id) s = .next t ∧ SameBut s.cur.1 s t ∧
      TileIssued a (t.tile s.cur.1) s.cur.2 tk [] (.mwait (some id.toNat))) ∧
    (matQuiet a = true → Does (.mwaitAll tk) s tk [] none 0 (fun b => b)) ∧
    (matQuiet a = false → ∃ t, exec (.mwaitAll tk) s = .next t ∧ SameBut s.cur.1 s t ∧
      TileIssued a (t.tile s.cur.1) s.cur.2 tk [] (.mwait none)))

/-- R281 to R283: LDRP and LDOP issue and read their entry when they complete; SWOP sets the pending switch and gives its cycle, the next one or
the next multiple of 2^ALIGN; PWR replaces one descriptor and the version of a route slot that is resident, and retires two cycles later; that its entry changes in the step of its issue is the model's
reading (notes/assumptions/28.md, DEDUCED). All wait while a switch is pending. -/
def Obligations.PlaneInstructions : Prop :=
  ∀ (s : State) (tk : Tk) (d s1 s2 : Reg) (sp : PlaneSp),
    let tid := s.cur.1
    let a := s.tile tid
    let addr := val s s1 + val s s2 - BitVec.ofNat 64 ((val s s1 + val s s2).toNat % 32)
    (a.arr.swap = none →
      (Goes s tk [s1, s2] none 0 → accHeld (a.eng s.cur.2) = false → noSpace s tid (planeSpace sp) = false →
        (∃ t, exec (.ldrp tk sp s1 s2) s = .next t ∧ SameBut tid s t ∧
          TileIssued a (t.tile tid) s.cur.2 tk [s1, s2] (.plane false sp addr.toNat a.sys a.check)) ∧
        (∃ t, exec (.ldop tk sp s1 s2) s = .next t ∧ SameBut tid s t ∧
          TileIssued a (t.tile tid) s.cur.2 tk [s1, s2] (.plane true sp addr.toNat a.sys a.check))) ∧
      (planesInFlight a = [] →
        (Goes s tk [] (some d) 0 → ∀ (oslot : BitVec 2) (now : Bool) (align : BitVec 6),
          let c := domNow s tid
          let n := if now then c + 1 else (c / 2 ^ align.toNat + 1) * 2 ^ align.toNat
          ∃ t, exec (.swop tk d oslot now align) s = .next t ∧
            Retired (s.updTile tid (fun b => { b with arr := { b.arr with swap := some (oslot.toNat, n) } })) t tk [] (some d) (BitVec.ofNat 64 n)) ∧
        (Goes s tk [s1, s2] none 0 → ∀ r,
          let sel := (val s s1).toNat
          let desc := (val s s2).toNat % 2 ^ 32
          let slot := sel / 2 ^ 5 % 2
          let r' : RoutePlane := if sel.testBit 4 then { r with out := r.out.set (sel % 16) desc, ver := sel / 2 ^ 8 % 2 ^ 8 }
            else { r with inp := r.inp.set (sel % 16) desc, ver := sel / 2 ^ 8 % 2 ^ 8 }
          stampedRoute a.arr slot = false → slot ∉ a.arr.lost → NMap.find? a.arr.routes slot = some r →
          (if sel.testBit 4 then outDescGood desc else inDescGood desc) = true → routeFits a slot r' = true →
          ∃ t b, exec (.pwr tk s1 s2) s = .next t ∧ SameBut tid s t ∧ TileIssued a b s.cur.2 tk [s1, s2] (.pwr slot (a.cyc + 2)) ∧
            t.tile tid = { b with arr := { b.arr with routes := NMap.put b.arr.routes slot r' } }))) ∧
    (a.arr.swap ≠ none → Waits (.ldrp tk sp s1 s2) s ∧ Waits (.ldop tk sp s1 s2) s ∧ Waits (.pwr tk s1 s2) s ∧
      ∀ oslot now align, Waits (.swop tk d oslot now align) s)

/-- R251, R281, R408: the oldest plane load reads its entry and places the plane that it checked; a pending switch takes effect in its cycle; a plane that
was struck is fetched again from its source while that still holds its version. -/
def Obligations.PlanesChange : Prop :=
  ∀ (s : State) (tid : Nat),
    let a := s.tile tid
    (∀ (k n : Nat) (op sys check : Bool) (sp : PlaneSp) (sig : Option Eng) (s' : State) (bs : List Byte) (b : Tile),
      flightAt a .m Wait.isLoad = some (k, .plane op sp n sys check) → InFlight a .m k (.plane op sp n sys check) sig none →
      a.arr.swap = none →
      readEntry s (planeWho tid sys check) (planeSpace sp) (BitVec.ofNat 64 n) (if op then 546 else 148) = (s', .ok bs) → s'.starved = false →
      (if op then stampedOpp a.arr (rnum bs 8 1) = false else stampedRoute a.arr (rnum bs 8 1) = false) →
      placePlane a op bs (planeSpNum sp sys) n = some b →
      ∃ t, exec (.planeLoadComplete tid) s = .next t ∧
        Completed (s'.updTile tid (fun c => { c.dropGot 1 with arr := b.arr })) t tid .m k sig none 0) ∧
    (∀ (slot n : Nat), a.started = true → a.halted = false → (a.sys = true → a.ctx = none) → a.arr.swap = some (slot, n) → n ≤ domNow s tid →
      (∀ p, NMap.find? a.arr.opps slot = some p → (NMap.find? a.arr.routes p.rslot).map RoutePlane.ver = some p.rver) →
      exec (.switchTakesEffect tid) s =
        .next (s.updTile tid (fun b => { b with arr := { b.arr with cur := slot, swap := none, mismatch := false } }))) ∧
    (∀ (slot n : Nat), a.arr.swap = some (slot, n) → domNow s tid < n → Waits (.switchTakesEffect tid) s) ∧
    (∀ (slot : Nat) (r : RoutePlane) (s' : State) (bs : List Byte) (b : Tile), slot < 2 → slot ∈ a.arr.lost → NMap.find? a.arr.routes slot = some r →
      let u := s'.updTile tid (fun c => c.dropGot 1)
      readEntry s (planeWho tid (decide (8 ≤ r.sp)) a.check) (spOf (r.sp % 8)) (BitVec.ofNat 64 r.addr) 148 = (s', .ok bs) → s'.starved = false →
      rnum bs 9 1 = r.ver → rnum bs 8 1 = slot → placePlane (u.tile tid) false bs r.sp r.addr = some b →
      exec (.planeRefetch tid slot) s = .next (u.updTile tid (fun c => { c with arr := b.arr })))

/-- R242, R252, R262 to R264: a port prefetches up to two vectors of the slot at its ring's head; a group that may fire starts a firing in this domain
cycle and may fire again II cycles later; a commit token publishes every output ring up to what is claimed and releases every input ring up to
what is taken, which keeps the counters of rings in order (R83); a marker is taken from a port and counted; markers are emitted once the count is reached. That a
prefetch takes two vectors, the 64 bytes that R242 allows a cycle, is the model's reading (notes/assumptions/28.md, DEDUCED).
R254, R255, R256, R258, R259, R261: what operators compute of their sources, lane by lane: integers of 32 bits that wrap or saturate, FP32 sums and
products rounded once, choices, codebook and ternary decodes; a lane is valid as each says, and an invalid one is zero and not poisoned. -/
def Obligations.ArrayMoves : Prop :=
  ∀ (s : State) (tid n : Nat),
    let a := s.tile tid
    let now := domNow s tid
    (∀ (p : OpPlane) (rp : RoutePlane) (ring : Nat), a.started = true → a.halted = false → a.arr.current = some (p, rp) → inRing a n = some ring →
      let d := rp.inp[n]?.getD 0
      let r := a.ring ring
      let q := a.inp n
      let k := min (min 2 (8 - q.buf.length)) (pdVps d - q.fetched)
      pdEn d = true → r.filled ≠ r.taken → markerAt s tid d r = false → k ≠ 0 →
      exec (.portPrefetch tid n) s = .next (s.setTile tid (a.setInp n
        { q with buf := q.buf ++ (range q.fetched k).map (slotVec s tid d r r.taken), fetched := q.fetched + k }))) ∧
    (∀ (p : OpPlane) (rp : RoutePlane) (pops : List Nat), n < 8 →
      fireable (s.updTile tid (fun b => cleanFirings b now)) tid now n = some (p, rp, pops) →
      ∃ t f, exec (.groupFire tid n) s = .next t ∧ (t.tile tid).arr.firings = a.arr.firings.filter (alive a.arr now) ++ [f] ∧
        f.grp = n ∧ f.start = now ∧ f.ovr = p.ver ∧ f.rver = p.rver ∧ NMap.find? (t.tile tid).arr.ready n = some (now + gdIi (p.groups[n]?.getD 0)) ∧
        t.st = s.st ∧ ∀ u, u ≠ tid → t.tile u = s.tile u) ∧
    (a.started = true → a.halted = false → a.arr.commit = true → arrayQuiet a.arr now = true →
      ∃ t, exec (.commitToken tid) s = .next t ∧
        let b := t.tile tid
        b.arr.firings = [] ∧ b.arr.regs = [] ∧ b.arr.lbs = [] ∧ b.arr.commit = false ∧
        (∀ m < 16, ∀ ring, outRing a m = some ring → (b.ring ring).filled = (b.ring ring).claimed ∧ (b.ring ring).claimed = (a.ring ring).claimed) ∧
        (∀ m < 16, ∀ ring, inRing a m = some ring → (b.ring ring).released = (b.ring ring).taken) ∧
        ((∀ r, (a.ring r).inOrder) → (∀ m, (a.inp m).latched = 0) → ∀ r, (b.ring r).inOrder)) ∧
    (∀ (p : OpPlane) (rp : RoutePlane) (ring : Nat), a.arr.current = some (p, rp) → inRing a n = some ring → markerReady s tid now n = true →
      ∃ t, exec (.markerTake tid n) s = .next t ∧
        let b := t.tile tid
        b.arr.commit = true ∧ b.arr.eotc = (if p.eotn = 0 then 0 else a.arr.eotc + 1) ∧
        b.arr.eotFull = (p.eotn ≠ 0 && a.arr.eotc + 1 ≥ p.eotn) ∧ (b.ring ring).taken = ((a.ring ring).taken + 1) % 2 ^ 32) ∧
    (∀ (p : OpPlane) (rp : RoutePlane), a.arr.current = some (p, rp) → a.started = true → a.halted = false → a.preempt = none → (a.sys = true → a.ctx = none) →
      a.arr.eotFull = true → a.arr.dropped = false → canEmit a rp = true →
      ∃ t, exec (.markerEmit tid) s = .next t ∧
        let b := t.tile tid
        b.arr.eotc = 0 ∧ b.arr.eotFull = false ∧ b.arr.commit = true) ∧
    (∀ (w g i : Nat) (va vb vc side : Vec), i < 8 → (∀ j, va.lane j < 2 ^ 32 ∧ vb.lane j < 2 ^ 32 ∧ vc.lane j < 2 ^ 32) →
      let out := evalOp w va vb vc side g
      let op := w % 2 ^ 7
      let fn := w / 2 ^ 34 % 2 ^ 4
      let imm := w / 2 ^ 40 % 2 ^ 24
      let rm := rmOf (w / 2 ^ 32 % 4)
      let x := BitVec.ofNat 32 (va.lane i)
      let y := BitVec.ofNat 32 (vb.lane i)
      let sat (z : Int) : BitVec 32 := BitVec.ofInt 32 (max (-2 ^ 31) (min (2 ^ 31 - 1) z))
      let lane (ok bad : Bool) (v : Nat) : Prop :=
        out.res.valid i = ok ∧ out.res.lane i = (if ok then v % 2 ^ 32 else 0) ∧ out.res.bad i = (ok && bad)
      let one (v : BitVec 32) : Prop := lane (va.valid i) (va.bad i) v.toNat ∧ out.gen = g
      let two (v : BitVec 32) : Prop := lane (va.valid i && vb.valid i) (va.bad i || vb.bad i) v.toNat ∧ out.gen = g
      let f (n : Nat) : FVal := Fmt.fp32.value n
      let rounded (v : FVal) : Prop := rm ≠ .sr → lane (va.valid i && vb.valid i) (va.bad i || vb.bad i) (v.round .fp32 rm 0) ∧ out.gen = g
      (op = 0x01 → one x) ∧ (op = 0x02 → two (x + y)) ∧ (op = 0x03 → two (x - y)) ∧ (op = 0x04 → two (x * y)) ∧
      (op = 0x05 → two (BitVec.ofInt 32 (x.toInt * y.toInt / 2 ^ 32))) ∧
      (op = 0x06 → two (if x.toInt < y.toInt then x else y)) ∧ (op = 0x07 → two (if y.toInt < x.toInt then x else y)) ∧
      (op = 0x08 → two (if x.toNat < y.toNat then x else y)) ∧ (op = 0x09 → two (if y.toNat < x.toNat then x else y)) ∧
      (op = 0x0A → two (sat (x.toInt + y.toInt))) ∧ (op = 0x0B → two (sat (x.toInt - y.toInt))) ∧
      (op = 0x0C → two (x &&& y)) ∧ (op = 0x0D → two (x ||| y)) ∧ (op = 0x0E → two (x ^^^ y)) ∧ (op = 0x0F → two (x &&& ~~~y)) ∧
      (op = 0x10 → two (x <<< (y.toNat % 32))) ∧ (op = 0x11 → two (x >>> (y.toNat % 32))) ∧ (op = 0x12 → two (x.sshiftRight (y.toNat % 32))) ∧
      (op = 0x13 → one (BitVec.ofNat 32 (x.toNat / 2 ^ (imm % 32) % 2 ^ (imm / 2 ^ 5 % 32 + 1)))) ∧
      (op = 0x14 → one (BitVec.ofNat 32 ((List.range 32).filter (fun j => x.getLsbD j)).length)) ∧
      (op = 0x16 → ∀ c : Cond, fn = [Cond.eq, .ne, .lt, .ge, .ltu, .geu, .gt, .le].idxOf c →
        (condMeans c (x.signExtend 64) (y.signExtend 64) → two 1) ∧ (¬ condMeans c (x.signExtend 64) (y.signExtend 64) → two 0)) ∧
      (op = 0x20 → rounded ((f (va.lane i)).add (f (vb.lane i)))) ∧ (op = 0x21 → rounded ((f (va.lane i)).add (f (vb.lane i)).neg)) ∧
      (op = 0x22 → rounded ((f (va.lane i)).mul (f (vb.lane i)))) ∧
      (op = 0x26 → one (x &&& 0x7FFFFFFF)) ∧ (op = 0x27 → one (x ^^^ 0x80000000)) ∧
      (op = 0x40 → let v := if vc.lane i ≠ 0 then va else vb
        lane (vc.valid i && v.valid i) (vc.bad i || v.bad i) (v.lane i)) ∧
      (op = 0x41 → lane (va.valid i && vb.lane i != 0) (va.bad i || vb.bad i) (va.lane i)) ∧
      (op = 0x42 → lane true (va.bad i) (if va.valid i then 1 else 0)) ∧
      (op = 0x43 → lane true (va.pois != 0) (if (List.range 8).any (fun j => va.valid j && va.lane j != 0) then 1 else 0)) ∧
      (op = 0x44 → lane true (va.pois != 0) (if (List.range 8).all (fun j => !va.valid j || va.lane j != 0) then 1 else 0)) ∧
      (op = 0x49 → let v := if va.lane i = 1 then vb else vc
        lane (va.valid i) (va.bad i || v.bad i) (v.lane i)) ∧
      (op = 0x58 → let j := va.lane i % 8
        lane (va.valid i && vb.valid (j / 2)) (va.bad i || vb.bad (j / 2)) (vb.lane (j / 2) / 2 ^ (16 * (j % 2)) % 2 ^ 16)) ∧
      (op = 0x5D → one (if va.lane i % 4 = 1 then 1 else if va.lane i % 4 = 3 then BitVec.allOnes 32 else 0)))

/-! ### Synchronisation, walkers, collectives, saving -/

/-- R292, R293: ARRIVE takes the tile's local phase on and sets its bit at the controller; the phase is complete once every participant has arrived or
ended. An arrival that is two phases ahead is held. WAIT retires once the phase in which the tile arrived last is complete. -/
def Obligations.Barriers : Prop :=
  (∀ (s u : State) (tk : Tk) (src : Fin 32) (bar : Fin 8),
    let tid := s.cur.1
    let a := s.tile tid
    let named := (val s (.r src)).toNat % 2 ^ 16
    let mask := if named = 0 then 0xFFFF else named
    let c := (s.group (tid / 16)).bar bar.val
    let h := a.phase bar.val
    Goes s tk [.r src] none 0 → accPending (a.eng s.cur.2) = false →
    (deliverArrive s tid bar.val mask = some u →
      ∃ t, exec (.arrive tk src bar) s = .next t ∧ Retired u t tk [.r src] none 0 ∧ (t.tile tid).phase bar.val = (h + 1) % 256 ∧
        (h = c.p →
          let who := if c.opened then c.mask else mask
          let arr := Nat.lor c.arr (2 ^ (tid % 16))
          let all := Nat.land who (Nat.lor arr (endedMask s (tid / 16))) = who
          (¬ all → (t.group (tid / 16)).bar bar.val = { c with opened := true, mask := who, arr := arr }) ∧
          (all → c.early = 0 → (t.group (tid / 16)).bar bar.val =
            { c with p := (c.p + 1) % 256, opened := false, mask := c.nmask, arr := 0 }))) ∧
    (h ≠ c.p → h ≠ (c.p + 1) % 256 → ∃ t, exec (.arrive tk src bar) s = .next t ∧ SameBut tid s t ∧
      TileIssued a (t.tile tid) s.cur.2 tk [.r src] (.arrive bar.val mask h))) ∧
  (∀ (s : State) (tk : Tk) (bar : Fin 8), Goes s tk [] none 0 →
    let over_ := (((s.group (s.cur.1 / 16)).bar bar.val).p + 256 - (s.tile s.cur.1).phase bar.val % 256) % 256 ≤ 1
    (over_ → Does (.wait tk bar) s tk [] none 0 (fun b => b)) ∧
    (¬ over_ → ∃ t, exec (.wait tk bar) s = .next t ∧ SameBut s.cur.1 s t ∧
      TileIssued (s.tile s.cur.1) (t.tile s.cur.1) s.cur.2 tk [] (.barrier bar.val)))

/-- R35, R294, R295: TSEND adds INC to the mailbox word of the tile that it names, or waits while that has not started, or is dropped with
a record if no tile takes it; to another package it sends its token, once its port has room for the message, and waits for the answer. A
poisoned word reads as zero and is logged (R374); a word out of range is left alone in CHECK mode (R424), with an offence (R425) that names
space T, which is the model's reading (notes/assumptions/30.md, DEDUCED). TRECV subtracts its count
from a word that holds at least so much and gives what is left, and else waits, until TRECV_SATISFIED does the same. -/
def Obligations.Mailboxes : Prop :=
  (∀ (s : State) (tk : Tk) (tgt far : Reg) (inc : BitVec 3) (borne : Bool) (slot : Fin 16) (sc : Scope),
    let tid := s.cur.1
    let other := if far = .ro .zero then none else some (val s far)
    let aim := tokenAim s tid (val s tgt) other
    Goes s tk [tgt, far] none 0 → accPending ((s.tile tid).eng s.cur.2) = false →
    (borne = true → ((s.tile tid).slot slot.val).act = false) → tokenBad s tid (val s tgt) other sc = false →
    (∀ u, aim.dev = devNo s → tokenTile s aim.rid aim.col aim.row = some u →
      let n := (val s tgt).toNat / 2 ^ 10 % 2 ^ 18
      let k := 2 ^ 42 + u * 2 ^ 18 + 4 * n % 2 ^ tspLog s u
      let out := (s.tile tid).check = true ∧ 2 ^ tspLog s u ≤ 4 * n
      let ends (v : State) : Prop := ∃ t, exec (.tsend tk tgt far inc borne slot sc) s = .next t ∧ Retired v t tk [tgt, far] none 0
      (out → (s.tile u).started = true → ends (noteOffence s (whoOf s tid s.cur.2) 0 true (BitVec.ofNat 64 (4 * n)))) ∧
      (¬ out → (s.tile u).started = true →
        let v := noteSpoiled s u k 4
        ends (writeRun v 0 k (natLe 4 (heldAt v 0 k 4 + inc.toNat + 1)))) ∧
      ((s.tile u).started = false → ∃ t, exec (.tsend tk tgt far inc borne slot sc) s = .next t ∧ SameBut tid s t ∧
        TileIssued (s.tile tid) (t.tile tid) s.cur.2 tk [tgt, far] (.token aim.rid aim.col aim.row n (inc.toNat + 1)))) ∧
    (∀ (u : State) (no : Nat), aim.dev ≠ devNo s →
      let msg := { UalMsg.base s 0 with
        ttgt := (val s tgt).toNat % 2 ^ 28, trgn := aim.rid, tinc := inc.toNat, tsco := scopeNum sc }
      windowFull s 3 aim.dev (aim.col + 32 * aim.row) msg = false →
      sendAs s 3 aim.dev (aim.col + 32 * aim.row) msg
        { Remote.base tid s.cur.2 0 0 with isAtomic := true, op := .swap } = some (u, no) →
      ∃ t, exec (.tsend tk tgt far inc borne slot sc) s = .next t ∧ SameBut tid u t ∧
        TileIssued (s.tile tid) (t.tile tid) s.cur.2 tk [tgt, far] (.remote no 0 true false (.r 0))) ∧
    (aim.dev = devNo s → tokenTile s aim.rid aim.col aim.row = none →
      ∃ t, exec (.tsend tk tgt far inc borne slot sc) s = .next t ∧
        Retired (countRec s { ErrRec.base s 30 1 with src := agentOf s tid }) t tk [tgt, far] none 0)) ∧
  (∀ (s : State) (tk : Tk) (d s1 : Reg) (c : BitVec 8) (sc : Scope),
    let tid := s.cur.1
    let off := (val s s1).toNat % 2 ^ 18
    let k := 2 ^ 42 + tid * 2 ^ 18 + off % 2 ^ tspLog s tid
    let out := (s.tile tid).check = true ∧ 2 ^ tspLog s tid ≤ off
    let v := noteSpoiled s tid k 4
    let held := heldAt v 0 k 4
    Goes s tk [s1] (some d) 0 → accHeld ((s.tile tid).eng s.cur.2) = false → (val s s1).toNat / 2 ^ 29 = 0 → off % 4 = 0 →
    (out → ∃ t, exec (.trecv tk d s1 c sc) s = .next t ∧
      Retired (noteOffence s (whoOf s tid s.cur.2) 0 true (BitVec.ofNat 64 off)) t tk [s1] (some d) 0) ∧
    (¬ out → c.toNat ≤ held → ∃ t, exec (.trecv tk d s1 c sc) s = .next t ∧
      Retired (writeRun v 0 k (natLe 4 (held - c.toNat))) t tk [s1] (some d) (BitVec.ofNat 64 (held - c.toNat))) ∧
    (¬ out → held < c.toNat → ∃ t snd, exec (.trecv tk d s1 c sc) s = .next t ∧ SameBut tid v t ∧
      TileIssued (s.tile tid) (t.tile tid) s.cur.2 tk [s1] (.trecv off c.toNat snd d))) ∧
  (∀ (s : State) (tid i off c : Nat) (sig : Option Eng) (from_ : Option Nat) (d : Reg),
    let k := 2 ^ 42 + tid * 2 ^ 18 + off % 2 ^ tspLog s tid
    flightAt (s.tile tid) .y Wait.isTrecv = some (i, .trecv off c from_ d) → InFlight (s.tile tid) .y i (.trecv off c from_ d) sig (some d) →
    (c ≤ heldAt s 0 k 4 → ∃ t, exec (.trecvSatisfied tid) s = .next t ∧
      Completed (writeRun s 0 k (natLe 4 (heldAt s 0 k 4 - c))) t tid .y i sig (some d) (BitVec.ofNat 64 (heldAt s 0 k 4 - c))) ∧
    (heldAt s 0 k 4 < c → Waits (.trecvSatisfied tid) s))

/-- R297: CADD adds to a completion counter and gives its old value; CWAIT retires with the first value that is at least its target, at once or
at CWAIT_SATISFIED. -/
def Obligations.CompletionCounters : Prop :=
  ∀ (s s' : State) (sp : CntSp) (k ident : Nat),
    (∀ (tk : Tk) (d s1 s2 : Reg) (sc : Scope),
      let tid := s.cur.1
      let a := val s s1 - BitVec.ofNat 64 ((val s s1).toNat % 8)
      let u := noteSpoiled s' tid k 8
      Goes s tk [s1, s2] (some d) 0 → accHeld ((s.tile tid).eng s.cur.2) = false →
      (accPending ((s.tile tid).eng s.cur.2) = false → Finds s (cntSpace sp) a .atomic s' k ident →
        ∃ t, exec (.cadd tk d s1 s2 sc sp) s = .next t ∧
          Retired (writeRun u ident k (natLe 8 ((heldAt u ident k 8 + (val s s2).toNat) % 2 ^ 64))) t tk [s1, s2] (some d)
            (BitVec.ofNat 64 (heldAt u ident k 8))) ∧
      (Finds s (cntSpace sp) a .read s' k ident →
        ((val s s2).toNat ≤ heldAt s' ident k 8 → ∃ t, exec (.cwait tk d s1 s2 sc sp) s = .next t ∧
          Retired u t tk [s1, s2] (some d) (BitVec.ofNat 64 (heldAt s' ident k 8))) ∧
        (heldAt s' ident k 8 < (val s s2).toNat → ∃ t, exec (.cwait tk d s1 s2 sc sp) s = .next t ∧ SameBut tid u t ∧
          TileIssued (u.tile tid) (t.tile tid) s.cur.2 tk [s1, s2] (.cwait sp a.toNat (val s s2) d)))) ∧
    (∀ (tid i n : Nat) (target : Word) (d : Reg) (sig : Option Eng),
      flightAt (s.tile tid) .y Wait.isCwait = some (i, .cwait sp n target d) → InFlight (s.tile tid) .y i (.cwait sp n target d) sig (some d) →
      locate s (whoOf s tid .y) (cntSpace sp) (BitVec.ofNat 64 n) .read = (s', .at_ (.mem k ident)) → target.toNat ≤ heldAt s' ident k 8 →
      ∃ t, exec (.cwaitSatisfied tid) s = .next t ∧
        Completed (noteSpoiled s' tid k 8) t tid .y i sig (some d) (BitVec.ofNat 64 (heldAt s' ident k 8)))

/-- R38, R298, R301: NEXT and SHUNT ask the walker block and wait, with the registers of the reply reserved; on a tile without a walker they answer at
once that nothing is left. BEAT restarts the cadence count of a region with PERSIST = 1. -/
def Obligations.WalkerRequests : Prop :=
  ∀ (s : State) (tk : Tk), Goes s tk [] none 0 →
    let tid := s.cur.1
    let a := s.tile tid
    let free (n : Nat) : Prop := (a.x n).full = false ∧ (a.x n).res = false
    let full (t : State) (n : Nat) (v : Word) : Prop := (t.tile tid).x n = { val := v, full := true, res := false }
    let asked (i : Instr) (w : Wait) (shunt : Bool) (held : List Nat) : Prop := ∀ rid r, a.rgn = some rid → s.region? rid = some r →
      ∃ t e, exec i s = .next t ∧ TileIssued a e s.cur.2 tk [] w ∧ (t.tile tid).eng s.cur.2 = e.eng s.cur.2 ∧
        (∀ n, ((t.tile tid).x n).val = (a.x n).val ∧ ((t.tile tid).x n).full = (a.x n).full ∧
          ((t.tile tid).x n).res = (decide (n ∈ held) || (a.x n).res)) ∧
        t.region? rid = some { r with reqs := r.reqs ++ [(r.dom, tixOf s tid, shunt)] }
    (free 12 → free 13 → free 14 → free 15 →
      (a.walker = none → ∃ t, exec (.next tk) s = .next t ∧ full t 12 (BitVec.allOnes 64) ∧ full t 13 0 ∧ full t 14 0 ∧ full t 15 0) ∧
      (a.walker ≠ none → asked (.next tk) .next false [12, 13, 14, 15])) ∧
    (free 15 →
      (a.walker = none → ∃ t, exec (.shunt tk) s = .next t ∧ full t 15 0) ∧
      (a.walker ≠ none → asked (.shunt tk) .shunt true [15])) ∧
    (∃ t, exec (.beat tk) s = .next t ∧
      Retired (match a.rgn with | some rid => s.updRegion rid (fun r => if r.lrec.persist then { r with wd := 0 } else r) | none => s) t tk [] none 0)

/-- R38 to R41: the walker block serves the request that is due: the earliest, the NEXTs of a cycle before its SHUNTs, the lowest tile index
first, and no other one. NEXT gets the walker's next chunk, one that is granted again first, or that none is left; SHUNT moves the upper half of
the largest span, that of the lowest walker among equals, to the walker that asks, if that has nothing left. The tile's current chunk has retired. -/
def Obligations.WalkerServices : Prop :=
  ∀ (s : State) (rgn tix i : Nat) (r : Region) (sig : Option Eng),
    let tid := tileOfTix s r tix
    let a := s.tile tid
    let full (t : State) (n : Nat) (v : Word) : Prop := (t.tile tid).x n = { val := v, full := true, res := false }
    let pending (t : State) (shunt : Bool) : Prop := ∀ v, t.region? rgn = some v → ∀ q ∈ v.reqs, ¬ (q.2.1 = tix ∧ q.2.2 = shunt)
    let due (shunt : Bool) : Prop := r.frozen = false ∧ ∃ d, r.reqs.find? (fun q => q.2.1 == tix && q.2.2 == shunt) = some (d, tix, shunt) ∧
      ∀ q ∈ r.reqs, d < q.1 ∨ (d = q.1 ∧ ((shunt = false ∧ q.2.2 = true) ∨ (q.2.2 = shunt ∧ tix ≤ q.2.1)))
    let size (w : Nat) : Nat := (r.span w).2 - (r.span w).1
    s.region? rgn = some r →
    (¬ due false → Waits (.nextService rgn tix) s) ∧ (¬ due true → Waits (.shuntService rgn tix) s) ∧
    (due false → flightAt a .y (fun v => v == .next) = some (i, .next) → InFlight a .y i .next sig none →
      (∀ w lo hi, a.walker = some w → r.again w = [] → r.span w = (lo, hi) → lo < hi →
        ∃ t v, exec (.nextService rgn tix) s = .next t ∧ t.region? rgn = some v ∧ v.span w = (lo + 1, hi) ∧
          NMap.find? v.curr tix = some (lo, w) ∧ pending t false ∧
          ∀ n < 4, full t (12 + n) ((grantWords r.lrec lo)[n]?.getD 0)) ∧
      (∀ w b rest, a.walker = some w → r.again w = b :: rest →
        ∃ t v, exec (.nextService rgn tix) s = .next t ∧ t.region? rgn = some v ∧ v.span w = r.span w ∧ v.again w = rest ∧
          NMap.find? v.curr tix = some (b, w) ∧ pending t false ∧ ∀ n < 4, full t (12 + n) ((grantWords r.lrec b)[n]?.getD 0)) ∧
      (∀ w, a.walker = some w → r.exhausted w = true →
        ∃ t, exec (.nextService rgn tix) s = .next t ∧ pending t false ∧ full t 12 (BitVec.allOnes 64) ∧ full t 13 0 ∧ full t 14 0 ∧ full t 15 0 ∧
          ∀ v, t.region? rgn = some v → NMap.find? v.curr tix = none)) ∧
    (due true → flightAt a .y (fun v => v == .shunt) = some (i, .shunt) → InFlight a .y i .shunt sig none →
      (∀ w, a.walker = some w → (r.exhausted w = false ∨ (0 < r.lrec.walkers ∧ ∀ v < r.lrec.walkers, size v < 2)) →
        ∃ t, exec (.shuntService rgn tix) s = .next t ∧ pending t true ∧ full t 15 0 ∧
          ∀ v, t.region? rgn = some v → ∀ n, v.span n = r.span n) ∧
      ∀ w c lo hi, a.walker = some w → r.exhausted w = true → c < r.lrec.walkers →
        (∀ v < r.lrec.walkers, size v ≤ size c ∧ (v < c → size v < size c)) → r.span c = (lo, hi) → lo + 2 ≤ hi →
        ∃ t v, exec (.shuntService rgn tix) s = .next t ∧ t.region? rgn = some v ∧ pending t true ∧
          v.span c = (lo, lo + (hi - lo + 1) / 2) ∧ v.span w = (lo + (hi - lo + 1) / 2, hi) ∧
          full t 15 (BitVec.ofNat 64 (hi - (lo + (hi - lo + 1) / 2))))

/-- R302 to R304, R308: CLST takes its slot for a part; CLSTAT reads the status of a tag, its WAIT form once the tag is ready, and its FREE form
releases the tag. -/
def Obligations.CollectiveInstructions : Prop :=
  ∀ (s : State) (tk : Tk) (d s1 s2 : Reg),
    let tid := s.cur.1
    let a := s.tile tid
    (∀ ctl : Reg,
      let c := val s ctl
      let n := c.toNat / 2 ^ 8 % 2 ^ 4
      let at_ := val s s1 - BitVec.ofNat 64 ((val s s1).toNat % 32)
      let rec_ := recBytes s { whoOf s tid s.cur.2 with strm := true } at_ 128
      Goes s tk [ctl, s1, s2] none 0 → accHeld (a.eng s.cur.2) = false → (a.slot n).act = false → clstBad rec_.2 c = false →
      (c.getLsbD 12 = true → (a.slot n).cv = true) → noSpace s tid (colSpace rec_.2) = false → noSpace s tid .g = false →
      ∃ t v, exec (.clst tk ctl s1 s2) s = .next t ∧
        RetiredWith rec_.1 t tk [ctl, s1, s2] none 0 (fun b => { b.setSlot n v with seqNo := b.seqNo + 1 }) ∧
        SlotTaken a (a.slot n) v 0xA9 (colSsp rec_.2) (scopeOf (c.toNat / 2 ^ 13 % 8)) (c.getLsbD 12) (at_.toNat % 2 ^ 18) (val s s2) c 0) ∧
    (let tag := (val s s1).toNat % 2 ^ 8
     let asked := s.creqs.any (fun q => some q.rgn == a.rgn && q.tag == tag && !q.granted)
     let b2 (b : Bool) : Nat := if b then 1 else 0
     let word : Word := match centOf s tid tag with
       | some c =>
         let count := NMap.findD c.counts (tid % 16) 0
         BitVec.ofNat 64 (count + b2 (count ≥ c.expw) * 2 ^ 32 + 2 ^ 33 + b2 asked * 2 ^ 34)
       | none => BitVec.ofNat 64 (b2 asked * 2 ^ 34)
     let done_ := ∃ c, centOf s tid tag = some c ∧ c.expw ≤ NMap.findD c.counts (tid % 16) 0
     (Goes s tk [s1] (some d) 0 →
       Writes (.clstat tk d s1) s tk [s1] d word ∧
       (done_ → Writes (.clstatWait tk d s1) s tk [s1] d word) ∧
       (¬ done_ → ∃ t, exec (.clstatWait tk d s1) s = .next t ∧ SameBut tid s t ∧
         TileIssued a (t.tile tid) s.cur.2 tk [s1] (.clstat tag d))) ∧
     (∀ ign rid, Goes s tk [s1] none 0 → a.rgn = some rid → partActive s tid tag = false →
       ∃ t u, exec (.clstatFree tk ign s1) s = .next t ∧ Retired s u tk [s1] none 0 ∧
         { t with creqs := u.creqs, groups := u.groups } = u ∧
         (∀ q ∈ t.creqs, ¬ (q.rgn = rid ∧ q.tag = tag)) ∧ (∀ g ∈ t.groups, ∀ c ∈ g.2.cents, ¬ (c.2.rgn = rid ∧ c.2.tag = tag))))

/-- R305, R306: the arbiter grants the request at its head once every page of its mask has a free entry and a free range, and each page then holds
an entry; a transfer lands in staging, copied or added, and is counted at the receiving tile. -/
def Obligations.CollectivesMove : Prop :=
  (∀ (s : State) (q : CReq), s.creqs.find? (fun q => !q.granted) = some q →
    let gs := maskGroups s q.rgn q.mask
    (gs.all (pageTakes s q) = true →
      ∃ t, exec .collectiveGrant s = .next t ∧ (∀ p ∈ t.creqs, p.rgn = q.rgn → p.tag = q.tag → p.granted = true) ∧
        ∀ g ∈ gs, ∃ e, NMap.find? (t.group g).cents e = some { granted := true, tag := q.tag, rgn := q.rgn, expw := q.expw, soff := q.soff, slen := q.slen, counts := [] }) ∧
    (gs.all (pageTakes s q) = false → Waits .collectiveGrant s)) ∧
  (∀ (s : State) (n w : Nat) (x : CXfer) (r : Region), s.cxfers[n]? = some x → s.region? x.rgn = some r → x.words = [w] → x.pois = [false] →
    x.off % 4 = 0 → ((s.tile x.src).slot x.slot).check = false →
    let dst := tileOfTix s r x.tix
    2 ≤ gspLog s dst → gspLog s dst ≤ 22 →
    let k := 2 ^ 41 + dst / 16 * 2 ^ 22 + x.off % 2 ^ 64 % 2 ^ gspLog s dst
    let old := heldAt s 0 k 4
    s.st.poison.contains (unitOf k) = false →
    ∃ t, exec (.collectiveTransfer n) s = .next t ∧ t.cxfers = s.cxfers.eraseIdx n ∧
      ((t.tile x.src).slot x.slot).pos = ((s.tile x.src).slot x.slot).pos + 1 ∧
      (x.op = 0 → heldAt t 0 k 4 = w % 2 ^ 32) ∧ (x.op = 1 → heldAt t 0 k 4 = fadd32 old w % 2 ^ 32) ∧
      (x.op = 2 → heldAt t 0 k 4 = (old + w) % 2 ^ 32) ∧
      (∀ p ∈ (s.group (dst / 16)).cents, p.2.rgn = x.rgn → p.2.tag = x.tag → ∃ p' ∈ (t.group (dst / 16)).cents, p'.1 = p.1 ∧
        NMap.findD p'.2.counts (dst % 16) 0 = (NMap.findD p.2.counts (dst % 16) 0 + 1) % 2 ^ 32))

/-- R53, R311, R312: in system code the eight instructions write the exchange registers, token FIFOs, outcome queues, phases and the group's barriers and
collective entries to the context block, and load them from it; the tile notes where each save went, which is the model's own
(notes/assumptions/77.md, DESIGN CHOICE).
R53, R311, R312: what the save instructions write is what the restore instructions load: exchange registers with their full bits, token FIFOs, outcome
queues, local phases, and a group's barriers and collective entries come back as they were. -/
def Obligations.SaveAndRestore : Prop :=
  (∀ (s : State) (tk : Tk) (s1 s2 : Reg),
    let tid := s.cur.1
    let a := s.tile tid
    let p := (val s s1).toNat
    let g := (val s s2).toNat
    let key (n : Nat) : Nat := 2 ^ 40 + tid / 512 * 2 ^ 30 + n
    let gid := tid / 16
    let ends (i : Instr) (u : State) (srcs : List Reg) : Prop := ∃ t, exec i s = .next t ∧ Retired u t tk srcs none 0
    let saved (u : State) (n at_ : Nat) : State := u.updTile tid (fun b => { b with saves := NMap.put b.saves n at_ })
    a.sys = true → p % 8 = 0 → p + 0x100 ≤ 0x30000000 → g % 8 = 0 → g + 0x400 ≤ 0x30000000 →
    (Goes s tk [s1] none 0 →
      ends (.xsave tk s1) (saved (writeRun (writeRun s 0 (key (p + 0x30)) (packX a).1) 0 (key (p + 0x80)) (packX a).2) 0 p) [s1] ∧
      ends (.xrest tk s1) (s.updTile tid (fun b => unpackX b (s.st.bytes (key (p + 0x30)) 8) (s.st.bytes (key (p + 0x80)) 128))) [s1] ∧
      ends (.fsave tk s1) (saved (writeRun s 0 (key (p + 0x38)) (packToks a)) 1 p) [s1] ∧
      (sigRoom (unpackToks a (s.st.bytes (key (p + 0x38)) 8)) s.cur.2 (partner s tk) = true →
        ends (.frest tk s1) (s.updTile tid (fun b => unpackToks b (s.st.bytes (key (p + 0x38)) 8))) [s1]) ∧
      ends (.qsave tk s1) (saved (writeRun s 0 (key (p + 0x40)) (packBoqs a)) 2 p) [s1] ∧
      ends (.qrest tk s1) (s.updTile tid (fun b => unpackBoqs b (s.st.bytes (key (p + 0x40)) 24))) [s1]) ∧
    (Goes s tk [s1, s2] none 0 →
      ends (.bsave tk s1 s2) (let u := writeRun s 0 (key (p + 0x58)) (packPhases a)
        if s2 = .ro .zero then saved u 3 p else saved (saved (writeRun u 0 (key g) (packGroup (s.group gid))) 3 p) 6 g) [s1, s2] ∧
      ends (.brest tk s1 s2) (let u := s.updTile tid (fun b => unpackPhases b (s.st.bytes (key (p + 0x58)) 8))
        if s2 = .ro .zero then u else u.setGroup gid (unpackGroup (s.group gid) (s.st.bytes (key g) 1024))) [s1, s2])) ∧
  (∀ (a b : Tile) (g h : Group),
    (∀ n < 16, ((unpackX b (packX a).1 (packX a).2).x n).val = (a.x n).val ∧ ((unpackX b (packX a).1 (packX a).2).x n).full = (a.x n).full) ∧
    ((∀ p q, a.tok p q ≤ 8) → ∀ p q, p ≠ q → (unpackToks b (packToks a)).tok p q = a.tok p q) ∧
    ((∀ k, (a.outcomes k).length ≤ 16) → ∀ k, k ≠ .e → (unpackBoqs b (packBoqs a)).outcomes k = a.outcomes k) ∧
    ((∀ n, a.phase n < 256) → ∀ n < 8, (unpackPhases b (packPhases a)).phase n = a.phase n) ∧
    ((∀ n < 8, (g.bar n).p < 2 ^ 8 ∧ (g.bar n).mask < 2 ^ 16 ∧ (g.bar n).arr < 2 ^ 16 ∧ (g.bar n).early < 2 ^ 16 ∧ (g.bar n).nmask < 2 ^ 16) →
      ∀ n < 8, (unpackGroup h (packGroup g)).bar n = g.bar n) ∧
    ((∀ n c, NMap.find? g.cents n = some c → c.tag < 2 ^ 8 ∧ c.rgn < 2 ^ 12 ∧ c.expw < 2 ^ 32 ∧ c.soff < 2 ^ 32 ∧ c.slen < 2 ^ 32 ∧
        ∀ q < 16, NMap.findD c.counts q 0 < 2 ^ 32) →
      ∀ n < 8, (NMap.find? (unpackGroup h (packGroup g)).cents n).isSome = (NMap.find? g.cents n).isSome ∧
        ∀ c d, NMap.find? g.cents n = some c → NMap.find? (unpackGroup h (packGroup g)).cents n = some d →
          d.granted = c.granted ∧ d.tag = c.tag ∧ d.rgn = c.rgn ∧ d.expw = c.expw ∧ d.soff = c.soff ∧ d.slen = c.slen ∧
          ∀ q < 16, NMap.findD d.counts q 0 = NMap.findD c.counts q 0))


/-! ### Launches, placement and the life of a region -/

/-- R31, R335, R33, R34, R35: PLACE_REGION takes the request whose turn it is to the first origin whose pages are all good, gives each of its tiles
the region and nothing else, and reads its image, whose entries stand by row. An image entry changes its tile as it binds, once a
row's earlier entries are gone; TILE_START starts a tile that has its LAST entry, with each engine at ENTRY plus 32 times its bundle
offset, its generators seeded, its TSP zero but for a token that its router has held, and everything else at reset but TVEC, which stays
(the model's reading, notes/assumptions/70.md). -/
def Obligations.LaunchImages : Prop :=
  (∀ (s : State) (part rgn px py : Nat) (q : Req) (v : State) (bs : List Byte) (es : List ImgEntry),
    nextReq s part = some q → (q.lrec.idemp = false ∨ qSys s q.qid = true) → rgn < 4096 → s.region? rgn = none → savedFirst s q = false → moving s part = false → s.swapped.contains part = false →
    findOrigin s part q.lrec.width q.lrec.height q.lrec.walkers = some (px, py) →
    let u := placedAs s q rgn px py
    let rows := 4 * q.lrec.height
    jdReadBeats u q.part q.lrec.image q.lrec.imglen = (v, .ok bs) →
    parseImage (4 * q.lrec.width) rows (q.lrec.imglen + 1) 0 bs = (es, none) → imageFault rows es none = none →
    (px < 8 ∧ originGood s part q.lrec.width q.lrec.height q.lrec.walkers px py = true ∧
      ∀ i < 8 * py + px, originGood s part q.lrec.width q.lrec.height q.lrec.walkers (i % 8) (i / 8) = false) ∧
    (∀ i < 16 * q.lrec.width * q.lrec.height, let b := u.tile (tileOfTix s (newRegion s q px py) i)
      b.rgn = some rgn ∧ b.started = false ∧ b.config = []) ∧
    ∃ t r, exec (.placeRegion part rgn) s = .next t ∧ t.region? rgn = some r ∧ r.part = q.part ∧ r.qid = q.qid ∧ r.tag = q.tag ∧ r.lrec = q.lrec ∧
      r.px = px ∧ r.py = py ∧ r.st = .configuring ∧ r.spans = launchSpans q.lrec ∧ r.budget = q.lrec.siding ∧
      (∀ y < rows, NMap.findD r.img y [] = es.filter (fun e => e.row == y)) ∧
      t.tiles = v.tiles ∧ t.st = v.st ∧ ∀ j, j ≠ rgn → t.region? j = v.region? j) ∧
  (∀ (s : State) (tile rid : Nat) (r : Region) (e : ImgEntry) (rest : List ImgEntry) (i : Instr) (b : Tile),
    let a := s.tile tile
    let full : Tile := { b with config := b.config ++ [e], gotLast := e.kind == 15 }
    dueEntry s tile = some (rid, r, e, rest) →
    (e.kind, i) ∈ [(1, Instr.progEntry tile), (2, .routeEntry tile), (3, .opplaneEntry tile), (4, .ringEntry tile), (5, .chanEntry tile),
      (6, .portEntry tile), (7, .walkEntry tile), (15, .lastEntry tile)] → a.failed = false → a.started = false → a.gotLast = false →
    takeEntry r e a = some b → (e.kind = 15 → lastFailure full = none) →
    (rest ≠ [] ∨ (e.kind = 15 ∧ ∀ n ∈ regionTiles s r, (s.tile n).gotLast = true ∨ (s.tile n).started = true ∨ (s.tile n).failed = true ∨ n = tile)) →
    (exec i s = .next ((s.setRegion rid { r with img := NMap.put r.img a.row rest }).setTile tile full)) ∧
    (e.kind = 2 → NMap.find? b.arr.routes (rnum e.bytes 8 1) = some (routeOf e.bytes 4 (entryVa r e))) ∧
    (e.kind = 3 → NMap.find? b.arr.opps (rnum e.bytes 8 1) = some (oppOf e.bytes 4 (entryVa r e))) ∧
    (e.kind = 4 → ∀ n < rnum e.bytes 8 1,
      let w := rnum e.bytes (0x10 + 16 * n) 16
      b.ring (w % 2 ^ 5) = { Ring.reset with bound := true, spG := w.testBit 5, isRec := w.testBit 6, logn := w / 2 ^ 8 % 2 ^ 4, slot := w / 2 ^ 16 % 2 ^ 16, base := w / 2 ^ 32 % 2 ^ 32, side := w / 2 ^ 64 % 2 ^ 16, sbase := w / 2 ^ 96 % 2 ^ 32 }) ∧
    (e.kind = 5 → ∀ n < rnum e.bytes 8 1,
      let w := rnum e.bytes (0x10 + 8 * n) 8
      NMap.find? b.chans (w % 2 ^ 4) = some (w / 2 ^ 8 % 2 ^ 22, w.testBit 4)) ∧
    (e.kind = 6 → ∀ n < rnum e.bytes 8 1,
      let w := rnum e.bytes (0x10 + 4 * n) 4
      NMap.find? b.ports (w % 2 ^ 5) = some (w / 2 ^ 8 % 2 ^ 5)) ∧
    (e.kind = 7 → b.walker = if rnum e.bytes 8 1 = 0xFF then none else some (rnum e.bytes 8 1))) ∧
  (∀ (s u : State) (tile rid : Nat) (r : Region) (p : ImgEntry),
    let a := s.tile tile
    a.rgn = some rid → s.region? rid = some r → r.st = .configuring → a.started = false → a.failed = false → a.gotLast = true →
    (∀ e ∈ NMap.findD r.img a.row [], a.col < e.col) → a.config.find? (fun c => c.kind == 1) = some p → bindAll s tile a.chans = .ok u →
    ∃ t, exec (.tileStart tile) s = .next t ∧ (∀ n, n ≠ tile → t.tile n = u.tile n) ∧
      let b := t.tile tile
      b.started = true ∧ b.ended = false ∧ b.cyc = 0 ∧ b.preds = 1 ∧ b.xs = [] ∧ b.toks = [] ∧ b.boq = [] ∧ b.slots = [] ∧ b.preempt = a.preempt ∧ b.heldTok = [] ∧ b.special 0 = 5 ∧ b.special 5 = a.special 5 ∧ b.sys = false ∧
      b.rings = a.rings ∧ b.chans = a.chans ∧ b.ports = a.ports ∧ b.walker = a.walker ∧ b.col = a.col ∧ b.row = a.row ∧
      (∀ g : Eng, (b.eng g).fetch = (r.lrec.entry + 32 * rnum p.bytes (8 + 4 * g.num) 4) % 2 ^ 64 ∧ (b.eng g).lane = 0 ∧ (b.eng g).regs = [] ∧
        (b.eng g).queue = []) ∧
      (∀ n < 32, b.gen n =
        let seed := Nat.xor r.lrec.seed (a.col * 1024 + a.row * 32 + n) % 2 ^ 16
        if seed = 0 then 0xACE1 else seed) ∧
      (a.heldTok = [] → ∀ off < 2 ^ r.lrec.tsplog, t.st.byte (tspKey tile off) = 0) ∧
      ∀ n inc, 2 ≤ r.lrec.tsplog → a.heldTok = [(n, inc)] → heldAt t 0 (tspKey tile (4 * n % 2 ^ r.lrec.tsplog)) 4 = inc % 2 ^ 32)

/-- R47, R50, R52, R336, R337, R339, R409, R412, R414, R415, R440: a region that meets R47 retires, which asks too that no access of its tiles to another
agent is open (R115; whatever the scope, the model's reading, notes/assumptions/3.md, DEDUCED): the counter is added to, OUTST falls if the launch counts in it
and its pages are free, where registers, rings and accumulators stay as they were (R36, R449); its collective requests and transfers go, here and at a
kill (the model's reading, notes/assumptions/32.md, DEDUCED). PREEMPT_REQUEST stops
one that does not, or kills it if it is idempotent, and while an activation runs it waits: of the regions whose PRIO lies below the effective priority of
a request that has no place and that no move serves, the one of lowest PRIO, the latest placed among equals; or the regions that are to move; or a partition is swapped,
which stops its regions and unmaps its queues, until it is swapped in. A killed region's tiles keep the tokens that their routers hold (R35; the model's
reading, notes/assumptions/76.md, DEDUCED).
A watchdog at its limit, a region that can never retire, and an error of walker
state freeze the queue: RIDX is published and the thread released, every placed region of the queue stops, and the event counts in class 22. -/
def Obligations.RegionsStop : Prop :=
  (∀ (s v : State) (rgn : Nat) (r : Region), s.region? rgn = some r →
    (canRetire s r = true → completionAdd s r.part r.lrec (some (pageGroup s r.px r.py)) false = (v, none) →
      ∃ t, exec (.regionRetire rgn) s = .next t ∧ t.region? rgn = none ∧ (∀ j, j ≠ rgn → t.region? j = v.region? j) ∧
        (∀ n ∈ regionTiles v r, t.tile n = (v.tile n).left) ∧ (∀ n, n ∉ regionTiles v r → t.tile n = v.tile n) ∧
        t.creqs = v.creqs.filter (fun c => c.rgn != rgn) ∧
        t.st = (if r.owes then qset v r.qid 0x50 (qget v r.qid 0x50 - 1) else v).st) ∧
    (canRetire s r = false → Waits (.regionRetire rgn) s) ∧
    (canRetire s r = true ↔ r.st = .running ∧ r.curr = [] ∧ (∀ w < r.lrec.walkers, r.again w = [] ∧ (r.span w).1 = (r.span w).2) ∧
      (∀ n ∈ regionTiles s r, let a := s.tile n
        a.ended = true ∧ a.sys = false ∧ (∀ p ∈ a.slots, p.2.act = false) ∧ (∀ p ∈ a.arr.outs, p.2.opened = false) ∧
          (∀ p ∈ a.ports, 16 ≤ p.1 → (a.ring p.2).claimed = (a.ring p.2).filled) ∧ a.arr.firings = [] ∧ a.arr.commit = false) ∧
      ∀ p ∈ s.remotes, p.2.unit = 17 ∨ p.2.tile ∉ regionTiles s r)) ∧
  (∀ (s : State) (part gid k ident : Nat) (r : LaunchRec) (cancel : Bool),
    let sum (u : State) (k i : Nat) : Nat := Nat.lor ((heldAt u i k 8 + r.ccinc.toNat) % 2 ^ 64) (if cancel then 2 ^ 63 else 0)
    (r.ccspace = 1 →
      let k := 2 ^ 41 + gid * 2 ^ 22 + r.ccaddr % 2 ^ r.gsplog
      completionAdd s part r (some gid) cancel = (writeRun s 0 k (natLe 8 (sum s k 0)), none)) ∧
    (∀ u, r.ccspace = 0 → translateJd s part r.ccaddr .atomic false = (u, .ok (.mem k ident)) →
      completionAdd s part r (some gid) cancel = (writeRun u ident k (natLe 8 (sum u k ident)), none))) ∧
  (∀ (s : State) (rgn : Nat) (r : Region), s.region? rgn = some r → r.st = .running ∨ r.st = .configuring → canRetire s r = false →
    let stops (ask : Preemption) (r0 : Region) : Prop :=
      ∃ t v, exec (.preemptRequest ask) s = .next t ∧ t.region? rgn = some v ∧ v = { r0 with st := .stopping, frozen := true, why := 0, notResumable := v.notResumable } ∧
        t.st = s.st ∧ (∀ n, n ∉ regionTiles s r → t.tile n = s.tile n) ∧
        ∀ n ∈ regionTiles s r, (s.tile n).started = true → (s.tile n).preempt = none →
          (t.tile n).preempt = some 0 ∧ (t.tile n).special 4 = modeWord (s.tile n).sys (s.tile n).check true
    let killed (ask : Preemption) : Prop :=
      ∃ t v, exec (.preemptRequest ask) s = .next t ∧ t.region? rgn = some v ∧ v.st = .stopping ∧ v.killed = true ∧ v.reqs = [] ∧ v.spans = r.spans ∧
        (∀ q ∈ t.creqs, q.rgn ≠ rgn) ∧
        ∀ n ∈ regionTiles s r, t.tile n = { (s.tile n).fresh with rgn := some rgn, halted := true, heldTok := (s.tile n).heldTok }
    (∀ q, stuckReq s r.part = some q →
      (moves s q = none → yielder s q = some rgn → (r.lrec.idemp = false → stops ⟨rgn, .displace⟩ r) ∧ (r.lrec.idemp = true → killed ⟨rgn, .displace⟩)) ∧
      (moves s q ≠ none ∨ yielder s q ≠ some rgn → Waits (.preemptRequest ⟨rgn, .displace⟩) s) ∧
      (∀ at_, r.lrec.idemp = false → moves s q = some [(rgn, at_)] → stops ⟨rgn, .move⟩ { r with moveTo := some at_ }) ∧
      (∀ l, moves s q = some l → (∀ m ∈ l, m.1 ≠ rgn) → Waits (.preemptRequest ⟨rgn, .move⟩) s)) ∧
    (r.part < 16 → s.regions.filter (fun p => p.2.part == r.part) = [(rgn, r)] → (∀ p ∈ s.threads, p.2.q = none) →
      (holdsStops s = false → (r.lrec.idemp = false → stops ⟨r.part, .swap⟩ r) ∧ (r.lrec.idemp = true → killed ⟨r.part, .swap⟩)) ∧
      (holdsStops s = true → exec (.preemptRequest ⟨r.part, .swap⟩) s =
        .next { s with swapped := setIns s.swapped r.part, heldStops := setIns s.heldStops rgn })) ∧
    (stuckReq s r.part = none → Waits (.preemptRequest ⟨rgn, .displace⟩) s ∧ Waits (.preemptRequest ⟨rgn, .move⟩) s)) ∧
  (∀ (s : State) (part : Nat), part < 16 →
    (∀ th q v, s.threads = [(th, v)] → v.q = some q → qPart s q = part → (∀ p ∈ s.regions, p.2.part ≠ part) →
      ∃ t, exec (.preemptRequest ⟨part, .swap⟩) s = .next t ∧ t.threads = [] ∧ t.swapped = setIns s.swapped part) ∧
    exec (.preemptRequest ⟨part, .swapIn⟩) s = .next { s with swapped := setDel s.swapped part }) ∧
  (∀ (s : State) (q : Req) (rgn : Nat), yielder s q = some rgn →
    ∃ r, (rgn, r) ∈ running s q.part ∧ r.lrec.prio < effPrio s q.part q.lrec.prio q.at_ ∧
      ∀ p ∈ running s q.part, p.2.lrec.prio < effPrio s q.part q.lrec.prio q.at_ →
        r.lrec.prio < p.2.lrec.prio ∨ (r.lrec.prio = p.2.lrec.prio ∧ p.2.placedAt ≤ r.placedAt)) ∧
  (∀ (s : State) (rgn n : Nat) (r : Region), s.region? rgn = some r →
    (r.lrec.persist = true ∧ n = r.lrec.cadence * 1024 ∨
      r.lrec.persist = false ∧ wfld (mreg s (0x100300 + 8 * r.part)) 0 16 ≠ 0 ∧ n = wfld (mreg s (0x100300 + 8 * r.part)) 0 16 * 2 ^ 16) →
    r.st = .running ∨ r.st = .configuring →
    (n ≤ r.wd → exec (.watchdogFire rgn) s = .next (freezeQueue (count s 24) r.qid 2 (some rgn) none 0 [])) ∧
    (r.wd < n → Waits (.watchdogFire rgn) s)) ∧
  (∀ (s : State) (rgn : Nat) (r : Region), s.region? rgn = some r → r.st = .running → allOver s r = true →
    (∀ n ∈ regionTiles s r, (s.tile n).arr.firings = [] ∧ (s.tile n).arr.commit = false) →
    (∃ w < r.lrec.walkers, (r.span w).1 < (r.span w).2) → (∀ n ∈ regionTiles s r, logHeld (s.tile n) = false) →
    exec (.regionUnretirable rgn) s = .next (freezeQueue s r.qid 3 (some rgn) none 1 [])) ∧
  (∀ (s : State) (rgn w : Nat) (r : Region), s.region? rgn = some r → r.st ≠ .saved → w < r.lrec.walkers → r.lrec.idemp = false →
    ∃ u, exec (.walkerStateError rgn w) s = .next (freezeQueue u r.qid 4 (some rgn) none 0 []) ∧ u.st = s.st ∧ u.tiles = s.tiles ∧
      NMap.findD u.errcnt 29 0 = min (NMap.findD s.errcnt 29 0 + 1) (2 ^ 48 - 1) ∧
      ∃ v, u.region? rgn = some v ∧ v.span w = (0, 0) ∧ v.again w = [] ∧ v.notResumable = true ∧ v.frozen = true) ∧
  (∀ (s : State) (rgn w : Nat) (r : Region), s.region? rgn = some r → r.st ≠ .saved → w < r.lrec.walkers → r.lrec.idemp = true →
    ∃ t v, exec (.walkerStateError rgn w) s = .next t ∧ t.region? rgn = some v ∧ v.st = .stopping ∧ v.killed = true ∧ v.lostWalker = true) ∧
  (∀ (s : State) (q cause b7 : Nat) (rgn tid : Option Nat) (bs : List Byte), qState s q ≠ 4 →
    let t := freezeQueue s q cause rgn tid b7 bs
    (∀ th, qThread s q = some th → NMap.find? t.threads th = none) ∧
    NMap.findD t.errcnt 22 0 = min (NMap.findD s.errcnt 22 0 + 1) (2 ^ 48 - 1) ∧
    ∀ j v, s.region? j = some v → v.qid = q → v.st ≠ .saved →
      ∃ w, t.region? j = some w ∧ w.st = .stopping ∧ w.frozen = true ∧ w.why = if rgn = some j ∧ cause = 2 then 1 else 2)

/-- R50, R53, R54, R237, R405, R409: PREEMPT_TRAP parks every slot and enters system code with code 0x10 (another tile of the group can change in its
rings alone, where a parked multicast gives back the entry it has claimed), and the fields of the context block that no save instruction
writes hold the tile's state (the model's choice, notes/assumptions/77.md, DESIGN CHOICE); a slot whose command has nothing left to move ends but for its
add; while a slot waits for an answer from outside, the trap waits (the model's reading, notes/assumptions/14.md, DEDUCED). A tile that is stopped in
system code is saved as it stands once its matrix commands and plane loads have retired, with its TSP image behind the block (DEDUCED,
notes/assumptions/32.md).
Once every tile and page is saved, WALKER_IMAGE_WRITE writes the walker block image and frees the pages; until then it waits (what counts as
saved, and that this event frees the pages, is the model's reading, notes/assumptions/32.md, DEDUCED). The image says what the walker block
holds. -/
def Obligations.RegionsAreSaved : Prop :=
  (∀ (s : State) (tile sub ctx : Nat), let a := s.tile tile
    let key (off : Nat) : Nat := yardKey (tile / 512) (ctx + off)
    a.preempt = some sub → a.started = true → a.sys = false → a.halted = false → a.enter = none → Calm a → slotsOpen s tile = false →
    ctx % 8192 = 0 → ctx + 8192 ≤ 0x30000000 →
    (entryPcs (withdrawS (preemptWaits (dropArray (parkTile s tile) tile) tile sub) tile) tile).1.starved = false →
    ∃ t, exec (.preemptTrap ⟨tile, ctx⟩) s = .next t ∧ BytesSameOutside s t (key 0) 8192 0 ∧
      (∀ n, n / 16 ≠ tile / 16 → t.tile n = s.tile n) ∧ (∀ n, n ≠ tile → { t.tile n with rings := (s.tile n).rings } = s.tile n) ∧
      let b := t.tile tile
      b.sys = true ∧ b.check = a.check ∧ b.preempt = none ∧ b.ctx = some ctx ∧ b.saves = [] ∧
      b.special 10 = BitVec.ofNat 64 (0x10 + sub * 2 ^ 8 + 2 ^ 18 + (if a.ended then 1 else 0) * 2 ^ 19) ∧
      (∀ g, (b.eng g).queue = [] ∧ (b.eng g).fetch = (a.special 5).toNat / 32 * 32 ∧ (b.eng g).regs = (a.eng g).regs) ∧
      b.xs = a.xs ∧ b.toks = a.toks ∧ b.boq = a.boq ∧ b.preds = a.preds ∧ b.acc = a.acc ∧ b.ph = a.ph ∧
      (∀ n < 16, let v := a.slot n
        let over_ : Bool := !v.held && !v.addpend && v.opc != 0x49 && v.opc != 0x4B && v.opc != 0xA9 && !v.unfinished
        v.act = true → (b.slot n).pos = v.pos ∧ (over_ = false → (b.slot n).stopped = true ∧ (b.slot n).act = true) ∧
          (over_ = true → (b.slot n).act = v.cc ∧ (v.cc = true → (b.slot n).addpend = true ∧ (b.slot n).stopped = true))) ∧
      (∀ p ∈ a.chans, handleHere s p.2.1 = true →
        if p.2.2 then (chan s (handleChan p.2.1)).wagent = agentOf s tile → (chan t (handleChan p.2.1)).wbound = false
        else (chan s (handleChan p.2.1)).ragent = agentOf s tile → (chan t (handleChan p.2.1)).rbound = false) ∧
      t.st.num (key 0) 8 = s.sec.layx % 2 ^ 16 + a.col % 2 ^ 5 * 2 ^ 16 + a.row % 2 ^ 5 * 2 ^ 21 ∧
      t.st.num (key 0x28) 8 = a.preds.toNat ∧ t.st.num (key 0x60) 8 = a.cyc % 2 ^ 64 ∧ t.st.num (key 0xD00) 32 = a.retmap.toNat ∧
      (∀ g : Eng, t.st.num (key (8 + 8 * g.num)) 8 = (b.special (6 + g.num)).toNat ∧
        ∀ n < 32, t.st.num (key (0x100 + 256 * g.num + 8 * n)) 8 = (a.priv g n).toNat) ∧
      (∀ n < 64, t.st.num (key (0x500 + 8 * n)) 8 = (b.special n).toNat) ∧
      ∀ n < 1024, t.st.num (key (0x1000 + 4 * n)) 4 = NMap.findD a.acc n 0 % 2 ^ 32) ∧
  (∀ (s : State) (tile ctx : Nat), slotsOpen s tile = true → Waits (.preemptTrap ⟨tile, ctx⟩) s) ∧
  (∀ (s : State) (tile sub ctx : Nat), let a := s.tile tile
    let key (off : Nat) : Nat := yardKey (tile / 512) (ctx + off)
    let len := 2 ^ tspLog s tile
    a.preempt = some sub → a.started = true → a.sys = true → a.halted = true → a.enter = none → slotsOpen s tile = false → ctx % 8192 = 0 →
    ctx + 8192 + len + len / 32 ≤ 0x30000000 →
    (a.cmds ≠ [] ∨ planesInFlight a ≠ [] → Waits (.preemptTrap ⟨tile, ctx⟩) s) ∧
    (a.cmds = [] → planesInFlight a = [] → ∃ t, exec (.preemptTrap ⟨tile, ctx⟩) s = .next t ∧ BytesSameOutside s t (key 0) (8192 + len + len / 32) 0 ∧
      let b := t.tile tile
      b.sys = true ∧ b.halted = true ∧ b.preempt = none ∧ tileStopped t tile = true ∧
      (∀ g : Eng, ∀ n < 32, t.st.num (key (0x100 + 256 * g.num + 8 * n)) 8 = (a.priv g n).toNat) ∧
      (∀ off < len, t.st.byte (key (8192 + off)) = s.st.byte (tspKey tile off)) ∧
      ∀ n < 1024, t.st.num (key (0x1000 + 4 * n)) 4 = NMap.findD a.acc n 0 % 2 ^ 32)) ∧
  (∀ (s : State) (rgn addr : Nat) (r : Region), s.region? rgn = some r → r.st = .stopping → addr % 32 = 0 → addr + 16384 ≤ 0x30000000 →
    let ready_ := (∀ n ∈ regionTiles s r, tileStopped s n = true) ∧ ∀ g ∈ regionGroups s r, pageSaved s g = true
    (¬ ready_ → r.killed = false → Waits (.walkerImageWrite rgn addr) s) ∧
    (ready_ ∨ r.killed = true →
    ∃ t v, exec (.walkerImageWrite rgn addr) s = .next t ∧ t.region? rgn = some v ∧ v.st = .saved ∧ v.savedAt = s.sbcyc ∧ v.layout = s.sec.layx ∧
      (∀ n ∈ regionTiles s r, t.tile n = (s.tile n).left) ∧ t.creqs = s.creqs ∧ (∀ x ∈ t.cxfers, x.rgn ≠ rgn) ∧
      t.st.bytes (yardKey (pageDie r.px r.py) addr) 16384 = packWalkers r s.sec.layx ∧
      (r.killed = false → ∀ i < r.ntiles, NMap.find? v.tiles i = some (savedTile s (tileOfTix s r i))) ∧
      (r.killed = false → ∀ x < r.lrec.width, ∀ y < r.lrec.height,
        NMap.find? v.pages (y * r.lrec.width + x) = some (savedPage s (pageGroup s (r.px + x) (r.py + y)) (2 ^ r.lrec.gsplog))))) ∧
  (∀ (r : Region) (layout : Nat), r.lrec.walkers ≤ 64 →
    (∀ w < 64, (r.span w).1 < 2 ^ 64 ∧ (r.span w).2 < 2 ^ 64) → (∀ i b w, NMap.find? r.curr i = some (b, w) → b < 2 ^ 48 ∧ w < 64) →
    (packWalkers r layout).length = 16384 ∧
    (∀ w < r.lrec.walkers, NMap.findD (unpackSpans (packWalkers r layout) r.lrec.walkers) w (0, 0) = r.span w) ∧
    ∀ n ≤ 1024, ∀ i < n, NMap.find? (unpackCurr (packWalkers r layout) n) i = NMap.find? r.curr i)

/-- R35, R52, R55, R131, R338, R415: REGION_RESTORE places a saved region at an origin that keeps the dies of its pages. A region that was killed starts
over, with the chunks that were current granted again; any other is read back: the walker block from its image, each page and tile
from what was saved. A tile gets its bindings from the launch image and the rest from its context block and TSP image in the Yard, and
returns from system code; one that had not started is configured again, with the tokens that its router holds (the model's reading,
notes/assumptions/34.md, DEDUCED). That one event does all of this, with a page's GSP from the bytes that the region has kept, is the model's reading (notes/assumptions/32.md, DEDUCED). -/
def Obligations.RegionsComeBack : Prop :=
  (∀ (s : State) (rgn px py addr : Nat) (r : Region), s.region? rgn = some r → r.st = .saved → addr + 16384 ≤ 0x30000000 →
    restoreGood s r px py = true → (∀ o, r.moveTo = some o → o = (px, py)) →
    let bs := s.st.bytes (yardKey (pageDie px py) addr) 16384
    let at_ : Region := { r with px := px, py := py }
    (r.killed = true →
      ∃ u v, exec (.regionRestore rgn px py addr) s = .next (readImage u rgn) ∧ u.region? rgn = some v ∧ v.st = .configuring ∧ v.killed = false ∧
        v.frozen = false ∧ v.wd = 0 ∧ v.px = px ∧ v.py = py ∧ v.curr = [] ∧
        (∀ i < r.ntiles, (u.tile (tileOfTix s at_ i)).rgn = some rgn ∧ (u.tile (tileOfTix s at_ i)).started = false) ∧
        (r.tiles.map Prod.fst = range 0 r.ntiles → (∀ i < r.ntiles, ∀ j < r.ntiles, tileOfTix s at_ i = tileOfTix s at_ j → i = j) →
          ∀ p ∈ r.tiles, (u.tile (tileOfTix s at_ p.1)).heldTok = p.2.heldTok) ∧
        (r.lostWalker = true → v.spans = launchSpans r.lrec ∧ v.regrant = [] ∧ v.dom = 0) ∧
        (r.lostWalker = false → v.dom = r.dom ∧ v.spans = unpackSpans bs r.lrec.walkers ∧
          ∀ i b w, (i, b, w) ∈ unpackCurr bs r.ntiles → w < r.lrec.walkers → b ∈ v.again w)) ∧
    (r.killed = false → ∀ s1 img, jdReadBeats s r.part r.lrec.image r.lrec.imglen = (s1, .ok img) → (∀ p ∈ r.tiles, p.2.started = true) →
      let es := (parseImage (4 * r.lrec.width) (4 * r.lrec.height) (r.lrec.imglen + 1) 0 img).1
      let gs := regionGroups s1 at_
      ∃ v : Region, v.st = .configuring ∧ v.px = px ∧ v.py = py ∧ v.part = r.part ∧ v.lrec = r.lrec ∧ v.frozen = false ∧ v.killed = false ∧ v.wd = 0 ∧ v.moveTo = none ∧
        v.spans = unpackSpans bs r.lrec.walkers ∧ v.curr = unpackCurr bs r.ntiles ∧
        let w := ((range 0 gs.length).zip gs).foldl (fun w p =>
          match NMap.find? r.pages p.1 with | some g => restorePage w v p.2 g | none => w)
          (s1.setRegion rgn { v with st := .running, dom := savedDom s1 r })
        ∀ u, restoreTiles w rgn v es r.tiles = .ok u → exec (.regionRestore rgn px py addr) s = .next u)) ∧
  (∀ (s u : State) (rgn i : Nat) (r : Region) (es : List ImgEntry) (v : SavedTile) (c : Tile), v.started = true →
    let tid := tileOfTix s r i
    let col := i % (4 * r.lrec.width)
    let row := i / (4 * r.lrec.width)
    let rd (off n : Nat) : Nat := (loadTsp s tid v.img (2 ^ r.lrec.tsplog)).st.num (yardKey (tid / 512) (v.ctx + off)) n
    configure r (es.filter (fun e => e.col == col && e.row == row))
      { (s.tile tid).fresh with rgn := some rgn, col := col, row := row, heldTok := v.heldTok, got := (s.tile tid).got } = .ok c →
    restoreTile s rgn r es i v = .ok u →
    let b := u.tile tid
    b.started = true ∧ b.sys = false ∧ b.rgn = some rgn ∧ b.col = col ∧ b.row = row ∧ b.chans = c.chans ∧ b.ports = c.ports ∧ b.walker = c.walker ∧
      b.preds = BitVec.ofNat 8 (rd 0x28 8) ||| 1 ∧ b.cyc = rd 0x60 8 ∧ b.retmap = BitVec.ofNat 256 (rd 0xD00 32) ∧
      b.accPois = BitVec.ofNat 32 (rd 0xEA0 8) ∧
      (∀ n < 16, (b.x n).val = BitVec.ofNat 64 (rd (0x80 + 8 * n) 8) ∧ (b.x n).full = (rd 0x30 8).testBit n) ∧
      (∀ n < 32, let q := b.ring n
        q.claimed = rd (0xB00 + 16 * n) 4 ∧ q.filled = rd (0xB04 + 16 * n) 4 ∧ q.taken = rd (0xB08 + 16 * n) 4 ∧ q.released = rd (0xB0C + 16 * n) 4 ∧
        q.bound = (c.ring n).bound ∧ q.base = (c.ring n).base ∧ q.logn = (c.ring n).logn ∧ q.slot = (c.ring n).slot) ∧
      (∀ g : Eng, let pc := rd (0x500 + 8 * (6 + g.num)) 8
        (b.eng g).queue = [] ∧ (b.eng g).fetch = pc - pc % 32 ∧ (b.eng g).lane = pc % 8 ∧
        ∀ n < 32, n ≠ 0 → b.priv g n = BitVec.ofNat 64 (rd (0x100 + 256 * g.num + 8 * n) 8)) ∧
      (∀ n < 64, n ≠ 4 → ∀ j < 64, (b.special n).getLsbD j =
        ((rd (0x500 + 8 * n) 8).testBit j && srTakes n j && decide (n < 24 ∨ 32 ≤ n ∧ n < 40))) ∧
      ∀ n < 1024, NMap.findD b.acc n 0 = rd (0x1000 + 4 * n) 4) ∧
  (∀ (s : State) (rgn i : Nat) (r : Region) (es : List ImgEntry) (v : SavedTile), v.started = false →
    let tid := tileOfTix s r i
    restoreTile s rgn r es i v = .ok (s.setTile tid { (s.tile tid).fresh with
      rgn := some rgn, col := i % (4 * r.lrec.width), row := i / (4 * r.lrec.width), heldTok := v.heldTok, got := (s.tile tid).got })) ∧
  (∀ (s : State) (tid img log : Nat), tid < 2048 → 12 ≤ log → log ≤ 18 → img % 8 = 0 → img + 2 ^ log + 2 ^ log / 32 ≤ 0x30000000 →
    let k := yardKey (tid / 512) img
    let t := loadTsp s tid img (2 ^ log)
    ∀ off < 2 ^ log, t.st.byte (tspKey tid off) = s.st.byte (k + off) ∧
      (off % 4 = 0 → t.st.full.contains (tspKey tid off) = (s.st.byte (k + 2 ^ log + off / 32)).getLsbD (off / 4 % 8))) ∧
  ∀ (s : State) (k len : Nat) (m : List Host.Cell) (poison : List Nat), Memory.wf m → (∀ c ∈ m, c.1 < len) →
    ∀ off < len, memGet (placeCells s k len m poison).st.mem (k + off) = memGet m off

/-- R153, R154, R95: FETCH_BUNDLE reads the bundle at the fetch address of the engine served least recently, if that has room, and every engine that stands at it and has
room takes its lanes; a bundle of a peer's memory whose bytes have not come is left to the next attempt, and the engine behind it has its turn (how such bytes
come, and that an engine tries again, is the model's reading, notes/assumptions/64.md and 1.md, DEDUCED). PAGE_WALK leaves a valid leaf in the tile's TLB and its group's, and nothing if it faults.
R382, R385, R387, R388, R420: an entry that is no instruction raises its exception once it stands at the head of its engine: a malformed bundle BUNDLE, an opcode
that its engine does not have ILLOP, a reserved field ILLFLD or PRIV, a bundle that does not translate XLATE. TRAP_ENTRY enters the trap that
waits once nothing is in flight and no cycle is under way. -/
def Obligations.FetchWalksAndExceptions : Prop :=
  ((∀ (s s1 u : State) (tile : Nat) (g : Eng) (b : Except Nat (List Byte)),
    let a := s.tile tile
    let va := (a.eng g).fetch
    let asks (h : Eng) : State := (readBundle s tile (a.eng h).fetch).1
    a.live = true →
    ((fetchOrder a).head? = some g ∧ s1 = s) ∨
      (∃ h rest, fetchOrder a = h :: g :: rest ∧ (asks h).starved = true ∧ s1 = keepAsked s (asks h)) →
    readBundle s1 tile va = (u, b) → u.starved = false → canTake (a.eng g) (entriesOf g va (a.eng g).lane b) = true →
    ((fetchOrder a).head? = some g → ∀ h, (a.eng g).served ≤ (a.eng h).served) ∧
    ∃ t, exec (.fetchBundle tile) s = .next t ∧ (∀ n, n ≠ tile → t.tile n = u.tile n) ∧ t.st = u.st ∧
      ∀ h : Eng,
        let e := (u.tile tile).eng h
        let es := entriesOf h va e.lane b
        let c := (t.tile tile).eng h
        c.regs = e.regs ∧
        (e.fetch = va → canTake e es = true →
          c.queue = pruneQ (e.queue ++ (applySkip es e.skip).1) ∧ c.fetch = va + 32 ∧ c.lane = 0 ∧ c.skip = (applySkip es e.skip).2) ∧
        (e.fetch ≠ va ∨ canTake e es = false → c = e)) ∧
  (∀ (s u : State) (tile : Nat) (b : Except Nat (List Byte)),
    let a := s.tile tile
    a.live = true → (∀ g, readBundle s tile (a.eng g).fetch = (u, b)) → u.starved = true →
    ∃ t, exec (.fetchBundle tile) s = .next t ∧ t.st = s.st ∧ ∀ g, (t.tile tile).eng g = a.eng g) ∧
  (∀ (g : Eng) (va lane : Nat) (bs : List Byte) (q : QEntry), wellFormed (leNat (bs.take 4)) = true →
    (q ∈ entriesOf g va lane (.ok bs) ↔
      ∃ l, 1 ≤ l ∧ l ≤ 7 ∧ lane ≤ l ∧ leNat (bs.take 4) / 2 ^ (4 * (l - 1)) % 16 = g.num + 1 ∧
        q = { bundle := va, lane := l, stat := .unissued,
              kind := .instr (laneOf bs l)
                (if l < 7 ∧ leNat (bs.take 4) / 2 ^ (4 * l) % 16 = 8 then some (laneOf bs (l + 1)) else none) })) ∧
  (∀ (s : State) (tile : Nat) (va : Word), tlbFind s tile (partOf s tile) va.toNat = none →
    (∀ l log, walk s (partOf s tile) va.toNat = .leaf l log → leafClass l ≠ 2 →
      ∃ t e, exec (.pageWalk tile va) s = .next t ∧ tlbFind t tile (partOf s tile) va.toNat = some e ∧ e.leaf = l ∧ e.log = log ∧ e.kv = none ∧
        e.base = va.toNat / 2 ^ log * 2 ^ log ∧ e ∈ (t.group (tile / 16)).tlb ∧ t.st = s.st ∧
        (∀ n, n / 16 ≠ tile / 16 → t.tile n = s.tile n) ∧
        ∀ n, n ≠ tile → { t.tile n with utlb := (s.tile n).utlb } = s.tile n ∧ ∀ f ∈ (t.tile n).utlb, f ∈ (s.tile n).utlb) ∧
    (∀ why at_, walk s (partOf s tile) va.toNat = .fail why at_ → why ≠ 8 → Waits (.pageWalk tile va) s))) ∧
  ((∀ (s : State) (g : Eng) (q : QEntry),
    let a := s.tile s.cur.1
    let enters (code sub info : Nat) : Prop := EntersNow s { code := code, sub := sub, eng := g, impr := false, slot := none, info := info } →
      ∃ t, exec (.preciseException s.cur.1 g) s = .next t ∧ TrapEntered a (t.tile s.cur.1) code sub g false none info ∧ TrapSame s t ∧ BytesSame s t
    UserRuns a → Calm a → atHead a g = true → nextEntry a g = some q →
    (q.kind = .bad → enters 2 0 0) ∧
    (∀ sub info, q.kind = .xlate sub info → enters 0x12 sub info) ∧
    (∀ w x, q.kind = .instr w x → decodeLane g w x = .illOp → enters 3 0 0) ∧
    (∀ w x so, q.kind = .instr w x → decodeLane g w x = .illField so → enters (if so then 5 else 4) 0 0)) ∧
  (∀ (s : State) (tr : Trap),
    let a := s.tile s.cur.1
    a.started = true → a.ended = false → a.enter = some tr →
    (Calm a → s.inCycle = false → (entryPcs (withdrawS s s.cur.1) s.cur.1).1.starved = false → ∃ t, exec (.trapEntry s.cur.1) s = .next t ∧ (t.tile s.cur.1).enter = none ∧
      TrapEntered a (t.tile s.cur.1) tr.code tr.sub tr.eng tr.impr tr.slot tr.info ∧ TrapSame s t ∧ BytesSame s t) ∧
    (a.cmds ≠ [] ∨ s.inCycle = true → ∃ t, exec (.trapEntry s.cur.1) s = .next t ∧ (t.tile s.cur.1).enter = some tr ∧ (t.tile s.cur.1).sys = a.sys)))


/-- R147, R148, R150, R430, R431: the Interlocking engine of a tile. A blocked tile whose count reaches 4,096 starts an epoch and sends a probe along every edge, one that leads to another package as a message to it; a blocked
tile passes a probe on once for each epoch, with HOPS and MINID brought up to date; a probe that returns with the smallest identity asks for growth,
arms the engine, or makes the tile a victim by the edge that it left on; a wait of 4,096 cycles starts the count again. The home grows a channel or names why not,
and its answer ends the wait or makes the tile a victim. A tile that has taken a trap is no longer blocked. The segments that a region
has reserved are the model's reading (notes/assumptions/80.md, DEDUCED), and the edge of a victim whose probe came back from another package its choice
(notes/assumptions/45.md, DESIGN CHOICE). -/
def Obligations.Interlocking : Prop :=
  let set (s : State) (n : Nat) (l : Il) : State := updIl s n (fun _ => l)
  let along (s : State) (e : Edge) (p : Probe) : State := match e.dest with
    | some u => { s with probes := s.probes ++ [{ p with dest := u }] }
    | none => (sendMsg s 4 e.dev (e.handle % 2 ^ 12) { UalMsg.base s e.handle with body := packProbe p }).getD s
  (∀ (s : State) (tile : Nat),
    let l := (s.tile tile).il
    let ep := (l.epoch + 1) % 256
    let u := set s tile { l with st := .probe, epoch := ep, wait := 0, returned := false }
    let blocked := l.blk = true ∧ (s.tile tile).sys = false ∧ (s.tile tile).enter = none
    (l.st = .count → blocked → 4096 ≤ l.count →
      exec (.probeSend tile) s = .next ((edgesOf u tile).foldl (fun v e => along v e
        { origin := agentOf s tile, epoch := ep, hops := 0, minid := agentOf s tile, cand := if e.kind = 1 then some e.handle else none,
          via := some e, dest := 0 }) u)) ∧
    (l.st ≠ .count ∨ l.count < 4096 ∨ ¬ blocked → Waits (.probeSend tile) s)) ∧
  (∀ (s : State) (n : Nat) (p : Probe), s.probes[n]? = some p → agentOf s p.dest ≠ p.origin →
    let l := (s.tile p.dest).il
    let u := { s with probes := s.probes.eraseIdx n }
    let w := set u p.dest { l with filter := addFilter l.filter p.origin p.epoch }
    let seen := l.filter.any (fun f => f.1 == p.origin && f.2.1 == p.epoch)
    let blocked := l.blk = true ∧ (s.tile p.dest).sys = false ∧ (s.tile p.dest).enter = none
    (¬ blocked ∨ seen = true → exec (.probeArrival n) s = .next u) ∧
    (blocked → seen = false → 63 ≤ p.hops → exec (.probeArrival n) s = .next w) ∧
    (blocked → seen = false → p.hops < 63 →
      exec (.probeArrival n) s = .next ((edgesOf w p.dest).foldl (fun v e => along v e
        { p with hops := p.hops + 1, minid := min p.minid (agentOf s p.dest),
                 cand := if e.kind = 1 then some (match p.cand with | some h => min h e.handle | none => e.handle) else p.cand }) w))) ∧
  (∀ (f : List (Nat × Nat × Nat)) (o ep : Nat), f.length ≤ 8 → (addFilter f o ep).length ≤ 8 ∧ (o, ep, 0) ∈ addFilter f o ep ∧
    (f.length < 8 → ∀ x ∈ f, x ∈ addFilter f o ep) ∧ (f.length = 8 → ∀ x ∈ f.drop 1, x ∈ addFilter f o ep)) ∧
  (∀ (s : State) (n : Nat) (p : Probe), s.probes[n]? = some p → agentOf s p.dest = p.origin →
    let l := (s.tile p.dest).il
    let u := { s with probes := s.probes.eraseIdx n }
    let mine := l.st = .probe ∧ l.epoch = p.epoch ∧ p.minid = p.origin
    (¬ mine → exec (.probeReturn n) s = .next u) ∧
    (mine → ∀ h, p.cand = some h → handleHere s h = true →
      exec (.probeReturn n) s = .next { set u p.dest { l with st := .grow, cand := h, via := p.via } with grows := s.grows ++ [{ tile := p.dest, handle := h, reply := none }] }) ∧
    (mine → p.cand = none → l.armed = false → exec (.probeReturn n) s = .next (set u p.dest { l with st := .count, count := 0, armed := true })) ∧
    (mine → p.cand = none → l.armed = true → UserRuns (s.tile p.dest) → Calm (s.tile p.dest) → (∀ tr i ms, EntersAt { set u p.dest i with errcnt := ms } p.dest tr) →
      ∃ t slot info, exec (.probeReturn n) s = .next t ∧ BytesSame s t ∧
        TrapEntered ({ s.tile p.dest with il := { l with st := .victim } }) (t.tile p.dest) 0x13 1 .e true slot info ∧
        ∀ e, p.via = some e → slot = e.slot ∧ info = (if e.slot.isSome then e.handle + 2 ^ 22 else 0) + e.kind * 2 ^ 23)) ∧
  (∀ (s : State) (tile : Nat),
    let l := (s.tile tile).il
    (l.st = .probe → 4096 ≤ l.wait → exec (.probeWaitExpiry tile) s = .next (set s tile { l with st := .count, count := 0 })) ∧
    (l.st ≠ .probe ∨ l.wait < 4096 → Waits (.probeWaitExpiry tile) s) ∧
    (∀ f ∈ l.filter, 4096 ≤ f.2.2 → ∃ t, exec (.probeFilterExpiry tile) s = .next t ∧
      ∀ x, x ∈ (t.tile tile).il.filter ↔ x ∈ l.filter ∧ x.2.2 < 4096)) ∧
  (∀ (s : State) (n : Nat) (q : Grow), s.grows[n]? = some q →
    let c := handleChan q.handle
    let e := chan s c
    let full := writerFull s q.handle
    let pool := (mreg s (0x2500 + 8 * e.part)).toNat
    let used := NMap.findD s.pools e.part []
    let answered (why : Nat) : Prop := exec (.growthRequest n) s = .next { s with grows := s.grows.set n { q with reply := some why } }
    (q.reply = none →
      (full = false → answered 0) ∧
      (full = true → e.nseg = 16 → answered 4) ∧
      (∀ rid r, full = true → e.nseg ≠ 16 → e.wrgn = some rid → s.region? rid = some r → e.wplaced = r.placedAt →
        (r.budget = 0 → answered 2) ∧
        (r.budget ≠ 0 → (∀ i < if pool.testBit 0 then pool / 2 % 2 ^ 10 else 0, used.contains i = true) → answered 3) ∧
        (r.budget ≠ 0 → r.reserved = 0 → (poolFree s e.part).length ≤ poolReserved s e.part → answered 3) ∧
        (∀ g, r.budget ≠ 0 → (r.reserved ≠ 0 ∨ poolReserved s e.part < (poolFree s e.part).length) → pool.testBit 0 = true → g < pool / 2 % 2 ^ 10 → used.contains g = false → (∀ i < g, used.contains i = true) →
          ∃ t v, exec (.growthRequest n) s = .next t ∧ t.grows = s.grows.set n { q with reply := some 0 } ∧
            t.region? rid = some v ∧ v = { r with budget := r.budget - 1, reserved := r.reserved - 1 } ∧ NMap.findD t.pools e.part [] = setIns used g ∧
            let f := chan t c
            f.nseg = e.nseg + 1 ∧ f.spill = true ∧ f.grows = (e.grows + 1) % 2 ^ 32 ∧
            (e.spill = true → f.srptr = e.srptr ∧ f.swptr = e.swptr ∧ NMap.findD f.segs ((e.srptr / 2 ^ 21 + e.nseg) % 16) 0 = g) ∧
            (e.spill = false → f.srptr = 0 ∧ f.swptr = 0 ∧ NMap.findD f.segs (e.nseg % 16) 0 = g)))) ∧
    (∀ why, q.reply = some why →
      let l := (s.tile q.tile).il
      let u := { s with grows := s.grows.eraseIdx n }
      (l.st ≠ .grow → exec (.growthReply n) s = .next u) ∧
      (l.st = .grow → why = 0 → l.blk = true → exec (.growthReply n) s = .next (set u q.tile { l with st := .count, count := 0 })) ∧
      (l.st = .grow → why = 0 → l.blk = false → exec (.growthReply n) s = .next (set u q.tile { l with st := .idle, armed := false })) ∧
      (l.st = .grow → 2 ≤ why → UserRuns (s.tile q.tile) → Calm (s.tile q.tile) → (∀ tr i ms, EntersAt { set u q.tile i with errcnt := ms } q.tile tr) →
        ∃ t slot, exec (.growthReply n) s = .next t ∧ BytesSame s t ∧
          TrapEntered ({ s.tile q.tile with il := { l with st := .victim } }) (t.tile q.tile) 0x13 why .e true slot (l.cand + 2 ^ 22 + 2 ^ 23))))

/-! ### The Signal Box -/

/-- R318 to R323, R434, R435, R437: the packets. A thread that has read a well-formed packet carries it out; one that is malformed freezes the queue
and is not consumed (the offset in its DETAIL is the model's reading, notes/assumptions/41.md, DEDUCED); an INVALID header blocks the thread before any
check. A NOP only ends; a LAUNCH hands its record on, once; a WAITC ends if its counter has reached its target, and else waits in the
control block; a SIGC adds, and ends in its next step, or stores (two steps: notes/assumptions/40.md, DEDUCED); a BARRIER ends when nothing is
outstanding, and else waits with all ones in WADDR (notes/assumptions/73.md, DESIGN CHOICE); a JUMP goes on in the array, and its last packet
ends the JUMP, itself a packet of the ring. A packet of the ring ends with its header swapped for 0, an atomic access that a page without W refuses
before the header is looked at (R435, R450), and RIDX one further; a field of the control block reads back as written. -/
def Obligations.Packets : Prop :=
  (∀ (s u : State) (t q : Nat) (bs : List Byte),
    let h := rnum bs 0 8
    let f (o : Nat) : Nat := rnum bs o 8
    let part := qPart u q
    let over_ (v : State) : State := endPacket v t q h
    (∀ off, PacketRead s u t q bs → packetFault bs (qInJump u q) = some off →
      exec (.malformedPacket t) s = .next (freezeQueue (count u 25) q 6 none none off (natLe 8 (packetNo u q)))) ∧
    ((thr s t).q = some q → serving s = true → (thr s t).blocked = false → (thr s t).siga = false → qWaiting s q = false →
      jdRead s (qPart s q) (packetVa s q) 64 = (u, .ok bs) → hdrType h = 0 → qInJump u q = false →
      let w := setThr u t { thr s t with blocked := true, since := u.sbcyc }
      exec (.malformedPacket t) s = .next w ∧ exec (.nopPacket t) s = .next w ∧ exec (.launch t) s = .next w) ∧
    (PacketIs s u t q bs 1 → exec (.nopPacket t) s = .next (over_ u)) ∧
    (PacketIs s u t q bs 2 → ∀ v rb, jdReadBeats u part (f 8) 4 = (v, .ok rb) →
      (∀ off, recFail rb = some off → exec (.launch t) s = .next (freezeQueue (count v 25) q 1 none none 0 (natLe 2 off))) ∧
      (recFail rb = none → exec (.launch t) s = .next (over_ (handLaunch v q (h / 2 ^ 16 % 2 ^ 16) (recOf rb))))) ∧
    (PacketIs s u t q bs 3 → ∀ v cb, jdRead u part (f 8) 8 = (v, .ok cb) →
      (f 0x10 ≤ leNat cb → exec (.waitc t) s = .next (endPacket (noteCancel v q (BitVec.ofNat 64 (leNat cb))) t q (heldHdr v t h))) ∧
      (leNat cb < f 0x10 → exec (.waitc t) s = .next
        (qFlag (qset (qset (keepHdr v t h) q 0x30 (f 8)) q 0x38 (f 0x10)) q 14 true))) ∧
    (PacketIs s u t q bs 4 →
      let bits : Word := if u.cancel.contains q then BitVec.ofNat 64 (2 ^ 63) else 0
      ((f 0x18).testBit 3 = true → ∀ v, jdStore u part (f 8) (natLe 8 (BitVec.ofNat 64 (f 0x10) ||| bits).toNat) .write = (v, .ok ()) →
        exec (.sigc t) s = .next (over_ v)) ∧
      ((f 0x18).testBit 3 = false → ∀ v k ident, translateJd u part (f 8) .atomic false = (v, .ok (.mem k ident)) →
        ∃ w, exec (.sigc t) s = .next w ∧ (thr w t).siga = true ∧ (thr w t).q = (thr v t).q ∧
          w.st = (writeRun v ident k (natLe 8 ((BitVec.ofNat 64 (heldAt v ident k 8) + BitVec.ofNat 64 (f 0x10)) ||| bits).toNat)).st)) ∧
    ((thr s t).q = some q → serving s = true → (thr s t).siga = true → ∀ x, (thr s t).hdr = some x → exec (.sigc t) s = .next (endPacket s t q x)) ∧
    (PacketIs s u t q bs 5 →
      (qget u q 0x50 = 0 → exec (.barrier t) s = .next (endPacket u t q (heldHdr u t h))) ∧
      (qget u q 0x50 ≠ 0 → exec (.barrier t) s = .next
        (qFlag (qset (qset (keepHdr u t h) q 0x30 barrierWord) q 0x38 barrierWord) q 14 true))) ∧
    (PacketIs s u t q bs 6 → exec (.jump t) s = .next
      (qFlag (qset (qset (setThr u t { thr u t with hdr := some h }) q 0x40 (f 8)) q 0x48 (f 0x10 % 2 ^ 16)) q 15 true)) ∧
    ((thr s t).q = some q → (thr s t).blocked = true → (qHost s q = false ∨ (thr s t).woken = true) → ∀ v x, headerAt s q = (v, .ok x) →
      exec (.addressWatchWake t) s = .next (setThr v t { thr s t with blocked := x % 2 ^ 8 = 0, woken := false })) ∧
    ((thr s t).q = some q → (thr s t).blocked = false → qWaiting s q = true →
      exec (.addressWatchWake t) s = exec (if barrierWait s q then .barrier t else .waitc t) s)) ∧
  (∀ (s z v : State) (t q hdr h : Nat) (fin : State → State),
    let y0 := setThr (qFlag s q 14 false) t { thr s t with siga := false }
    let y1 := qset (qset y0 q 0x40 (qget y0 q 0x40 + 64)) q 0x48 0
    (qInJump s q = false ∧ z = s ∧ h = hdr ∧ fin = (fun x => qFlag x q 14 false)) ∨
      (qInJump s q = true ∧ jumpLeft s q = 1 ∧ z = qFlag y1 q 15 false ∧ h = (thr y1 t).hdr.getD 0 ∧ fin = id) →
    let va := ringVa z q
    let part := qPart z q
    let due (x : State) : Bool := hdrPub h || decide (qPubn x q ≤ qRidx x q + 1 - qget x q 0x18)
    let over_ (x : State) (no : Nat) : State :=
      let y := qset x q 0x10 (no + 1)
      fin (setThr y t { thr y t with siga := false, hdr := none })
    (∀ w, translateJd z part va .atomic false = (v, .error w) →
      endPacket s t q hdr = endFreeze v q (accessFail (va, xsub w .atomic false))) ∧
    ∀ p, translateJd z part va .atomic false = (v, .ok p) →
      let w := (physRead v part p 8).1
      let same : Bool := leNat (physRead v part p 8).2 == h
      (∀ x e, publishAt w q (qRidx w q + 1) (due w) = (x, .error e) → endPacket s t q hdr = endFreeze x q (accessFail e)) ∧
      ∀ x, publishAt w q (qRidx w q + 1) (due w) = (x, .ok ()) →
        (same = true → endPacket s t q hdr = over_ (physWrite x part p (natLe 8 0)) (qRidx w q)) ∧
        (same = false → endPacket s t q hdr = endFreeze (over_ x (qRidx w q)) q (0xFF, natLe 8 (qRidx w q)))) ∧
  (∀ (s : State) (t q hdr n : Nat), qInJump s q = true → jumpLeft s q = n + 2 →
    let y := setThr (qFlag s q 14 false) t { thr s t with siga := false }
    endPacket s t q hdr = qset (qset y q 0x40 (qget y q 0x40 + 64)) q 0x48 (n + 1)) ∧
  (∀ (s : State) (q tag : Nat) (r : LaunchRec), launchKnown s q (launchNo s q) = false → s.cancel.contains q = false →
    let t := handLaunch s q tag r
    t.marsh.length = s.marsh.length + 1 ∧ ∃ m, t.marsh.getLast? = some m ∧ m.qid = q ∧ m.tag = tag ∧ m.lrec = r ∧ m.at_ = s.sbcyc ∧ m.pkt = launchNo s q ∧
      m.owes = true ∧ launchKnown t q (launchNo s q) = true) ∧
  (∀ (s : State) (q tag : Nat) (r : LaunchRec), launchKnown s q (launchNo s q) = true → handLaunch s q tag r = s) ∧
  (∀ (s : State) (q off v x : Nat), off % 8 = 0 → x % 8 = 0 → off < 128 → x < 128 → v < 2 ^ 64 →
    s.lostStacks.contains (qcbAt s q / 2 ^ 36) = false → s.st.poison.contains (unitOf (qcbAt s q + off)) = false → s.st.poison.contains (unitOf (qcbAt s q + x)) = false →
    (∀ n k, NMap.find? s.st.ktag n = some k → k = keyIdent s 0) →
    qget (qset s q off v) q x = if x = off then v else qget s q x)

/-- R326, R327, R331, R343, R410, R411: kicks and commands. A kick makes an idle queue pending and wakes the thread of a mapped one. The commands at the Signal Box
take place in order; each changes its queue as its rule says and is complete. An activation holds those of SBFCMD (R440); CANCEL waits until every
region of the queue is saved (the model's reading, notes/assumptions/40.md, DEDUCED).
A queue that is disabled or enabled again starts without the launches it had handed on (the model's reading, notes/assumptions/39.md, DEDUCED).
R328 to R331, R437, R438: the scheduler maps the pending queue of highest effective priority on the lowest free thread while its partition has budget, or in the place of a mapped
queue of lower priority that has been resident for MINRES. A wake takes such decisions for the partitions in turn, each until none applies, and
writes the heartbeat (the model's reading, notes/assumptions/44.md, DEDUCED). An idle thread releases its queue; a thread that faults is reset,
and its queue, out of its wait and with RIDX published (the model's reading, notes/assumptions/42.md, DEDUCED), is pending again, or is frozen if its
SIGC has added. A frozen queue is disabled at once; any other at a packet's end (the model's reading, notes/assumptions/40.md, DEDUCED). A fault of the scheduler thread is only a wake (the
model's reading, notes/assumptions/67.md, DEDUCED). No queue of a partition that is swapped out is mapped (R339). -/
def Obligations.QueueCommandsAndScheduling : Prop :=
  (∀ (s : State) (q : Nat),
    let kicked (u : State) (w : State) : Prop :=
      (qState u q = 1 → w = pend u q) ∧
      (∀ t, qState u q = 3 → qThread u q = some t → w = setThr u t { thr u t with woken := true }) ∧
      (qState u q ≠ 1 → qState u q ≠ 3 → w = u)
    (s.kicks.contains q = true → ∃ w, exec (.doorbellWrite q) s = .next w ∧ kicked { s with kicks := s.kicks.erase q } w) ∧
    (∀ fn, fnOn s fn = true → q < 4096 →
      (fn = 16 ∨ qPart s q = fnPart s fn → ∃ w, exec (.hostDoorbellWrite fn q) s = .next w ∧ kicked s w) ∧
      (fn ≠ 16 → qPart s q ≠ fnPart s fn → exec (.hostDoorbellWrite fn q) s = .next (count s 25))) ∧
    ∀ (w : Word) (r : List (Bool × Word)),
      let u := { s with sbcmds := r }
      let prio := qPrio u q
      (NextCommand s false 0 q w r → qState u q = 0 →
        exec (.sbqcmdEnable q) s = .next
          (let v := qset (qset (qset u q 0x10 0) q 0x18 0) q 0x50 0
           watchQueue (qEnter (forgetLaunches v q) q 1 0 (qPrio v q)) q)) ∧
      (NextCommand s false 1 q w r → qState s q ≠ 0 →
        (atBoundary s q = true ∨ qState s q = 4 →
          let v := qEnter (unmap u q) q 0 0 prio
          exec (.sbqcmdDisable q) s = .next { v with watch := NMap.erase v.watch q }) ∧
        (atBoundary s q = false → qState s q ≠ 4 → Waits (.sbqcmdDisable q) s)) ∧
      (NextCommand s false 2 q w r → ∃ t, exec (.sbqcmdKick q) s = .next t ∧ kicked u t) ∧
      (∀ p, NextCommand s false 3 q w r → wfld w 16 4 = p →
        let v := qset u q 8 (setFld (qget u q 8) 4 4 p)
        exec (.sbqcmdPrio q p) s = .next (qset v q 0x20 (setFld (qget v q 0x20) 8 6 (qEprio v q)))) ∧
      (holdsStops s = true → Waits (.sbfcmdResume q) s ∧ Waits (.sbfcmdCancel q) s ∧ Waits (.sbfcmdFreeze q) s ∧ Waits (.sbfcmdClear q) s) ∧
      (holdsStops s = false →
        (NextCommand s true 0 q w r →
          (qState u q = 4 → (∀ p ∈ s.regions, p.2.qid = q → p.2.notResumable = false) → exec (.sbfcmdResume q) s = .next (pend u q)) ∧
          (qState u q ≠ 4 → exec (.sbfcmdResume q) s = .next (count u 25))) ∧
        (NextCommand s true 1 q w r →
          (qState u q = 4 → (∀ p ∈ s.regions, p.2.qid ≠ q) →
            ∃ t, exec (.sbfcmdCancel q) s = .next t ∧ q ∈ t.cancel ∧ t.st = (pend u q).st ∧ t.regions = s.regions ∧ t.sbcmds = r) ∧
          (qState u q ≠ 4 → exec (.sbfcmdCancel q) s = .next (count u 25)) ∧
          (qState u q = 4 → (∃ p ∈ s.regions, p.2.qid = q ∧ p.2.st ≠ .saved) → Waits (.sbfcmdCancel q) s)) ∧
        (NextCommand s true 2 q w r →
          (qState u q ≠ 0 → qState u q ≠ 4 →
            exec (.sbfcmdFreeze q) s = .next (freezeQueue u q 5 none none 0 [])) ∧
          (qState u q = 0 ∨ qState u q = 4 → exec (.sbfcmdFreeze q) s = .next (count u 25))) ∧
        (NextCommand s true 3 q w r →
          (s.cancel.contains q = true → ∃ t, exec (.sbfcmdClear q) s = .next t ∧ t.cancel = s.cancel.filter (· != q) ∧ t.sbcmds = r) ∧
          (s.cancel.contains q = false → exec (.sbfcmdClear q) s = .next (count u 25))))) ∧
  ((∀ (s : State) (p c : Nat), pendingBest s p = some c → qState s c = 2 ∧ qPart s c = p ∧
    ∀ d < 4096, qState s d = 2 → qPart s d = p → qEprio s d ≤ qEprio s c ∧
      (qEprio s d = qEprio s c → qSince s c ≤ qSince s d ∧ (qSince s c = qSince s d → c ≤ d))) ∧
  (∀ (s : State) (p : Nat), s.swapped.contains p = true → schedStep s p = none) ∧
  (∀ (s : State) (p c : Nat), pendingBest s p = some c → s.swapped.contains p = false →
    let readable (w : State) (t : Nat) : Prop := ∃ v x, headerAt (setThr (qEnter w c 3 t (qPrio w c)) t { Thr.reset with q := some c }) c = (v, .ok x)
    (∀ t < 32, (mappedOf s p).length < partBudget s p → (thr s t).q = none → (∀ n < t, (thr s n).q ≠ none) → readable s t →
      ∃ u, schedStep s p = some u ∧ (thr u t).q = some c ∧ (thr u t).blocked = false ∧ (thr u t).siga = false ∧ ∀ n, n ≠ t → thr u n = thr s n) ∧
    (∀ v t, partBudget s p ≤ (mappedOf s p).length → displaced s p = some v → qThread s v = some t →
      (qEprio s v < qEprio s c → readable (afterUnmap (unmap s v) v) t → ∃ u, schedStep s p = some u ∧ (thr u t).q = some c) ∧
      (qEprio s c ≤ qEprio s v → schedStep s p = none))) ∧
  (∀ (s : State),
    (serving s = false → exec .schedulerWake s = .next { s with heartbeat := s.sbcyc }) ∧
    (serving s = true → (∀ p < 16, schedStep s p = none) → exec .schedulerWake s = .next { s with heartbeat := s.sbcyc }) ∧
    (serving s = true → ∀ (p n : Nat) (c : Nat → State), p < 16 → n < 2 ^ 22 → c 0 = s → (∀ i < n, schedStep (c i) p = some (c (i + 1))) →
      schedStep (c n) p = none → (∀ r < p, schedStep s r = none) → (∀ r < 16, p < r → schedStep (c n) r = none) →
      exec .schedulerWake s = .next { c n with heartbeat := s.sbcyc }) ∧
    (∃ t, exec .schedulerWake s = .next t ∧ exec .schedulerThreadFault s = .next t) ∧
    (∀ q < 4096, qState s q = 2 → qget s q 0x20 / 2 ^ 8 % 2 ^ 6 ≠ qEprio s q →
      ∃ t, exec (.ageingStep q) s = .next t ∧ exec .schedulerWake (qset s q 0x20 (setFld (qget s q 0x20) 8 6 (qEprio s q))) = .next t) ∧
    (∀ q < 4096, qState s q = 3 →
      (64 * wfld (mreg s (0x100040 + 8 * qPart s q)) 16 16 ≤ s.sbcyc - qSince s q → 
        ∃ t, exec (.minresReached q) s = .next t ∧ exec .schedulerWake s = .next t) ∧
      (s.sbcyc - qSince s q < 64 * wfld (mreg s (0x100040 + 8 * qPart s q)) 16 16 → Waits (.minresReached q) s))) ∧
  (∀ (s : State) (t q : Nat), (thr s t).q = some q →
    (∀ n, (thr s t).blocked = true → qWaiting s q = false → n = 64 * wfld (mreg s (0x100040 + 8 * qPart s q)) 32 16 → n ≠ 0 →
      (n ≤ s.sbcyc - (thr s t).since → exec (.idleTimeout t) s = .next (afterUnmap (unmap s q) q)) ∧
      (s.sbcyc - (thr s t).since < n → Waits (.idleTimeout t) s)) ∧
    ((thr s t).siga = true → exec (.sbThreadFault t) s = .next (freezeQueue (count s 26) q 7 none none 0 [])) ∧
    ((thr s t).siga = false → qThread s q = some t →
      let w := qFlag (count s 26) q 14 false
      ∀ v, publishAt w q (qRidx w q) true = (v, .ok ()) → exec (.sbThreadFault t) s = .next (pend { v with threads := NMap.erase v.threads t } q))) ∧
  (∀ s : State, (2 ^ 24 ≤ s.sbcyc - s.heartbeat → (∀ p ∈ s.threads, (thr s p.1).siga = false ∧ ∃ q, (thr s p.1).q = some q) → (s.threads.map Prod.fst).Nodup →
      ∃ t, exec .sbHeartbeatTimeout s = .next t ∧ t.threads = [] ∧ t.heartbeat = s.sbcyc) ∧
    (s.sbcyc - s.heartbeat < 2 ^ 24 → Waits .sbHeartbeatTimeout s)))


/-! ### The management space, firmware and links -/

/-- R7, R17, R20, R36, R87, R128, R329, R332, R351, R352, R354, R425, R436: RESET leaves every part at reset but for what is not the package's or is stored for good (which
parts these are is the model's reading, notes/assumptions/48.md, DEDUCED; that all other bytes read 0 is its choice, notes/assumptions/5.md,
DESIGN CHOICE); READY bits are set as units become ready, and COLMAP and UP follow the repair record (notes/assumptions/54.md, DEDUCED); samples of temperature and power;
writes change the fields that may be written and nothing else, and one that breaks its rule is counted in
class 25 and refused; a new ageing interval brings the EPRIO of the pending queues up to date. A request that is written to its register stays
outstanding until it is done (notes/assumptions/49.md, DEDUCED). -/
def Obligations.Management : Prop :=
  (∀ (s : State), ∃ t, exec .reset s = .next t ∧ t.tiles = [] ∧ t.groups = [] ∧ t.regions = [] ∧ t.mgmt = [] ∧ t.chans = [] ∧ t.threads = [] ∧
    t.marsh = [] ∧ t.remotes = [] ∧ t.errcnt = [] ∧ t.jcyc = 0 ∧ t.sbcyc = 0 ∧ t.st.full = [] ∧ t.st.poison = [] ∧ t.st.ktag = [] ∧ t.repair = s.repair ∧
    t.sec.rollback = s.sec.rollback ∧ t.sec.leaf = s.sec.leaf ∧ t.sec.gen = s.sec.gen ∧ t.sec.fwState = 0 ∧ keyIdent t 0 = 1 ∧
    ∀ k, memGet t.st.mem k = if 2 ^ 52 ≤ k then memGet s.st.mem k else 0) ∧
  (∀ (s : State) (bit : Nat), readyBit s 64 = true →
    (∀ page < 64, bit = page → readyBit s (89 + pageDie (page % 8) (page / 8)) = true →
      s.repair.contains (pageColumn s (page % 8) (page / 8)) = false →
      ∃ t, exec (.functionReady (bit / 64) (bit % 64)) s = .next t ∧ ∀ n < 94, readyBit t n = (decide (n = bit) || readyBit s n)) ∧
    (∀ port < 12, bit = 77 + port → ∃ t, exec (.functionReady (bit / 64) (bit % 64)) s = .next t ∧ (mreg t (0x608 + 8 * port)).getLsbD 10 = true ∧
      ∀ n < 94, readyBit t n = (decide (n = bit) || readyBit s n)) ∧
    (∀ die < 4, bit = 89 + die → readyBit s bit = false → (∀ i ∈ diePages die, readyBit s i = false) →
      let ret := retiredOf s die
      ∃ t, exec (.functionReady (bit / 64) (bit % 64)) s = .next t ∧ wfld (mreg t (0x300 + 4 * die)) 0 5 = ret ∧
        (∀ n < 94, readyBit t n = (decide (n = bit) || readyBit s n)) ∧
        (ret = 31 ↔ ∀ pos < 16, s.repair.contains (17 * die + pos) = false) ∧ (ret ≠ 31 → ret < 16 ∧ s.repair.contains (17 * die + ret) = true) ∧
        ∀ pos < 17, (mreg t (0x1000 + 8 * (17 * die + pos))).getLsbD 50 = if pos = 16 then decide (ret ≠ 31) else decide (pos ≠ ret)) ∧
    (64 ≤ bit → bit < 77 ∨ bit = 93 → ∃ t, exec (.functionReady (bit / 64) (bit % 64)) s = .next t ∧ ∀ n < 94, readyBit t n = (decide (n = bit) || readyBit s n))) ∧
  (∀ (s : State) (l : List (Nat × Nat × Nat)), ∃ t, exec (.thermalSample l) s = .next t ∧
    ∀ c < 68, let old := mreg s (0x1000 + 8 * c)
      let v := mreg t (0x1000 + 8 * c)
      let got : Nat × Nat := ((l.find? (fun p => p.1 == c)).map Prod.snd).getD (wfld old 0 10, wfld old 16 10)
      wfld v 0 10 = got.1 % 2 ^ 10 ∧ wfld v 16 10 = got.2 % 2 ^ 10 ∧ wfld v 32 10 = wfld old 32 10 ∧ wfld v 56 8 = (wfld old 56 8 + 1) % 2 ^ 8 ∧
      v.getLsbD 48 = decide (wfld old 32 10 ≤ max (got.1 % 2 ^ 10) (got.2 % 2 ^ 10))) ∧
  (∀ (s : State) (watts : Nat), ∃ t, exec (.powerSample watts) s = .next t ∧
    let old := mreg s 0x400
    let v := mreg t 0x400
    let dp := if wfld old 0 12 < watts then max 1 (wfld old 24 7 - 4) else min 64 (wfld old 24 7 + 1)
    wfld v 0 12 = wfld old 0 12 ∧ wfld v 12 12 = watts % 2 ^ 12 ∧ wfld v 24 7 = dp % 2 ^ 7 ∧ wfld v 32 8 = wfld old 32 8 ∧
    ∀ rid r, s.region? rid = some r → ∃ w, t.region? rid = some w ∧ w.dutyNext ≤ wfld v 24 7 ∧ w.duty = r.duty ∧
      w.dutyNext = min (wfld v 24 7)
        (let over_ : Int := (hottest s r.px r.py r.lrec.width r.lrec.height : Int) - 4 * (wfld old 32 8 : Int) + 32
         if over_ ≤ 0 then 64 else max 1 (64 - 8 * cdiv over_.toNat 4))) ∧
  (∀ (s : State) (off : Nat) (v : Word), off ≠ 0x100140 → off ≠ 0x100160 → isRequest off = false →
    (rwMask off = 0 → Waits (.registerWrite off v) s) ∧
    (rwMask off ≠ 0 → ∃ x, exec (.registerWrite off v) s = .next (setMreg s off x) ∧ TakesBits (rwMask off) (mreg s off) v x)) ∧
  (∀ (s : State) (v : Word),
    (wfld v 12 4 < 4 → exec (.registerWrite 0x100140 v) s = .next { s with sbcmds := s.sbcmds ++ [(false, v)] } ∧
      exec (.registerWrite 0x100160 v) s = .next { s with sbcmds := s.sbcmds ++ [(true, v)] }) ∧
    (4 ≤ wfld v 12 4 → exec (.registerWrite 0x100140 v) s = .next (count s 25)) ∧
    (wfld v 4 2 < 3 → ∃ w, exec (.registerWrite 0x2C00 v) s = .next { s with tlbinv := s.tlbinv ++ [w] } ∧ wfld w 0 8 = wfld v 0 8 ∧ wfld w 16 48 = wfld v 16 48) ∧
    ∀ off, off = 0x2C10 ∨ off = 0x530 ∨ (off = 0x500 ∧ wfld v 10 2 < 2 ∧ wfld v 0 10 ≠ 0) ∨ (off = 0x520 ∧ wfld v 0 2 < 3) →
      ∃ w, exec (.registerWrite off v) s = .next { s with jobs := s.jobs ++ [(off, w)] } ∧ jobOpen { s with jobs := s.jobs ++ [(off, w)] } off = true) ∧
  (∀ (s : State) (p m : Nat) (v : Word), p < 16 → m < 4 →
    let good := wfld v 10 4 ≤ 9 ∧ wfld v 0 10 + 2 ^ wfld v 10 4 ≤ 768
    (good → exec (.ywinWrite p m v) s = .next (setMreg s (0x2000 + 0x20 * p + 8 * m) (BitVec.ofNat 64 (v.toNat % 2 ^ 15)))) ∧
    (¬ good → exec (.ywinWrite p m v) s = .next (count s 25))) ∧
  (∀ (s : State) (p : Nat) (v : Word), p < 16 →
    let others_ := (((range 0 16).filter (· != p)).map (partBudget s)).sum
    (others_ + wfld v 0 6 ≤ 32 → ∃ x, exec (.sbpartWrite p v) s = .next
        (let t := setMreg s (0x100040 + 8 * p) x
         ((range 0 4096).filter (fun q => qState t q == 2 && qPart t q == p)).foldl
           (fun u q => qset u q 0x20 (setFld (qget u q 0x20) 8 6 (qEprio u q))) t) ∧
      TakesBits (2 ^ 6 - 1 + (2 ^ 5 - 1) * 2 ^ 8 + (2 ^ 32 - 1) * 2 ^ 16) 0 v x) ∧
    (32 < others_ + wfld v 0 6 → exec (.sbpartWrite p v) s = .next (count s 25)) ∧
    ((∀ q < 16, q ≠ p → mreg s (0x1000C0 + 8 * q) &&& v = 0) → exec (.partpgWrite p v) s = .next (setMreg s (0x1000C0 + 8 * p) v)) ∧
    (∀ q < 16, q ≠ p → mreg s (0x1000C0 + 8 * q) &&& v ≠ 0 → exec (.partpgWrite p v) s = .next (count s 25))) ∧
  (∀ (s : State) (rgn : Nat) (v : Word), rgn < 4096 →
    (v.getLsbD 0 = true → ∃ x, exec (.chkstClear rgn v) s = .next (setMreg s (0x400000 + 16 * rgn) x) ∧ TakesBits 3 (mreg s (0x400000 + 16 * rgn)) 0 x) ∧
    (v.getLsbD 0 = false → Waits (.chkstClear rgn v) s)) ∧
  (∀ (s : State) (die c word : Nat) (v : Word), die < 4 → c < 1024 →
    let e := chan s (die * 1024 + c)
    ∃ t, exec (.channelTableWrite die c word v) s = .next t ∧ (∀ n, n ≠ die * 1024 + c → chan t n = chan s n) ∧
      let f := chan t (die * 1024 + c)
      (e.en = false → word = 0 → f.home = v.getLsbD 1 ∧ f.scope = wfld v 2 2 ∧ f.logcap = wfld v 4 4 ∧ f.part = wfld v 8 4 ∧ f.base = wfld v 32 32 ∧ f.en = v.getLsbD 0 ∧
        (v.getLsbD 0 = true → f.wptr = 0 ∧ f.rptr = 0 ∧ f.swptr = 0 ∧ f.srptr = 0 ∧ f.spill = false ∧ f.closed = false ∧ f.nseg = 0 ∧ f.recs = 0 ∧ f.grows = 0)) ∧
      (e.en = true → word = 0 → v.getLsbD 0 = true → f = e) ∧
      (e.en = true → word = 0 → v.getLsbD 0 = false →
        f = { e with en := false }) ∧
      (word = 1 → e.en = false ∨ (e.wbound = false ∧ e.rbound = false) → f = { e with gpos := wfld v 0 5 }) ∧
      (1 < word → f = e))

/-- R96, R97, R100, R101, R353, R421, R439 to R442: invalidations queue up and complete in order, after which no TLB holds what they name; the commands of the KV unit;
key slots; and a firmware image from staging through checks and draining to commit. A request that is outstanding at its register is taken in order,
and an event without one stands for its write and its completion at once (the model's reading, notes/assumptions/49.md, DEDUCED); an invalidation waits
for requests that have left the package (notes/assumptions/51.md, DEDUCED); the checks end once no save is under way, by a further ACTIVATE event, and
are made again at the commit (notes/assumptions/52.md, DEDUCED). The byte order of a signature's leaf index is the model's reading
(notes/assumptions/85.md). -/
def Obligations.TranslationsKeysAndFirmware : Prop :=
  (∀ (s : State) (part size idx : Nat) (va : Word),
    exec (.tlbinvPage part size va) s = .next { s with tlbinv := s.tlbinv ++ [tlbinvWord part 0 size (wfld va 16 48)] } ∧
    exec (.tlbinvPartition part) s = .next { s with tlbinv := s.tlbinv ++ [tlbinvWord part 1 0 0] } ∧
    exec (.tlbinvKvIndex part idx) s = .next { s with tlbinv := s.tlbinv ++ [tlbinvWord part 2 0 (idx % 2 ^ 28)] }) ∧
  (∀ (s : State) (w : Word) (r : List Word), s.tlbinv = w :: r →
    (accessesDone s (wfld w 0 4) = false → Waits .tlbInvalidationComplete s) ∧
    (accessesDone s (wfld w 0 4) = true → ∃ t, exec .tlbInvalidationComplete s = .next t ∧ t.tlbinv = r ∧ t.st = s.st ∧
      (∀ n, ∀ e ∈ (t.tile n).utlb, invalidates w e = false) ∧ (∀ n, ∀ e ∈ (t.group n).tlb, invalidates w e = false) ∧
      (∀ n, ∀ e ∈ (s.tile n).utlb, invalidates w e = false → e ∈ (t.tile n).utlb) ∧
      ∀ n, t.tile n = { s.tile n with utlb := (t.tile n).utlb })) ∧
  (∀ (part size target idx : Nat) (va : Word) (e : Tlb), part < 16 →
    (invalidates (tlbinvWord part 0 size (wfld va 16 48)) e = true ↔
      let log := match size % 4 with | 0 => 16 | 1 => 21 | 2 => 25 | _ => 29
      let base := va.toNat / 2 ^ log * 2 ^ log
      e.part = part ∧ e.base < base + 2 ^ log ∧ base < e.base + 2 ^ e.log) ∧
    (invalidates (tlbinvWord part 1 size target) e = true ↔ e.part = part) ∧
    (invalidates (tlbinvWord part 2 size (idx % 2 ^ 28)) e = true ↔ e.part = part ∧ ∃ x, e.kv = some (idx % 2 ^ 28, x))) ∧
  (∀ (s : State) (off : Nat) (w : Word),
    (jobOpen s off = false → takeJob s off w = some s) ∧
    (s.jobs.find? (fun j => j.1 == off) = some (off, w) → takeJob s off w = some { s with jobs := s.jobs.erase (off, w) }) ∧
    ∀ x, x ≠ w → s.jobs.find? (fun j => j.1 == off) = some (off, x) → takeJob s off w = none) ∧
  (∀ (r s : State) (part dst src blk : Nat), part < 16 → kvEnabled s part = true →
    let takes (op d x : Nat) : Prop := takeJob r 0x2C10 (kvopWord part op d x) = some s
    (takes 0 dst 0 → dst < kvField s part 0x24 4 →
      (∀ u q, kvPop s part (kvField s part 0x20 4 + 1) = (u, some q) →
        exec (.kvopMap part dst) r = .next (let v := jdWrite u (kvRefAt u part q) 2 1
          dropKv (kvSetEntry v part dst (q % 2 ^ 25 + 2 ^ 31)) part dst)) ∧
      (∀ u, kvPop s part (kvField s part 0x20 4 + 1) = (u, none) →
        exec (.kvopMap part dst) r = .next (let v := kvSetEntry u part dst (setFld (kvEntry u part dst) 31 1 0)
          dropKv (tableErr v part 0 (kvopDetail 0 dst)) part dst))) ∧
    (∀ u q n, takes 1 dst src → dst < kvField s part 0x24 4 → src < kvField s part 0x24 4 → kvBlock s part src = .ok q → kvCountS s part q = (u, n) →
      (n < 65535 →
        exec (.kvopShare part dst src) r = .next (let v := jdWrite u (kvRefAt u part q) 2 (n + 1)
          dropKv (dropKv (kvSetEntry v part dst (q % 2 ^ 25 + 2 ^ 31)) part dst) part src)) ∧
      (n = 65535 → exec (.kvopShare part dst src) r = .next (tableErr u part 0 (kvopDetail 1 dst)))) ∧
    (∀ u q n, takes 2 dst 0 → dst < kvField s part 0x24 4 → kvBlock s part dst = .ok q → kvCountS s part q = (u, n) →
      let v := dropKv (kvSetEntry u part dst (setFld (kvEntry u part dst) 31 1 0)) part dst
      let w := jdWrite v (kvRefAt v part q) 2 ((n + 65535) % 65536)
      (n ≠ 1 → n < 65536 → exec (.kvopDrop part dst) r = .next w) ∧
      (n = 1 → exec (.kvopDrop part dst) r = .next ((kvPush w part q).getD (tableErr w part 0 (kvopDetail 2 dst))))) ∧
    (takes 3 blk 0 →
      let h := kvField s part 0x28 4
      let t := kvField s part 0x2C 4
      let len := (t + 2 ^ 32 - h) % 2 ^ 32
      (len = kvField s part 0x20 4 → exec (.kvopFreeadd part blk) r = .next (jdWrite (tableErr s part 0 (kvopDetail 3 blk)) (kvRefAt s part blk) 2 0)) ∧
      (len ≠ kvField s part 0x20 4 →
        exec (.kvopFreeadd part blk) r = .next (kvSetField (jdWrite s (kvFreeAt s part t) 4 blk) part 0x2C ((t + 1) % 2 ^ 32)))) ∧
    (∀ off key u q, ∀ bytes : List Byte, off + bytes.length ≤ 16384 → key < 1024 → kvOwn s part dst key = (u, .ok q) →
      exec (.kvWrite part dst off key bytes) s = .next (writeRun u (keyIdent u key) (kvBlockAt u part q + off) bytes))) ∧
  (∀ (s : State) (slot : Nat), 0 < slot → slot < 1024 →
    (takeJob s 0x500 (BitVec.ofNat 64 slot) ≠ none →
      ∃ t, exec (.keyGenerate slot) s = .next t ∧ keyIdent t slot = s.sec.keyNo ∧ t.sec.keyNo = s.sec.keyNo + 1 ∧ ∀ n, n ≠ slot → keyIdent t n = keyIdent s n) ∧
    (takeJob s 0x500 (BitVec.ofNat 64 (slot + 2 ^ 10)) ≠ none →
      ∃ t, exec (.keyErase slot) s = .next t ∧ keyIdent t slot = 0 ∧ ∀ n, n ≠ slot → keyIdent t n = keyIdent s n)) ∧
  (∀ (s : State) (src : Nat),
    let img := readRun s (keyIdent s 0) (src / 4096 * 4096 % 2 ^ 39) Config.imageLen
    let fails (i : Instr) (code : Nat) : Prop :=
      ∃ t, exec i s = .next t ∧ t.sec = { s.sec with fwResult := code } ∧ NMap.findD t.errcnt 26 0 = min (NMap.findD s.errcnt 26 0 + 1) (2 ^ 48 - 1)
    let wrote (op at_ : Nat) : Prop := takeJob s 0x520 (fwWord op at_) ≠ none
    let asked : Bool := (s.jobs.find? (fun j => j.1 == 0x520)).any (fun j => j.2 == fwWord 1 0)
    (wrote 0 src → s.sec.fwState ≠ 2 → s.sec.fwState ≠ 3 →
      (Config.signatureGood img = false → fails (.fwStage src) 1) ∧
      (Config.signatureGood img = true → Config.imageLeaf img ≤ s.sec.rollback → fails (.fwStage src) 2) ∧
      (Config.signatureGood img = true → s.sec.rollback < Config.imageLeaf img →
        ∃ t, exec (.fwStage src) s = .next t ∧ t.sec.fwState = 1 ∧ t.sec.fwResult = 0 ∧ t.sec.staged = some img ∧ t.sec.meass = Config.measure img ∧
          t.sec.rollback = s.sec.rollback ∧ t.sec.measx = s.sec.measx)) ∧
    (wrote 0 src → s.sec.fwState = 2 ∨ s.sec.fwState = 3 → fails (.fwStage src) 4) ∧
    (wrote 2 0 → s.sec.fwState ≠ 2 → s.sec.fwState ≠ 3 → fails .fwAbort 4) ∧
    (wrote 1 0 → s.sec.fwState = 1 → ∃ t, exec .fwActivate s = .next t ∧ t.sec.fwState = 2 ∧ t.sec.fwResult = 0 ∧ (fwst t).getLsbD 3 = true) ∧
    (wrote 1 0 → s.sec.fwState ≠ 1 → s.sec.fwState ≠ 2 ∨ asked = true → fails .fwActivate 4) ∧
    (s.sec.fwState = 2 → asked = false → (∃ p ∈ s.regions, p.2.st = .stopping) → Waits .fwActivate s) ∧
    (s.sec.fwState = 2 → asked = false → (∀ p ∈ s.regions, p.2.st ≠ .stopping) →
      ((∀ p ∈ s.regions, p.2.st = .saved → p.2.layout ≤ s.sec.lays ∧ s.sec.lays ≤ p.2.layout + 2) → ∃ t, exec .fwActivate s = .next t ∧ t.sec.fwState = 3) ∧
      (∀ p ∈ s.regions, p.2.st = .saved → s.sec.lays < p.2.layout ∨ p.2.layout + 2 < s.sec.lays →
        ∃ t, exec .fwActivate s = .next t ∧ t.sec.fwState = 1 ∧ t.sec.fwResult = 3 ∧ p.2.qid ∈ t.sec.blocked ∧ t.sec.nblk = t.sec.blocked.length)) ∧
    (∀ j, takeJob s 0x520 (fwWord 2 0) = some j → s.sec.fwState = 2 ∨ s.sec.fwState = 3 →
      exec .fwAbort s = .next (j.heldStops.foldl preempt { j with sec := { s.sec with fwState := 1, fwResult := 0 }, heldStops := [] })) ∧
    (∀ i, s.sec.fwState = 3 → s.sec.staged = some i → (∃ p ∈ s.threads, p.2.siga = true) ∨ (∃ p ∈ s.regions, p.2.st = .stopping) →
      Waits .fwCommit s) ∧
    (∀ i, s.sec.fwState = 3 → s.sec.staged = some i → (∀ p ∈ s.threads, p.2.siga = false) → (∀ p ∈ s.regions, p.2.st ≠ .stopping) →
      (∀ p ∈ s.regions, p.2.st = .saved → p.2.layout ≤ s.sec.lays ∧ s.sec.lays ≤ p.2.layout + 2) →
      ∃ t, exec .fwCommit s = .next t ∧ t.sec.fwState = 4 ∧ t.sec.measx = s.sec.meass ∧ t.sec.meass = [] ∧ t.sec.layx = s.sec.lays ∧
        t.sec.rollback = Config.imageLeaf i ∧ (s.heldStops = [] → t.regions = s.regions) ∧ t.heldStops = [])) ∧
  (∀ (s : State) (addr : Nat), takeJob s 0x530 (BitVec.ofNat 64 (addr / 64 % 2 ^ 58 * 64)) ≠ none →
    (quotesOver s.sec = true → ∃ t, exec (.attestationRequest addr) s = .next t ∧ t.sec.attResult = 5 ∧ t.sec.leaf = s.sec.leaf ∧ t.st = s.st) ∧
    (quotesOver s.sec = false → s.sec.leaf < 2 ^ 20 - 2 → s.sec.leaf ≠ 2 ^ 20 - 2 ^ 16 - 1 →
      let req := readRun s (keyIdent s 0) (addr / 64 * 64 % 2 ^ 39) 64
      let body := quoteBody s.sec (req.take 32)
      ∃ t, exec (.attestationRequest addr) s = .next t ∧ t.sec.attResult = 0 ∧ t.sec.leaf = s.sec.leaf + 1 ∧ t.sec.gen = s.sec.gen ∧
        t.st = (writeRun s (keyIdent s 0) (leNat ((req.drop 32).take 8) % 2 ^ 39) (body ++ quoteSig s.sec body)).st ∧
        (quoteSig s.sec body).take 4 = natLe 4 s.sec.leaf ∧ (quoteSig s.sec body).length = 2820) ∧
    (quotesOver s.sec = false → s.sec.leaf = 2 ^ 20 - 2 → s.sec.gen < 255 →
      ∃ t, exec (.attestationRequest addr) s = .next t ∧ t.sec.attResult = 0 ∧ t.sec.leaf = 0 ∧ t.sec.gen = s.sec.gen + 1 ∧
        t.sec.cert = Config.successor s.sec.gen))

/-- R123, R341, R342, R344, R443, R450: accesses of the host through BAR4. The function's partition translates the address; a function that is off, and an atomic that is not served, is answered Unsupported Request, and
the former's writes are dropped (the model's reading, notes/assumptions/61.md, DEDUCED); an access that does not translate is counted in class 25 and answered the same. An access waits while
a write or AtomicOp through BAR4 to a peer is not performed, whichever function it went through (the host is one requester: the model's reading,
notes/assumptions/102.md, DEDUCED). Completions of host requests land; one that
does not come, or comes poisoned, gives zero; a link that goes down clears READY.HOST.
R371, R379, R380, R443, R444: a lost link of the mesh only counts; a row of HBM that is due is repaired; a stack that is lost leaves READY, and so does a UALink port that goes
down (what else each of these events does, or leaves, is the model's reading: notes/assumptions/58.md, notes/assumptions/59.md,
notes/assumptions/60.md, DEDUCED). -/
def Obligations.HostPortAndLinks : Prop :=
  ((∀ (s u : State) (fn off n k ident : Nat), fn ≤ 16 → 0 < n → off + n ≤ 2 ^ 38 → off % 4096 + n ≤ 4096 →
    let part := wfld (mreg s (0x800 + 8 * fn)) 0 4
    let va := (wfld (mreg s (0x800 + 8 * fn)) 12 36 * 4096 + off) % 2 ^ 64
    let told (v : State) (bad : Bool) (x : Nat) : State := { v with hostOut := v.hostOut ++ [(if bad then 1 else 0, x)] }
    let failed (v : State) (sub : Nat) : State :=
      countRec v { ErrRec.base v 25 1 with part := wfld (mreg v (0x800 + 8 * fn)) 0 4, detail := natLe 6 va ++ natLe 1 sub ++ natLe 1 fn }
    (fnOn s fn = false →
      exec (.bar4Read fn off n) s = .next (told s true 0) ∧
      (∀ bs : List Byte, bs.length = n → ∀ p, Waits (.bar4Write fn off bs p) s) ∧
      (∀ op dbl src cmp, n = (if dbl = true then 8 else 4) → off % n = 0 → exec (.bar4Atomicop fn off op dbl src cmp) s = .next (told s true 0))) ∧
    (fnOn s fn = true → barBusy s = true →
      exec (.bar4Read fn off n) s = .next { s with jdStarved := true } ∧
      (∀ bs : List Byte, bs.length = n → ∀ p, exec (.bar4Write fn off bs p) s = .next { s with jdStarved := true }) ∧
      (∀ op dbl src cmp, n = (if dbl = true then 8 else 4) → off % n = 0 → hostServes op = true →
        exec (.bar4Atomicop fn off op dbl src cmp) s = .next { s with jdStarved := true })) ∧
    (fnOn s fn = true → barBusy s = false →
      (translateJd s part va .read false = (u, .ok (.mem k ident)) →
        exec (.bar4Read fn off n) s = .next (told u false (heldAt u ident k n))) ∧
      (∀ w, translateJd s part va .read false = (u, .error w) →
        exec (.bar4Read fn off n) s = .next (told (failed u w) true 0)) ∧
      (∀ bs : List Byte, bs.length = n →
        (translateJd s part va .write false = (u, .ok (.mem k ident)) →
          exec (.bar4Write fn off bs false) s = .next (writeRun u ident k bs) ∧
          ∃ t, exec (.bar4Write fn off bs true) s = .next t ∧
            NMap.findD t.errcnt 15 0 = min (NMap.findD (writeRun u ident k bs).errcnt 15 0 + 1) (2 ^ 48 - 1)) ∧
        (∀ w, translateJd s part va .write false = (u, .error w) → exec (.bar4Write fn off bs false) s = .next (failed u (w + 16)))) ∧
      (∀ op dbl src cmp, n = (if dbl = true then 8 else 4) → off % n = 0 → translateJd s part va .atomic false = (u, .ok (.mem k ident)) →
        (hostServes op = true →
          exec (.bar4Atomicop fn off op dbl src cmp) s = .next (told
            (match amoGives op n (heldAt u ident k n) src.toNat cmp.toNat with | some x => writeRun u ident k (natLe n x) | none => u) false
            (heldAt u ident k n))) ∧
        (hostServes op = false → exec (.bar4Atomicop fn off op dbl src cmp) s = .next (told s true 0))))) ∧
  (∀ (s : State) (n no i : Nat) (r : Remote) (zx acq : Bool) (d : Reg) (sig : Option Eng), NMap.find? s.remotes no = some r → r.host = true → r.isAtomic = false →
    r.tile < 2048 → r.n = n → n = 1 ∨ n = 2 ∨ n = 4 ∨ n = 8 →
    flightAt (s.tile r.tile) r.eng (fun w => match w with | .remote m _ _ _ _ => m == no | _ => false) = some (i, .remote no n zx acq d) →
    InFlight (s.tile r.tile) r.eng i (.remote no n zx acq d) sig (some d) →
    let u := { s with remotes := NMap.erase s.remotes no }
    (∃ t, exec (.pcieCompletion no false) s = .next t ∧
      Completed u t r.tile r.eng i sig (some d) (extended zx n (heldAt s 0 (2 ^ 52 + r.pa) n))) ∧
    (∃ t v, exec (.pcieCompletion no true) s = .next t ∧ Completed v t r.tile r.eng i sig (some d) 0 ∧ v.remotes = u.remotes ∧ v.tiles = s.tiles ∧
      NMap.findD v.errcnt 15 0 = min (NMap.findD s.errcnt 15 0 + 1) (2 ^ 48 - 1)) ∧
    (∃ t v, exec (.completionTimeout no) s = .next t ∧ Completed v t r.tile r.eng i sig (some d) 0 ∧ v.remotes = u.remotes ∧ v.tiles = s.tiles ∧
      NMap.findD v.errcnt 15 0 = min (NMap.findD s.errcnt 15 0 + 1) (2 ^ 48 - 1))) ∧
  (∀ s : State, (hostUp s = false → Waits .pcieLinkDown s) ∧
    (hostUp s = true → s.remotes = [] → (mreg s 0x100000).getLsbD 0 = false →
      ∃ t, exec .pcieLinkDown s = .next t ∧ hostUp t = false ∧ t.tiles = s.tiles ∧ t.regions = s.regions ∧
        NMap.findD t.errcnt 15 0 = min (NMap.findD s.errcnt 15 0 + 1) (2 ^ 48 - 1)))) ∧
  (∀ (s : State),
    (∀ link, exec (.meshLinkLost link) s = .next (countRec s (ErrRec.base s 11 3))) ∧
    (∀ pa, s.rows.contains (Config.hbmRow pa) = true → ∃ t, exec (.hbmRowRepair pa) s = .next t ∧ t.rows = s.rows.filter (· != Config.hbmRow pa) ∧
      NMap.findD t.errcnt 6 0 = min (NMap.findD s.errcnt 6 0 + 1) (2 ^ 48 - 1)) ∧
    (∀ pa, s.rows.contains (Config.hbmRow pa) = false → Waits (.hbmRowRepair pa) s) ∧
    (∀ k < 8, readyBit s (69 + k) = true → ∃ t, exec (.hbmStackLost k) s = .next t ∧ (∀ n < 94, readyBit t n = (decide (n ≠ 69 + k) && readyBit s n)) ∧
      t.lostStacks = setIns s.lostStacks k ∧ t.tiles = s.tiles ∧ t.regions = s.regions) ∧
    (∀ p < 12, (mreg s (0x608 + 8 * p)).getLsbD 10 = true → s.remotes = [] → (∀ q ∈ s.tiles, q.2.il.st ≠ .grow) →
      ∃ t, exec (.ualPortDown p) s = .next t ∧ (mreg t (0x608 + 8 * p)).getLsbD 10 = false ∧ (∀ n < 94, readyBit t n = (decide (n ≠ 77 + p) && readyBit s n)) ∧
        t.tiles = s.tiles ∧ NMap.findD t.errcnt 13 0 = min (NMap.findD s.errcnt 13 0 + 1) (2 ^ 48 - 1)))

/-- R102, R131, R143, R144, R345, R349, R392, R444, R445: requests of peers under a key slot, and the answers of peers to this package; messages between packages: a record is
accepted once and answered, and a repeated one is answered again; ACCEPT gives the writer's slot free, counts its record, and lets the writer go on; TOKEN adds, or is dropped; PROBE goes on to the writer of a channel that holds nothing, else to the reader;
GROW is served and GROWREPLY ends the wait. DEDUCED: what a record is refused for and that one without room is kept (notes/assumptions/22.md), tile 0 in
WAGENT for a writer of another package (notes/assumptions/75.md), the end that a PROBE goes to (notes/assumptions/47.md), that a read which fails gives 0
(notes/assumptions/62.md), the sizes of requests (notes/assumptions/86.md), that POISON of a record's header marks every block of it
(notes/assumptions/21.md), and what the writer's tile knows of the home's CLOSED (notes/assumptions/99.md). -/
def Obligations.Peers : Prop :=
  (∀ (s : State) (dev pa n key : Nat),
    let ident := keyIdent s (key % 1024)
    let told (v : State) (err : Bool) (bs : List Byte) : State := { v with peerAns := v.peerAns ++ [(dev, err, bs)] }
    let good := pa + n ≤ 2 ^ 39 ∧ 0 < n ∧ n ≤ 256 ∧ ident ≠ 0
    let sized := (n = 64 ∨ n = 128 ∨ n = 256) ∧ pa % n = 0
    (sized → good → s.st.poisoned pa n = false → exec (.peerRead dev pa n key) s = .next (told s false (readRun s ident pa n))) ∧
    (sized → ¬ good ∨ s.st.poisoned pa n = true → exec (.peerRead dev pa n key) s = .next (told s true [])) ∧
    (∀ (port : Nat) (bs : List (Option Byte)), bs.length = n → sized →
      (good → exec (.peerWrite ⟨dev, port⟩ pa key bs) s =
        .next (told ((enabledRuns pa bs).foldl (fun s w => writeRun s ident w.1 w.2) s) false [])) ∧
      (good → ∀ ds : List Byte, bs = ds.map some → exec (.peerWrite ⟨dev, port⟩ pa key bs) s = .next (told (writeRun s ident pa ds) false [])) ∧
      (¬ good → inWindow pa = false → exec (.peerWrite ⟨dev, port⟩ pa key bs) s = .next (told s true []))) ∧
    (∀ (port : Nat) (ds : List Byte), inWindow pa = true → pa % 256 = 0 →
      let id_ := dev % 1024 + 1024 * port
      let line := (pa - windowBase) / 256
      let rest := s.winIn.filter (fun w => !(w.1 == id_ && w.2.1 == line))
      s.winIn.find? (fun w => w.1 == id_ && w.2.1 == line) = none → 32 ≤ ds.length →
      (32 + msgLen ds ≤ ds.length → exec (.peerWrite ⟨dev, port⟩ pa key (ds.map some)) s =
        .next (told (messageIn { s with winIn := rest } (msgKind ds) (unpackMsg ds)) false [])) ∧
      (ds.length < 32 + msgLen ds → exec (.peerWrite ⟨dev, port⟩ pa key (ds.map some)) s =
        .next (told { s with winIn := rest ++ [(id_, (line + 1) % 2 ^ 18, ds)] } false []))) ∧
    (∀ op dbl src cmp, n = (if dbl = true then 8 else 4) → op ≠ .fadd →
      (good → pa % n = 0 → s.st.poisoned pa n = false → exec (.peerAtomic dev pa key op dbl src cmp) s = .next (told
        (match amoGives op n (heldAt s ident pa n) src.toNat cmp.toNat with | some x => writeRun s ident pa (natLe n x) | none => s) false
        (natLe n (heldAt s ident pa n)))) ∧
      (¬ good ∨ pa % n ≠ 0 → exec (.peerAtomic dev pa key op dbl src cmp) s = .next (told s true [])))) ∧
  (∀ (s : State) (no n i : Nat) (r : Remote) (zx acq : Bool) (d : Reg) (sig : Option Eng) (data : List Byte), NMap.find? s.remotes no = some r → r.host = false →
    r.isAtomic = false → r.isWrite = false → r.unit ≠ 17 → r.tile < 2048 → r.n = n → n = 1 ∨ n = 2 ∨ n = 4 ∨ n = 8 →
    flightAt (s.tile r.tile) r.eng (fun w => match w with | .remote m _ _ _ _ => m == no | _ => false) = some (i, .remote no n zx acq d) →
    InFlight (s.tile r.tile) r.eng i (.remote no n zx acq d) sig (some d) →
    (∃ t, exec (.peerCompletion no data false) s = .next t ∧
      Completed ({ s with remotes := NMap.erase s.remotes no, agenda := s.deferred ++ s.agenda, deferred := [] }) t r.tile r.eng i sig (some d)
        (extended zx n (rnum data (r.pa % 64) n))) ∧
    (∃ t v, exec (.peerCompletion no data true) s = .next t ∧ Completed v t r.tile r.eng i sig (some d) 0 ∧ v.tiles = s.tiles ∧
      NMap.findD v.errcnt 13 0 = min (NMap.findD s.errcnt 13 0 + 1) (2 ^ 48 - 1))) ∧
  (∀ (s : State) (msg : UalMsg), let h := msg.handle
    let c := handleChan h
    let e := chan s c
    let hdr := rnum msg.body 0 4
    let sent (v : State) (kind : Nat) (ok : Bool) : State := (sendMsg v kind msg.sdev (h % 2 ^ 12) { UalMsg.base v h with ok := ok }).getD v
    handleDev h = devNo s →
      (e.lastRemote = some (msg.sdev, msg.seq) → exec (.record msg) s = .next (sent s 2 true)) ∧
      (e.lastRemote ≠ some (msg.sdev, msg.seq) → e.en = false ∨ e.closed = true ∨ e.cap < recSize hdr → exec (.record msg) s = .next (sent s 2 false)) ∧
      (e.lastRemote ≠ some (msg.sdev, msg.seq) → e.en = true → e.closed = false → recSize hdr ≤ e.cap →
        let marks := if hdr.testBit 18 then 2 ^ recBlocks hdr - 1 else 0
        (e.scope ≠ 3 ∨ (e.wbound = true ∧ (agentDev e.wagent ≠ msg.sdev ∨ msg.sdev = devNo s)) → e.wagent < 2 ^ 21 →
          exec (.record msg) s = .next (sent s 2 false)) ∧
        ∀ v, bindFar s c msg.sdev = some v →
          (∀ u, accept v c hdr ((msg.body.drop 4).take (4 * (hdr % 2 ^ 16))) marks = some u →
            exec (.record msg) s = .next (sent (setChan u c { chan u c with lastRemote := some (msg.sdev, msg.seq), offered := none }) 2 true)) ∧
          (accept v c hdr ((msg.body.drop 4).take (4 * (hdr % 2 ^ 16))) marks = none →
            exec (.record msg) s = .next (setChan v c { chan v c with offered := some msg }))) ∧
      (e.scope = 3 → e.wbound = false → bindFar s c msg.sdev = some (setChan s c { e with wbound := true, wagent := msg.sdev * 2048, wrgn := none, wplaced := 0 })) ∧
      (∀ u, growChan s c (writerFull s h) = (u, 0) → exec (.grow msg) s = .next (sent u 6 true)) ∧
      (∀ u why, growChan s c (writerFull s h) = (u, why) → why ≠ 0 → exec (.grow msg) s = .next (sent u 6 false)) ∧
      (let bound := if e.isEmpty = true then e.wbound else e.rbound
       let who := if e.isEmpty = true then e.wagent else e.ragent
       (bound = false → Waits (.probe msg) s) ∧
       (bound = true → agentDev who = devNo s → exec (.probe msg) s = .next { s with probes := s.probes ++ [unpackProbe msg.body (who % 2048)] }) ∧
       (bound = true → agentDev who ≠ devNo s → exec (.probe msg) s =
        .next ((sendMsg s 4 (agentDev who) (h % 2 ^ 12) { UalMsg.base s h with body := msg.body }).getD s)))) ∧
  (∀ (s : State) (msg : UalMsg) (u : Nat), handleDev msg.handle ≠ devNo s → writersOf s msg.handle = [u] →
    exec (.probe msg) s = .next { s with probes := s.probes ++ [unpackProbe msg.body u] }) ∧
  (∀ (s : State) (msg : UalMsg),
    (∀ tid n, (waitersOn s msg.handle).head? = some (tid, n) → msg.ok = true →
      let a := s.tile tid
      let v := a.slot n
      let no := v.extv.toNat % 2 ^ 5
      v.act = true → v.opc = 0x48 → v.inFlight = true →
      ∃ t, exec (.accept msg) s = .next t ∧ BytesSame s t ∧ (∀ m, m ≠ tid → t.tile m = s.tile m) ∧
        let b := t.tile tid
        b.ring no = { a.ring no with released := ((a.ring no).released + 1) % 2 ^ 32 } ∧ (∀ m, m ≠ no → b.ring m = a.ring m) ∧
        (∀ m, m ≠ n → b.slot m = a.slot m) ∧
        (v.pos + 1 < v.rav.toNat → b.slot n = { v with opened := false, done := 0, pois := 0, inFlight := false, pos := v.pos + 1 }) ∧
        (v.rav.toNat ≤ v.pos + 1 → slotWritesOut s tid n = false →
          (b.slot n).act = v.cc ∧ (b.slot n).addpend = v.cc ∧ (b.slot n).pos = v.pos + 1 ∧ (b.slot n).inFlight = false) ∧
        (a.ended = false → NMap.find? b.farLast (v.extv.toNat / 2 ^ 5 % 2 ^ 4) =
          some (recLast (slotRecord s (slotWho tid v) (a.ring no) (((a.ring no).taken + 2 ^ 32 - 1) % 2 ^ 32)).2.1))) ∧
    (∀ tid n, (waitersOn s msg.handle).head? = some (tid, n) → msg.ok = false → exec (.accept msg) s =
      .next (stopSlot (updSlot (lostPath s tid 0) tid n (fun v => { v with inFlight := false })) tid n 0x14 3 (handleDev msg.handle))) ∧
    (waitersOn s msg.handle = [] → Waits (.accept msg) s) ∧
    (∀ u, tokenTile s msg.trgn (msg.ttgt % 2 ^ 5) (msg.ttgt / 2 ^ 5 % 2 ^ 5) = some u →
      let k := 2 ^ 42 + u * 2 ^ 18 + 4 * (msg.ttgt / 2 ^ 10 % 2 ^ 18) % 2 ^ tspLog s u
      ((s.tile u).started = true → s.st.poisoned k 4 = false →
        exec (.token msg) s = .next (writeRun s 0 k (natLe 4 (heldAt s 0 k 4 + (msg.tinc % 8 + 1))))) ∧
      ((s.tile u).started = false → exec (.token msg) s =
        .next (s.updTile u (fun t => { t with heldTok := t.heldTok ++ [(msg.ttgt / 2 ^ 10 % 2 ^ 18, msg.tinc % 8 + 1)] })))) ∧
    (tokenTile s msg.trgn (msg.ttgt % 2 ^ 5) (msg.ttgt / 2 ^ 5 % 2 ^ 5) = none → exec (.token msg) s = .next (countRec s (ErrRec.base s 30 1))) ∧
    (∀ n : Nat, msg.ok = true → s.tiles.filter (fun p => p.2.il.st == .grow && p.2.il.cand == msg.handle) = [(n, s.tile n)] → (s.tile n).il.blk = true →
      exec (.growreply msg) s = .next (updIl s n (fun l => { l with st := .count, count := 0 }))))


/-! ### Reset, encodings, the step -/

/-- R17, R20, R36, R85, R128, R163, R312, R351, R354: what the manual gives the machine at reset. No tile has started; TOKSEL.E names the A
engine and every other special register is 0; k0 reads 1 and the other predicates 0; exchange registers are empty, tokens absent, rings unbound,
slots and barriers idle, channels not enabled; PWRCTL and COLTHERM hold what their maps give; no word is full and no unit poisoned, and storage is
in canonical form. That every byte then reads 0 is the model's choice (notes/assumptions/5.md), and so is the 0 of TVEC, TPC and SYSW, and of SRGEN0 to SRGEN7 until the tile
starts, when R165 has them seeded (notes/assumptions/4.md). -/
def Obligations.ResetState : Prop :=
  let s := State.reset
  s.memOk ∧ (∀ k, s.st.byte k = 0) ∧ (∀ k n, s.st.poisoned k n = false) ∧ s.st.full = [] ∧
  (∀ tid : Nat,
    let a := s.tile tid
    a.started = false ∧ a.ended = false ∧ a.sys = false ∧ a.check = false ∧
    (∀ n, a.special n = if n = 0 then 5 else 0) ∧
    (∀ k : Fin 8, a.pred k = (k == 0)) ∧ (∀ n, (a.x n).full = false) ∧ (∀ p q, a.tok p q = 0) ∧
    (∀ n, (a.ring n).bound = false) ∧ (∀ n, (a.slot n).act = false) ∧ a.cmds = []) ∧
  (∀ c, (chan s c).en = false) ∧ (∀ f, f < 17 → mreg s (0x800 + 8 * f) = 0) ∧
  wfld (mreg s 0x400) 0 12 = 2000 ∧ wfld (mreg s 0x400) 32 8 = 105 ∧
  (∀ m p, m < 4 → p < 17 →
    let v := mreg s (0x1000 + 8 * (17 * m + p))
    wfld v 0 32 = 0 ∧ wfld v 42 7 = 0 ∧ wfld v 51 13 = 0) ∧
  s.sbcyc = 0 ∧ s.errseq = 0 ∧ s.jcyc = 0

/-- R151, R156 to R159: words of the manual's own programs, and one of each engine's code space, decode to the instructions that they stand
for; a code that no row assigns and a reserved field do not decode. -/
def Obligations.DecodedWords : Prop :=
  decodeLane .e 0x0B032345 (some 0) = .ok (.li .none (.r 1) 0x12345 (some 0)) ∧
  decodeLane .e 0x88040FFC none = .ok (.addi .signal (.r 2) (.r 1) 0x7FC none) ∧
  decodeLane .a 0x500A2602 none = .ok (.ldT .wait (.r 5) (.r 4) (.ro .zero) .w false .plain none) ∧
  decodeLane .y 0x12000000 none = .ok (.next .none) ∧
  decodeLane .e 0x1801FFFD none = .ok (.br .none 0 0 0x1FFFD) ∧
  decodeLane .e 0x1C920800 none = .ok (.pcmpi .none .ne 1 (.r 1) 0 none) ∧
  decodeLane .a 0x20106200 (some 0x25) = .ok (.sld .none 2 (.r 3) (.r 4) .t .tile false 5 true) ∧
  decodeLane .m 0x180020A0 (some 2) = .ok (.mma .none 4 5 false false { id := 2, p1 := 0, p2 := 0 }) ∧
  decodeLane .m 0x9B000003 none = .ok (.mwait .signal 3) ∧
  decodeLane .y 0xD0020000 none = .ok (.arrive .both 1 0) ∧
  decodeLane .e 0x560E48B2 (some 3) = .ok (.stD .wait (.r 7) (.r 9) (.r 5) .w .rel (some { off := 0, scope := .device })) ∧
  decodeLane .a 0x00000000 none = .illOp ∧
  decodeLane .e 0x25000005 none = .illField false ∧
  decodeLane .m 0x180020A0 (some 0x80000002) = .illField false ∧
  decodeLane .e 0x01800000 none = .ok (.sub .none (.r 0) (.r 0) (.r 0) false)

/-- R41, R81, R84, R100, R123, R139, R151, R153, R345, R382, R383, R405, R415, R418: an engine whose wait is over completes it; otherwise its oldest
instruction that has not issued, whose lane decodes to i, is what the step executes; a lane that does not decode raises its exception, and an engine
without an instruction fetches. An event at the head of the agenda takes place, an access of the host once those before it have (that the host is one
requester is the model's reading, notes/assumptions/102.md, DEDUCED); what lacks bytes of a peer's memory takes place once they have come. Entries
of one cycle take place in an order, a round of services slot by slot, engines without an instruction as one fetch of their tile, and then the cycle's offences are recorded and its traps entered: writes through
the KV unit by map index, then tile index; releases of rings; fills; growth; acceptance; takes; streams, M, A, E, Y; traffic of the mesh; what raises
exceptions, the precise ones before the imprecise ones and the lowest first; END; stops of tiles and errors of walkers; NEXT by tile index; SHUNT;
pre-emption traps. (The agenda, and what one order the rules leave open, are the model's: notes/assumptions/1.md, DESIGN CHOICE.) -/
def Obligations.StepRunsDecoded : Prop :=
  ∀ (s : State),
    (∀ (tid : Nat) (g : Eng), (s.agenda = [] ∧ s.cur = (tid, g)) ∨ s.agenda.head? = some (.run tid g) →
      let n := 4 * tid + g.num
      let u : State := { begun s n with cur := (tid, g) }
      (∀ t, settle u tid g = some t → StepIs s n none (.next t)) ∧
      (settle u tid g = none →
        (∀ (q : QEntry) (w : Lane) (x : Option Lane), nextEntry (u.tile tid) g = some q → q.kind = .instr w x →
          (∀ i, decodeLane g w x = .ok i → StepIs s n none (exec i u)) ∧
          ((∀ i, decodeLane g w x ≠ .ok i) → StepIs s n none (exec (.preciseException tid g) u))) ∧
        (∀ q, nextEntry (u.tile tid) g = some q → (∀ w x, q.kind ≠ .instr w x) → StepIs s n none (exec (.preciseException tid g) u)) ∧
        (nextEntry (u.tile tid) g = none → StepIs s n none (exec (.fetchBundle tid) u)))) ∧
    (let m := 8192 + s.reqNo
     let b := begun s m
     let entry (a : Act) (t : State) : Prop := s.agenda.head? = some a → StepIs s m (some a) (.next t)
     (∀ i, tileInstr i = false →
      (s.agenda.head? = some (.event i) →
        ((fromHost i = true → hostHeld b = false) → StepIs s m (some (.event i)) (exec i b)) ∧
        (fromHost i = true → hostHeld b = true → StepIs s m (some (.event i)) (.next { b with jdStarved := true }))) ∧
      (∀ n, s.agenda.head? = some (.again n (.event i)) →
        ((fromHost i = true → hostHeld (begun s n) = false) → StepIs s n (some (.event i)) (exec i (begun s n))) ∧
        (fromHost i = true → hostHeld (begun s n) = true → StepIs s n (some (.event i)) (.next { begun s n with jdStarved := true })))) ∧
     (∀ n, entry (.pulses n) (passPulses b n)) ∧ (∀ tid n, entry (.serve tid n) (serveSlot b tid n)) ∧
     (∀ tid va, entry (.own tid va) (ownBlock b tid va)) ∧ (∀ n, entry (.resend n) (resendHeld b n)) ∧ (∀ u, entry (.upset u) (strike b u)) ∧
     (∀ n, s.inCycle = false →
      let l := s.agenda.tail.take n
      let r := cycleRounds b (afterEarly b l) l
      entry (.cycle n) { r.foldl (fun v p => noteRound v p.1 p.2) b with
        inCycle := true, agenda := orderCycle b l ++ .cycleEnd :: s.agenda.tail.drop n }) ∧
     entry .cycleEnd (((s.tiles.filter (fun p => p.2.enter.isSome)).map Prod.fst).foldl tryEnter (recordOffences { b with inCycle := false }))) ∧
    (∀ l : List Act,
      let s1 := afterEarly s l
      let es := cycleEntries s l
      let ps := placed s (0, 0, 0) es
      let rs := (cycleRounds s s1 l).flatMap (fun p => roundActs s s1 p.1 p.2)
      (∃ pl : List ((Nat × Nat × Nat) × Act), orderCycle s l = pl.map Prod.snd ∧ pl.Perm (ps ++ rs) ∧ pl.Pairwise (fun a b => keyBefore b.1 a.1 = false)) ∧
      ps.map Prod.snd = es ∧ (∀ a, a ∈ es ↔ ∃ b ∈ l, roundTile b = none ∧ mayTake s b = true ∧ a = asFetch s b) ∧
      (∀ tid, (es.filter (fun a => a == .event (.fetchBundle tid))).length ≤ 1) ∧ (∀ p ∈ ps, hostAct p.2 = false → p.1 = cycleKey s p.2) ∧
      (∀ p ∈ ps, hostAct p.2 = true → keyBefore p.1 (cycleKey s p.2) = false) ∧
      (ps.filter (fun p => hostAct p.2)).Pairwise (fun a b => keyBefore b.1 a.1 = false) ∧
      rs.filterMap (fun p => match p.2 with | .serve tid n => some (tid, n) | _ => none) =
        (cycleRounds s s1 l).flatMap (fun p => p.2.map (fun n => (p.1, n))) ∧
      ∀ p ∈ rs, ∀ tid va, p.2 = .own tid va → p.1.1 = 0) ∧
    (∀ tid g, asFetch s (.run tid g) =
      if settle { s with cur := (tid, g) } tid g = none ∧ nextEntry (s.tile tid) g = none then .event (.fetchBundle tid) else .run tid g) ∧
    (let quiet (i : Instr) (k : Nat × Nat × Nat) : Prop :=
       (∃ t, actPlain { s with inCycle := true } (.event i) = .next t ∧ raisedBy s t = none) → cycleKey s (.event i) = k
     ∀ n m c msg tid slot r w, quiet (.growthRequest n) (3, 0, 0) ∧ quiet (.grow msg) (3, 0, 0) ∧ quiet (.record msg) (4, 0, 0) ∧
      quiet (.channelAccept tid slot) (4, 0, 0) ∧ quiet (.channelTake tid slot) (5, 0, 0) ∧ quiet (.walkerStateError r w) (14, 0, 0) ∧
      quiet (.nextService r m) (15, r, m) ∧ quiet (.shuntService r m) (16, r, m) ∧ quiet (.preemptTrap c) (17, 0, 0)) ∧
    ∀ (tid : Nat) (g : Eng) (t : State), runEngine { s with inCycle := true } tid g = .next t →
      let key := cycleKey s (.run tid g)
      let ends : Prop := ∃ tk ign, nextInstr (s.tile tid) g = some (.endTile tk ign)
      (∀ k, raisedBy s t = some k → key = (12, k)) ∧
      (∀ e, (s.tile tid).enter = none → (t.tile tid).enter = some e → e.slot = none →
        (∀ p ∈ t.tiles, p.2 = t.tile p.1 ∧ (p.1 ≠ tid → p.2.enter = (s.tile p.1).enter ∧ p.2.after = (s.tile p.1).after)) →
        key = (12, e.eng.num + (if e.impr then 4 else 0), tid)) ∧
      (raisedBy s t = none →
        (ends → key = (13, 0, 0)) ∧
        (¬ ends →
          (∀ k, kvWrites s t (.run tid g) = some k → key = (0, k)) ∧
          (kvWrites s t (.run tid g) = none →
            (stopsTile s t = true → key = (14, 0, 0)) ∧
            (stopsTile s t = false →
              (overMesh s (.run tid g) = true → key = (11, 0, 0)) ∧
              (overMesh s (.run tid g) = false →
                (ringRank s t = 1 → key = (1, 0, 0)) ∧ (ringRank s t = 2 → key = (2, 0, 0)) ∧
                (2 < ringRank s t → key = (match g with | .m => 7 | .a => 8 | .e => 9 | .y => 10, tid, 0)))))))

/-- R156 to R161, R183 to R311: from the encoding of a well-formed instruction, whatever its operands, the decoder of every engine in whose
code space it lies reads that same instruction; what any engine decodes is a well-formed instruction of its code space, and encodes to
the lanes that it came from. Events, which lie in no code space, are the instructions without an encoding. -/
def Obligations.EncodeDecodeAgree : Prop :=
  (∀ (i : Instr) (w : Lane) (x : Option Lane), i.wf = true → encode i = some (w, x) → ∀ g ∈ spaces i, decodeLane g w x = .ok i) ∧
  (∀ (g : Eng) (w : Lane) (x : Option Lane) (i : Instr), decodeLane g w x = .ok i →
    i.wf = true ∧ encode i = some (w, x) ∧ g ∈ spaces i ∧ tileInstr i = true) ∧
  (∀ i : Instr, encode i = none ↔ spaces i = [])

/-- R2, R82, R102, R373 (notes/assumptions/5.md): from any state whose storage is in canonical form, reached or not, every step answers a next
state whose storage is in canonical form. -/
def Obligations.StepsKeepMemory : Prop :=
  ∀ s : State, s.memOk → ∃ t, step s = .next t ∧ t.memOk

/-- R44, R182: nothing puts a token into a FIFO that holds eight, but for an instruction that is withdrawn, which puts back the one that it took. From
any state, reached or not, a step leaves in each FIFO at most eight, or as many as it held, and those that its consumer's instructions in flight had
taken. -/
def Obligations.TokensStayBounded : Prop :=
  ∀ (s t : State), step s = .next t → ∀ (tid : Nat) (p q : Eng),
    (t.tile tid).tok p q ≤ max 8 ((s.tile tid).tok p q) + tokensOut (s.tile tid) p q

/-- R329: the effective priority of a PENDING queue rises by one every ageing interval of its partition, to at most 63; that of a MAPPED queue is
its PRIO. The fields are those of the queue's control block and of SBPART. -/
def Obligations.EffectivePriority : Prop :=
  ∀ (s : State) (q p : Nat),
    let state := qget s q 0x20 % 8
    let prio := qget s q 0x08 / 2 ^ 4 % 2 ^ 4
    let since := qget s q 0x28
    let agelog := (mreg s (0x100040 + 8 * p)).toNat / 2 ^ 8 % 2 ^ 5
    p = qget s q 0x08 % 2 ^ 4 →
    (state = 2 → qEprio s q = min 63 (prio + (s.sbcyc - since) / 2 ^ agelog)) ∧
    (state = 3 → qEprio s q = prio)
end

