-- ==== Sys2Proof/Laws/Maps.lean ====
section
/-! SUPPORT. What reading a sparse map gives after it is written (R2). -/

namespace Sys2Proof.Machine

theorem NMap.find?_erase (m : NMap α) (k j : Nat) :
    NMap.find? (NMap.erase m k) j = if j = k then none else NMap.find? m j := by
  induction m with
  | nil => simp [NMap.erase, NMap.find?]
  | cons p r ih =>
    obtain ⟨i, v⟩ := p
    unfold NMap.erase at ih ⊢
    by_cases h : i = k
    · subst h
      simp only [List.filter_cons, bne_self_eq_false, Bool.false_eq_true, if_false]
      rw [ih]
      by_cases hj : j = i
      · simp [hj]
      · simp [hj, NMap.find?, Ne.symm hj]
    · have hb : (i != k) = true := by simpa using h
      simp only [List.filter_cons, hb, if_true, NMap.find?]
      by_cases hj : i = j
      · subst hj; simp [h]
      · simp [hj, ih]

theorem NMap.find?_place (m : NMap α) (k : Nat) (v : α) (j : Nat) :
    NMap.find? (NMap.place m k v) j = if j = k then some v else NMap.find? m j := by
  induction m with
  | nil => by_cases h : k = j <;> simp [NMap.place, NMap.find?, h, eq_comm]
  | cons p r ih =>
    obtain ⟨i, w⟩ := p
    unfold NMap.place
    split
    · by_cases h : k = j <;> simp [NMap.find?, h, eq_comm]
    · rename_i hk
      by_cases hj : i = j
      · subst hj
        have : i ≠ k := by omega
        simp [NMap.find?, this]
      · simp [NMap.find?, hj, ih]

/-- Reading a map after a key is set. -/
theorem NMap.find?_put (m : NMap α) (k : Nat) (v : α) (j : Nat) :
    NMap.find? (NMap.put m k v) j = if j = k then some v else NMap.find? m j := by
  unfold NMap.put
  rw [NMap.find?_place, NMap.find?_erase]
  by_cases h : j = k <;> simp [h]

theorem NMap.findD_put (m : NMap α) (k : Nat) (v : α) (j : Nat) (d : α) :
    NMap.findD (NMap.put m k v) j d = if j = k then v else NMap.findD m j d := by
  unfold NMap.findD
  rw [NMap.find?_put]
  by_cases h : j = k <;> simp [h]

@[simp] theorem NMap.findD_put_self (m : NMap α) (k : Nat) (v d : α) : NMap.findD (NMap.put m k v) k d = v := by
  simp [NMap.findD_put]

theorem NMap.findD_put_of_ne (m : NMap α) {k j : Nat} (v d : α) (h : j ≠ k) :
    NMap.findD (NMap.put m k v) j d = NMap.findD m j d := by
  simp [NMap.findD_put, h]

@[simp] theorem NMap.find?_put_self (m : NMap α) (k : Nat) (v : α) : NMap.find? (NMap.put m k v) k = some v := by
  simp [NMap.find?_put]

/-! ### Tiles, groups, regions, registers -/

theorem State.tile_setTile (s : State) (n : Nat) (v : Tile) (j : Nat) :
    (s.setTile n v).tile j = if j = n then v else s.tile j := by
  simp [State.tile, State.setTile, NMap.findD_put]

@[simp] theorem State.tile_setTile_self (s : State) (n : Nat) (v : Tile) : (s.setTile n v).tile n = v := by
  simp [State.tile_setTile]

@[simp] theorem State.tile_updTile_self (s : State) (n : Nat) (f : Tile → Tile) : (s.updTile n f).tile n = f (s.tile n) := by
  simp [State.updTile]

theorem State.tile_updTile (s : State) (n : Nat) (f : Tile → Tile) (j : Nat) :
    (s.updTile n f).tile j = if j = n then f (s.tile n) else s.tile j := by
  simp [State.updTile, State.tile_setTile]

theorem State.group_setGroup (s : State) (n : Nat) (v : Group) (j : Nat) :
    (s.setGroup n v).group j = if j = n then v else s.group j := by
  simp [State.group, State.setGroup, NMap.findD_put]

@[simp] theorem State.group_setGroup_self (s : State) (n : Nat) (v : Group) : (s.setGroup n v).group n = v := by
  simp [State.group_setGroup]

theorem State.region?_setRegion (s : State) (n : Nat) (v : Region) (j : Nat) :
    (s.setRegion n v).region? j = if j = n then some v else s.region? j := by
  simp [State.region?, State.setRegion, NMap.find?_put]

@[simp] theorem State.region?_setRegion_self (s : State) (n : Nat) (v : Region) : (s.setRegion n v).region? n = some v := by
  simp [State.region?_setRegion]

@[simp] theorem mreg_setMreg_self (s : State) (n : Nat) (v : Word) : mreg (setMreg s n v) n = v := by
  simp [mreg, setMreg]

theorem mreg_setMreg (s : State) (n : Nat) (v : Word) (j : Nat) :
    mreg (setMreg s n v) j = if j = n then v else mreg s j := by
  simp only [mreg, setMreg, NMap.findD_put]

theorem Tile.x_setX (t : Tile) (n : Nat) (v : XReg) (j : Nat) : (t.setX n v).x j = if j = n then v else t.x j := by
  simp [Tile.x, Tile.setX, NMap.findD_put]

theorem Tile.special_setSpecial (t : Tile) (n : Nat) (v : Word) (j : Nat) :
    (t.setSpecial n v).special j = if j = n then v else t.special j := by
  simp [Tile.special, Tile.setSpecial, NMap.findD_put]

@[simp] theorem Tile.eng_setEng_self (t : Tile) (g : Eng) (v : EngSt) : (t.setEng g v).eng g = v := by
  cases g <;> rfl

theorem Tile.eng_setEng (t : Tile) (g h : Eng) (v : EngSt) : (t.setEng g v).eng h = if h = g then v else t.eng h := by
  cases g <;> cases h <;> rfl

theorem Eng.num_inj {g h : Eng} (e : g.num = h.num) : g = h := by
  cases g <;> cases h <;> first | rfl | simp [Eng.num] at e

/-- A private register after one is written: number 0 reads zero and keeps nothing (R160). -/
theorem Tile.priv_setPriv (t : Tile) (g : Eng) (n : Nat) (v : Word) (h : Eng) (j : Nat) :
    (t.setPriv g n v).priv h j = if h = g ∧ j = n ∧ n ≠ 0 then v else t.priv h j := by
  unfold Tile.setPriv Tile.priv
  by_cases hn : n = 0
  · simp [hn]
  · simp only [hn, if_false, Tile.updEng, Tile.eng_setEng]
    by_cases hg : h = g
    · subst hg
      by_cases hj : j = n
      · subst hj; simp [hn]
      · simp [hj, NMap.findD_put_of_ne]
    · simp [hg]

end Sys2Proof.Machine
end

