-- ==== Sys2Proof/Laws/Memory.lean ====
section
/-! SUPPORT. The laws of storage: reading after writing, and the canonical form (notes/assumptions/5.md). -/

namespace Sys2Proof.Machine

/-! ### Reading after writing -/

theorem memGet_memSet (m : List Host.Cell) (a : Nat) (b : Byte) (c : Nat) :
    memGet (memSet m a b) c = if c = a then b else memGet m c := by
  unfold memGet memSet
  split
  · rename_i h
    unfold NMap.findD
    rw [NMap.find?_erase]
    by_cases hc : c = a <;> simp [hc, h]
  · rw [NMap.findD_put]

theorem memGet_memSetAll_of_not_mem (m : List Host.Cell) (a : Nat) (bs : List Byte) (c : Nat)
    (h : c < a ∨ a + bs.length ≤ c) : memGet (memSetAll m a bs) c = memGet m c := by
  induction bs generalizing m a with
  | nil => rfl
  | cons b r ih =>
    simp only [memSetAll]
    rw [ih]
    · rw [memGet_memSet, if_neg]; simp at h; omega
    · simp at h; omega

theorem memGet_memSetAll (m : List Host.Cell) (a : Nat) (bs : List Byte) (i : Nat) (h : i < bs.length) :
    memGet (memSetAll m a bs) (a + i) = bs[i] := by
  induction bs generalizing m a i with
  | nil => simp at h
  | cons b r ih =>
    simp only [memSetAll]
    cases i with
    | zero =>
      rw [memGet_memSetAll_of_not_mem _ _ _ _ (by omega), memGet_memSet]; simp
    | succ i =>
      have := ih (memSet m a b) (a + 1) i (by simpa using h)
      rw [show a + (i + 1) = a + 1 + i by omega, this]; simp

/-! ### The canonical form -/

theorem wf_filter {m : List Host.Cell} (p : Host.Cell → Bool) (h : Memory.wf m) : Memory.wf (m.filter p) :=
  ⟨h.1.sublist List.filter_sublist, fun c hc => h.2 c (List.mem_filter.mp hc).1⟩

theorem wf_nil : Memory.wf [] := ⟨List.Pairwise.nil, by simp⟩

theorem mem_place (m : NMap α) (k : Nat) (v : α) (c : Nat × α) (h : c ∈ NMap.place m k v) : c = (k, v) ∨ c ∈ m := by
  induction m with
  | nil => simpa [NMap.place] using h
  | cons p r ih =>
    obtain ⟨i, w⟩ := p
    unfold NMap.place at h
    split at h
    · simpa using h
    · rcases List.mem_cons.mp h with h | h
      · exact .inr (by simp [h])
      · rcases ih h with h | h
        · exact .inl h
        · exact .inr (by simp [h])

theorem sorted_place (m : NMap α) (k : Nat) (v : α) (h : m.Pairwise (fun x y => x.1 < y.1)) (hk : ∀ c ∈ m, c.1 ≠ k) :
    (NMap.place m k v).Pairwise (fun x y => x.1 < y.1) := by
  induction m with
  | nil => simp [NMap.place]
  | cons p r ih =>
    obtain ⟨i, w⟩ := p
    have hp := List.pairwise_cons.mp h
    unfold NMap.place
    split
    · rename_i hki
      have hne := hk (i, w) (by simp)
      refine List.pairwise_cons.mpr ⟨fun c hc => ?_, h⟩
      rcases List.mem_cons.mp hc with rfl | hc
      · exact Nat.lt_of_le_of_ne hki (Ne.symm hne)
      · exact Nat.lt_of_le_of_lt hki (hp.1 c hc)
    · refine List.pairwise_cons.mpr ⟨fun c hc => ?_, ih hp.2 (fun c hc => hk c (by simp [hc]))⟩
      rcases mem_place _ _ _ _ hc with rfl | hc
      · show i < k; omega
      · exact hp.1 c hc

/-- Writing one byte keeps the canonical form. -/
theorem wf_memSet {m : List Host.Cell} (a : Nat) (b : Byte) (h : Memory.wf m) : Memory.wf (memSet m a b) := by
  have he : Memory.wf (NMap.erase m a) := wf_filter _ h
  unfold memSet
  split
  · exact he
  · rename_i hb
    unfold NMap.put
    refine ⟨sorted_place _ _ _ he.1 ?_, fun c hc => ?_⟩
    · intro c hc
      simpa using (List.mem_filter.mp hc).2
    · rcases mem_place _ _ _ _ hc with rfl | hc
      · exact hb
      · exact he.2 c hc

theorem wf_memSetAll {m : List Host.Cell} (a : Nat) (bs : List Byte) (h : Memory.wf m) : Memory.wf (memSetAll m a bs) := by
  induction bs generalizing m a with
  | nil => exact h
  | cons b r ih => exact ih _ (wf_memSet _ _ h)

theorem wf_foldl {α : Type} (f : List Host.Cell → α → List Host.Cell) (hf : ∀ m a, Memory.wf m → Memory.wf (f m a)) (l : List α)
    {m : List Host.Cell} (h : Memory.wf m) : Memory.wf (l.foldl f m) := by
  induction l generalizing m with
  | nil => exact h
  | cons a r ih => exact ih (hf _ _ h)

/-- Every operation of the store keeps the canonical form. -/
@[simp] theorem Store.setFull_mem (st : Store) (k n : Nat) : (st.setFull k n).mem = st.mem := by
  unfold Store.setFull; split <;> rfl
@[simp] theorem Store.setEmpty_mem (st : Store) (k n : Nat) : (st.setEmpty k n).mem = st.mem := rfl
@[simp] theorem Store.poisonRun_mem (st : Store) (k n : Nat) : (st.poisonRun k n).mem = st.mem := rfl
@[simp] theorem Store.write_mem (st : Store) (k : Nat) (bs : List Byte) : (st.write k bs).mem = memSetAll st.mem k bs := by
  simp [Store.write]

theorem Store.write_wf (st : Store) (k : Nat) (bs : List Byte) (h : Memory.wf st.mem) : Memory.wf (st.write k bs).mem := by
  rw [Store.write_mem]; exact wf_memSetAll _ _ h

theorem Store.clear_wf (st : Store) (k n : Nat) (h : Memory.wf st.mem) : Memory.wf (st.clear k n).mem := wf_filter _ h

@[simp] theorem noteKicks_st (s : State) (k n : Nat) : (noteKicks s k n).st = s.st := rfl

@[simp] theorem countN_st (s : State) (c n : Nat) : (countN s c n).st = s.st := by
  induction n generalizing s with
  | zero => rfl
  | succ n ih => simp [countN, ih, count]

theorem retag_wf (s : State) (ident : Nat) (us : List Nat) (h : Memory.wf s.st.mem) : Memory.wf (retag s ident us).st.mem := by
  unfold retag
  induction us generalizing s with
  | nil => exact h
  | cons u r ih =>
    rw [List.foldl_cons]
    apply ih
    dsimp only
    split
    · split
      · exact h
      · exact wf_memSetAll _ _ h
    · exact h

/-- A write of the machine keeps the canonical form. -/
theorem writeRun_wf (s : State) (ident k : Nat) (bs : List Byte) (h : Memory.wf s.st.mem) :
    Memory.wf (writeRun s ident k bs).st.mem := by
  unfold writeRun
  dsimp only
  rw [Store.write_mem]
  apply wf_memSetAll
  split
  · apply retag_wf; simpa using h
  · simpa using h

/-- Putting saved cells back keeps the canonical form. -/
theorem placeCells_wf (s : State) (k len : Nat) (m : List Host.Cell) (p : List Nat) (h : Memory.wf s.st.mem) :
    Memory.wf (placeCells s k len m p).st.mem := by
  unfold placeCells
  exact wf_foldl _ (fun _ _ h => wf_memSet _ _ h) _ (Store.clear_wf _ _ _ h)

theorem reset_wf : Memory.wf State.reset.st.mem := wf_nil

end Sys2Proof.Machine
end

