-- ==== Sys2Proof/Laws/Order.lean ====
section
/-! SUPPORT. The order of the entries of one cycle: nothing is lost by it, and no entry stands before one that comes before it. -/

namespace Sys2Proof.Machine

/-- Putting an entry in its place adds it and nothing else. -/
theorem insertKey_perm (p : (Nat × Nat × Nat) × Act) (l : List ((Nat × Nat × Nat) × Act)) : (insertKey p l).Perm (p :: l) := by
  induction l with
  | nil => exact .refl _
  | cons q r ih =>
    unfold insertKey
    split
    · exact .refl _
    · exact (ih.cons q).trans (.swap p q r)

/-- Places compare as numbers in three digits. -/
theorem keyBefore_iff (a b : Nat × Nat × Nat) :
    keyBefore a b = true ↔ a.1 < b.1 ∨ (a.1 = b.1 ∧ (a.2.1 < b.2.1 ∨ (a.2.1 = b.2.1 ∧ a.2.2 < b.2.2))) := by
  simp [keyBefore]

/-- An entry that is put in its place stands behind none that it comes before. -/
theorem insertKey_sorted (p : (Nat × Nat × Nat) × Act) (l : List ((Nat × Nat × Nat) × Act))
    (h : l.Pairwise (fun a b => keyBefore b.1 a.1 = false)) : (insertKey p l).Pairwise (fun a b => keyBefore b.1 a.1 = false) := by
  have not_ (a b : Nat × Nat × Nat) : keyBefore a b = false ↔ ¬ keyBefore a b = true := by simp
  induction l with
  | nil => simp [insertKey]
  | cons q r ih =>
    rw [List.pairwise_cons] at h
    unfold insertKey
    split
    · rename_i hp
      refine List.pairwise_cons.mpr ⟨fun b hb => ?_, List.pairwise_cons.mpr h⟩
      rw [not_, keyBefore_iff]
      rw [keyBefore_iff] at hp
      rcases List.mem_cons.mp hb with rfl | hb
      · omega
      · have := h.1 b hb
        rw [not_, keyBefore_iff] at this
        omega
    · rename_i hp
      refine List.pairwise_cons.mpr ⟨fun b hb => ?_, ih h.2⟩
      rcases List.mem_cons.mp ((insertKey_perm p r).mem_iff.mp hb) with rfl | hb
      · simpa using hp
      · exact h.1 b hb

/-- Each entry gets one place. -/
theorem placed_entries (s : State) (low : Nat × Nat × Nat) (l : List Act) : (placed s low l).map Prod.snd = l := by
  induction l generalizing low with
  | nil => rfl
  | cons a r ih => simp only [placed]; split <;> simp [ih]

end Sys2Proof.Machine
end

