-- ==== Sys2Proof/Laws/Planes.lean ====
section
/-! SUPPORT. Reading a plane from the TSP. -/

namespace Sys2Proof.Machine

/-- A command's read of the TSP outside CHECK mode leaves the state as it is. -/
theorem cmdRead_tsp (s : State) (w : Who) (a : Word) (n : Nat) (hc : w.check = false) :
    cmdRead s w .t a n =
      let k := tspKey w.tid (a.toNat % 2 ^ tspLog s w.tid)
      (s, .ok (readRun s 0 k n, s.st.poisoned k n)) := by
  simp [cmdRead, locate, hc]

/-- So does the read of a whole entry, which gives its words one after another. -/
theorem readEntry_tsp (s : State) (w : Who) (a : Word) (hc : w.check = false) (n j : Nat) :
    readEntry s w .t (a + BitVec.ofNat 64 (8 * j)) n =
      (s, .ok ((range j n).flatMap (fun i =>
        readRun s 0 (tspKey w.tid ((a + BitVec.ofNat 64 (8 * i)).toNat % 2 ^ tspLog s w.tid)) 8))) := by
  induction n generalizing j with
  | zero => rfl
  | succ n ih =>
    have h : a + BitVec.ofNat 64 (8 * j) + 8 = a + BitVec.ofNat 64 (8 * (j + 1)) := by
      rw [Nat.mul_add, BitVec.ofNat_add, ← BitVec.add_assoc]; rfl
    rw [readEntry, cmdRead_tsp s w _ 8 hc, h]
    simp only [ih, range, List.flatMap_cons]

end Sys2Proof.Machine
end

