-- ==== Sys2Proof/Laws/State.lean ====
section
/-! SUPPORT. What each update of the state and of a tile leaves as it was: one lemma for each field. -/

namespace Sys2Proof.Machine

/-! ### A tile of the state -/

@[simp] theorem State.setTile_agenda (s : State) (n : Nat) (v : Tile) : (s.setTile n v).agenda = s.agenda := rfl
@[simp] theorem State.setTile_cur (s : State) (n : Nat) (v : Tile) : (s.setTile n v).cur = s.cur := rfl
@[simp] theorem State.setTile_ticks (s : State) (n : Nat) (v : Tile) : (s.setTile n v).ticks = s.ticks := rfl
@[simp] theorem State.setTile_inCycle (s : State) (n : Nat) (v : Tile) : (s.setTile n v).inCycle = s.inCycle := rfl
@[simp] theorem State.setTile_offences (s : State) (n : Nat) (v : Tile) : (s.setTile n v).offences = s.offences := rfl
@[simp] theorem State.setTile_starved (s : State) (n : Nat) (v : Tile) : (s.setTile n v).starved = s.starved := rfl
@[simp] theorem State.setTile_jdStarved (s : State) (n : Nat) (v : Tile) : (s.setTile n v).jdStarved = s.jdStarved := rfl
@[simp] theorem State.setTile_jdUnit (s : State) (n : Nat) (v : Tile) : (s.setTile n v).jdUnit = s.jdUnit := rfl
@[simp] theorem State.setTile_jdGot (s : State) (n : Nat) (v : Tile) : (s.setTile n v).jdGot = s.jdGot := rfl
@[simp] theorem State.setTile_deferred (s : State) (n : Nat) (v : Tile) : (s.setTile n v).deferred = s.deferred := rfl
@[simp] theorem State.setTile_groups (s : State) (n : Nat) (v : Tile) : (s.setTile n v).groups = s.groups := rfl
@[simp] theorem State.setTile_regions (s : State) (n : Nat) (v : Tile) : (s.setTile n v).regions = s.regions := rfl
@[simp] theorem State.setTile_st (s : State) (n : Nat) (v : Tile) : (s.setTile n v).st = s.st := rfl
@[simp] theorem State.setTile_mgmt (s : State) (n : Nat) (v : Tile) : (s.setTile n v).mgmt = s.mgmt := rfl
@[simp] theorem State.setTile_chans (s : State) (n : Nat) (v : Tile) : (s.setTile n v).chans = s.chans := rfl
@[simp] theorem State.setTile_pools (s : State) (n : Nat) (v : Tile) : (s.setTile n v).pools = s.pools := rfl
@[simp] theorem State.setTile_creqs (s : State) (n : Nat) (v : Tile) : (s.setTile n v).creqs = s.creqs := rfl
@[simp] theorem State.setTile_cxfers (s : State) (n : Nat) (v : Tile) : (s.setTile n v).cxfers = s.cxfers := rfl
@[simp] theorem State.setTile_probes (s : State) (n : Nat) (v : Tile) : (s.setTile n v).probes = s.probes := rfl
@[simp] theorem State.setTile_grows (s : State) (n : Nat) (v : Tile) : (s.setTile n v).grows = s.grows := rfl
@[simp] theorem State.setTile_remotes (s : State) (n : Nat) (v : Tile) : (s.setTile n v).remotes = s.remotes := rfl
@[simp] theorem State.setTile_reqNo (s : State) (n : Nat) (v : Tile) : (s.setTile n v).reqNo = s.reqNo := rfl
@[simp] theorem State.setTile_placeNo (s : State) (n : Nat) (v : Tile) : (s.setTile n v).placeNo = s.placeNo := rfl
@[simp] theorem State.setTile_pastBudgets (s : State) (n : Nat) (v : Tile) : (s.setTile n v).pastBudgets = s.pastBudgets := rfl
@[simp] theorem State.setTile_tlbinv (s : State) (n : Nat) (v : Tile) : (s.setTile n v).tlbinv = s.tlbinv := rfl
@[simp] theorem State.setTile_threads (s : State) (n : Nat) (v : Tile) : (s.setTile n v).threads = s.threads := rfl
@[simp] theorem State.setTile_marsh (s : State) (n : Nat) (v : Tile) : (s.setTile n v).marsh = s.marsh := rfl
@[simp] theorem State.setTile_marshNo (s : State) (n : Nat) (v : Tile) : (s.setTile n v).marshNo = s.marshNo := rfl
@[simp] theorem State.setTile_handed (s : State) (n : Nat) (v : Tile) : (s.setTile n v).handed = s.handed := rfl
@[simp] theorem State.setTile_swapped (s : State) (n : Nat) (v : Tile) : (s.setTile n v).swapped = s.swapped := rfl
@[simp] theorem State.setTile_heldStops (s : State) (n : Nat) (v : Tile) : (s.setTile n v).heldStops = s.heldStops := rfl
@[simp] theorem State.setTile_sbcyc (s : State) (n : Nat) (v : Tile) : (s.setTile n v).sbcyc = s.sbcyc := rfl
@[simp] theorem State.setTile_cancel (s : State) (n : Nat) (v : Tile) : (s.setTile n v).cancel = s.cancel := rfl
@[simp] theorem State.setTile_heartbeat (s : State) (n : Nat) (v : Tile) : (s.setTile n v).heartbeat = s.heartbeat := rfl
@[simp] theorem State.setTile_watch (s : State) (n : Nat) (v : Tile) : (s.setTile n v).watch = s.watch := rfl
@[simp] theorem State.setTile_kicks (s : State) (n : Nat) (v : Tile) : (s.setTile n v).kicks = s.kicks := rfl
@[simp] theorem State.setTile_sbcmds (s : State) (n : Nat) (v : Tile) : (s.setTile n v).sbcmds = s.sbcmds := rfl
@[simp] theorem State.setTile_jobs (s : State) (n : Nat) (v : Tile) : (s.setTile n v).jobs = s.jobs := rfl
@[simp] theorem State.setTile_sec (s : State) (n : Nat) (v : Tile) : (s.setTile n v).sec = s.sec := rfl
@[simp] theorem State.setTile_errcnt (s : State) (n : Nat) (v : Tile) : (s.setTile n v).errcnt = s.errcnt := rfl
@[simp] theorem State.setTile_errseq (s : State) (n : Nat) (v : Tile) : (s.setTile n v).errseq = s.errseq := rfl
@[simp] theorem State.setTile_jcyc (s : State) (n : Nat) (v : Tile) : (s.setTile n v).jcyc = s.jcyc := rfl
@[simp] theorem State.setTile_irqs (s : State) (n : Nat) (v : Tile) : (s.setTile n v).irqs = s.irqs := rfl
@[simp] theorem State.setTile_ualOut (s : State) (n : Nat) (v : Tile) : (s.setTile n v).ualOut = s.ualOut := rfl
@[simp] theorem State.setTile_hostOut (s : State) (n : Nat) (v : Tile) : (s.setTile n v).hostOut = s.hostOut := rfl
@[simp] theorem State.setTile_peerOut (s : State) (n : Nat) (v : Tile) : (s.setTile n v).peerOut = s.peerOut := rfl
@[simp] theorem State.setTile_peerAns (s : State) (n : Nat) (v : Tile) : (s.setTile n v).peerAns = s.peerAns := rfl
@[simp] theorem State.setTile_useq (s : State) (n : Nat) (v : Tile) : (s.setTile n v).useq = s.useq := rfl
@[simp] theorem State.setTile_winIn (s : State) (n : Nat) (v : Tile) : (s.setTile n v).winIn = s.winIn := rfl
@[simp] theorem State.setTile_hostBad (s : State) (n : Nat) (v : Tile) : (s.setTile n v).hostBad = s.hostBad := rfl
@[simp] theorem State.setTile_orders (s : State) (n : Nat) (v : Tile) : (s.setTile n v).orders = s.orders := rfl
@[simp] theorem State.setTile_repair (s : State) (n : Nat) (v : Tile) : (s.setTile n v).repair = s.repair := rfl
@[simp] theorem State.setTile_rows (s : State) (n : Nat) (v : Tile) : (s.setTile n v).rows = s.rows := rfl
@[simp] theorem State.setTile_poisonLog (s : State) (n : Nat) (v : Tile) : (s.setTile n v).poisonLog = s.poisonLog := rfl
@[simp] theorem State.setTile_lostStacks (s : State) (n : Nat) (v : Tile) : (s.setTile n v).lostStacks = s.lostStacks := rfl

@[simp] theorem State.setTile_tiles (s : State) (n : Nat) (v : Tile) : (s.setTile n v).tiles = NMap.put s.tiles n v := rfl

/-! ### A tile changed -/

@[simp] theorem State.updTile_agenda (s : State) (n : Nat) (f : Tile → Tile) : (s.updTile n f).agenda = s.agenda := rfl
@[simp] theorem State.updTile_cur (s : State) (n : Nat) (f : Tile → Tile) : (s.updTile n f).cur = s.cur := rfl
@[simp] theorem State.updTile_ticks (s : State) (n : Nat) (f : Tile → Tile) : (s.updTile n f).ticks = s.ticks := rfl
@[simp] theorem State.updTile_inCycle (s : State) (n : Nat) (f : Tile → Tile) : (s.updTile n f).inCycle = s.inCycle := rfl
@[simp] theorem State.updTile_offences (s : State) (n : Nat) (f : Tile → Tile) : (s.updTile n f).offences = s.offences := rfl
@[simp] theorem State.updTile_starved (s : State) (n : Nat) (f : Tile → Tile) : (s.updTile n f).starved = s.starved := rfl
@[simp] theorem State.updTile_jdStarved (s : State) (n : Nat) (f : Tile → Tile) : (s.updTile n f).jdStarved = s.jdStarved := rfl
@[simp] theorem State.updTile_jdUnit (s : State) (n : Nat) (f : Tile → Tile) : (s.updTile n f).jdUnit = s.jdUnit := rfl
@[simp] theorem State.updTile_jdGot (s : State) (n : Nat) (f : Tile → Tile) : (s.updTile n f).jdGot = s.jdGot := rfl
@[simp] theorem State.updTile_deferred (s : State) (n : Nat) (f : Tile → Tile) : (s.updTile n f).deferred = s.deferred := rfl
@[simp] theorem State.updTile_groups (s : State) (n : Nat) (f : Tile → Tile) : (s.updTile n f).groups = s.groups := rfl
@[simp] theorem State.updTile_regions (s : State) (n : Nat) (f : Tile → Tile) : (s.updTile n f).regions = s.regions := rfl
@[simp] theorem State.updTile_st (s : State) (n : Nat) (f : Tile → Tile) : (s.updTile n f).st = s.st := rfl
@[simp] theorem State.updTile_mgmt (s : State) (n : Nat) (f : Tile → Tile) : (s.updTile n f).mgmt = s.mgmt := rfl
@[simp] theorem State.updTile_chans (s : State) (n : Nat) (f : Tile → Tile) : (s.updTile n f).chans = s.chans := rfl
@[simp] theorem State.updTile_pools (s : State) (n : Nat) (f : Tile → Tile) : (s.updTile n f).pools = s.pools := rfl
@[simp] theorem State.updTile_creqs (s : State) (n : Nat) (f : Tile → Tile) : (s.updTile n f).creqs = s.creqs := rfl
@[simp] theorem State.updTile_cxfers (s : State) (n : Nat) (f : Tile → Tile) : (s.updTile n f).cxfers = s.cxfers := rfl
@[simp] theorem State.updTile_probes (s : State) (n : Nat) (f : Tile → Tile) : (s.updTile n f).probes = s.probes := rfl
@[simp] theorem State.updTile_grows (s : State) (n : Nat) (f : Tile → Tile) : (s.updTile n f).grows = s.grows := rfl
@[simp] theorem State.updTile_remotes (s : State) (n : Nat) (f : Tile → Tile) : (s.updTile n f).remotes = s.remotes := rfl
@[simp] theorem State.updTile_reqNo (s : State) (n : Nat) (f : Tile → Tile) : (s.updTile n f).reqNo = s.reqNo := rfl
@[simp] theorem State.updTile_placeNo (s : State) (n : Nat) (f : Tile → Tile) : (s.updTile n f).placeNo = s.placeNo := rfl
@[simp] theorem State.updTile_pastBudgets (s : State) (n : Nat) (f : Tile → Tile) : (s.updTile n f).pastBudgets = s.pastBudgets := rfl
@[simp] theorem State.updTile_tlbinv (s : State) (n : Nat) (f : Tile → Tile) : (s.updTile n f).tlbinv = s.tlbinv := rfl
@[simp] theorem State.updTile_threads (s : State) (n : Nat) (f : Tile → Tile) : (s.updTile n f).threads = s.threads := rfl
@[simp] theorem State.updTile_marsh (s : State) (n : Nat) (f : Tile → Tile) : (s.updTile n f).marsh = s.marsh := rfl
@[simp] theorem State.updTile_marshNo (s : State) (n : Nat) (f : Tile → Tile) : (s.updTile n f).marshNo = s.marshNo := rfl
@[simp] theorem State.updTile_handed (s : State) (n : Nat) (f : Tile → Tile) : (s.updTile n f).handed = s.handed := rfl
@[simp] theorem State.updTile_swapped (s : State) (n : Nat) (f : Tile → Tile) : (s.updTile n f).swapped = s.swapped := rfl
@[simp] theorem State.updTile_heldStops (s : State) (n : Nat) (f : Tile → Tile) : (s.updTile n f).heldStops = s.heldStops := rfl
@[simp] theorem State.updTile_sbcyc (s : State) (n : Nat) (f : Tile → Tile) : (s.updTile n f).sbcyc = s.sbcyc := rfl
@[simp] theorem State.updTile_cancel (s : State) (n : Nat) (f : Tile → Tile) : (s.updTile n f).cancel = s.cancel := rfl
@[simp] theorem State.updTile_heartbeat (s : State) (n : Nat) (f : Tile → Tile) : (s.updTile n f).heartbeat = s.heartbeat := rfl
@[simp] theorem State.updTile_watch (s : State) (n : Nat) (f : Tile → Tile) : (s.updTile n f).watch = s.watch := rfl
@[simp] theorem State.updTile_kicks (s : State) (n : Nat) (f : Tile → Tile) : (s.updTile n f).kicks = s.kicks := rfl
@[simp] theorem State.updTile_sbcmds (s : State) (n : Nat) (f : Tile → Tile) : (s.updTile n f).sbcmds = s.sbcmds := rfl
@[simp] theorem State.updTile_jobs (s : State) (n : Nat) (f : Tile → Tile) : (s.updTile n f).jobs = s.jobs := rfl
@[simp] theorem State.updTile_sec (s : State) (n : Nat) (f : Tile → Tile) : (s.updTile n f).sec = s.sec := rfl
@[simp] theorem State.updTile_errcnt (s : State) (n : Nat) (f : Tile → Tile) : (s.updTile n f).errcnt = s.errcnt := rfl
@[simp] theorem State.updTile_errseq (s : State) (n : Nat) (f : Tile → Tile) : (s.updTile n f).errseq = s.errseq := rfl
@[simp] theorem State.updTile_jcyc (s : State) (n : Nat) (f : Tile → Tile) : (s.updTile n f).jcyc = s.jcyc := rfl
@[simp] theorem State.updTile_irqs (s : State) (n : Nat) (f : Tile → Tile) : (s.updTile n f).irqs = s.irqs := rfl
@[simp] theorem State.updTile_ualOut (s : State) (n : Nat) (f : Tile → Tile) : (s.updTile n f).ualOut = s.ualOut := rfl
@[simp] theorem State.updTile_hostOut (s : State) (n : Nat) (f : Tile → Tile) : (s.updTile n f).hostOut = s.hostOut := rfl
@[simp] theorem State.updTile_peerOut (s : State) (n : Nat) (f : Tile → Tile) : (s.updTile n f).peerOut = s.peerOut := rfl
@[simp] theorem State.updTile_peerAns (s : State) (n : Nat) (f : Tile → Tile) : (s.updTile n f).peerAns = s.peerAns := rfl
@[simp] theorem State.updTile_useq (s : State) (n : Nat) (f : Tile → Tile) : (s.updTile n f).useq = s.useq := rfl
@[simp] theorem State.updTile_winIn (s : State) (n : Nat) (f : Tile → Tile) : (s.updTile n f).winIn = s.winIn := rfl
@[simp] theorem State.updTile_hostBad (s : State) (n : Nat) (f : Tile → Tile) : (s.updTile n f).hostBad = s.hostBad := rfl
@[simp] theorem State.updTile_orders (s : State) (n : Nat) (f : Tile → Tile) : (s.updTile n f).orders = s.orders := rfl
@[simp] theorem State.updTile_repair (s : State) (n : Nat) (f : Tile → Tile) : (s.updTile n f).repair = s.repair := rfl
@[simp] theorem State.updTile_rows (s : State) (n : Nat) (f : Tile → Tile) : (s.updTile n f).rows = s.rows := rfl
@[simp] theorem State.updTile_poisonLog (s : State) (n : Nat) (f : Tile → Tile) : (s.updTile n f).poisonLog = s.poisonLog := rfl
@[simp] theorem State.updTile_lostStacks (s : State) (n : Nat) (f : Tile → Tile) : (s.updTile n f).lostStacks = s.lostStacks := rfl

/-! ### A group -/

@[simp] theorem State.setGroup_agenda (s : State) (n : Nat) (v : Group) : (s.setGroup n v).agenda = s.agenda := rfl
@[simp] theorem State.setGroup_cur (s : State) (n : Nat) (v : Group) : (s.setGroup n v).cur = s.cur := rfl
@[simp] theorem State.setGroup_ticks (s : State) (n : Nat) (v : Group) : (s.setGroup n v).ticks = s.ticks := rfl
@[simp] theorem State.setGroup_inCycle (s : State) (n : Nat) (v : Group) : (s.setGroup n v).inCycle = s.inCycle := rfl
@[simp] theorem State.setGroup_offences (s : State) (n : Nat) (v : Group) : (s.setGroup n v).offences = s.offences := rfl
@[simp] theorem State.setGroup_starved (s : State) (n : Nat) (v : Group) : (s.setGroup n v).starved = s.starved := rfl
@[simp] theorem State.setGroup_jdStarved (s : State) (n : Nat) (v : Group) : (s.setGroup n v).jdStarved = s.jdStarved := rfl
@[simp] theorem State.setGroup_jdUnit (s : State) (n : Nat) (v : Group) : (s.setGroup n v).jdUnit = s.jdUnit := rfl
@[simp] theorem State.setGroup_jdGot (s : State) (n : Nat) (v : Group) : (s.setGroup n v).jdGot = s.jdGot := rfl
@[simp] theorem State.setGroup_deferred (s : State) (n : Nat) (v : Group) : (s.setGroup n v).deferred = s.deferred := rfl
@[simp] theorem State.setGroup_tiles (s : State) (n : Nat) (v : Group) : (s.setGroup n v).tiles = s.tiles := rfl
@[simp] theorem State.setGroup_regions (s : State) (n : Nat) (v : Group) : (s.setGroup n v).regions = s.regions := rfl
@[simp] theorem State.setGroup_st (s : State) (n : Nat) (v : Group) : (s.setGroup n v).st = s.st := rfl
@[simp] theorem State.setGroup_mgmt (s : State) (n : Nat) (v : Group) : (s.setGroup n v).mgmt = s.mgmt := rfl
@[simp] theorem State.setGroup_chans (s : State) (n : Nat) (v : Group) : (s.setGroup n v).chans = s.chans := rfl
@[simp] theorem State.setGroup_pools (s : State) (n : Nat) (v : Group) : (s.setGroup n v).pools = s.pools := rfl
@[simp] theorem State.setGroup_creqs (s : State) (n : Nat) (v : Group) : (s.setGroup n v).creqs = s.creqs := rfl
@[simp] theorem State.setGroup_cxfers (s : State) (n : Nat) (v : Group) : (s.setGroup n v).cxfers = s.cxfers := rfl
@[simp] theorem State.setGroup_probes (s : State) (n : Nat) (v : Group) : (s.setGroup n v).probes = s.probes := rfl
@[simp] theorem State.setGroup_grows (s : State) (n : Nat) (v : Group) : (s.setGroup n v).grows = s.grows := rfl
@[simp] theorem State.setGroup_remotes (s : State) (n : Nat) (v : Group) : (s.setGroup n v).remotes = s.remotes := rfl
@[simp] theorem State.setGroup_reqNo (s : State) (n : Nat) (v : Group) : (s.setGroup n v).reqNo = s.reqNo := rfl
@[simp] theorem State.setGroup_placeNo (s : State) (n : Nat) (v : Group) : (s.setGroup n v).placeNo = s.placeNo := rfl
@[simp] theorem State.setGroup_pastBudgets (s : State) (n : Nat) (v : Group) : (s.setGroup n v).pastBudgets = s.pastBudgets := rfl
@[simp] theorem State.setGroup_tlbinv (s : State) (n : Nat) (v : Group) : (s.setGroup n v).tlbinv = s.tlbinv := rfl
@[simp] theorem State.setGroup_threads (s : State) (n : Nat) (v : Group) : (s.setGroup n v).threads = s.threads := rfl
@[simp] theorem State.setGroup_marsh (s : State) (n : Nat) (v : Group) : (s.setGroup n v).marsh = s.marsh := rfl
@[simp] theorem State.setGroup_marshNo (s : State) (n : Nat) (v : Group) : (s.setGroup n v).marshNo = s.marshNo := rfl
@[simp] theorem State.setGroup_handed (s : State) (n : Nat) (v : Group) : (s.setGroup n v).handed = s.handed := rfl
@[simp] theorem State.setGroup_swapped (s : State) (n : Nat) (v : Group) : (s.setGroup n v).swapped = s.swapped := rfl
@[simp] theorem State.setGroup_heldStops (s : State) (n : Nat) (v : Group) : (s.setGroup n v).heldStops = s.heldStops := rfl
@[simp] theorem State.setGroup_sbcyc (s : State) (n : Nat) (v : Group) : (s.setGroup n v).sbcyc = s.sbcyc := rfl
@[simp] theorem State.setGroup_cancel (s : State) (n : Nat) (v : Group) : (s.setGroup n v).cancel = s.cancel := rfl
@[simp] theorem State.setGroup_heartbeat (s : State) (n : Nat) (v : Group) : (s.setGroup n v).heartbeat = s.heartbeat := rfl
@[simp] theorem State.setGroup_watch (s : State) (n : Nat) (v : Group) : (s.setGroup n v).watch = s.watch := rfl
@[simp] theorem State.setGroup_kicks (s : State) (n : Nat) (v : Group) : (s.setGroup n v).kicks = s.kicks := rfl
@[simp] theorem State.setGroup_sbcmds (s : State) (n : Nat) (v : Group) : (s.setGroup n v).sbcmds = s.sbcmds := rfl
@[simp] theorem State.setGroup_jobs (s : State) (n : Nat) (v : Group) : (s.setGroup n v).jobs = s.jobs := rfl
@[simp] theorem State.setGroup_sec (s : State) (n : Nat) (v : Group) : (s.setGroup n v).sec = s.sec := rfl
@[simp] theorem State.setGroup_errcnt (s : State) (n : Nat) (v : Group) : (s.setGroup n v).errcnt = s.errcnt := rfl
@[simp] theorem State.setGroup_errseq (s : State) (n : Nat) (v : Group) : (s.setGroup n v).errseq = s.errseq := rfl
@[simp] theorem State.setGroup_jcyc (s : State) (n : Nat) (v : Group) : (s.setGroup n v).jcyc = s.jcyc := rfl
@[simp] theorem State.setGroup_irqs (s : State) (n : Nat) (v : Group) : (s.setGroup n v).irqs = s.irqs := rfl
@[simp] theorem State.setGroup_ualOut (s : State) (n : Nat) (v : Group) : (s.setGroup n v).ualOut = s.ualOut := rfl
@[simp] theorem State.setGroup_hostOut (s : State) (n : Nat) (v : Group) : (s.setGroup n v).hostOut = s.hostOut := rfl
@[simp] theorem State.setGroup_peerOut (s : State) (n : Nat) (v : Group) : (s.setGroup n v).peerOut = s.peerOut := rfl
@[simp] theorem State.setGroup_peerAns (s : State) (n : Nat) (v : Group) : (s.setGroup n v).peerAns = s.peerAns := rfl
@[simp] theorem State.setGroup_useq (s : State) (n : Nat) (v : Group) : (s.setGroup n v).useq = s.useq := rfl
@[simp] theorem State.setGroup_winIn (s : State) (n : Nat) (v : Group) : (s.setGroup n v).winIn = s.winIn := rfl
@[simp] theorem State.setGroup_hostBad (s : State) (n : Nat) (v : Group) : (s.setGroup n v).hostBad = s.hostBad := rfl
@[simp] theorem State.setGroup_orders (s : State) (n : Nat) (v : Group) : (s.setGroup n v).orders = s.orders := rfl
@[simp] theorem State.setGroup_repair (s : State) (n : Nat) (v : Group) : (s.setGroup n v).repair = s.repair := rfl
@[simp] theorem State.setGroup_rows (s : State) (n : Nat) (v : Group) : (s.setGroup n v).rows = s.rows := rfl
@[simp] theorem State.setGroup_poisonLog (s : State) (n : Nat) (v : Group) : (s.setGroup n v).poisonLog = s.poisonLog := rfl
@[simp] theorem State.setGroup_lostStacks (s : State) (n : Nat) (v : Group) : (s.setGroup n v).lostStacks = s.lostStacks := rfl

@[simp] theorem State.setGroup_groups (s : State) (n : Nat) (v : Group) : (s.setGroup n v).groups = NMap.put s.groups n v := rfl

/-! ### A region -/

@[simp] theorem State.setRegion_agenda (s : State) (n : Nat) (v : Region) : (s.setRegion n v).agenda = s.agenda := rfl
@[simp] theorem State.setRegion_cur (s : State) (n : Nat) (v : Region) : (s.setRegion n v).cur = s.cur := rfl
@[simp] theorem State.setRegion_ticks (s : State) (n : Nat) (v : Region) : (s.setRegion n v).ticks = s.ticks := rfl
@[simp] theorem State.setRegion_inCycle (s : State) (n : Nat) (v : Region) : (s.setRegion n v).inCycle = s.inCycle := rfl
@[simp] theorem State.setRegion_offences (s : State) (n : Nat) (v : Region) : (s.setRegion n v).offences = s.offences := rfl
@[simp] theorem State.setRegion_starved (s : State) (n : Nat) (v : Region) : (s.setRegion n v).starved = s.starved := rfl
@[simp] theorem State.setRegion_jdStarved (s : State) (n : Nat) (v : Region) : (s.setRegion n v).jdStarved = s.jdStarved := rfl
@[simp] theorem State.setRegion_jdUnit (s : State) (n : Nat) (v : Region) : (s.setRegion n v).jdUnit = s.jdUnit := rfl
@[simp] theorem State.setRegion_jdGot (s : State) (n : Nat) (v : Region) : (s.setRegion n v).jdGot = s.jdGot := rfl
@[simp] theorem State.setRegion_deferred (s : State) (n : Nat) (v : Region) : (s.setRegion n v).deferred = s.deferred := rfl
@[simp] theorem State.setRegion_tiles (s : State) (n : Nat) (v : Region) : (s.setRegion n v).tiles = s.tiles := rfl
@[simp] theorem State.setRegion_groups (s : State) (n : Nat) (v : Region) : (s.setRegion n v).groups = s.groups := rfl
@[simp] theorem State.setRegion_st (s : State) (n : Nat) (v : Region) : (s.setRegion n v).st = s.st := rfl
@[simp] theorem State.setRegion_mgmt (s : State) (n : Nat) (v : Region) : (s.setRegion n v).mgmt = s.mgmt := rfl
@[simp] theorem State.setRegion_chans (s : State) (n : Nat) (v : Region) : (s.setRegion n v).chans = s.chans := rfl
@[simp] theorem State.setRegion_pools (s : State) (n : Nat) (v : Region) : (s.setRegion n v).pools = s.pools := rfl
@[simp] theorem State.setRegion_creqs (s : State) (n : Nat) (v : Region) : (s.setRegion n v).creqs = s.creqs := rfl
@[simp] theorem State.setRegion_cxfers (s : State) (n : Nat) (v : Region) : (s.setRegion n v).cxfers = s.cxfers := rfl
@[simp] theorem State.setRegion_probes (s : State) (n : Nat) (v : Region) : (s.setRegion n v).probes = s.probes := rfl
@[simp] theorem State.setRegion_grows (s : State) (n : Nat) (v : Region) : (s.setRegion n v).grows = s.grows := rfl
@[simp] theorem State.setRegion_remotes (s : State) (n : Nat) (v : Region) : (s.setRegion n v).remotes = s.remotes := rfl
@[simp] theorem State.setRegion_reqNo (s : State) (n : Nat) (v : Region) : (s.setRegion n v).reqNo = s.reqNo := rfl
@[simp] theorem State.setRegion_placeNo (s : State) (n : Nat) (v : Region) : (s.setRegion n v).placeNo = s.placeNo := rfl
@[simp] theorem State.setRegion_pastBudgets (s : State) (n : Nat) (v : Region) : (s.setRegion n v).pastBudgets = s.pastBudgets := rfl
@[simp] theorem State.setRegion_tlbinv (s : State) (n : Nat) (v : Region) : (s.setRegion n v).tlbinv = s.tlbinv := rfl
@[simp] theorem State.setRegion_threads (s : State) (n : Nat) (v : Region) : (s.setRegion n v).threads = s.threads := rfl
@[simp] theorem State.setRegion_marsh (s : State) (n : Nat) (v : Region) : (s.setRegion n v).marsh = s.marsh := rfl
@[simp] theorem State.setRegion_marshNo (s : State) (n : Nat) (v : Region) : (s.setRegion n v).marshNo = s.marshNo := rfl
@[simp] theorem State.setRegion_handed (s : State) (n : Nat) (v : Region) : (s.setRegion n v).handed = s.handed := rfl
@[simp] theorem State.setRegion_swapped (s : State) (n : Nat) (v : Region) : (s.setRegion n v).swapped = s.swapped := rfl
@[simp] theorem State.setRegion_heldStops (s : State) (n : Nat) (v : Region) : (s.setRegion n v).heldStops = s.heldStops := rfl
@[simp] theorem State.setRegion_sbcyc (s : State) (n : Nat) (v : Region) : (s.setRegion n v).sbcyc = s.sbcyc := rfl
@[simp] theorem State.setRegion_cancel (s : State) (n : Nat) (v : Region) : (s.setRegion n v).cancel = s.cancel := rfl
@[simp] theorem State.setRegion_heartbeat (s : State) (n : Nat) (v : Region) : (s.setRegion n v).heartbeat = s.heartbeat := rfl
@[simp] theorem State.setRegion_watch (s : State) (n : Nat) (v : Region) : (s.setRegion n v).watch = s.watch := rfl
@[simp] theorem State.setRegion_kicks (s : State) (n : Nat) (v : Region) : (s.setRegion n v).kicks = s.kicks := rfl
@[simp] theorem State.setRegion_sbcmds (s : State) (n : Nat) (v : Region) : (s.setRegion n v).sbcmds = s.sbcmds := rfl
@[simp] theorem State.setRegion_jobs (s : State) (n : Nat) (v : Region) : (s.setRegion n v).jobs = s.jobs := rfl
@[simp] theorem State.setRegion_sec (s : State) (n : Nat) (v : Region) : (s.setRegion n v).sec = s.sec := rfl
@[simp] theorem State.setRegion_errcnt (s : State) (n : Nat) (v : Region) : (s.setRegion n v).errcnt = s.errcnt := rfl
@[simp] theorem State.setRegion_errseq (s : State) (n : Nat) (v : Region) : (s.setRegion n v).errseq = s.errseq := rfl
@[simp] theorem State.setRegion_jcyc (s : State) (n : Nat) (v : Region) : (s.setRegion n v).jcyc = s.jcyc := rfl
@[simp] theorem State.setRegion_irqs (s : State) (n : Nat) (v : Region) : (s.setRegion n v).irqs = s.irqs := rfl
@[simp] theorem State.setRegion_ualOut (s : State) (n : Nat) (v : Region) : (s.setRegion n v).ualOut = s.ualOut := rfl
@[simp] theorem State.setRegion_hostOut (s : State) (n : Nat) (v : Region) : (s.setRegion n v).hostOut = s.hostOut := rfl
@[simp] theorem State.setRegion_peerOut (s : State) (n : Nat) (v : Region) : (s.setRegion n v).peerOut = s.peerOut := rfl
@[simp] theorem State.setRegion_peerAns (s : State) (n : Nat) (v : Region) : (s.setRegion n v).peerAns = s.peerAns := rfl
@[simp] theorem State.setRegion_useq (s : State) (n : Nat) (v : Region) : (s.setRegion n v).useq = s.useq := rfl
@[simp] theorem State.setRegion_winIn (s : State) (n : Nat) (v : Region) : (s.setRegion n v).winIn = s.winIn := rfl
@[simp] theorem State.setRegion_hostBad (s : State) (n : Nat) (v : Region) : (s.setRegion n v).hostBad = s.hostBad := rfl
@[simp] theorem State.setRegion_orders (s : State) (n : Nat) (v : Region) : (s.setRegion n v).orders = s.orders := rfl
@[simp] theorem State.setRegion_repair (s : State) (n : Nat) (v : Region) : (s.setRegion n v).repair = s.repair := rfl
@[simp] theorem State.setRegion_rows (s : State) (n : Nat) (v : Region) : (s.setRegion n v).rows = s.rows := rfl
@[simp] theorem State.setRegion_poisonLog (s : State) (n : Nat) (v : Region) : (s.setRegion n v).poisonLog = s.poisonLog := rfl
@[simp] theorem State.setRegion_lostStacks (s : State) (n : Nat) (v : Region) : (s.setRegion n v).lostStacks = s.lostStacks := rfl

@[simp] theorem State.setRegion_regions (s : State) (n : Nat) (v : Region) : (s.setRegion n v).regions = NMap.put s.regions n v := rfl

/-! ### A management register -/

@[simp] theorem setMreg_agenda (s : State) (n : Nat) (v : Word) : (setMreg s n v).agenda = s.agenda := rfl
@[simp] theorem setMreg_cur (s : State) (n : Nat) (v : Word) : (setMreg s n v).cur = s.cur := rfl
@[simp] theorem setMreg_ticks (s : State) (n : Nat) (v : Word) : (setMreg s n v).ticks = s.ticks := rfl
@[simp] theorem setMreg_inCycle (s : State) (n : Nat) (v : Word) : (setMreg s n v).inCycle = s.inCycle := rfl
@[simp] theorem setMreg_offences (s : State) (n : Nat) (v : Word) : (setMreg s n v).offences = s.offences := rfl
@[simp] theorem setMreg_starved (s : State) (n : Nat) (v : Word) : (setMreg s n v).starved = s.starved := rfl
@[simp] theorem setMreg_jdStarved (s : State) (n : Nat) (v : Word) : (setMreg s n v).jdStarved = s.jdStarved := rfl
@[simp] theorem setMreg_jdUnit (s : State) (n : Nat) (v : Word) : (setMreg s n v).jdUnit = s.jdUnit := rfl
@[simp] theorem setMreg_jdGot (s : State) (n : Nat) (v : Word) : (setMreg s n v).jdGot = s.jdGot := rfl
@[simp] theorem setMreg_deferred (s : State) (n : Nat) (v : Word) : (setMreg s n v).deferred = s.deferred := rfl
@[simp] theorem setMreg_tiles (s : State) (n : Nat) (v : Word) : (setMreg s n v).tiles = s.tiles := rfl
@[simp] theorem setMreg_groups (s : State) (n : Nat) (v : Word) : (setMreg s n v).groups = s.groups := rfl
@[simp] theorem setMreg_regions (s : State) (n : Nat) (v : Word) : (setMreg s n v).regions = s.regions := rfl
@[simp] theorem setMreg_st (s : State) (n : Nat) (v : Word) : (setMreg s n v).st = s.st := rfl
@[simp] theorem setMreg_chans (s : State) (n : Nat) (v : Word) : (setMreg s n v).chans = s.chans := rfl
@[simp] theorem setMreg_pools (s : State) (n : Nat) (v : Word) : (setMreg s n v).pools = s.pools := rfl
@[simp] theorem setMreg_creqs (s : State) (n : Nat) (v : Word) : (setMreg s n v).creqs = s.creqs := rfl
@[simp] theorem setMreg_cxfers (s : State) (n : Nat) (v : Word) : (setMreg s n v).cxfers = s.cxfers := rfl
@[simp] theorem setMreg_probes (s : State) (n : Nat) (v : Word) : (setMreg s n v).probes = s.probes := rfl
@[simp] theorem setMreg_grows (s : State) (n : Nat) (v : Word) : (setMreg s n v).grows = s.grows := rfl
@[simp] theorem setMreg_remotes (s : State) (n : Nat) (v : Word) : (setMreg s n v).remotes = s.remotes := rfl
@[simp] theorem setMreg_reqNo (s : State) (n : Nat) (v : Word) : (setMreg s n v).reqNo = s.reqNo := rfl
@[simp] theorem setMreg_placeNo (s : State) (n : Nat) (v : Word) : (setMreg s n v).placeNo = s.placeNo := rfl
@[simp] theorem setMreg_pastBudgets (s : State) (n : Nat) (v : Word) : (setMreg s n v).pastBudgets = s.pastBudgets := rfl
@[simp] theorem setMreg_tlbinv (s : State) (n : Nat) (v : Word) : (setMreg s n v).tlbinv = s.tlbinv := rfl
@[simp] theorem setMreg_threads (s : State) (n : Nat) (v : Word) : (setMreg s n v).threads = s.threads := rfl
@[simp] theorem setMreg_marsh (s : State) (n : Nat) (v : Word) : (setMreg s n v).marsh = s.marsh := rfl
@[simp] theorem setMreg_marshNo (s : State) (n : Nat) (v : Word) : (setMreg s n v).marshNo = s.marshNo := rfl
@[simp] theorem setMreg_handed (s : State) (n : Nat) (v : Word) : (setMreg s n v).handed = s.handed := rfl
@[simp] theorem setMreg_swapped (s : State) (n : Nat) (v : Word) : (setMreg s n v).swapped = s.swapped := rfl
@[simp] theorem setMreg_heldStops (s : State) (n : Nat) (v : Word) : (setMreg s n v).heldStops = s.heldStops := rfl
@[simp] theorem setMreg_sbcyc (s : State) (n : Nat) (v : Word) : (setMreg s n v).sbcyc = s.sbcyc := rfl
@[simp] theorem setMreg_cancel (s : State) (n : Nat) (v : Word) : (setMreg s n v).cancel = s.cancel := rfl
@[simp] theorem setMreg_heartbeat (s : State) (n : Nat) (v : Word) : (setMreg s n v).heartbeat = s.heartbeat := rfl
@[simp] theorem setMreg_watch (s : State) (n : Nat) (v : Word) : (setMreg s n v).watch = s.watch := rfl
@[simp] theorem setMreg_kicks (s : State) (n : Nat) (v : Word) : (setMreg s n v).kicks = s.kicks := rfl
@[simp] theorem setMreg_sbcmds (s : State) (n : Nat) (v : Word) : (setMreg s n v).sbcmds = s.sbcmds := rfl
@[simp] theorem setMreg_jobs (s : State) (n : Nat) (v : Word) : (setMreg s n v).jobs = s.jobs := rfl
@[simp] theorem setMreg_sec (s : State) (n : Nat) (v : Word) : (setMreg s n v).sec = s.sec := rfl
@[simp] theorem setMreg_errcnt (s : State) (n : Nat) (v : Word) : (setMreg s n v).errcnt = s.errcnt := rfl
@[simp] theorem setMreg_errseq (s : State) (n : Nat) (v : Word) : (setMreg s n v).errseq = s.errseq := rfl
@[simp] theorem setMreg_jcyc (s : State) (n : Nat) (v : Word) : (setMreg s n v).jcyc = s.jcyc := rfl
@[simp] theorem setMreg_irqs (s : State) (n : Nat) (v : Word) : (setMreg s n v).irqs = s.irqs := rfl
@[simp] theorem setMreg_ualOut (s : State) (n : Nat) (v : Word) : (setMreg s n v).ualOut = s.ualOut := rfl
@[simp] theorem setMreg_hostOut (s : State) (n : Nat) (v : Word) : (setMreg s n v).hostOut = s.hostOut := rfl
@[simp] theorem setMreg_peerOut (s : State) (n : Nat) (v : Word) : (setMreg s n v).peerOut = s.peerOut := rfl
@[simp] theorem setMreg_peerAns (s : State) (n : Nat) (v : Word) : (setMreg s n v).peerAns = s.peerAns := rfl
@[simp] theorem setMreg_useq (s : State) (n : Nat) (v : Word) : (setMreg s n v).useq = s.useq := rfl
@[simp] theorem setMreg_winIn (s : State) (n : Nat) (v : Word) : (setMreg s n v).winIn = s.winIn := rfl
@[simp] theorem setMreg_hostBad (s : State) (n : Nat) (v : Word) : (setMreg s n v).hostBad = s.hostBad := rfl
@[simp] theorem setMreg_orders (s : State) (n : Nat) (v : Word) : (setMreg s n v).orders = s.orders := rfl
@[simp] theorem setMreg_repair (s : State) (n : Nat) (v : Word) : (setMreg s n v).repair = s.repair := rfl
@[simp] theorem setMreg_rows (s : State) (n : Nat) (v : Word) : (setMreg s n v).rows = s.rows := rfl
@[simp] theorem setMreg_poisonLog (s : State) (n : Nat) (v : Word) : (setMreg s n v).poisonLog = s.poisonLog := rfl
@[simp] theorem setMreg_lostStacks (s : State) (n : Nat) (v : Word) : (setMreg s n v).lostStacks = s.lostStacks := rfl

/-! ### A channel table entry -/

@[simp] theorem setChan_agenda (s : State) (n : Nat) (v : Chan) : (setChan s n v).agenda = s.agenda := rfl
@[simp] theorem setChan_cur (s : State) (n : Nat) (v : Chan) : (setChan s n v).cur = s.cur := rfl
@[simp] theorem setChan_ticks (s : State) (n : Nat) (v : Chan) : (setChan s n v).ticks = s.ticks := rfl
@[simp] theorem setChan_inCycle (s : State) (n : Nat) (v : Chan) : (setChan s n v).inCycle = s.inCycle := rfl
@[simp] theorem setChan_offences (s : State) (n : Nat) (v : Chan) : (setChan s n v).offences = s.offences := rfl
@[simp] theorem setChan_starved (s : State) (n : Nat) (v : Chan) : (setChan s n v).starved = s.starved := rfl
@[simp] theorem setChan_jdStarved (s : State) (n : Nat) (v : Chan) : (setChan s n v).jdStarved = s.jdStarved := rfl
@[simp] theorem setChan_jdUnit (s : State) (n : Nat) (v : Chan) : (setChan s n v).jdUnit = s.jdUnit := rfl
@[simp] theorem setChan_jdGot (s : State) (n : Nat) (v : Chan) : (setChan s n v).jdGot = s.jdGot := rfl
@[simp] theorem setChan_deferred (s : State) (n : Nat) (v : Chan) : (setChan s n v).deferred = s.deferred := rfl
@[simp] theorem setChan_tiles (s : State) (n : Nat) (v : Chan) : (setChan s n v).tiles = s.tiles := rfl
@[simp] theorem setChan_groups (s : State) (n : Nat) (v : Chan) : (setChan s n v).groups = s.groups := rfl
@[simp] theorem setChan_regions (s : State) (n : Nat) (v : Chan) : (setChan s n v).regions = s.regions := rfl
@[simp] theorem setChan_st (s : State) (n : Nat) (v : Chan) : (setChan s n v).st = s.st := rfl
@[simp] theorem setChan_mgmt (s : State) (n : Nat) (v : Chan) : (setChan s n v).mgmt = s.mgmt := rfl
@[simp] theorem setChan_pools (s : State) (n : Nat) (v : Chan) : (setChan s n v).pools = s.pools := rfl
@[simp] theorem setChan_creqs (s : State) (n : Nat) (v : Chan) : (setChan s n v).creqs = s.creqs := rfl
@[simp] theorem setChan_cxfers (s : State) (n : Nat) (v : Chan) : (setChan s n v).cxfers = s.cxfers := rfl
@[simp] theorem setChan_probes (s : State) (n : Nat) (v : Chan) : (setChan s n v).probes = s.probes := rfl
@[simp] theorem setChan_grows (s : State) (n : Nat) (v : Chan) : (setChan s n v).grows = s.grows := rfl
@[simp] theorem setChan_remotes (s : State) (n : Nat) (v : Chan) : (setChan s n v).remotes = s.remotes := rfl
@[simp] theorem setChan_reqNo (s : State) (n : Nat) (v : Chan) : (setChan s n v).reqNo = s.reqNo := rfl
@[simp] theorem setChan_placeNo (s : State) (n : Nat) (v : Chan) : (setChan s n v).placeNo = s.placeNo := rfl
@[simp] theorem setChan_pastBudgets (s : State) (n : Nat) (v : Chan) : (setChan s n v).pastBudgets = s.pastBudgets := rfl
@[simp] theorem setChan_tlbinv (s : State) (n : Nat) (v : Chan) : (setChan s n v).tlbinv = s.tlbinv := rfl
@[simp] theorem setChan_threads (s : State) (n : Nat) (v : Chan) : (setChan s n v).threads = s.threads := rfl
@[simp] theorem setChan_marsh (s : State) (n : Nat) (v : Chan) : (setChan s n v).marsh = s.marsh := rfl
@[simp] theorem setChan_marshNo (s : State) (n : Nat) (v : Chan) : (setChan s n v).marshNo = s.marshNo := rfl
@[simp] theorem setChan_handed (s : State) (n : Nat) (v : Chan) : (setChan s n v).handed = s.handed := rfl
@[simp] theorem setChan_swapped (s : State) (n : Nat) (v : Chan) : (setChan s n v).swapped = s.swapped := rfl
@[simp] theorem setChan_heldStops (s : State) (n : Nat) (v : Chan) : (setChan s n v).heldStops = s.heldStops := rfl
@[simp] theorem setChan_sbcyc (s : State) (n : Nat) (v : Chan) : (setChan s n v).sbcyc = s.sbcyc := rfl
@[simp] theorem setChan_cancel (s : State) (n : Nat) (v : Chan) : (setChan s n v).cancel = s.cancel := rfl
@[simp] theorem setChan_heartbeat (s : State) (n : Nat) (v : Chan) : (setChan s n v).heartbeat = s.heartbeat := rfl
@[simp] theorem setChan_watch (s : State) (n : Nat) (v : Chan) : (setChan s n v).watch = s.watch := rfl
@[simp] theorem setChan_kicks (s : State) (n : Nat) (v : Chan) : (setChan s n v).kicks = s.kicks := rfl
@[simp] theorem setChan_sbcmds (s : State) (n : Nat) (v : Chan) : (setChan s n v).sbcmds = s.sbcmds := rfl
@[simp] theorem setChan_jobs (s : State) (n : Nat) (v : Chan) : (setChan s n v).jobs = s.jobs := rfl
@[simp] theorem setChan_sec (s : State) (n : Nat) (v : Chan) : (setChan s n v).sec = s.sec := rfl
@[simp] theorem setChan_errcnt (s : State) (n : Nat) (v : Chan) : (setChan s n v).errcnt = s.errcnt := rfl
@[simp] theorem setChan_errseq (s : State) (n : Nat) (v : Chan) : (setChan s n v).errseq = s.errseq := rfl
@[simp] theorem setChan_jcyc (s : State) (n : Nat) (v : Chan) : (setChan s n v).jcyc = s.jcyc := rfl
@[simp] theorem setChan_irqs (s : State) (n : Nat) (v : Chan) : (setChan s n v).irqs = s.irqs := rfl
@[simp] theorem setChan_ualOut (s : State) (n : Nat) (v : Chan) : (setChan s n v).ualOut = s.ualOut := rfl
@[simp] theorem setChan_hostOut (s : State) (n : Nat) (v : Chan) : (setChan s n v).hostOut = s.hostOut := rfl
@[simp] theorem setChan_peerOut (s : State) (n : Nat) (v : Chan) : (setChan s n v).peerOut = s.peerOut := rfl
@[simp] theorem setChan_peerAns (s : State) (n : Nat) (v : Chan) : (setChan s n v).peerAns = s.peerAns := rfl
@[simp] theorem setChan_useq (s : State) (n : Nat) (v : Chan) : (setChan s n v).useq = s.useq := rfl
@[simp] theorem setChan_winIn (s : State) (n : Nat) (v : Chan) : (setChan s n v).winIn = s.winIn := rfl
@[simp] theorem setChan_hostBad (s : State) (n : Nat) (v : Chan) : (setChan s n v).hostBad = s.hostBad := rfl
@[simp] theorem setChan_orders (s : State) (n : Nat) (v : Chan) : (setChan s n v).orders = s.orders := rfl
@[simp] theorem setChan_repair (s : State) (n : Nat) (v : Chan) : (setChan s n v).repair = s.repair := rfl
@[simp] theorem setChan_rows (s : State) (n : Nat) (v : Chan) : (setChan s n v).rows = s.rows := rfl
@[simp] theorem setChan_poisonLog (s : State) (n : Nat) (v : Chan) : (setChan s n v).poisonLog = s.poisonLog := rfl
@[simp] theorem setChan_lostStacks (s : State) (n : Nat) (v : Chan) : (setChan s n v).lostStacks = s.lostStacks := rfl

/-! ### A queue thread -/

@[simp] theorem setThr_agenda (s : State) (n : Nat) (v : Thr) : (setThr s n v).agenda = s.agenda := rfl
@[simp] theorem setThr_cur (s : State) (n : Nat) (v : Thr) : (setThr s n v).cur = s.cur := rfl
@[simp] theorem setThr_ticks (s : State) (n : Nat) (v : Thr) : (setThr s n v).ticks = s.ticks := rfl
@[simp] theorem setThr_inCycle (s : State) (n : Nat) (v : Thr) : (setThr s n v).inCycle = s.inCycle := rfl
@[simp] theorem setThr_offences (s : State) (n : Nat) (v : Thr) : (setThr s n v).offences = s.offences := rfl
@[simp] theorem setThr_starved (s : State) (n : Nat) (v : Thr) : (setThr s n v).starved = s.starved := rfl
@[simp] theorem setThr_jdStarved (s : State) (n : Nat) (v : Thr) : (setThr s n v).jdStarved = s.jdStarved := rfl
@[simp] theorem setThr_jdUnit (s : State) (n : Nat) (v : Thr) : (setThr s n v).jdUnit = s.jdUnit := rfl
@[simp] theorem setThr_jdGot (s : State) (n : Nat) (v : Thr) : (setThr s n v).jdGot = s.jdGot := rfl
@[simp] theorem setThr_deferred (s : State) (n : Nat) (v : Thr) : (setThr s n v).deferred = s.deferred := rfl
@[simp] theorem setThr_tiles (s : State) (n : Nat) (v : Thr) : (setThr s n v).tiles = s.tiles := rfl
@[simp] theorem setThr_groups (s : State) (n : Nat) (v : Thr) : (setThr s n v).groups = s.groups := rfl
@[simp] theorem setThr_regions (s : State) (n : Nat) (v : Thr) : (setThr s n v).regions = s.regions := rfl
@[simp] theorem setThr_st (s : State) (n : Nat) (v : Thr) : (setThr s n v).st = s.st := rfl
@[simp] theorem setThr_mgmt (s : State) (n : Nat) (v : Thr) : (setThr s n v).mgmt = s.mgmt := rfl
@[simp] theorem setThr_chans (s : State) (n : Nat) (v : Thr) : (setThr s n v).chans = s.chans := rfl
@[simp] theorem setThr_pools (s : State) (n : Nat) (v : Thr) : (setThr s n v).pools = s.pools := rfl
@[simp] theorem setThr_creqs (s : State) (n : Nat) (v : Thr) : (setThr s n v).creqs = s.creqs := rfl
@[simp] theorem setThr_cxfers (s : State) (n : Nat) (v : Thr) : (setThr s n v).cxfers = s.cxfers := rfl
@[simp] theorem setThr_probes (s : State) (n : Nat) (v : Thr) : (setThr s n v).probes = s.probes := rfl
@[simp] theorem setThr_grows (s : State) (n : Nat) (v : Thr) : (setThr s n v).grows = s.grows := rfl
@[simp] theorem setThr_remotes (s : State) (n : Nat) (v : Thr) : (setThr s n v).remotes = s.remotes := rfl
@[simp] theorem setThr_reqNo (s : State) (n : Nat) (v : Thr) : (setThr s n v).reqNo = s.reqNo := rfl
@[simp] theorem setThr_placeNo (s : State) (n : Nat) (v : Thr) : (setThr s n v).placeNo = s.placeNo := rfl
@[simp] theorem setThr_pastBudgets (s : State) (n : Nat) (v : Thr) : (setThr s n v).pastBudgets = s.pastBudgets := rfl
@[simp] theorem setThr_tlbinv (s : State) (n : Nat) (v : Thr) : (setThr s n v).tlbinv = s.tlbinv := rfl
@[simp] theorem setThr_marsh (s : State) (n : Nat) (v : Thr) : (setThr s n v).marsh = s.marsh := rfl
@[simp] theorem setThr_marshNo (s : State) (n : Nat) (v : Thr) : (setThr s n v).marshNo = s.marshNo := rfl
@[simp] theorem setThr_handed (s : State) (n : Nat) (v : Thr) : (setThr s n v).handed = s.handed := rfl
@[simp] theorem setThr_swapped (s : State) (n : Nat) (v : Thr) : (setThr s n v).swapped = s.swapped := rfl
@[simp] theorem setThr_heldStops (s : State) (n : Nat) (v : Thr) : (setThr s n v).heldStops = s.heldStops := rfl
@[simp] theorem setThr_sbcyc (s : State) (n : Nat) (v : Thr) : (setThr s n v).sbcyc = s.sbcyc := rfl
@[simp] theorem setThr_cancel (s : State) (n : Nat) (v : Thr) : (setThr s n v).cancel = s.cancel := rfl
@[simp] theorem setThr_heartbeat (s : State) (n : Nat) (v : Thr) : (setThr s n v).heartbeat = s.heartbeat := rfl
@[simp] theorem setThr_watch (s : State) (n : Nat) (v : Thr) : (setThr s n v).watch = s.watch := rfl
@[simp] theorem setThr_kicks (s : State) (n : Nat) (v : Thr) : (setThr s n v).kicks = s.kicks := rfl
@[simp] theorem setThr_sbcmds (s : State) (n : Nat) (v : Thr) : (setThr s n v).sbcmds = s.sbcmds := rfl
@[simp] theorem setThr_jobs (s : State) (n : Nat) (v : Thr) : (setThr s n v).jobs = s.jobs := rfl
@[simp] theorem setThr_sec (s : State) (n : Nat) (v : Thr) : (setThr s n v).sec = s.sec := rfl
@[simp] theorem setThr_errcnt (s : State) (n : Nat) (v : Thr) : (setThr s n v).errcnt = s.errcnt := rfl
@[simp] theorem setThr_errseq (s : State) (n : Nat) (v : Thr) : (setThr s n v).errseq = s.errseq := rfl
@[simp] theorem setThr_jcyc (s : State) (n : Nat) (v : Thr) : (setThr s n v).jcyc = s.jcyc := rfl
@[simp] theorem setThr_irqs (s : State) (n : Nat) (v : Thr) : (setThr s n v).irqs = s.irqs := rfl
@[simp] theorem setThr_ualOut (s : State) (n : Nat) (v : Thr) : (setThr s n v).ualOut = s.ualOut := rfl
@[simp] theorem setThr_hostOut (s : State) (n : Nat) (v : Thr) : (setThr s n v).hostOut = s.hostOut := rfl
@[simp] theorem setThr_peerOut (s : State) (n : Nat) (v : Thr) : (setThr s n v).peerOut = s.peerOut := rfl
@[simp] theorem setThr_peerAns (s : State) (n : Nat) (v : Thr) : (setThr s n v).peerAns = s.peerAns := rfl
@[simp] theorem setThr_useq (s : State) (n : Nat) (v : Thr) : (setThr s n v).useq = s.useq := rfl
@[simp] theorem setThr_winIn (s : State) (n : Nat) (v : Thr) : (setThr s n v).winIn = s.winIn := rfl
@[simp] theorem setThr_hostBad (s : State) (n : Nat) (v : Thr) : (setThr s n v).hostBad = s.hostBad := rfl
@[simp] theorem setThr_orders (s : State) (n : Nat) (v : Thr) : (setThr s n v).orders = s.orders := rfl
@[simp] theorem setThr_repair (s : State) (n : Nat) (v : Thr) : (setThr s n v).repair = s.repair := rfl
@[simp] theorem setThr_rows (s : State) (n : Nat) (v : Thr) : (setThr s n v).rows = s.rows := rfl
@[simp] theorem setThr_poisonLog (s : State) (n : Nat) (v : Thr) : (setThr s n v).poisonLog = s.poisonLog := rfl
@[simp] theorem setThr_lostStacks (s : State) (n : Nat) (v : Thr) : (setThr s n v).lostStacks = s.lostStacks := rfl

/-! ### An error counter -/

@[simp] theorem count_agenda (s : State) (n : Nat) : (count s n).agenda = s.agenda := rfl
@[simp] theorem count_cur (s : State) (n : Nat) : (count s n).cur = s.cur := rfl
@[simp] theorem count_ticks (s : State) (n : Nat) : (count s n).ticks = s.ticks := rfl
@[simp] theorem count_inCycle (s : State) (n : Nat) : (count s n).inCycle = s.inCycle := rfl
@[simp] theorem count_offences (s : State) (n : Nat) : (count s n).offences = s.offences := rfl
@[simp] theorem count_starved (s : State) (n : Nat) : (count s n).starved = s.starved := rfl
@[simp] theorem count_jdStarved (s : State) (n : Nat) : (count s n).jdStarved = s.jdStarved := rfl
@[simp] theorem count_jdUnit (s : State) (n : Nat) : (count s n).jdUnit = s.jdUnit := rfl
@[simp] theorem count_jdGot (s : State) (n : Nat) : (count s n).jdGot = s.jdGot := rfl
@[simp] theorem count_deferred (s : State) (n : Nat) : (count s n).deferred = s.deferred := rfl
@[simp] theorem count_tiles (s : State) (n : Nat) : (count s n).tiles = s.tiles := rfl
@[simp] theorem count_groups (s : State) (n : Nat) : (count s n).groups = s.groups := rfl
@[simp] theorem count_regions (s : State) (n : Nat) : (count s n).regions = s.regions := rfl
@[simp] theorem count_st (s : State) (n : Nat) : (count s n).st = s.st := rfl
@[simp] theorem count_mgmt (s : State) (n : Nat) : (count s n).mgmt = s.mgmt := rfl
@[simp] theorem count_chans (s : State) (n : Nat) : (count s n).chans = s.chans := rfl
@[simp] theorem count_pools (s : State) (n : Nat) : (count s n).pools = s.pools := rfl
@[simp] theorem count_creqs (s : State) (n : Nat) : (count s n).creqs = s.creqs := rfl
@[simp] theorem count_cxfers (s : State) (n : Nat) : (count s n).cxfers = s.cxfers := rfl
@[simp] theorem count_probes (s : State) (n : Nat) : (count s n).probes = s.probes := rfl
@[simp] theorem count_grows (s : State) (n : Nat) : (count s n).grows = s.grows := rfl
@[simp] theorem count_remotes (s : State) (n : Nat) : (count s n).remotes = s.remotes := rfl
@[simp] theorem count_reqNo (s : State) (n : Nat) : (count s n).reqNo = s.reqNo := rfl
@[simp] theorem count_placeNo (s : State) (n : Nat) : (count s n).placeNo = s.placeNo := rfl
@[simp] theorem count_pastBudgets (s : State) (n : Nat) : (count s n).pastBudgets = s.pastBudgets := rfl
@[simp] theorem count_tlbinv (s : State) (n : Nat) : (count s n).tlbinv = s.tlbinv := rfl
@[simp] theorem count_threads (s : State) (n : Nat) : (count s n).threads = s.threads := rfl
@[simp] theorem count_marsh (s : State) (n : Nat) : (count s n).marsh = s.marsh := rfl
@[simp] theorem count_marshNo (s : State) (n : Nat) : (count s n).marshNo = s.marshNo := rfl
@[simp] theorem count_handed (s : State) (n : Nat) : (count s n).handed = s.handed := rfl
@[simp] theorem count_swapped (s : State) (n : Nat) : (count s n).swapped = s.swapped := rfl
@[simp] theorem count_heldStops (s : State) (n : Nat) : (count s n).heldStops = s.heldStops := rfl
@[simp] theorem count_sbcyc (s : State) (n : Nat) : (count s n).sbcyc = s.sbcyc := rfl
@[simp] theorem count_cancel (s : State) (n : Nat) : (count s n).cancel = s.cancel := rfl
@[simp] theorem count_heartbeat (s : State) (n : Nat) : (count s n).heartbeat = s.heartbeat := rfl
@[simp] theorem count_watch (s : State) (n : Nat) : (count s n).watch = s.watch := rfl
@[simp] theorem count_kicks (s : State) (n : Nat) : (count s n).kicks = s.kicks := rfl
@[simp] theorem count_sbcmds (s : State) (n : Nat) : (count s n).sbcmds = s.sbcmds := rfl
@[simp] theorem count_jobs (s : State) (n : Nat) : (count s n).jobs = s.jobs := rfl
@[simp] theorem count_sec (s : State) (n : Nat) : (count s n).sec = s.sec := rfl
@[simp] theorem count_errseq (s : State) (n : Nat) : (count s n).errseq = s.errseq := rfl
@[simp] theorem count_jcyc (s : State) (n : Nat) : (count s n).jcyc = s.jcyc := rfl
@[simp] theorem count_irqs (s : State) (n : Nat) : (count s n).irqs = s.irqs := rfl
@[simp] theorem count_ualOut (s : State) (n : Nat) : (count s n).ualOut = s.ualOut := rfl
@[simp] theorem count_hostOut (s : State) (n : Nat) : (count s n).hostOut = s.hostOut := rfl
@[simp] theorem count_peerOut (s : State) (n : Nat) : (count s n).peerOut = s.peerOut := rfl
@[simp] theorem count_peerAns (s : State) (n : Nat) : (count s n).peerAns = s.peerAns := rfl
@[simp] theorem count_useq (s : State) (n : Nat) : (count s n).useq = s.useq := rfl
@[simp] theorem count_winIn (s : State) (n : Nat) : (count s n).winIn = s.winIn := rfl
@[simp] theorem count_hostBad (s : State) (n : Nat) : (count s n).hostBad = s.hostBad := rfl
@[simp] theorem count_orders (s : State) (n : Nat) : (count s n).orders = s.orders := rfl
@[simp] theorem count_repair (s : State) (n : Nat) : (count s n).repair = s.repair := rfl
@[simp] theorem count_rows (s : State) (n : Nat) : (count s n).rows = s.rows := rfl
@[simp] theorem count_poisonLog (s : State) (n : Nat) : (count s n).poisonLog = s.poisonLog := rfl
@[simp] theorem count_lostStacks (s : State) (n : Nat) : (count s n).lostStacks = s.lostStacks := rfl

/-! ### A tile: Tile.setX -/

@[simp] theorem Tile.setX_started (t : Tile) (n : Nat) (v : XReg) : (t.setX n v).started = t.started := rfl
@[simp] theorem Tile.setX_ended (t : Tile) (n : Nat) (v : XReg) : (t.setX n v).ended = t.ended := rfl
@[simp] theorem Tile.setX_endAt (t : Tile) (n : Nat) (v : XReg) : (t.setX n v).endAt = t.endAt := rfl
@[simp] theorem Tile.setX_rgn (t : Tile) (n : Nat) (v : XReg) : (t.setX n v).rgn = t.rgn := rfl
@[simp] theorem Tile.setX_col (t : Tile) (n : Nat) (v : XReg) : (t.setX n v).col = t.col := rfl
@[simp] theorem Tile.setX_row (t : Tile) (n : Nat) (v : XReg) : (t.setX n v).row = t.row := rfl
@[simp] theorem Tile.setX_walker (t : Tile) (n : Nat) (v : XReg) : (t.setX n v).walker = t.walker := rfl
@[simp] theorem Tile.setX_cyc (t : Tile) (n : Nat) (v : XReg) : (t.setX n v).cyc = t.cyc := rfl
@[simp] theorem Tile.setX_e (t : Tile) (n : Nat) (v : XReg) : (t.setX n v).e = t.e := rfl
@[simp] theorem Tile.setX_a (t : Tile) (n : Nat) (v : XReg) : (t.setX n v).a = t.a := rfl
@[simp] theorem Tile.setX_m (t : Tile) (n : Nat) (v : XReg) : (t.setX n v).m = t.m := rfl
@[simp] theorem Tile.setX_y (t : Tile) (n : Nat) (v : XReg) : (t.setX n v).y = t.y := rfl
@[simp] theorem Tile.setX_preds (t : Tile) (n : Nat) (v : XReg) : (t.setX n v).preds = t.preds := rfl
@[simp] theorem Tile.setX_toks (t : Tile) (n : Nat) (v : XReg) : (t.setX n v).toks = t.toks := rfl
@[simp] theorem Tile.setX_boq (t : Tile) (n : Nat) (v : XReg) : (t.setX n v).boq = t.boq := rfl
@[simp] theorem Tile.setX_sr (t : Tile) (n : Nat) (v : XReg) : (t.setX n v).sr = t.sr := rfl
@[simp] theorem Tile.setX_rings (t : Tile) (n : Nat) (v : XReg) : (t.setX n v).rings = t.rings := rfl
@[simp] theorem Tile.setX_slots (t : Tile) (n : Nat) (v : XReg) : (t.setX n v).slots = t.slots := rfl
@[simp] theorem Tile.setX_lastSlot (t : Tile) (n : Nat) (v : XReg) : (t.setX n v).lastSlot = t.lastSlot := rfl
@[simp] theorem Tile.setX_seqNo (t : Tile) (n : Nat) (v : XReg) : (t.setX n v).seqNo = t.seqNo := rfl
@[simp] theorem Tile.setX_chans (t : Tile) (n : Nat) (v : XReg) : (t.setX n v).chans = t.chans := rfl
@[simp] theorem Tile.setX_farLast (t : Tile) (n : Nat) (v : XReg) : (t.setX n v).farLast = t.farLast := rfl
@[simp] theorem Tile.setX_ports (t : Tile) (n : Nat) (v : XReg) : (t.setX n v).ports = t.ports := rfl
@[simp] theorem Tile.setX_arr (t : Tile) (n : Nat) (v : XReg) : (t.setX n v).arr = t.arr := rfl
@[simp] theorem Tile.setX_acc (t : Tile) (n : Nat) (v : XReg) : (t.setX n v).acc = t.acc := rfl
@[simp] theorem Tile.setX_accPois (t : Tile) (n : Nat) (v : XReg) : (t.setX n v).accPois = t.accPois := rfl
@[simp] theorem Tile.setX_retmap (t : Tile) (n : Nat) (v : XReg) : (t.setX n v).retmap = t.retmap := rfl
@[simp] theorem Tile.setX_cmds (t : Tile) (n : Nat) (v : XReg) : (t.setX n v).cmds = t.cmds := rfl
@[simp] theorem Tile.setX_ph (t : Tile) (n : Nat) (v : XReg) : (t.setX n v).ph = t.ph := rfl
@[simp] theorem Tile.setX_enter (t : Tile) (n : Nat) (v : XReg) : (t.setX n v).enter = t.enter := rfl
@[simp] theorem Tile.setX_after (t : Tile) (n : Nat) (v : XReg) : (t.setX n v).after = t.after := rfl
@[simp] theorem Tile.setX_preempt (t : Tile) (n : Nat) (v : XReg) : (t.setX n v).preempt = t.preempt := rfl
@[simp] theorem Tile.setX_halted (t : Tile) (n : Nat) (v : XReg) : (t.setX n v).halted = t.halted := rfl
@[simp] theorem Tile.setX_il (t : Tile) (n : Nat) (v : XReg) : (t.setX n v).il = t.il := rfl
@[simp] theorem Tile.setX_utlb (t : Tile) (n : Nat) (v : XReg) : (t.setX n v).utlb = t.utlb := rfl
@[simp] theorem Tile.setX_config (t : Tile) (n : Nat) (v : XReg) : (t.setX n v).config = t.config := rfl
@[simp] theorem Tile.setX_gotLast (t : Tile) (n : Nat) (v : XReg) : (t.setX n v).gotLast = t.gotLast := rfl
@[simp] theorem Tile.setX_failed (t : Tile) (n : Nat) (v : XReg) : (t.setX n v).failed = t.failed := rfl
@[simp] theorem Tile.setX_moved (t : Tile) (n : Nat) (v : XReg) : (t.setX n v).moved = t.moved := rfl
@[simp] theorem Tile.setX_ctx (t : Tile) (n : Nat) (v : XReg) : (t.setX n v).ctx = t.ctx := rfl
@[simp] theorem Tile.setX_saves (t : Tile) (n : Nat) (v : XReg) : (t.setX n v).saves = t.saves := rfl
@[simp] theorem Tile.setX_heldTok (t : Tile) (n : Nat) (v : XReg) : (t.setX n v).heldTok = t.heldTok := rfl
@[simp] theorem Tile.setX_got (t : Tile) (n : Nat) (v : XReg) : (t.setX n v).got = t.got := rfl

/-! ### A tile: Tile.setSpecial -/

@[simp] theorem Tile.setSpecial_started (t : Tile) (n : Nat) (v : Word) : (t.setSpecial n v).started = t.started := rfl
@[simp] theorem Tile.setSpecial_ended (t : Tile) (n : Nat) (v : Word) : (t.setSpecial n v).ended = t.ended := rfl
@[simp] theorem Tile.setSpecial_endAt (t : Tile) (n : Nat) (v : Word) : (t.setSpecial n v).endAt = t.endAt := rfl
@[simp] theorem Tile.setSpecial_rgn (t : Tile) (n : Nat) (v : Word) : (t.setSpecial n v).rgn = t.rgn := rfl
@[simp] theorem Tile.setSpecial_col (t : Tile) (n : Nat) (v : Word) : (t.setSpecial n v).col = t.col := rfl
@[simp] theorem Tile.setSpecial_row (t : Tile) (n : Nat) (v : Word) : (t.setSpecial n v).row = t.row := rfl
@[simp] theorem Tile.setSpecial_walker (t : Tile) (n : Nat) (v : Word) : (t.setSpecial n v).walker = t.walker := rfl
@[simp] theorem Tile.setSpecial_cyc (t : Tile) (n : Nat) (v : Word) : (t.setSpecial n v).cyc = t.cyc := rfl
@[simp] theorem Tile.setSpecial_e (t : Tile) (n : Nat) (v : Word) : (t.setSpecial n v).e = t.e := rfl
@[simp] theorem Tile.setSpecial_a (t : Tile) (n : Nat) (v : Word) : (t.setSpecial n v).a = t.a := rfl
@[simp] theorem Tile.setSpecial_m (t : Tile) (n : Nat) (v : Word) : (t.setSpecial n v).m = t.m := rfl
@[simp] theorem Tile.setSpecial_y (t : Tile) (n : Nat) (v : Word) : (t.setSpecial n v).y = t.y := rfl
@[simp] theorem Tile.setSpecial_preds (t : Tile) (n : Nat) (v : Word) : (t.setSpecial n v).preds = t.preds := rfl
@[simp] theorem Tile.setSpecial_xs (t : Tile) (n : Nat) (v : Word) : (t.setSpecial n v).xs = t.xs := rfl
@[simp] theorem Tile.setSpecial_toks (t : Tile) (n : Nat) (v : Word) : (t.setSpecial n v).toks = t.toks := rfl
@[simp] theorem Tile.setSpecial_boq (t : Tile) (n : Nat) (v : Word) : (t.setSpecial n v).boq = t.boq := rfl
@[simp] theorem Tile.setSpecial_rings (t : Tile) (n : Nat) (v : Word) : (t.setSpecial n v).rings = t.rings := rfl
@[simp] theorem Tile.setSpecial_slots (t : Tile) (n : Nat) (v : Word) : (t.setSpecial n v).slots = t.slots := rfl
@[simp] theorem Tile.setSpecial_lastSlot (t : Tile) (n : Nat) (v : Word) : (t.setSpecial n v).lastSlot = t.lastSlot := rfl
@[simp] theorem Tile.setSpecial_seqNo (t : Tile) (n : Nat) (v : Word) : (t.setSpecial n v).seqNo = t.seqNo := rfl
@[simp] theorem Tile.setSpecial_chans (t : Tile) (n : Nat) (v : Word) : (t.setSpecial n v).chans = t.chans := rfl
@[simp] theorem Tile.setSpecial_farLast (t : Tile) (n : Nat) (v : Word) : (t.setSpecial n v).farLast = t.farLast := rfl
@[simp] theorem Tile.setSpecial_ports (t : Tile) (n : Nat) (v : Word) : (t.setSpecial n v).ports = t.ports := rfl
@[simp] theorem Tile.setSpecial_arr (t : Tile) (n : Nat) (v : Word) : (t.setSpecial n v).arr = t.arr := rfl
@[simp] theorem Tile.setSpecial_acc (t : Tile) (n : Nat) (v : Word) : (t.setSpecial n v).acc = t.acc := rfl
@[simp] theorem Tile.setSpecial_accPois (t : Tile) (n : Nat) (v : Word) : (t.setSpecial n v).accPois = t.accPois := rfl
@[simp] theorem Tile.setSpecial_retmap (t : Tile) (n : Nat) (v : Word) : (t.setSpecial n v).retmap = t.retmap := rfl
@[simp] theorem Tile.setSpecial_cmds (t : Tile) (n : Nat) (v : Word) : (t.setSpecial n v).cmds = t.cmds := rfl
@[simp] theorem Tile.setSpecial_ph (t : Tile) (n : Nat) (v : Word) : (t.setSpecial n v).ph = t.ph := rfl
@[simp] theorem Tile.setSpecial_enter (t : Tile) (n : Nat) (v : Word) : (t.setSpecial n v).enter = t.enter := rfl
@[simp] theorem Tile.setSpecial_after (t : Tile) (n : Nat) (v : Word) : (t.setSpecial n v).after = t.after := rfl
@[simp] theorem Tile.setSpecial_preempt (t : Tile) (n : Nat) (v : Word) : (t.setSpecial n v).preempt = t.preempt := rfl
@[simp] theorem Tile.setSpecial_halted (t : Tile) (n : Nat) (v : Word) : (t.setSpecial n v).halted = t.halted := rfl
@[simp] theorem Tile.setSpecial_il (t : Tile) (n : Nat) (v : Word) : (t.setSpecial n v).il = t.il := rfl
@[simp] theorem Tile.setSpecial_utlb (t : Tile) (n : Nat) (v : Word) : (t.setSpecial n v).utlb = t.utlb := rfl
@[simp] theorem Tile.setSpecial_config (t : Tile) (n : Nat) (v : Word) : (t.setSpecial n v).config = t.config := rfl
@[simp] theorem Tile.setSpecial_gotLast (t : Tile) (n : Nat) (v : Word) : (t.setSpecial n v).gotLast = t.gotLast := rfl
@[simp] theorem Tile.setSpecial_failed (t : Tile) (n : Nat) (v : Word) : (t.setSpecial n v).failed = t.failed := rfl
@[simp] theorem Tile.setSpecial_moved (t : Tile) (n : Nat) (v : Word) : (t.setSpecial n v).moved = t.moved := rfl
@[simp] theorem Tile.setSpecial_ctx (t : Tile) (n : Nat) (v : Word) : (t.setSpecial n v).ctx = t.ctx := rfl
@[simp] theorem Tile.setSpecial_saves (t : Tile) (n : Nat) (v : Word) : (t.setSpecial n v).saves = t.saves := rfl
@[simp] theorem Tile.setSpecial_heldTok (t : Tile) (n : Nat) (v : Word) : (t.setSpecial n v).heldTok = t.heldTok := rfl
@[simp] theorem Tile.setSpecial_got (t : Tile) (n : Nat) (v : Word) : (t.setSpecial n v).got = t.got := rfl

/-! ### A tile: Tile.setTok -/

@[simp] theorem Tile.setTok_started (t : Tile) (p q : Eng) (n : Nat) : (t.setTok p q n).started = t.started := rfl
@[simp] theorem Tile.setTok_ended (t : Tile) (p q : Eng) (n : Nat) : (t.setTok p q n).ended = t.ended := rfl
@[simp] theorem Tile.setTok_endAt (t : Tile) (p q : Eng) (n : Nat) : (t.setTok p q n).endAt = t.endAt := rfl
@[simp] theorem Tile.setTok_rgn (t : Tile) (p q : Eng) (n : Nat) : (t.setTok p q n).rgn = t.rgn := rfl
@[simp] theorem Tile.setTok_col (t : Tile) (p q : Eng) (n : Nat) : (t.setTok p q n).col = t.col := rfl
@[simp] theorem Tile.setTok_row (t : Tile) (p q : Eng) (n : Nat) : (t.setTok p q n).row = t.row := rfl
@[simp] theorem Tile.setTok_walker (t : Tile) (p q : Eng) (n : Nat) : (t.setTok p q n).walker = t.walker := rfl
@[simp] theorem Tile.setTok_cyc (t : Tile) (p q : Eng) (n : Nat) : (t.setTok p q n).cyc = t.cyc := rfl
@[simp] theorem Tile.setTok_e (t : Tile) (p q : Eng) (n : Nat) : (t.setTok p q n).e = t.e := rfl
@[simp] theorem Tile.setTok_a (t : Tile) (p q : Eng) (n : Nat) : (t.setTok p q n).a = t.a := rfl
@[simp] theorem Tile.setTok_m (t : Tile) (p q : Eng) (n : Nat) : (t.setTok p q n).m = t.m := rfl
@[simp] theorem Tile.setTok_y (t : Tile) (p q : Eng) (n : Nat) : (t.setTok p q n).y = t.y := rfl
@[simp] theorem Tile.setTok_preds (t : Tile) (p q : Eng) (n : Nat) : (t.setTok p q n).preds = t.preds := rfl
@[simp] theorem Tile.setTok_xs (t : Tile) (p q : Eng) (n : Nat) : (t.setTok p q n).xs = t.xs := rfl
@[simp] theorem Tile.setTok_boq (t : Tile) (p q : Eng) (n : Nat) : (t.setTok p q n).boq = t.boq := rfl
@[simp] theorem Tile.setTok_sr (t : Tile) (p q : Eng) (n : Nat) : (t.setTok p q n).sr = t.sr := rfl
@[simp] theorem Tile.setTok_rings (t : Tile) (p q : Eng) (n : Nat) : (t.setTok p q n).rings = t.rings := rfl
@[simp] theorem Tile.setTok_slots (t : Tile) (p q : Eng) (n : Nat) : (t.setTok p q n).slots = t.slots := rfl
@[simp] theorem Tile.setTok_lastSlot (t : Tile) (p q : Eng) (n : Nat) : (t.setTok p q n).lastSlot = t.lastSlot := rfl
@[simp] theorem Tile.setTok_seqNo (t : Tile) (p q : Eng) (n : Nat) : (t.setTok p q n).seqNo = t.seqNo := rfl
@[simp] theorem Tile.setTok_chans (t : Tile) (p q : Eng) (n : Nat) : (t.setTok p q n).chans = t.chans := rfl
@[simp] theorem Tile.setTok_farLast (t : Tile) (p q : Eng) (n : Nat) : (t.setTok p q n).farLast = t.farLast := rfl
@[simp] theorem Tile.setTok_ports (t : Tile) (p q : Eng) (n : Nat) : (t.setTok p q n).ports = t.ports := rfl
@[simp] theorem Tile.setTok_arr (t : Tile) (p q : Eng) (n : Nat) : (t.setTok p q n).arr = t.arr := rfl
@[simp] theorem Tile.setTok_acc (t : Tile) (p q : Eng) (n : Nat) : (t.setTok p q n).acc = t.acc := rfl
@[simp] theorem Tile.setTok_accPois (t : Tile) (p q : Eng) (n : Nat) : (t.setTok p q n).accPois = t.accPois := rfl
@[simp] theorem Tile.setTok_retmap (t : Tile) (p q : Eng) (n : Nat) : (t.setTok p q n).retmap = t.retmap := rfl
@[simp] theorem Tile.setTok_cmds (t : Tile) (p q : Eng) (n : Nat) : (t.setTok p q n).cmds = t.cmds := rfl
@[simp] theorem Tile.setTok_ph (t : Tile) (p q : Eng) (n : Nat) : (t.setTok p q n).ph = t.ph := rfl
@[simp] theorem Tile.setTok_enter (t : Tile) (p q : Eng) (n : Nat) : (t.setTok p q n).enter = t.enter := rfl
@[simp] theorem Tile.setTok_after (t : Tile) (p q : Eng) (n : Nat) : (t.setTok p q n).after = t.after := rfl
@[simp] theorem Tile.setTok_preempt (t : Tile) (p q : Eng) (n : Nat) : (t.setTok p q n).preempt = t.preempt := rfl
@[simp] theorem Tile.setTok_halted (t : Tile) (p q : Eng) (n : Nat) : (t.setTok p q n).halted = t.halted := rfl
@[simp] theorem Tile.setTok_il (t : Tile) (p q : Eng) (n : Nat) : (t.setTok p q n).il = t.il := rfl
@[simp] theorem Tile.setTok_utlb (t : Tile) (p q : Eng) (n : Nat) : (t.setTok p q n).utlb = t.utlb := rfl
@[simp] theorem Tile.setTok_config (t : Tile) (p q : Eng) (n : Nat) : (t.setTok p q n).config = t.config := rfl
@[simp] theorem Tile.setTok_gotLast (t : Tile) (p q : Eng) (n : Nat) : (t.setTok p q n).gotLast = t.gotLast := rfl
@[simp] theorem Tile.setTok_failed (t : Tile) (p q : Eng) (n : Nat) : (t.setTok p q n).failed = t.failed := rfl
@[simp] theorem Tile.setTok_moved (t : Tile) (p q : Eng) (n : Nat) : (t.setTok p q n).moved = t.moved := rfl
@[simp] theorem Tile.setTok_ctx (t : Tile) (p q : Eng) (n : Nat) : (t.setTok p q n).ctx = t.ctx := rfl
@[simp] theorem Tile.setTok_saves (t : Tile) (p q : Eng) (n : Nat) : (t.setTok p q n).saves = t.saves := rfl
@[simp] theorem Tile.setTok_heldTok (t : Tile) (p q : Eng) (n : Nat) : (t.setTok p q n).heldTok = t.heldTok := rfl
@[simp] theorem Tile.setTok_got (t : Tile) (p q : Eng) (n : Nat) : (t.setTok p q n).got = t.got := rfl

/-! ### A tile: Tile.setOutcomes -/

@[simp] theorem Tile.setOutcomes_started (t : Tile) (g : Eng) (l : List Bool) : (t.setOutcomes g l).started = t.started := rfl
@[simp] theorem Tile.setOutcomes_ended (t : Tile) (g : Eng) (l : List Bool) : (t.setOutcomes g l).ended = t.ended := rfl
@[simp] theorem Tile.setOutcomes_endAt (t : Tile) (g : Eng) (l : List Bool) : (t.setOutcomes g l).endAt = t.endAt := rfl
@[simp] theorem Tile.setOutcomes_rgn (t : Tile) (g : Eng) (l : List Bool) : (t.setOutcomes g l).rgn = t.rgn := rfl
@[simp] theorem Tile.setOutcomes_col (t : Tile) (g : Eng) (l : List Bool) : (t.setOutcomes g l).col = t.col := rfl
@[simp] theorem Tile.setOutcomes_row (t : Tile) (g : Eng) (l : List Bool) : (t.setOutcomes g l).row = t.row := rfl
@[simp] theorem Tile.setOutcomes_walker (t : Tile) (g : Eng) (l : List Bool) : (t.setOutcomes g l).walker = t.walker := rfl
@[simp] theorem Tile.setOutcomes_cyc (t : Tile) (g : Eng) (l : List Bool) : (t.setOutcomes g l).cyc = t.cyc := rfl
@[simp] theorem Tile.setOutcomes_e (t : Tile) (g : Eng) (l : List Bool) : (t.setOutcomes g l).e = t.e := rfl
@[simp] theorem Tile.setOutcomes_a (t : Tile) (g : Eng) (l : List Bool) : (t.setOutcomes g l).a = t.a := rfl
@[simp] theorem Tile.setOutcomes_m (t : Tile) (g : Eng) (l : List Bool) : (t.setOutcomes g l).m = t.m := rfl
@[simp] theorem Tile.setOutcomes_y (t : Tile) (g : Eng) (l : List Bool) : (t.setOutcomes g l).y = t.y := rfl
@[simp] theorem Tile.setOutcomes_preds (t : Tile) (g : Eng) (l : List Bool) : (t.setOutcomes g l).preds = t.preds := rfl
@[simp] theorem Tile.setOutcomes_xs (t : Tile) (g : Eng) (l : List Bool) : (t.setOutcomes g l).xs = t.xs := rfl
@[simp] theorem Tile.setOutcomes_toks (t : Tile) (g : Eng) (l : List Bool) : (t.setOutcomes g l).toks = t.toks := rfl
@[simp] theorem Tile.setOutcomes_sr (t : Tile) (g : Eng) (l : List Bool) : (t.setOutcomes g l).sr = t.sr := rfl
@[simp] theorem Tile.setOutcomes_rings (t : Tile) (g : Eng) (l : List Bool) : (t.setOutcomes g l).rings = t.rings := rfl
@[simp] theorem Tile.setOutcomes_slots (t : Tile) (g : Eng) (l : List Bool) : (t.setOutcomes g l).slots = t.slots := rfl
@[simp] theorem Tile.setOutcomes_lastSlot (t : Tile) (g : Eng) (l : List Bool) : (t.setOutcomes g l).lastSlot = t.lastSlot := rfl
@[simp] theorem Tile.setOutcomes_seqNo (t : Tile) (g : Eng) (l : List Bool) : (t.setOutcomes g l).seqNo = t.seqNo := rfl
@[simp] theorem Tile.setOutcomes_chans (t : Tile) (g : Eng) (l : List Bool) : (t.setOutcomes g l).chans = t.chans := rfl
@[simp] theorem Tile.setOutcomes_farLast (t : Tile) (g : Eng) (l : List Bool) : (t.setOutcomes g l).farLast = t.farLast := rfl
@[simp] theorem Tile.setOutcomes_ports (t : Tile) (g : Eng) (l : List Bool) : (t.setOutcomes g l).ports = t.ports := rfl
@[simp] theorem Tile.setOutcomes_arr (t : Tile) (g : Eng) (l : List Bool) : (t.setOutcomes g l).arr = t.arr := rfl
@[simp] theorem Tile.setOutcomes_acc (t : Tile) (g : Eng) (l : List Bool) : (t.setOutcomes g l).acc = t.acc := rfl
@[simp] theorem Tile.setOutcomes_accPois (t : Tile) (g : Eng) (l : List Bool) : (t.setOutcomes g l).accPois = t.accPois := rfl
@[simp] theorem Tile.setOutcomes_retmap (t : Tile) (g : Eng) (l : List Bool) : (t.setOutcomes g l).retmap = t.retmap := rfl
@[simp] theorem Tile.setOutcomes_cmds (t : Tile) (g : Eng) (l : List Bool) : (t.setOutcomes g l).cmds = t.cmds := rfl
@[simp] theorem Tile.setOutcomes_ph (t : Tile) (g : Eng) (l : List Bool) : (t.setOutcomes g l).ph = t.ph := rfl
@[simp] theorem Tile.setOutcomes_enter (t : Tile) (g : Eng) (l : List Bool) : (t.setOutcomes g l).enter = t.enter := rfl
@[simp] theorem Tile.setOutcomes_after (t : Tile) (g : Eng) (l : List Bool) : (t.setOutcomes g l).after = t.after := rfl
@[simp] theorem Tile.setOutcomes_preempt (t : Tile) (g : Eng) (l : List Bool) : (t.setOutcomes g l).preempt = t.preempt := rfl
@[simp] theorem Tile.setOutcomes_halted (t : Tile) (g : Eng) (l : List Bool) : (t.setOutcomes g l).halted = t.halted := rfl
@[simp] theorem Tile.setOutcomes_il (t : Tile) (g : Eng) (l : List Bool) : (t.setOutcomes g l).il = t.il := rfl
@[simp] theorem Tile.setOutcomes_utlb (t : Tile) (g : Eng) (l : List Bool) : (t.setOutcomes g l).utlb = t.utlb := rfl
@[simp] theorem Tile.setOutcomes_config (t : Tile) (g : Eng) (l : List Bool) : (t.setOutcomes g l).config = t.config := rfl
@[simp] theorem Tile.setOutcomes_gotLast (t : Tile) (g : Eng) (l : List Bool) : (t.setOutcomes g l).gotLast = t.gotLast := rfl
@[simp] theorem Tile.setOutcomes_failed (t : Tile) (g : Eng) (l : List Bool) : (t.setOutcomes g l).failed = t.failed := rfl
@[simp] theorem Tile.setOutcomes_moved (t : Tile) (g : Eng) (l : List Bool) : (t.setOutcomes g l).moved = t.moved := rfl
@[simp] theorem Tile.setOutcomes_ctx (t : Tile) (g : Eng) (l : List Bool) : (t.setOutcomes g l).ctx = t.ctx := rfl
@[simp] theorem Tile.setOutcomes_saves (t : Tile) (g : Eng) (l : List Bool) : (t.setOutcomes g l).saves = t.saves := rfl
@[simp] theorem Tile.setOutcomes_heldTok (t : Tile) (g : Eng) (l : List Bool) : (t.setOutcomes g l).heldTok = t.heldTok := rfl
@[simp] theorem Tile.setOutcomes_got (t : Tile) (g : Eng) (l : List Bool) : (t.setOutcomes g l).got = t.got := rfl

/-! ### A region changed, if it exists -/

@[simp] theorem State.updRegion_agenda (s : State) (n : Nat) (f : Region → Region) : (s.updRegion n f).agenda = s.agenda := by
  unfold State.updRegion; split <;> rfl
@[simp] theorem State.updRegion_cur (s : State) (n : Nat) (f : Region → Region) : (s.updRegion n f).cur = s.cur := by
  unfold State.updRegion; split <;> rfl
@[simp] theorem State.updRegion_ticks (s : State) (n : Nat) (f : Region → Region) : (s.updRegion n f).ticks = s.ticks := by
  unfold State.updRegion; split <;> rfl
@[simp] theorem State.updRegion_inCycle (s : State) (n : Nat) (f : Region → Region) : (s.updRegion n f).inCycle = s.inCycle := by
  unfold State.updRegion; split <;> rfl
@[simp] theorem State.updRegion_offences (s : State) (n : Nat) (f : Region → Region) : (s.updRegion n f).offences = s.offences := by
  unfold State.updRegion; split <;> rfl
@[simp] theorem State.updRegion_starved (s : State) (n : Nat) (f : Region → Region) : (s.updRegion n f).starved = s.starved := by
  unfold State.updRegion; split <;> rfl
@[simp] theorem State.updRegion_jdStarved (s : State) (n : Nat) (f : Region → Region) : (s.updRegion n f).jdStarved = s.jdStarved := by
  unfold State.updRegion; split <;> rfl
@[simp] theorem State.updRegion_jdUnit (s : State) (n : Nat) (f : Region → Region) : (s.updRegion n f).jdUnit = s.jdUnit := by
  unfold State.updRegion; split <;> rfl
@[simp] theorem State.updRegion_jdGot (s : State) (n : Nat) (f : Region → Region) : (s.updRegion n f).jdGot = s.jdGot := by
  unfold State.updRegion; split <;> rfl
@[simp] theorem State.updRegion_deferred (s : State) (n : Nat) (f : Region → Region) : (s.updRegion n f).deferred = s.deferred := by
  unfold State.updRegion; split <;> rfl
@[simp] theorem State.updRegion_tiles (s : State) (n : Nat) (f : Region → Region) : (s.updRegion n f).tiles = s.tiles := by
  unfold State.updRegion; split <;> rfl
@[simp] theorem State.updRegion_groups (s : State) (n : Nat) (f : Region → Region) : (s.updRegion n f).groups = s.groups := by
  unfold State.updRegion; split <;> rfl
@[simp] theorem State.updRegion_st (s : State) (n : Nat) (f : Region → Region) : (s.updRegion n f).st = s.st := by
  unfold State.updRegion; split <;> rfl
@[simp] theorem State.updRegion_mgmt (s : State) (n : Nat) (f : Region → Region) : (s.updRegion n f).mgmt = s.mgmt := by
  unfold State.updRegion; split <;> rfl
@[simp] theorem State.updRegion_chans (s : State) (n : Nat) (f : Region → Region) : (s.updRegion n f).chans = s.chans := by
  unfold State.updRegion; split <;> rfl
@[simp] theorem State.updRegion_pools (s : State) (n : Nat) (f : Region → Region) : (s.updRegion n f).pools = s.pools := by
  unfold State.updRegion; split <;> rfl
@[simp] theorem State.updRegion_creqs (s : State) (n : Nat) (f : Region → Region) : (s.updRegion n f).creqs = s.creqs := by
  unfold State.updRegion; split <;> rfl
@[simp] theorem State.updRegion_cxfers (s : State) (n : Nat) (f : Region → Region) : (s.updRegion n f).cxfers = s.cxfers := by
  unfold State.updRegion; split <;> rfl
@[simp] theorem State.updRegion_probes (s : State) (n : Nat) (f : Region → Region) : (s.updRegion n f).probes = s.probes := by
  unfold State.updRegion; split <;> rfl
@[simp] theorem State.updRegion_grows (s : State) (n : Nat) (f : Region → Region) : (s.updRegion n f).grows = s.grows := by
  unfold State.updRegion; split <;> rfl
@[simp] theorem State.updRegion_remotes (s : State) (n : Nat) (f : Region → Region) : (s.updRegion n f).remotes = s.remotes := by
  unfold State.updRegion; split <;> rfl
@[simp] theorem State.updRegion_reqNo (s : State) (n : Nat) (f : Region → Region) : (s.updRegion n f).reqNo = s.reqNo := by
  unfold State.updRegion; split <;> rfl
@[simp] theorem State.updRegion_placeNo (s : State) (n : Nat) (f : Region → Region) : (s.updRegion n f).placeNo = s.placeNo := by
  unfold State.updRegion; split <;> rfl
@[simp] theorem State.updRegion_pastBudgets (s : State) (n : Nat) (f : Region → Region) : (s.updRegion n f).pastBudgets = s.pastBudgets := by
  unfold State.updRegion; split <;> rfl
@[simp] theorem State.updRegion_tlbinv (s : State) (n : Nat) (f : Region → Region) : (s.updRegion n f).tlbinv = s.tlbinv := by
  unfold State.updRegion; split <;> rfl
@[simp] theorem State.updRegion_threads (s : State) (n : Nat) (f : Region → Region) : (s.updRegion n f).threads = s.threads := by
  unfold State.updRegion; split <;> rfl
@[simp] theorem State.updRegion_marsh (s : State) (n : Nat) (f : Region → Region) : (s.updRegion n f).marsh = s.marsh := by
  unfold State.updRegion; split <;> rfl
@[simp] theorem State.updRegion_marshNo (s : State) (n : Nat) (f : Region → Region) : (s.updRegion n f).marshNo = s.marshNo := by
  unfold State.updRegion; split <;> rfl
@[simp] theorem State.updRegion_handed (s : State) (n : Nat) (f : Region → Region) : (s.updRegion n f).handed = s.handed := by
  unfold State.updRegion; split <;> rfl
@[simp] theorem State.updRegion_swapped (s : State) (n : Nat) (f : Region → Region) : (s.updRegion n f).swapped = s.swapped := by
  unfold State.updRegion; split <;> rfl
@[simp] theorem State.updRegion_heldStops (s : State) (n : Nat) (f : Region → Region) : (s.updRegion n f).heldStops = s.heldStops := by
  unfold State.updRegion; split <;> rfl
@[simp] theorem State.updRegion_sbcyc (s : State) (n : Nat) (f : Region → Region) : (s.updRegion n f).sbcyc = s.sbcyc := by
  unfold State.updRegion; split <;> rfl
@[simp] theorem State.updRegion_cancel (s : State) (n : Nat) (f : Region → Region) : (s.updRegion n f).cancel = s.cancel := by
  unfold State.updRegion; split <;> rfl
@[simp] theorem State.updRegion_heartbeat (s : State) (n : Nat) (f : Region → Region) : (s.updRegion n f).heartbeat = s.heartbeat := by
  unfold State.updRegion; split <;> rfl
@[simp] theorem State.updRegion_watch (s : State) (n : Nat) (f : Region → Region) : (s.updRegion n f).watch = s.watch := by
  unfold State.updRegion; split <;> rfl
@[simp] theorem State.updRegion_kicks (s : State) (n : Nat) (f : Region → Region) : (s.updRegion n f).kicks = s.kicks := by
  unfold State.updRegion; split <;> rfl
@[simp] theorem State.updRegion_sbcmds (s : State) (n : Nat) (f : Region → Region) : (s.updRegion n f).sbcmds = s.sbcmds := by
  unfold State.updRegion; split <;> rfl
@[simp] theorem State.updRegion_jobs (s : State) (n : Nat) (f : Region → Region) : (s.updRegion n f).jobs = s.jobs := by
  unfold State.updRegion; split <;> rfl
@[simp] theorem State.updRegion_sec (s : State) (n : Nat) (f : Region → Region) : (s.updRegion n f).sec = s.sec := by
  unfold State.updRegion; split <;> rfl
@[simp] theorem State.updRegion_errcnt (s : State) (n : Nat) (f : Region → Region) : (s.updRegion n f).errcnt = s.errcnt := by
  unfold State.updRegion; split <;> rfl
@[simp] theorem State.updRegion_errseq (s : State) (n : Nat) (f : Region → Region) : (s.updRegion n f).errseq = s.errseq := by
  unfold State.updRegion; split <;> rfl
@[simp] theorem State.updRegion_jcyc (s : State) (n : Nat) (f : Region → Region) : (s.updRegion n f).jcyc = s.jcyc := by
  unfold State.updRegion; split <;> rfl
@[simp] theorem State.updRegion_irqs (s : State) (n : Nat) (f : Region → Region) : (s.updRegion n f).irqs = s.irqs := by
  unfold State.updRegion; split <;> rfl
@[simp] theorem State.updRegion_ualOut (s : State) (n : Nat) (f : Region → Region) : (s.updRegion n f).ualOut = s.ualOut := by
  unfold State.updRegion; split <;> rfl
@[simp] theorem State.updRegion_hostOut (s : State) (n : Nat) (f : Region → Region) : (s.updRegion n f).hostOut = s.hostOut := by
  unfold State.updRegion; split <;> rfl
@[simp] theorem State.updRegion_peerOut (s : State) (n : Nat) (f : Region → Region) : (s.updRegion n f).peerOut = s.peerOut := by
  unfold State.updRegion; split <;> rfl
@[simp] theorem State.updRegion_peerAns (s : State) (n : Nat) (f : Region → Region) : (s.updRegion n f).peerAns = s.peerAns := by
  unfold State.updRegion; split <;> rfl
@[simp] theorem State.updRegion_useq (s : State) (n : Nat) (f : Region → Region) : (s.updRegion n f).useq = s.useq := by
  unfold State.updRegion; split <;> rfl
@[simp] theorem State.updRegion_winIn (s : State) (n : Nat) (f : Region → Region) : (s.updRegion n f).winIn = s.winIn := by
  unfold State.updRegion; split <;> rfl
@[simp] theorem State.updRegion_hostBad (s : State) (n : Nat) (f : Region → Region) : (s.updRegion n f).hostBad = s.hostBad := by
  unfold State.updRegion; split <;> rfl
@[simp] theorem State.updRegion_orders (s : State) (n : Nat) (f : Region → Region) : (s.updRegion n f).orders = s.orders := by
  unfold State.updRegion; split <;> rfl
@[simp] theorem State.updRegion_repair (s : State) (n : Nat) (f : Region → Region) : (s.updRegion n f).repair = s.repair := by
  unfold State.updRegion; split <;> rfl
@[simp] theorem State.updRegion_rows (s : State) (n : Nat) (f : Region → Region) : (s.updRegion n f).rows = s.rows := by
  unfold State.updRegion; split <;> rfl
@[simp] theorem State.updRegion_poisonLog (s : State) (n : Nat) (f : Region → Region) : (s.updRegion n f).poisonLog = s.poisonLog := by
  unfold State.updRegion; split <;> rfl
@[simp] theorem State.updRegion_lostStacks (s : State) (n : Nat) (f : Region → Region) : (s.updRegion n f).lostStacks = s.lostStacks := by
  unfold State.updRegion; split <;> rfl

/-! ### An engine of a tile -/

@[simp] theorem Tile.setEng_started (t : Tile) (g : Eng) (v : EngSt) : (t.setEng g v).started = t.started := by cases g <;> rfl
@[simp] theorem Tile.setEng_ended (t : Tile) (g : Eng) (v : EngSt) : (t.setEng g v).ended = t.ended := by cases g <;> rfl
@[simp] theorem Tile.setEng_endAt (t : Tile) (g : Eng) (v : EngSt) : (t.setEng g v).endAt = t.endAt := by cases g <;> rfl
@[simp] theorem Tile.setEng_rgn (t : Tile) (g : Eng) (v : EngSt) : (t.setEng g v).rgn = t.rgn := by cases g <;> rfl
@[simp] theorem Tile.setEng_col (t : Tile) (g : Eng) (v : EngSt) : (t.setEng g v).col = t.col := by cases g <;> rfl
@[simp] theorem Tile.setEng_row (t : Tile) (g : Eng) (v : EngSt) : (t.setEng g v).row = t.row := by cases g <;> rfl
@[simp] theorem Tile.setEng_walker (t : Tile) (g : Eng) (v : EngSt) : (t.setEng g v).walker = t.walker := by cases g <;> rfl
@[simp] theorem Tile.setEng_cyc (t : Tile) (g : Eng) (v : EngSt) : (t.setEng g v).cyc = t.cyc := by cases g <;> rfl
@[simp] theorem Tile.setEng_preds (t : Tile) (g : Eng) (v : EngSt) : (t.setEng g v).preds = t.preds := by cases g <;> rfl
@[simp] theorem Tile.setEng_xs (t : Tile) (g : Eng) (v : EngSt) : (t.setEng g v).xs = t.xs := by cases g <;> rfl
@[simp] theorem Tile.setEng_toks (t : Tile) (g : Eng) (v : EngSt) : (t.setEng g v).toks = t.toks := by cases g <;> rfl
@[simp] theorem Tile.setEng_boq (t : Tile) (g : Eng) (v : EngSt) : (t.setEng g v).boq = t.boq := by cases g <;> rfl
@[simp] theorem Tile.setEng_sr (t : Tile) (g : Eng) (v : EngSt) : (t.setEng g v).sr = t.sr := by cases g <;> rfl
@[simp] theorem Tile.setEng_rings (t : Tile) (g : Eng) (v : EngSt) : (t.setEng g v).rings = t.rings := by cases g <;> rfl
@[simp] theorem Tile.setEng_slots (t : Tile) (g : Eng) (v : EngSt) : (t.setEng g v).slots = t.slots := by cases g <;> rfl
@[simp] theorem Tile.setEng_lastSlot (t : Tile) (g : Eng) (v : EngSt) : (t.setEng g v).lastSlot = t.lastSlot := by cases g <;> rfl
@[simp] theorem Tile.setEng_seqNo (t : Tile) (g : Eng) (v : EngSt) : (t.setEng g v).seqNo = t.seqNo := by cases g <;> rfl
@[simp] theorem Tile.setEng_chans (t : Tile) (g : Eng) (v : EngSt) : (t.setEng g v).chans = t.chans := by cases g <;> rfl
@[simp] theorem Tile.setEng_farLast (t : Tile) (g : Eng) (v : EngSt) : (t.setEng g v).farLast = t.farLast := by cases g <;> rfl
@[simp] theorem Tile.setEng_ports (t : Tile) (g : Eng) (v : EngSt) : (t.setEng g v).ports = t.ports := by cases g <;> rfl
@[simp] theorem Tile.setEng_arr (t : Tile) (g : Eng) (v : EngSt) : (t.setEng g v).arr = t.arr := by cases g <;> rfl
@[simp] theorem Tile.setEng_acc (t : Tile) (g : Eng) (v : EngSt) : (t.setEng g v).acc = t.acc := by cases g <;> rfl
@[simp] theorem Tile.setEng_accPois (t : Tile) (g : Eng) (v : EngSt) : (t.setEng g v).accPois = t.accPois := by cases g <;> rfl
@[simp] theorem Tile.setEng_retmap (t : Tile) (g : Eng) (v : EngSt) : (t.setEng g v).retmap = t.retmap := by cases g <;> rfl
@[simp] theorem Tile.setEng_cmds (t : Tile) (g : Eng) (v : EngSt) : (t.setEng g v).cmds = t.cmds := by cases g <;> rfl
@[simp] theorem Tile.setEng_ph (t : Tile) (g : Eng) (v : EngSt) : (t.setEng g v).ph = t.ph := by cases g <;> rfl
@[simp] theorem Tile.setEng_enter (t : Tile) (g : Eng) (v : EngSt) : (t.setEng g v).enter = t.enter := by cases g <;> rfl
@[simp] theorem Tile.setEng_after (t : Tile) (g : Eng) (v : EngSt) : (t.setEng g v).after = t.after := by cases g <;> rfl
@[simp] theorem Tile.setEng_preempt (t : Tile) (g : Eng) (v : EngSt) : (t.setEng g v).preempt = t.preempt := by cases g <;> rfl
@[simp] theorem Tile.setEng_halted (t : Tile) (g : Eng) (v : EngSt) : (t.setEng g v).halted = t.halted := by cases g <;> rfl
@[simp] theorem Tile.setEng_il (t : Tile) (g : Eng) (v : EngSt) : (t.setEng g v).il = t.il := by cases g <;> rfl
@[simp] theorem Tile.setEng_utlb (t : Tile) (g : Eng) (v : EngSt) : (t.setEng g v).utlb = t.utlb := by cases g <;> rfl
@[simp] theorem Tile.setEng_config (t : Tile) (g : Eng) (v : EngSt) : (t.setEng g v).config = t.config := by cases g <;> rfl
@[simp] theorem Tile.setEng_gotLast (t : Tile) (g : Eng) (v : EngSt) : (t.setEng g v).gotLast = t.gotLast := by cases g <;> rfl
@[simp] theorem Tile.setEng_failed (t : Tile) (g : Eng) (v : EngSt) : (t.setEng g v).failed = t.failed := by cases g <;> rfl
@[simp] theorem Tile.setEng_moved (t : Tile) (g : Eng) (v : EngSt) : (t.setEng g v).moved = t.moved := by cases g <;> rfl
@[simp] theorem Tile.setEng_ctx (t : Tile) (g : Eng) (v : EngSt) : (t.setEng g v).ctx = t.ctx := by cases g <;> rfl
@[simp] theorem Tile.setEng_saves (t : Tile) (g : Eng) (v : EngSt) : (t.setEng g v).saves = t.saves := by cases g <;> rfl
@[simp] theorem Tile.setEng_heldTok (t : Tile) (g : Eng) (v : EngSt) : (t.setEng g v).heldTok = t.heldTok := by cases g <;> rfl
@[simp] theorem Tile.setEng_got (t : Tile) (g : Eng) (v : EngSt) : (t.setEng g v).got = t.got := by cases g <;> rfl

end Sys2Proof.Machine
end

