-- ==== Sys2Proof/Laws/Retire.lean ====
section
/-! SUPPORT. What issuing and retiring an instruction does: one lemma for each shared operation (R44, R45, R160, R179). -/

namespace Sys2Proof.Machine

/-! ### Tokens and exchange registers -/

theorem tok_key {p q p' q' : Eng} : 4 * p'.num + q'.num = 4 * p.num + q.num ↔ p' = p ∧ q' = q := by
  cases p <;> cases q <;> cases p' <;> cases q' <;> simp [Eng.num]

theorem Tile.tok_setTok (t : Tile) (p q : Eng) (n : Nat) (p' q' : Eng) :
    (t.setTok p q n).tok p' q' = if p' = p ∧ q' = q then n else t.tok p' q' := by
  unfold Tile.tok Tile.setTok
  rw [NMap.findD_put]
  simp only [tok_key]

theorem popToken_shape (t : Tile) (g : Eng) (tk : Tk) : ∃ T, popToken t g tk = { t with toks := T } := by
  unfold popToken; split
  · exact ⟨_, rfl⟩
  · exact ⟨t.toks, rfl⟩

theorem popToken_tok (t : Tile) (g : Eng) (tk : Tk) (p q : Eng) :
    (popToken t g tk).tok p q = t.tok p q - b2n (tkWaits tk && p == t.waitp g && q == g) := by
  unfold popToken
  by_cases hw : tkWaits tk
  · simp only [hw, if_true, Tile.tok_setTok, Bool.true_and]
    by_cases h : p = t.waitp g ∧ q = g
    · obtain ⟨rfl, rfl⟩ := h; simp [b2n]
    · simp only [h, if_false]
      have : ((p == t.waitp g) && (q == g)) = false := by
        rw [Bool.eq_false_iff]; intro hc; simp at hc; exact h hc
      simp [this, b2n]
  · simp [hw, b2n]

theorem emptyX_shape (l : List (Nat × Word)) (t : Tile) : ∃ X, emptyX t l = { t with xs := X } := by
  induction l generalizing t with
  | nil => exact ⟨t.xs, rfl⟩
  | cons p r ih =>
    obtain ⟨X, h⟩ := ih (t.setX p.1 { t.x p.1 with full := false })
    exact ⟨X, by unfold emptyX at h ⊢; rw [List.foldl_cons, h]; rfl⟩

theorem emptyX_x (l : List (Nat × Word)) (t : Tile) (n : Nat) :
    (emptyX t l).x n = if n ∈ l.map Prod.fst then { t.x n with full := false } else t.x n := by
  unfold emptyX
  induction l generalizing t with
  | nil => simp
  | cons p r ih =>
    rw [List.foldl_cons, ih, Tile.x_setX]
    by_cases h : n = p.1
    · subst h; by_cases h' : p.1 ∈ r.map Prod.fst <;> simp [h']
    · simp [h]

theorem xSources_fst (t : Tile) (srcs : List Reg) (n : Fin 16) :
    n.val ∈ (xSources t srcs).map Prod.fst ↔ Reg.x n ∈ srcs := by
  simp only [xSources, List.map_map, List.mem_map, List.mem_eraseDups, List.mem_filterMap, Function.comp]
  constructor
  · rintro ⟨k, ⟨r, hr, hk⟩, rfl⟩
    cases r <;> simp at hk
    rename_i m
    have : m = n := Fin.ext hk
    subst this; exact hr
  · intro h
    exact ⟨n.val, ⟨_, h, rfl⟩, rfl⟩

theorem reserve_shape (t : Tile) (dst : Option Reg) : ∃ X, reserve t dst = { t with xs := X } := by
  unfold reserve; split
  · exact ⟨_, rfl⟩
  · exact ⟨t.xs, rfl⟩

/-- What issuing takes: exchange registers and tokens alone change. -/
theorem consume_shape (t : Tile) (g : Eng) (tk : Tk) (srcs : List Reg) (dst : Option Reg) :
    ∃ X T, consume t g tk srcs dst = { t with xs := X, toks := T } := by
  unfold consume
  obtain ⟨T, h1⟩ := popToken_shape t g tk
  rw [h1]
  obtain ⟨X, h2⟩ := emptyX_shape (xSources t srcs) { t with toks := T }
  rw [h2]
  obtain ⟨X', h3⟩ := reserve_shape { t with xs := X, toks := T } dst
  exact ⟨X', T, h3⟩

theorem consume_tok (t : Tile) (g : Eng) (tk : Tk) (srcs : List Reg) (dst : Option Reg) (p q : Eng) :
    (consume t g tk srcs dst).tok p q = t.tok p q - b2n (tkWaits tk && p == t.waitp g && q == g) := by
  rw [← popToken_tok]
  unfold consume
  obtain ⟨X, h2⟩ := emptyX_shape (xSources t srcs) (popToken t g tk)
  rw [h2]
  obtain ⟨X', h3⟩ := reserve_shape { popToken t g tk with xs := X } dst
  rw [h3]; rfl

theorem consume_x (t : Tile) (g : Eng) (tk : Tk) (srcs : List Reg) (dst : Option Reg) (n : Fin 16) :
    (consume t g tk srcs dst).x n.val =
      let b : XReg := if Reg.x n ∈ srcs then { t.x n.val with full := false } else t.x n.val
      if dst = some (.x n) then { b with res := true } else b := by
  have h1 : (popToken t g tk).x n.val = t.x n.val := by
    obtain ⟨T, h⟩ := popToken_shape t g tk
    rw [h]; rfl
  have h2 := emptyX_x (xSources t srcs) (popToken t g tk) n.val
  rw [h1] at h2
  simp only [xSources_fst] at h2
  unfold consume
  generalize emptyX (popToken t g tk) (xSources t srcs) = w at h2
  cases dst with
  | none => simpa [reserve] using h2
  | some d =>
    cases d with
    | x m =>
      by_cases hm : n = m
      · subst hm; simp [reserve, Tile.x_setX, h2]
      · have : n.val ≠ m.val := fun h => hm (Fin.ext h)
        have hm' : ¬ m = n := fun h => hm h.symm
        simp [reserve, Tile.x_setX, this, h2, hm']
    | r m => simpa [reserve] using h2
    | ro k => simpa [reserve] using h2

/-! ### Destinations, predicates, outcomes, tokens at retirement -/

@[simp] theorem publish_zero (t : Tile) (out : Bool) : publish t 0 out = t := by simp [publish]

theorem setPriv_shape (t : Tile) (g : Eng) (n : Nat) (v : Word) :
    ∃ E A M Y, t.setPriv g n v = { t with e := E, a := A, m := M, y := Y } := by
  unfold Tile.setPriv
  split
  · exact ⟨t.e, t.a, t.m, t.y, rfl⟩
  · cases g
    · exact ⟨_, t.a, t.m, t.y, rfl⟩
    · exact ⟨t.e, _, t.m, t.y, rfl⟩
    · exact ⟨t.e, t.a, _, t.y, rfl⟩
    · exact ⟨t.e, t.a, t.m, _, rfl⟩

theorem writeDst_shape (t : Tile) (g : Eng) (d : Option Reg) (v : Word) :
    ∃ E A M Y X, writeDst t g d v = { t with e := E, a := A, m := M, y := Y, xs := X } := by
  unfold writeDst
  split
  · obtain ⟨E, A, M, Y, h⟩ := setPriv_shape t g _ v
    exact ⟨E, A, M, Y, t.xs, h⟩
  · exact ⟨t.e, t.a, t.m, t.y, _, rfl⟩
  · exact ⟨t.e, t.a, t.m, t.y, t.xs, rfl⟩

theorem writeDst_priv (t : Tile) (g : Eng) (d : Option Reg) (v : Word) (h : Eng) (n : Fin 32) :
    (writeDst t g d v).priv h n.val = if h = g ∧ d = some (.r n) ∧ n.val ≠ 0 then v else t.priv h n.val := by
  cases d with
  | none => simp [writeDst]
  | some d =>
    cases d with
    | r m =>
      simp only [writeDst, Tile.priv_setPriv]
      by_cases hm : n = m
      · subst hm; simp
      · have h1 : n.val ≠ m.val := fun e => hm (Fin.ext e)
        have h2 : ¬ m = n := fun e => hm e.symm
        simp [h1, h2]
    | x m => simp [writeDst, Tile.priv, Tile.setX]; rfl
    | ro k => simp [writeDst]

theorem setPriv_eng (t : Tile) (g : Eng) (n : Nat) (v : Word) (h : Eng) :
    ∃ R, (t.setPriv g n v).eng h = { t.eng h with regs := R } ∧ (h ≠ g → (t.setPriv g n v).eng h = t.eng h) := by
  unfold Tile.setPriv
  split
  · exact ⟨_, rfl, fun _ => rfl⟩
  · simp only [Tile.updEng, Tile.eng_setEng]
    by_cases e : h = g
    · subst e; simp
    · exact ⟨(t.eng h).regs, by simp [e], fun _ => by simp [e]⟩

theorem writeDst_eng (t : Tile) (g : Eng) (d : Option Reg) (v : Word) (h : Eng) :
    ∃ R, (writeDst t g d v).eng h = { t.eng h with regs := R } ∧ (h ≠ g → (writeDst t g d v).eng h = t.eng h) := by
  unfold writeDst
  split
  · exact setPriv_eng _ _ _ _ _
  · exact ⟨(t.eng h).regs, by cases h <;> rfl, fun _ => by cases h <;> rfl⟩
  · exact ⟨_, rfl, fun _ => rfl⟩

theorem writeDst_x (t : Tile) (g : Eng) (d : Option Reg) (v : Word) (n : Fin 16) :
    (writeDst t g d v).x n.val = if d = some (.x n) then { val := v, full := true, res := false } else t.x n.val := by
  cases d with
  | none => simp [writeDst]
  | some d =>
    cases d with
    | r m =>
      obtain ⟨E, A, M, Y, h⟩ := setPriv_shape t g m.val v
      simp [writeDst, h, Tile.x]
    | x m =>
      by_cases hm : n = m
      · subst hm; simp [writeDst, Tile.x_setX]
      · have : n.val ≠ m.val := fun e => hm (Fin.ext e)
        have hm' : ¬ m = n := fun e => hm e.symm
        simp [writeDst, Tile.x_setX, this, hm']
    | ro k => simp [writeDst]

theorem pushToken_tok (t : Tile) (g : Eng) (sig : Option Eng) (p q : Eng) :
    (pushToken t g sig).tok p q = t.tok p q + b2n (sig.isSome && p == g && some q == sig) := by
  cases sig with
  | none => simp [pushToken, b2n]
  | some r =>
    simp only [pushToken, Tile.tok_setTok]
    by_cases h : p = g ∧ q = r
    · obtain ⟨rfl, rfl⟩ := h; simp [b2n]
    · simp only [h, if_false]
      have : ((p == g) && (q == r)) = false := by
        rw [Bool.eq_false_iff]; intro hc; simp at hc; exact h hc
      simp [this, b2n]

theorem pushToken_shape (t : Tile) (g : Eng) (sig : Option Eng) : ∃ T, pushToken t g sig = { t with toks := T } := by
  unfold pushToken; split
  · exact ⟨_, rfl⟩
  · exact ⟨t.toks, rfl⟩

/-! ### An instruction that retires as it issues -/

theorem issueAs_shape (t : Tile) (g : Eng) (st : Stat) :
    ∃ E A M Y, t.issueAs g st = { t with e := E, a := A, m := M, y := Y } := by
  unfold Tile.issueAs Tile.updEng
  cases g
  · exact ⟨_, t.a, t.m, t.y, rfl⟩
  · exact ⟨t.e, _, t.m, t.y, rfl⟩
  · exact ⟨t.e, t.a, _, t.y, rfl⟩
  · exact ⟨t.e, t.a, t.m, _, rfl⟩

theorem issueAs_eng (t : Tile) (g : Eng) (st : Stat) (h : Eng) :
    (t.issueAs g st).eng h = if h = g then { t.eng g with queue := pruneQ (setFirst (t.eng g).queue st) } else t.eng h := by
  unfold Tile.issueAs Tile.updEng
  rw [Tile.eng_setEng]

theorem issueAs_priv (t : Tile) (g : Eng) (st : Stat) (h : Eng) (n : Nat) : (t.issueAs g st).priv h n = t.priv h n := by
  unfold Tile.priv
  rw [issueAs_eng]
  by_cases e : h = g
  · subst e; simp
  · simp [e]

/-- The result of an instruction with no transfer of control and nothing published. -/
def Result.plain (r : Result) : Prop := r.pub = 0 ∧ r.post = .none

theorem sigRoom_consume (t : Tile) (g : Eng) (tk : Tk) (srcs : List Reg) (dst : Option Reg) (sig : Option Eng)
    (h : sigRoom t g sig = true) : sigRoom (consume t g tk srcs dst) g sig = true := by
  unfold sigRoom at h ⊢
  cases sig with
  | none => rfl
  | some p =>
    simp only [consume_tok, decide_eq_true_eq] at h ⊢
    omega

theorem consume_eng (t : Tile) (g : Eng) (tk : Tk) (srcs : List Reg) (dst : Option Reg) (h : Eng) :
    (consume t g tk srcs dst).eng h = t.eng h := by
  obtain ⟨X, T, e⟩ := consume_shape t g tk srcs dst
  rw [e]; cases h <;> rfl

/-- An instruction whose waits are met, and whose result may retire, retires as it issues. -/
theorem finishes_of_room (t : Tile) (g : Eng) (tk : Tk) (srcs : List Reg) (r : Result)
    (hroom : sigRoom t g (if tkSignals tk then some (t.sigp g) else none) = true)
    (hjoin : joinFree (t.eng g).queue r.dst r.pub (if tkSignals tk then some (t.sigp g) else none) = true) :
    finishes t g tk srcs r = true := by
  unfold finishes mayRetire sigOf
  dsimp only
  rw [sigRoom_consume _ _ _ _ _ _ hroom, consume_eng, hjoin]; rfl

/-- What it does to the tile. -/
theorem finish_retires (t : Tile) (g : Eng) (tk : Tk) (srcs : List Reg) (r : Result) (keep : Bool)
    (hroom : sigRoom t g (if tkSignals tk then some (t.sigp g) else none) = true)
    (hjoin : joinFree (t.eng g).queue r.dst r.pub (if tkSignals tk then some (t.sigp g) else none) = true) :
    finish t g tk srcs r keep =
      retireTile ((consume t g tk srcs r.dst).issueAs g .retired) g r (if tkSignals tk then some (t.sigp g) else none) := by
  unfold finish
  simp only [finishes_of_room t g tk srcs r hroom hjoin, if_true]
  rfl

/-- What it leaves in the tile, if it transfers no control and publishes nothing. -/
theorem finish_tile (t : Tile) (g : Eng) (tk : Tk) (srcs : List Reg) (r : Result) (keep : Bool)
    (hroom : sigRoom t g (if tkSignals tk then some (t.sigp g) else none) = true)
    (hjoin : joinFree (t.eng g).queue r.dst r.pub (if tkSignals tk then some (t.sigp g) else none) = true)
    (hr : r.plain) :
    TileRetired t (finish t g tk srcs r keep) g tk srcs r.dst r.val ∧ TileKept t (finish t g tk srcs r keep)
      ∧ (finish t g tk srcs r keep).preds = (writePreds t r.preds).preds := by
  rw [finish_retires t g tk srcs r keep hroom hjoin]
  obtain ⟨hp, hpost⟩ := hr
  unfold retireTile
  rw [hp, hpost, publish_zero]
  simp only [applyPost]
  generalize hsig : (if tkSignals tk then some (t.sigp g) else none) = sig
  obtain ⟨X, T, hc⟩ := consume_shape t g tk srcs r.dst
  have hctok := consume_tok t g tk srcs r.dst
  have hcx := consume_x t g tk srcs r.dst
  have hceng := consume_eng t g tk srcs r.dst
  generalize hu : consume t g tk srcs r.dst = u at hc hctok hcx hceng
  obtain ⟨E, A, M, Y, hi⟩ := issueAs_shape u g .retired
  have hieng := issueAs_eng u g .retired
  have hipriv := issueAs_priv u g .retired
  generalize hv : u.issueAs g .retired = w at hi hieng hipriv
  obtain ⟨E', A', M', Y', X', hw⟩ := writeDst_shape w g r.dst r.val
  have hwpriv := writeDst_priv w g r.dst r.val
  have hwx := writeDst_x w g r.dst r.val
  have hweng := writeDst_eng w g r.dst r.val
  generalize hz : writeDst w g r.dst r.val = z at hw hwpriv hwx hweng
  have hpr : ∃ P, writePreds z r.preds = { z with preds := P } ∧ (z.preds = t.preds → P = (writePreds t r.preds).preds) := by
    unfold writePreds
    cases r.preds with
    | none => exact ⟨z.preds, rfl, fun h => h⟩
    | some p => exact ⟨_, rfl, fun h => by rw [h]⟩
  obtain ⟨P, hP, hPv⟩ := hpr
  obtain ⟨T', hT⟩ := pushToken_shape (writePreds z r.preds) g sig
  have htok := pushToken_tok (writePreds z r.preds) g sig
  generalize hfin : pushToken (writePreds z r.preds) g sig = f at hT htok
  have engf : ∀ h, f.eng h = z.eng h := by intro h; rw [hT, hP]; cases h <;> rfl
  have tokw : ∀ p q, z.tok p q = u.tok p q := by intro p q; rw [hw, hi]; rfl
  have xw : ∀ n, w.x n = u.x n := by intro n; rw [hi]; rfl
  refine ⟨⟨?_, ?_, ?_, ?_, ?_, ?_⟩, ?_, ?_⟩
  · intro n
    have h1 : f.priv g n.val = z.priv g n.val := by unfold Tile.priv; rw [engf]
    have h2 : u.priv g n.val = t.priv g n.val := by unfold Tile.priv; rw [hceng]
    rw [h1, hwpriv, hipriv, h2]; simp
  · intro n
    have h1 : f.x n.val = z.x n.val := by rw [hT, hP]; rfl
    rw [h1, hwx, xw, hcx]
    by_cases hd : r.dst = some (.x n) <;> simp [hd]
  · intro p q
    rw [htok]
    have h1 : (writePreds z r.preds).tok p q = z.tok p q := by rw [hP]; rfl
    rw [h1, tokw, hctok, ← hsig]
    by_cases hs : tkSignals tk
    · simp only [hs, if_true, Option.isSome_some, Bool.true_and]
      congr 2
    · simp [hs, b2n]
  · rw [engf]
    obtain ⟨R, h1, -⟩ := hweng g
    rw [h1, hieng]; simp [hceng]
  · rw [engf]
    obtain ⟨R, h1, -⟩ := hweng g
    rw [h1, hieng]; simp [hceng]
  · intro h hne
    rw [engf]
    obtain ⟨R, -, h1⟩ := hweng h
    rw [h1 hne, hieng, if_neg hne, hceng]
  · unfold TileKept
    rw [hT, hP, hw, hi, hc]
  · rw [hT]
    show (writePreds z r.preds).preds = _
    rw [hP]
    exact hPv (by rw [hw, hi, hc])

/-! ### The same in the state -/

theorem progress_shape (s : State) (tid : Nat) : ∃ R, progress s tid = { s with regions := R } := by
  unfold progress State.updRegion
  split
  · split
    · exact ⟨_, rfl⟩
    · exact ⟨s.regions, rfl⟩
  · exact ⟨s.regions, rfl⟩

theorem progress_regions (s : State) (tid r : Nat) :
    ((progress s tid).region? r).map (fun v => { v with progress := true }) = (s.region? r).map (fun v => { v with progress := true }) := by
  unfold progress State.updRegion
  split
  · rename_i q hq
    split
    · rename_i v hv
      rw [State.region?_setRegion]
      by_cases h : r = q
      · subst h; simp [hv]
      · simp [h]
    · rfl
  · rfl

/-- A tile that moves on without ending. -/
theorem settleTile_live (s : State) (tid : Nat) (t : Tile) (b : Bool) (h : t.ended = (s.tile tid).ended) :
    settleTile s tid t b = if b then progress (s.setTile tid t) tid else s.setTile tid t := by
  unfold settleTile noteEnd
  simp only [State.tile_setTile_self, h]
  have : ((s.tile tid).ended && !(s.tile tid).ended) = false := by cases (s.tile tid).ended <;> rfl
  simp [this]

/-- finishS for an instruction that transfers no control and publishes nothing. -/
theorem finishS_plain (s : State) (tk : Tk) (srcs : List Reg) (r : Result) (keep : Bool)
    (h : Goes s tk srcs r.dst r.pub) (hr : r.plain) :
    let t := finishS s s.cur.1 s.cur.2 tk srcs r keep
    TileRetired (s.tile s.cur.1) (t.tile s.cur.1) s.cur.2 tk srcs r.dst r.val ∧ TileKept (s.tile s.cur.1) (t.tile s.cur.1)
      ∧ (t.tile s.cur.1).preds = (writePreds (s.tile s.cur.1) r.preds).preds ∧ OtherwiseSame s t ∧ t.st = s.st := by
  intro t
  obtain ⟨h1, h2, h3⟩ := finish_tile (s.tile s.cur.1) s.cur.2 tk srcs r keep h.room h.joined hr
  have hended : (finish (s.tile s.cur.1) s.cur.2 tk srcs r keep).ended = (s.tile s.cur.1).ended := by
    have := congrArg Tile.ended h2
    simpa using this
  have ht : t = progress (s.setTile s.cur.1 (finish (s.tile s.cur.1) s.cur.2 tk srcs r keep)) s.cur.1 := by
    show settleTile _ _ _ _ = _
    rw [settleTile_live _ _ _ _ hended, finishes_of_room _ _ _ _ _ h.room h.joined]; rfl
  obtain ⟨R, hR⟩ := progress_shape (s.setTile s.cur.1 (finish (s.tile s.cur.1) s.cur.2 tk srcs r keep)) s.cur.1
  have hreg := progress_regions (s.setTile s.cur.1 (finish (s.tile s.cur.1) s.cur.2 tk srcs r keep)) s.cur.1
  rw [← ht] at hreg
  rw [hR] at ht
  have htile : ∀ u, t.tile u = if u = s.cur.1 then finish (s.tile s.cur.1) s.cur.2 tk srcs r keep else s.tile u := by
    intro u; rw [ht]; exact State.tile_setTile s _ _ u
  have hself : t.tile s.cur.1 = finish (s.tile s.cur.1) s.cur.2 tk srcs r keep := by rw [htile]; simp
  rw [hself]
  refine ⟨h1, h2, h3, ⟨?_, ?_, ?_⟩, ?_⟩
  · intro u hu; rw [htile, if_neg hu]
  · intro r'; rw [hreg r']; rfl
  · rw [ht]; rfl
  · rw [ht]; rfl

theorem BytesSame.of_st {s t : State} (h : t.st = s.st) : BytesSame s t := by intro k; rw [h]

/-- An instruction that writes one value. -/
theorem finishS_value (s : State) (tk : Tk) (srcs : List Reg) (d : Option Reg) (v : Word) (keep : Bool)
    (h : Goes s tk srcs d 0) :
    Retired s (finishS s s.cur.1 s.cur.2 tk srcs (Result.value d v) keep) tk srcs d v := by
  obtain ⟨h1, h2, h3, h4, h5⟩ := finishS_plain s tk srcs (Result.value d v) keep h ⟨rfl, rfl⟩
  exact ⟨h1, h2, h3, h4, .of_st h5⟩

/-- An instruction that writes predicates: those of its mask, m, take their values from v. -/
theorem finishS_preds (s : State) (tk : Tk) (srcs : List Reg) (m v : BitVec 8) (keep : Bool) (h : Goes s tk srcs none 0) :
    RetiredPreds s (finishS s s.cur.1 s.cur.2 tk srcs { Result.value none 0 with preds := some (m, v) } keep) tk srcs
      (((s.tile s.cur.1).preds &&& ~~~m ||| v &&& m) ||| 1) := by
  obtain ⟨h1, h2, h3, h4, h5⟩ := finishS_plain s tk srcs { Result.value none 0 with preds := some (m, v) } keep h ⟨rfl, rfl⟩
  exact ⟨h1, h2, h3, h4, .of_st h5⟩

/-! ### Branches -/

theorem Tile.outcomes_setOutcomes (t : Tile) (g h : Eng) (l : List Bool) :
    (t.setOutcomes g l).outcomes h = if h = g then l else t.outcomes h := by
  unfold Tile.outcomes Tile.setOutcomes
  rw [NMap.findD_put]
  by_cases e : h = g
  · subst e; simp
  · have : h.num ≠ g.num := fun c => e (Eng.num_inj c)
    simp [e, this]

theorem publish_shape (t : Tile) (pub : BitVec 3) (out : Bool) : ∃ B, publish t pub out = { t with boq := B } := by
  have one : ∀ (c : Bool) (u : Tile) (g : Eng) (l : List Bool), (∃ B, u = { t with boq := B }) →
      ∃ B, (if c then u.setOutcomes g l else u) = { t with boq := B } := by
    rintro c u g l ⟨B, rfl⟩
    cases c
    · exact ⟨B, rfl⟩
    · exact ⟨_, rfl⟩
  unfold publish
  exact one _ _ _ _ (one _ _ _ _ (one _ _ _ _ ⟨t.boq, rfl⟩))

theorem publish_outcomes (t : Tile) (pub : BitVec 3) (out : Bool) (h : Eng) :
    (publish t pub out).outcomes h = t.outcomes h ++ if pubNames pub h then [out] else [] := by
  unfold publish
  dsimp only
  cases h0 : pub.getLsbD 0 <;> cases h1 : pub.getLsbD 1 <;> cases h2 : pub.getLsbD 2 <;> cases h <;>
    simp only [Tile.outcomes_setOutcomes, pubNames, h0, h1, h2, if_true, if_false, Bool.false_eq_true, reduceCtorEq, List.append_nil]

theorem goTo_fields (e : EngSt) (x : Nat) :
    (e.goTo x 0).queue = e.queue.filter (fun q => !q.isUnissued) ∧ (e.goTo x 0).fetch = x - x % 32 ∧ (e.goTo x 0).lane = 0
      ∧ (e.goTo x 0).skip = 0 ∧ (e.goTo x 0).served = e.served ∧ (e.goTo x 0).regs = e.regs := ⟨rfl, rfl, rfl, rfl, rfl, rfl⟩

/-- finish for a branch, in the tile. -/
theorem finish_branch (t : Tile) (g : Eng) (tk : Tk) (srcs : List Reg) (r : Result) (keep : Bool) (to_ : Option Nat)
    (hroom : sigRoom t g (if tkSignals tk then some (t.sigp g) else none) = true)
    (hjoin : joinFree (t.eng g).queue r.dst r.pub (if tkSignals tk then some (t.sigp g) else none) = true)
    (hp : r.preds = none) (hpost : r.post = match to_ with | none => .pass | some x => .jump x) :
    let b := finish t g tk srcs r keep
    (∀ n : Fin 32, b.priv g n.val = if r.dst = some (.r n) ∧ n.val ≠ 0 then r.val else t.priv g n.val) ∧
    (∀ n : Fin 16, b.x n.val = if r.dst = some (.x n) then { val := r.val, full := true, res := false }
      else if Reg.x n ∈ srcs then { t.x n.val with full := false } else t.x n.val) ∧
    (∀ p q, b.tok p q = t.tok p q - b2n (tkWaits tk && p == t.waitp g && q == g) + b2n (tkSignals tk && p == g && q == t.sigp g)) ∧
    (∀ h, b.outcomes h = t.outcomes h ++ if pubNames r.pub h then [r.out] else []) ∧
    FetchMoved (t.eng g) (b.eng g) to_ ∧ (∀ h, h ≠ g → b.eng h = t.eng h) ∧
    { b with e := t.e, a := t.a, m := t.m, y := t.y, xs := t.xs, toks := t.toks, boq := t.boq } = t := by
  intro b
  have hb : b = finish t g tk srcs r keep := rfl
  rw [finish_retires t g tk srcs r keep hroom hjoin] at hb
  unfold retireTile writePreds at hb
  rw [hp] at hb
  dsimp only at hb
  generalize hsig : (if tkSignals tk then some (t.sigp g) else none) = sig at hb
  obtain ⟨X, T, hc⟩ := consume_shape t g tk srcs r.dst
  have hctok := consume_tok t g tk srcs r.dst
  have hcx := consume_x t g tk srcs r.dst
  have hceng := consume_eng t g tk srcs r.dst
  generalize hu : consume t g tk srcs r.dst = u at hc hctok hcx hceng hb
  obtain ⟨E, A, M, Y, hi⟩ := issueAs_shape u g .retired
  have hieng := issueAs_eng u g .retired
  have hipriv := issueAs_priv u g .retired
  generalize hv : u.issueAs g .retired = w at hi hieng hipriv hb
  obtain ⟨E', A', M', Y', X', hw⟩ := writeDst_shape w g r.dst r.val
  have hwpriv := writeDst_priv w g r.dst r.val
  have hwx := writeDst_x w g r.dst r.val
  have hweng := writeDst_eng w g r.dst r.val
  generalize hz : writeDst w g r.dst r.val = z at hw hwpriv hwx hweng hb
  obtain ⟨B, hB⟩ := publish_shape z r.pub r.out
  have hout := publish_outcomes z r.pub r.out
  generalize hy : publish z r.pub r.out = y at hB hout hb
  obtain ⟨T', hT⟩ := pushToken_shape y g sig
  have htok := pushToken_tok y g sig
  generalize hf : pushToken y g sig = f at hT htok hb
  have engf : ∀ h, f.eng h = z.eng h := by intro h; rw [hT, hB]; cases h <;> rfl
  have privf : ∀ n : Fin 32, f.priv g n.val = if r.dst = some (.r n) ∧ n.val ≠ 0 then r.val else t.priv g n.val := by
    intro n
    have h1 : f.priv g n.val = z.priv g n.val := by unfold Tile.priv; rw [engf]
    have h2 : u.priv g n.val = t.priv g n.val := by unfold Tile.priv; rw [hceng]
    rw [h1, hwpriv, hipriv, h2]; simp
  have xf : ∀ n : Fin 16, f.x n.val = if r.dst = some (.x n) then { val := r.val, full := true, res := false }
      else if Reg.x n ∈ srcs then { t.x n.val with full := false } else t.x n.val := by
    intro n
    have h1 : f.x n.val = z.x n.val := by rw [hT, hB]; rfl
    have xw : w.x n.val = u.x n.val := by rw [hi]; rfl
    rw [h1, hwx, xw, hcx]
    by_cases hd : r.dst = some (.x n) <;> simp [hd]
  have tokf : ∀ p q, f.tok p q =
      t.tok p q - b2n (tkWaits tk && p == t.waitp g && q == g) + b2n (tkSignals tk && p == g && q == t.sigp g) := by
    intro p q
    have h1 : y.tok p q = u.tok p q := by rw [hB, hw, hi]; rfl
    rw [htok, h1, hctok, ← hsig]
    by_cases hs : tkSignals tk
    · simp only [hs, if_true, Option.isSome_some, Bool.true_and]
      congr 2
    · simp [hs, b2n]
  have outf : ∀ h, f.outcomes h = t.outcomes h ++ if pubNames r.pub h then [r.out] else [] := by
    intro h
    have h1 : f.outcomes h = y.outcomes h := by rw [hT]; rfl
    have h2 : z.outcomes h = t.outcomes h := by rw [hw, hi, hc]; rfl
    rw [h1, hout, h2]
  have qf : (f.eng g).queue = pruneQ (setFirst (t.eng g).queue .retired) ∧ (f.eng g).fetch = (t.eng g).fetch
      ∧ (f.eng g).lane = (t.eng g).lane ∧ (f.eng g).skip = (t.eng g).skip ∧ (f.eng g).served = (t.eng g).served := by
    rw [engf]
    obtain ⟨R, h1, -⟩ := hweng g
    rw [h1, hieng]; simp [hceng]
  have othersf : ∀ h, h ≠ g → f.eng h = t.eng h := by
    intro h hne
    rw [engf]
    obtain ⟨R, -, h1⟩ := hweng h
    rw [h1 hne, hieng, if_neg hne, hceng]
  have keptf : ({ f with e := t.e, a := t.a, m := t.m, y := t.y, xs := t.xs, toks := t.toks, boq := t.boq } : Tile) = t := by
    rw [hT, hB, hw, hi, hc]
  rw [hpost] at hb
  cases to_ with
  | none =>
    have hbf : b = f := hb
    rw [hbf]
    exact ⟨privf, xf, tokf, outf, ⟨qf.1, qf.2.1, qf.2.2.1, qf.2.2.2.1, qf.2.2.2.2⟩, othersf, keptf⟩
  | some x =>
    have hbf : b = f.setEng g ((f.eng g).goTo x 0) := hb
    have he : ∀ h, b.eng h = if h = g then (f.eng g).goTo x 0 else f.eng h := by intro h; rw [hbf, Tile.eng_setEng]
    refine ⟨?_, ?_, ?_, ?_, ⟨?_, ?_, ?_, ?_, ?_⟩, ?_, ?_⟩
    · intro n; rw [← privf n]; unfold Tile.priv; rw [he, if_pos rfl]; rfl
    · intro n; rw [← xf n, hbf]; simp [Tile.x]
    · intro p q; rw [← tokf p q, hbf]; simp [Tile.tok]
    · intro h; rw [← outf h, hbf]; simp [Tile.outcomes]
    · rw [he, if_pos rfl, (goTo_fields _ _).1, qf.1]; rfl
    · rw [he, if_pos rfl, (goTo_fields _ _).2.1]; rfl
    · rw [he, if_pos rfl]; rfl
    · rw [he, if_pos rfl]; rfl
    · rw [he, if_pos rfl, (goTo_fields _ _).2.2.2.2.1, qf.2.2.2.2]
    · intro h hne; rw [he, if_neg hne, othersf h hne]
    · rw [hbf]
      have : ∃ E A M Y, f.setEng g ((f.eng g).goTo x 0) = { f with e := E, a := A, m := M, y := Y } := by
        cases g
        · exact ⟨_, f.a, f.m, f.y, rfl⟩
        · exact ⟨f.e, _, f.m, f.y, rfl⟩
        · exact ⟨f.e, f.a, _, f.y, rfl⟩
        · exact ⟨f.e, f.a, f.m, _, rfl⟩
      obtain ⟨E2, A2, M2, Y2, h⟩ := this
      rw [h]
      exact keptf

/-- The state after an instruction that does not end its tile. -/
theorem finishS_state (s : State) (tk : Tk) (srcs : List Reg) (r : Result) (keep : Bool)
    (hended : (finish (s.tile s.cur.1) s.cur.2 tk srcs r keep).ended = (s.tile s.cur.1).ended)
    (h : finishes (s.tile s.cur.1) s.cur.2 tk srcs r = true) :
    let t := finishS s s.cur.1 s.cur.2 tk srcs r keep
    t.tile s.cur.1 = finish (s.tile s.cur.1) s.cur.2 tk srcs r keep ∧ OtherwiseSame s t ∧ t.st = s.st := by
  intro t
  have ht : t = progress (s.setTile s.cur.1 (finish (s.tile s.cur.1) s.cur.2 tk srcs r keep)) s.cur.1 := by
    show settleTile _ _ _ _ = _
    rw [settleTile_live _ _ _ _ hended, h]; rfl
  obtain ⟨R, hR⟩ := progress_shape (s.setTile s.cur.1 (finish (s.tile s.cur.1) s.cur.2 tk srcs r keep)) s.cur.1
  have hreg := progress_regions (s.setTile s.cur.1 (finish (s.tile s.cur.1) s.cur.2 tk srcs r keep)) s.cur.1
  rw [← ht] at hreg
  rw [hR] at ht
  have htile : ∀ u, t.tile u = if u = s.cur.1 then finish (s.tile s.cur.1) s.cur.2 tk srcs r keep else s.tile u := by
    intro u; rw [ht]; exact State.tile_setTile s _ _ u
  refine ⟨by rw [htile]; simp, ⟨fun u hu => by rw [htile, if_neg hu], fun r' => by rw [hreg r']; rfl, by rw [ht]; rfl⟩, by rw [ht]; rfl⟩

theorem branchOp_branched (s : State) (tk : Tk) (srcs : List Reg) (pub : BitVec 3) (taken : Bool) (x : Nat) (link : Option Reg)
    (h : Goes s tk srcs link pub) (hb : BranchReady s pub) :
    ∃ t, branchOp s tk srcs pub taken x link = .next t ∧
      Branched s t tk srcs pub taken link (returnPoint s) (if taken then some x else none) := by
  unfold branchOp readyAlone done
  rw [h.waits, hb.1, hb.2]
  refine ⟨_, rfl, ?_⟩
  generalize hr : Result.mk link (returnPoint s) none pub taken (if taken then .jump x else .pass) = r
  have hd : r.dst = link := by rw [← hr]
  have hpub : r.pub = pub := by rw [← hr]
  have hv : r.val = returnPoint s := by rw [← hr]
  have hout : r.out = taken := by rw [← hr]
  have hpost : r.post = match (if taken then some x else none) with | none => .pass | some x => .jump x := by
    rw [← hr]; cases taken <;> rfl
  obtain ⟨h1, h2, h3, h4, h5, h6, h7⟩ := finish_branch (s.tile s.cur.1) s.cur.2 tk srcs r false (if taken then some x else none)
    h.room (by rw [hd, hpub]; exact h.joined) (by rw [← hr]) hpost
  have hended := congrArg Tile.ended h7
  obtain ⟨g1, g2, g3⟩ := finishS_state s tk srcs r false hended
    (finishes_of_room _ _ _ _ _ h.room (by rw [hd, hpub]; exact h.joined))
  rw [hd, hv] at h1 h2
  rw [hpub, hout] at h4
  rw [← g1] at h1 h2 h3 h4 h5 h6 h7
  exact ⟨h1, h2, h3, h4, h5, h6, h7, g2, .of_st g3⟩

/-! ### The common shapes -/

theorem aluOp_retires (s : State) (tk : Tk) (d : Reg) (srcs : List Reg) (v : Word) (h : Goes s tk srcs (some d) 0) :
    ∃ t, aluOp s tk d srcs v = .next t ∧ Retired s t tk srcs (some d) v := by
  unfold aluOp done
  rw [if_pos h.waits]
  exact ⟨_, rfl, finishS_value _ _ _ _ _ _ h⟩

theorem predOp_retires (s : State) (tk : Tk) (srcs : List Reg) (reads m v : BitVec 8) (h : Goes s tk srcs none 0)
    (hp : predsFree s (reads ||| m) = true) :
    ∃ t, predOp s tk srcs reads m v = .next t ∧
      RetiredPreds s t tk srcs (((s.tile s.cur.1).preds &&& ~~~m ||| v &&& m) ||| 1) := by
  unfold predOp done
  rw [if_pos (by rw [h.waits, hp]; rfl)]
  exact ⟨_, rfl, finishS_preds _ _ _ _ _ _ h⟩

/-! ### Instructions in flight -/

theorem pushToken_eng (t : Tile) (g : Eng) (sig : Option Eng) (h : Eng) : (pushToken t g sig).eng h = t.eng h := by
  obtain ⟨T, hT⟩ := pushToken_shape t g sig
  rw [hT]; cases h <;> rfl

theorem updEng_eng (t : Tile) (g : Eng) (f : EngSt → EngSt) (h : Eng) : (t.updEng g f).eng h = if h = g then f (t.eng g) else t.eng h := by
  unfold Tile.updEng; rw [Tile.eng_setEng]

theorem updEng_shape (t : Tile) (g : Eng) (f : EngSt → EngSt) :
    ∃ E A M Y, t.updEng g f = { t with e := E, a := A, m := M, y := Y } := by
  unfold Tile.updEng
  cases g
  · exact ⟨_, t.a, t.m, t.y, rfl⟩
  · exact ⟨t.e, _, t.m, t.y, rfl⟩
  · exact ⟨t.e, t.a, _, t.y, rfl⟩
  · exact ⟨t.e, t.a, t.m, _, rfl⟩

/-- Its result may retire. -/
theorem InFlight.completes {t : Tile} {g : Eng} {k : Nat} {w : Wait} {sig : Option Eng} {d : Option Reg} (v : Word)
    (h : InFlight t g k w sig d) : Machine.completes t g k (Result.value d v) = true := by
  obtain ⟨⟨pop, xs, hk⟩, hroom, hjoin⟩ := h
  unfold Machine.completes mayRetire
  rw [hk]
  simp only [hroom]
  exact hjoin

/-- An instruction in flight that may retire does so. -/
theorem complete_tile (t : Tile) (g : Eng) (k : Nat) (w : Wait) (sig : Option Eng) (d : Option Reg) (v : Word) (keep : Bool)
    (h : InFlight t g k w sig d) : TileCompleted t (complete t g k (Result.value d v) keep) g k sig d v := by
  have hm := h.completes v
  obtain ⟨⟨pop, xs, hk⟩, hroom, hjoin⟩ := h
  unfold complete
  rw [hk]
  simp only [hm, if_true]
  have hueng := updEng_eng t g (fun e => { e with queue := setStat e.queue k .retired })
  obtain ⟨E, A, M, Y, hu⟩ := updEng_shape t g (fun e => { e with queue := setStat e.queue k .retired })
  generalize t.updEng g (fun e => { e with queue := setStat e.queue k .retired }) = u at hueng hu
  obtain ⟨E', A', M', Y', X', hw⟩ := writeDst_shape u g d v
  have hwpriv := writeDst_priv u g d v
  have hwx := writeDst_x u g d v
  have hweng := writeDst_eng u g d v
  have hret : retireTile u g (Result.value d v) sig = pushToken (writeDst u g d v) g sig := by
    show pushToken (publish (writeDst u g d v) 0 false) g sig = _
    rw [publish_zero]
  rw [hret]
  generalize hz : writeDst u g d v = z at hw hwpriv hwx hweng
  obtain ⟨T, hT⟩ := pushToken_shape z g sig
  have htok := pushToken_tok z g sig
  have hpe := pushToken_eng z g sig
  generalize pushToken z g sig = f at hT htok hpe
  have hfeng := updEng_eng f g (fun e => { e with queue := pruneQ e.queue })
  obtain ⟨E2, A2, M2, Y2, hf⟩ := updEng_shape f g (fun e => { e with queue := pruneQ e.queue })
  generalize f.updEng g (fun e => { e with queue := pruneQ e.queue }) = b at hfeng hf
  have hbpriv : ∀ h n, b.priv h n = z.priv h n := by
    intro h n
    unfold Tile.priv
    rw [hfeng]
    by_cases e : h = g
    · subst e; simp [hpe]
    · simp [e, hpe]
  have hupriv : ∀ h n, u.priv h n = t.priv h n := by
    intro h n
    unfold Tile.priv
    rw [hueng]
    by_cases e : h = g
    · subst e; simp
    · simp [e]
  refine ⟨?_, ?_, ?_, ?_, ?_, ?_, ?_⟩
  · intro n
    rw [hbpriv, hwpriv, hupriv]; simp
  · intro n
    have h1 : b.x n.val = z.x n.val := by rw [hf, hT]; rfl
    have h2 : u.x n.val = t.x n.val := by rw [hu]; rfl
    rw [h1, hwx, h2]
  · intro p q
    have h1 : b.tok p q = f.tok p q := by rw [hf]; rfl
    have h2 : z.tok p q = t.tok p q := by rw [hw, hu]; rfl
    rw [h1, htok, h2]
    congr 2
    cases sig with
    | none => simp
    | some r =>
      cases p <;> cases g <;> cases q <;> cases r <;> rfl
  · rw [hfeng]
    obtain ⟨R, h1, -⟩ := hweng g
    simp [hpe, h1, hueng]
  · rw [hfeng]
    obtain ⟨R, h1, -⟩ := hweng g
    simp [hpe, h1, hueng]
  · intro h hne
    obtain ⟨R, -, h1⟩ := hweng h
    rw [hfeng, if_neg hne, hpe, h1 hne, hueng, if_neg hne]
  · rw [hf, hT, hw, hu]

/-- An instruction that issues and waits. -/
theorem startWait_tile (t : Tile) (g : Eng) (tk : Tk) (srcs : List Reg) (w : Wait) :
    TileIssued t (startWait t g tk srcs w) g tk srcs w := by
  unfold startWait
  obtain ⟨X, T, hc⟩ := consume_shape t g tk srcs w.dst?
  have hctok := consume_tok t g tk srcs w.dst?
  have hcx := consume_x t g tk srcs w.dst?
  have hceng := consume_eng t g tk srcs w.dst?
  generalize consume t g tk srcs w.dst? = u at hc hctok hcx hceng
  obtain ⟨E, A, M, Y, hi⟩ := issueAs_shape u g (flightOf t g tk srcs w)
  have hieng := issueAs_eng u g (flightOf t g tk srcs w)
  generalize u.issueAs g (flightOf t g tk srcs w) = b at hi hieng
  refine ⟨?_, ?_, ?_, ?_, ?_, ?_⟩
  · intro n
    have : b.x n.val = u.x n.val := by rw [hi]; rfl
    rw [this, hcx]
  · intro p q
    have : b.tok p q = u.tok p q := by rw [hi]; rfl
    rw [this, hctok]
  · exact ⟨_, _, by rw [hieng, if_pos rfl, hceng]; rfl⟩
  · rw [hieng, if_pos rfl, hceng]
  · intro h hne; rw [hieng, if_neg hne, hceng]
  · rw [hi, hc]

/-- The same in the state, for an instruction in flight. -/
theorem completeS_completed (s : State) (tid : Nat) (g : Eng) (k : Nat) (w : Wait) (sig : Option Eng) (d : Option Reg) (v : Word) (keep : Bool)
    (h : InFlight (s.tile tid) g k w sig d) : Completed s (completeS s tid g k (Result.value d v) keep) tid g k sig d v := by
  have hc := complete_tile (s.tile tid) g k w sig d v keep h
  have hended : (complete (s.tile tid) g k (Result.value d v) keep).ended = (s.tile tid).ended := by
    have := congrArg Tile.ended hc.kept
    simpa using this
  have ht : completeS s tid g k (Result.value d v) keep =
      progress (s.setTile tid (complete (s.tile tid) g k (Result.value d v) keep)) tid := by
    show settleTile _ _ _ _ = _
    rw [settleTile_live _ _ _ _ hended, h.completes v]; rfl
  generalize hu : complete (s.tile tid) g k (Result.value d v) keep = b at hc ht
  obtain ⟨R, hR⟩ := progress_shape (s.setTile tid b) tid
  have hreg := progress_regions (s.setTile tid b) tid
  rw [← ht] at hreg
  rw [hR] at ht
  generalize completeS s tid g k (Result.value d v) keep = t at hreg ht
  have htile : ∀ u, t.tile u = if u = tid then b else s.tile u := by
    intro u; rw [ht]; exact State.tile_setTile s tid b u
  refine ⟨?_, ⟨?_, ?_, ?_⟩, .of_st (by rw [ht]; rfl)⟩
  · rw [htile]; simpa using hc
  · intro u hne; rw [htile, if_neg hne]
  · intro r; rw [hreg]; rfl
  · rw [ht]; rfl

end Sys2Proof.Machine
end

