-- ==== Sys2Proof/Tests/Slice0.lean ====
section
/-! SUPPORT. Tests of the model on small states, and for each statement with hypotheses a state that meets them. Expected words and
values come from the spec: its encodings, its worked examples, or a calculation by hand from its rules. -/

namespace Sys2Proof.Tests

set_option Elab.async false

open Sys2Proof.Machine

/-! ### Small states -/

/-- One instruction that has not issued. -/
def entry (w : Lane) (x : Option Lane) : QEntry := { bundle := 0x40, lane := 1, kind := .instr w x, stat := .unissued }

/-- Tile 0 has started and one engine holds a NOP; f changes the tile further. -/
def tile0 (g : Eng) (f : Tile → Tile) : Tile :=
  f (({ Tile.reset with started := true }).setEng g { EngSt.reset with queue := [entry 0x00800000 none] })

/-- Only that tile exists, and its engine runs. -/
def on (g : Eng) (f : Tile → Tile) : State := { State.reset with cur := (0, g), tiles := [(0, tile0 g f)] }

/-- The same with a register file. -/
def withRegs (g : Eng) (l : List (Nat × Word)) (a : Tile) : Tile := a.updEng g (fun e => { e with regs := l })

/-- Bytes of storage at a key. -/
def put (s : State) (k : Nat) (bs : List Byte) : State := { s with st := s.st.write k bs }

/-- What a step or an instruction answers, if it is a next state. -/
def after (o : Out) (p : State → Bool) : Bool := match o with | .next t => p t | _ => false

/-- Register n of engine g of tile 0 then. -/
def gives (o : Out) (g : Eng) (n : Nat) (v : Word) : Bool := after o (fun t => (t.tile 0).priv g n == v)

/-! ### Ill-formed terms, one for each check -/

theorem smoke_add : (Instr.add .none (.ro .zero) (.r 1) (.r 2) false).wf = false := by decide
theorem smoke_mul_half : (Instr.mul .none (.r 1) (.r 1) (.r 2) .hiU true).wf = false := by decide
theorem smoke_logic : (Instr.and .none (.ro .col) (.r 1) (.r 2)).wf = false := by decide
theorem smoke_shl : (Instr.shl .none (.ro .col) (.r 1) (.r 2) false).wf = false := by decide
theorem smoke_shr : (Instr.shr .none (.ro .col) (.r 1) (.r 2) true false).wf = false := by decide
theorem smoke_min : (Instr.min .none (.ro .eng) (.r 1) (.r 2) true).wf = false := by decide
theorem smoke_cmp : (Instr.cmp .none .eq (.ro .eng) (.r 1) (.r 2)).wf = false := by decide
theorem smoke_sel : (Instr.sel .none (.x 3) (.r 1) (.r 2)).wf = false := by decide
theorem smoke_bfx : (Instr.bfx .none (.ro .row) (.r 1) 0 0).wf = false := by decide
theorem smoke_bfi : (Instr.bfi .none (.x 0) (.r 1) 0 0).wf = false := by decide
theorem smoke_addi : (Instr.addi .none (.ro .row) (.r 1) 0 none).wf = false := by decide
theorem smoke_shli : (Instr.shli .none (.ro .row) (.r 1) 0 false).wf = false := by decide
theorem smoke_shri : (Instr.shri .none (.ro .row) (.r 1) 0 false false).wf = false := by decide
theorem smoke_li : (Instr.li .none (.ro .row) 0 none).wf = false := by decide
theorem smoke_lih : (Instr.lih .none (.x 1) 0 none).wf = false := by decide
theorem smoke_cnt : (Instr.cnt .none (.ro .row) (.r 1) .pop false 48).wf = false := by decide
theorem smoke_load_dest : (Instr.ldT .none (.ro .row) (.r 1) (.r 2) .w false .plain none).wf = false := by decide
theorem smoke_load_zx : (Instr.ldT .none (.r 1) (.r 1) (.r 2) .d true .plain none).wf = false := by decide
theorem smoke_load_acq : (Instr.ldD .none (.r 1) (.r 1) (.r 2) .w false .acq none).wf = false := by decide
theorem smoke_load_scope : (Instr.ldD .none (.r 1) (.r 1) (.r 2) .w false .plain (some { off := 0, scope := .yard })).wf = false := by decide
theorem smoke_load_sync : (Instr.ldG .none (.r 1) (.r 1) (.r 2) .w false .sync none).wf = false := by decide
theorem smoke_store_rel : (Instr.stD .none (.r 1) (.r 1) (.r 2) .w .rel none).wf = false := by decide
theorem smoke_store_scope : (Instr.stT .none (.r 1) (.r 1) (.r 2) .w .plain (some { off := 0, scope := .group })).wf = false := by decide
theorem smoke_jr : (Instr.jr .none (some (.ro .zero)) (.r 1)).wf = false := by decide
theorem smoke_pget : (Instr.pget .none (.ro .zero)).wf = false := by decide
theorem smoke_bqs : (Instr.bqs .none 0 0 { index := 16, chan := true, mask := 1, sense := false }).wf = false := by decide
theorem smoke_div : (Instr.div .none (.ro .zero) (.r 1) (.r 2) false false).wf = false := by decide
theorem smoke_fadd : (Instr.fadd .none (.ro .zero) (.r 1) (.r 2) .f32 .rne).wf = false := by decide
theorem smoke_fma : (Instr.fma .none (.ro .zero) (.r 1) (.r 2) (.r 3) .f32 .rne).wf = false := by decide
theorem smoke_fcvt : (Instr.fcvt .none (.ro .zero) (.r 1) .f32 .i64 .rne).wf = false := by decide
theorem smoke_mfs : (Instr.mfs .none (.r 1) 24).wf = false := by decide
theorem smoke_mts : (Instr.mts .none (.r 1) 40).wf = false := by decide
theorem smoke_sgath : (Instr.sgath .none 0 (.r 1) (.r 2) .t .tile false 0 0 0).wf = false := by decide
theorem smoke_smc : (Instr.smc .none 0 (.r 1) (.r 2) .t .tile false 0 false 0).wf = false := by decide
theorem smoke_sstat : (Instr.sstat .none 0 (.ro .zero)).wf = false := by decide
theorem smoke_ring_count : (Instr.wfill .none (.r 1) (.imm 0) 0).wf = false := by decide
theorem smoke_mma_rings : (Instr.mma .none 3 3 false false { id := 1, p1 := 0, p2 := 0 }).wf = false := by decide
theorem smoke_zacc_id : (Instr.zacc .none { id := 0, p1 := 0, p2 := 0 }).wf = false := by decide
theorem smoke_ldacc_id : (Instr.ldacc .none (.r 1) (.r 2) false { id := 0, p1 := 0, p2 := 0 }).wf = false := by decide
theorem smoke_drain_id : (Instr.drain .none (.r 1) .rne false { id := 0, p1 := 0, p2 := 0 }).wf = false := by decide
theorem smoke_mwait_id : (Instr.mwait .none 0).wf = false := by decide
theorem smoke_swop_now : (Instr.swop .none (.r 1) 0 true 3).wf = false := by decide
theorem smoke_amo_cas : (Instr.amoT .none (.x 1) (.r 1) (.r 2) .cas false none).wf = false := by decide
theorem smoke_amo_fadd : (Instr.amoG .none (.r 1) (.r 1) (.r 2) .fadd true none).wf = false := by decide
theorem smoke_amo_scope : (Instr.amoD .none (.r 1) (.r 1) (.r 2) .add true { off := 0, ord := .plain, scope := .system }).wf = false := by decide
theorem smoke_trecv : (Instr.trecv .none (.r 1) (.r 1) 0 .tile).wf = false := by decide
theorem smoke_cadd : (Instr.cadd .none (.ro .zero) (.r 1) (.r 2) .tile .g).wf = false := by decide
theorem smoke_clstat : (Instr.clstat .none (.ro .zero) (.r 1)).wf = false := by decide

/-! ### Words written out from the spec's encodings -/

/-- The decoder of engine g reads i from the lane w with the extension x. -/
def reads (g : Eng) (w : Lane) (x : Option Lane) (i : Instr) : Prop := decodeLane g w x = .ok i

theorem decode_add : reads .e (0b00#2 ++ 0x02#7 ++ 3#6 ++ 1#6 ++ 2#6 ++ 0b00001#5) none (.add .none (.r 3) (.r 1) (.r 2) true) := by
  unfold reads; decide
theorem decode_mul : reads .a (0b01#2 ++ 0x04#7 ++ 33#6 ++ 48#6 ++ 2#6 ++ 0b00010#5) none (.mul .wait (.x 1) (.ro .zero) (.r 2) .hiS false) := by
  unfold reads; decide
theorem decode_li : reads .m 0x0B043000 none (.li .none (.r 2) 0x3000 none) := by unfold reads; decide
theorem decode_tsel : reads .e 0x0FE0000F none (.tsel .none (.ro .zero) 15) := by unfold reads; decide
theorem decode_st_p : reads .e 0x948A4602 (some 0x00010C00)
    (.stP .signal (.r 5) (.r 8) (.ro .zero) .w .plain (some { off := 0x10C, scope := .tile })) := by unfold reads; decide
theorem decode_bt : reads .e 0x18920000 none (.bt .none 1 1 0) := by unfold reads; decide
theorem decode_fol : reads .a 0x18000000 none (.folA .none 0) := by unfold reads; decide
theorem decode_trap : reads .e (0b00#2 ++ 0x50#7 ++ 0#6 ++ 7#17) none (.trap .none 0 7) := by unfold reads; decide
theorem decode_end : reads .e (0b00#2 ++ 0x56#7 ++ 0#6 ++ 0#17) none (.endTile .none 0) := by unfold reads; decide
theorem decode_sld : reads .a 0x20211800 (some 0x22) (.sld .none 4 (.r 8) (.ro .zero) .t .tile false 2 true) := by unfold reads; decide
theorem decode_sst : reads .a 0x20B15840 (some 4) (.sst .none 6 (.r 10) (.ro .zero) .d .tile false 4 false) := by unfold reads; decide
theorem decode_scpy : reads .a 0x6309A286 (some 4) (.scpy .wait 1 (.r 13) (.r 5) .t .device false .d) := by unfold reads; decide
theorem decode_zacc : reads .m 0x19000000 (some 1) (.zacc .none { id := 1, p1 := 0, p2 := 0 }) := by unfold reads; decide
theorem decode_drain : reads .m 0x1A001004 (some 3) (.drain .none (.r 2) .rne true { id := 3, p1 := 0, p2 := 0 }) := by unfold reads; decide
theorem decode_arrive : reads .y 0x10000000 none (.arrive .none 0 0) := by unfold reads; decide
theorem decode_shunt : reads .y 0x12800000 none (.shunt .none) := by unfold reads; decide
/-- R386, R387: an unassigned code, a reserved bit, and an extension that the entry does not define. -/
theorem decode_refuses : decodeLane .m (0b00#2 ++ 0x03#7 ++ 0#23) none = .illOp ∧
    decodeLane .e (0b00#2 ++ 0x02#7 ++ 3#6 ++ 1#6 ++ 2#6 ++ 0b00010#5) none = .illField false ∧
    decodeLane .e (0b00#2 ++ 0x02#7 ++ 3#6 ++ 1#6 ++ 2#6 ++ 0b00000#5) (some 0) = .illField false := by decide

/-! ### One instruction on a small state -/

/-- Registers 1 and 2 of an engine. -/
def two (g : Eng) (a b : Word) : State := on g (withRegs g [(1, a), (2, b)])

theorem test_add_wraps : gives (exec (.add .none (.r 3) (.r 1) (.r 2) false) (two .e (BitVec.allOnes 64) 2)) .e 3 1 = true := by decide
theorem test_add_w_sign : gives (exec (.add .none (.r 3) (.r 1) (.r 2) true) (two .e 0x7FFFFFFF 1)) .e 3 0xFFFFFFFF80000000 = true := by decide
theorem test_sub : gives (exec (.sub .none (.r 3) (.r 1) (.r 2) false) (two .a 3 5)) .a 3 0xFFFFFFFFFFFFFFFE = true := by decide
theorem test_mul_h : gives (exec (.mul .none (.r 3) (.r 1) (.r 2) .hiS false) (two .e (BitVec.allOnes 64) 2)) .e 3 (BitVec.allOnes 64) = true := by decide
theorem test_mul_hu : gives (exec (.mul .none (.r 3) (.r 1) (.r 2) .hiU false) (two .e (BitVec.allOnes 64) 2)) .e 3 1 = true := by decide
theorem test_shl_amount : gives (exec (.shl .none (.r 3) (.r 1) (.r 2) false) (two .e 1 65)) .e 3 2 = true := by decide
theorem test_shr_s_w : gives (exec (.shr .none (.r 3) (.r 1) (.r 2) true true) (two .e 0x80000000 31)) .e 3 (BitVec.allOnes 64) = true := by decide
theorem test_max_signed : gives (exec (.max .none (.r 3) (.r 1) (.r 2) false) (two .e (BitVec.allOnes 64) 1)) .e 3 1 = true := by decide
theorem test_max_unsigned : gives (exec (.max .none (.r 3) (.r 1) (.r 2) true) (two .e (BitVec.allOnes 64) 1)) .e 3 (BitVec.allOnes 64) = true := by decide
theorem test_cmp_lt : gives (exec (.cmp .none .lt (.r 3) (.r 1) (.r 2)) (two .e (BitVec.allOnes 64) 0)) .e 3 1 = true := by decide
theorem test_cmp_ltu : gives (exec (.cmp .none .ltu (.r 3) (.r 1) (.r 2)) (two .e (BitVec.allOnes 64) 0)) .e 3 0 = true := by decide
theorem test_sel_own_destination : gives (exec (.sel .none (.r 1) (.r 2) (.r 3)) (two .e 0 7)) .e 1 0 = true := by decide
theorem test_bfx : gives (exec (.bfx .none (.r 3) (.r 1) 4 7) (two .e 0xABC 0)) .e 3 0xAB = true := by decide
theorem test_bfi : gives (exec (.bfi .none (.r 2) (.r 1) 8 3) (two .e 0x5 0xFFFF)) .e 2 0xF5FF = true := by decide
theorem test_addi_minus : gives (exec (.addi .none (.r 1) (.r 1) 0x7FF none) (two .e 0 0)) .e 1 (BitVec.allOnes 64) = true := by decide
theorem test_li_ext : gives (exec (.li .none (.r 1) 0x12345 (some 0)) (two .m 0 0)) .m 1 0x12345 = true := by decide
theorem test_lih : gives (exec (.lih .none (.r 1) 1 none) (two .y 0xFFFFFFFF00000002 0)) .y 1 0x100000002 = true := by decide
theorem test_cnt_lz_zero : gives (exec (.cnt .none (.r 3) (.r 1) .lz true 48) (two .e 0x100000000 0)) .e 3 32 = true := by decide
theorem test_r0_discards : after (exec (.add .none (.r 0) (.r 1) (.r 2) false) (two .e 1 1))
    (fun t => (t.tile 0).priv .e 0 == 0 && ((t.tile 0).eng .e).queue == []) = true := by decide
theorem test_signal : after (exec (.add .signal (.r 3) (.r 1) (.r 2) false) (two .e 1 1)) (fun t => (t.tile 0).tok .e .a == 1) = true := by decide
theorem test_wait_for_token : after (exec (.add .wait (.r 3) (.r 1) (.r 2) false) (two .e 1 1)) (fun t => t == two .e 1 1) = true := by decide
theorem test_tsel : after (exec (.tsel .none (.ro .zero) 15) (two .e 0 0)) (fun t => (t.tile 0).special 0 == 15) = true := by decide
theorem test_exchange : after (exec (.add .none (.x 2) (.r 1) (.r 2) false) (two .e 1 1))
    (fun t => (t.tile 0).x 2 == { val := 2, full := true, res := false }) = true := by decide

theorem test_div_zero : gives (exec (.div .none (.r 3) (.r 1) (.r 2) false false) (two .e 7 0)) .e 3 (BitVec.allOnes 64) = true := by decide
theorem test_div_rounds_to_zero : gives (exec (.div .none (.r 3) (.r 1) (.r 2) false false) (two .e (-7) 2)) .e 3 (-3) = true := by decide
theorem test_rem_sign : gives (exec (.rem .none (.r 3) (.r 1) (.r 2) false false) (two .e (-7) 2)) .e 3 (-1) = true := by decide
theorem test_fadd : gives (exec (.fadd .none (.r 3) (.r 1) (.r 2) .f32 .rne) (two .e 0x4B800000 0x3FC00000)) .e 3 0x4B800001 = true := by decide
theorem test_fcmp_nan : after (exec (.fcmp .none .un .f32 1 (.r 1) (.r 2)) (two .e 0x7FC00000 0)) (fun t => (t.tile 0).pred 1) = true := by decide
theorem test_fcvt : gives (exec (.fcvt .none (.r 3) (.r 1) .f16 .f32 .rne) (two .e 0xC0000000 0)) .e 3 0xC000 = true := by decide
theorem test_pcmp_k0 : after (exec (.pcmp .none .eq .set 0 (.r 1) (.r 2)) (two .e 1 2)) (fun t => (t.tile 0).pred 0) = true := by decide
theorem test_br : after (exec (.br .none 1 0 0x1FFFF) (two .e 0 0))
    (fun t => ((t.tile 0).eng .e).fetch == 0x20 && (t.tile 0).outcomes .a == [true]) = true := by decide
theorem test_call_links : gives (exec (.call .none 0 0 2) (two .e 0 0)) .e 31 0x60 = true := by decide
theorem test_jr_clears : after (exec (.jr .none none (.r 1)) (two .e 0x7F 0)) (fun t => ((t.tile 0).eng .e).fetch == 0x60) = true := by decide
theorem test_fol_not_taken : after (exec (.folA .none 4) (on .a (fun a => a.setOutcomes .a [false, true])))
    (fun t => (t.tile 0).outcomes .a == [true] && ((t.tile 0).eng .a).fetch == 0) = true := by decide
theorem test_trap : after (exec (.trap .none 0 7) (two .e 0 0))
    (fun t => (t.tile 0).special 10 == 0x700000001 && (t.tile 0).sys) = true := by decide +kernel
theorem test_rfe_in_user_code : after (exec (.rfe .none 0) (two .e 0 0)) (fun t => (t.tile 0).special 10 == 5 && (t.tile 0).special 6 == 0x41) = true := by
  decide +kernel
theorem test_mfs_toksel : gives (exec (.mfs .none (.r 3) 0) (two .e 0 0)) .e 3 5 = true := by decide
theorem test_end : after (exec (.endTile .none 0) (two .e 0 0)) (fun t => (t.tile 0).ended && (t.tile 0).endAt == 0x41) = true := by decide

/-- Four bytes 0x80 0x01 0x02 0x83 at TSP offset 4 of tile 0. -/
def mem4 (g : Eng) (a b : Word) : State := put (two g a b) (2 ^ 42 + 4) [0x80, 0x01, 0x02, 0x83]

theorem test_ld_sign : gives (exec (.ldT .none (.r 3) (.r 1) (.ro .zero) .w false .plain none) (mem4 .e 4 0)) .e 3 0xFFFFFFFF83020180 = true := by
  decide +kernel
theorem test_ld_aligns : gives (exec (.ldT .none (.r 3) (.r 1) (.ro .zero) .h true .plain none) (mem4 .a 7 0)) .a 3 0x8302 = true := by decide +kernel
theorem test_st_byte : after (exec (.stT .none (.r 2) (.r 1) (.ro .zero) .b .plain none) (mem4 .e 5 0x1FF))
    (fun t => t.st.bytes (2 ^ 42 + 4) 4 == [0x80, 0xFF, 0x02, 0x83]) = true := by decide +kernel
theorem test_st_zero_keeps_form : after (exec (.stT .none (.ro .zero) (.r 1) (.ro .zero) .w .plain none) (mem4 .e 4 0))
    (fun t => t.st.mem == []) = true := by decide +kernel
theorem test_ld_sync_empties : after (exec (.ldT .none (.r 3) (.r 1) (.ro .zero) .w false .sync none) (mem4 .e 4 0))
    (fun t => t.st.full == []) = true := by decide +kernel
theorem test_amo_add : after (exec (.amoT .none (.r 3) (.r 1) (.r 2) .add false none) (mem4 .y 4 1))
    (fun t => (t.tile 0).priv .y 3 == 0xFFFFFFFF83020180 && t.st.bytes (2 ^ 42 + 4) 4 == [0x81, 0x01, 0x02, 0x83]) = true := by decide +kernel
theorem test_amo_cas_fails : after (exec (.amoT .none (.r 3) (.r 1) (.r 2) .cas false none) (mem4 .y 4 1))
    (fun t => t.st.bytes (2 ^ 42 + 4) 4 == [0x80, 0x01, 0x02, 0x83]) = true := by decide +kernel

theorem test_next_without_walker : after (exec (.next .none) (two .y 0 0)) (fun t => (t.tile 0).x 12 == { val := BitVec.allOnes 64, full := true, res := false }) = true := by
  decide
theorem test_arrive_completes : after (exec (.arrive .none 1 0) (two .y 1 0)) (fun t => ((t.group 0).bar 0).p == 1 && (t.tile 0).phase 0 == 1) = true := by
  decide +kernel
theorem test_trecv : gives (exec (.trecv .none (.r 3) (.r 1) 0x80 .tile) (put (two .y 4 0) (2 ^ 42 + 4) [0x81])) .y 3 1 = true := by decide +kernel
theorem test_cadd : gives (exec (.cadd .none (.r 3) (.r 1) (.r 2) .tile .g) (put (two .y 8 2) (2 ^ 41 + 8) [5])) .y 3 5 = true := by decide +kernel
theorem test_zacc : after (exec (.zacc .none { id := 1, p1 := 0, p2 := 0 }) (on .m (fun a => { a with acc := [(0, 0x3F800000)] })))
    (fun t => (t.tile 0).acc == [] && !(t.tile 0).retmap.getLsbD 1) = true := by decide +kernel
theorem test_mwait_waits : after (exec (.mwait .none 1) (on .m (fun a => { a with retmap := 0 }))) (fun t => !((t.tile 0).eng .m).quiet) = true := by decide +kernel
theorem test_swait_idle : after (exec (.swait .none 0 (.ro .zero) .tile) (two .a 0 0)) (fun t => ((t.tile 0).eng .a).queue == []) = true := by decide
theorem test_sst_without_ring : after (exec (.sst .none 0 (.r 1) (.r 2) .t .tile false 0 false) (two .a 0 0))
    (fun t => (t.tile 0).special 10 == BitVec.ofNat 64 (6 + 2 ^ 8 + 2 ^ 16)) = true := by decide +kernel

/-! ### Events and the step -/

theorem test_reset_event : after (exec .reset (two .e 1 2)) (fun t => t.tiles == []) = true := by decide +kernel
theorem test_register_write_read_only : after (exec (.registerWrite 0x1000 (BitVec.allOnes 64)) State.reset)
    (fun t => wfld (mreg t 0x1000) 0 32 == 0 && wfld (mreg t 0x1000) 32 10 == 1023) = true := by decide +kernel
theorem test_row_word_runs : after (step (State.reset.withFetchWord 64 0x0B032345)) (fun t => (t.tile 0).priv .e 1 == 0x12345) = true := by decide +kernel
theorem test_step_fetches : after (step (on .e (fun a => a.updEng .e (fun e => { e with queue := [] }))))
    (fun t => ((t.tile 0).eng .e).queue == [{ bundle := 0, lane := 0, kind := .xlate 0x31 0, stat := .unissued }]) = true := by decide +kernel

/-! ### Witnesses: states that meet the hypotheses of each statement, clause by clause -/

/-- Registers, tokens and an exchange register for the instruction of engine g, at the edge of what lets it go: one token waits, and
the FIFO that it signals holds seven. -/
def edge (g : Eng) : State :=
  on g (fun a =>
    let a := withRegs g [(1, 0x8000000000000000), (2, BitVec.allOnes 64), (3, 1)] a
    let a := (a.setTok (a.waitp g) g 1).setTok g (a.sigp g) 7
    a.setX 0 { val := 5, full := true, res := false })

theorem witness_IntegerArithmetic : Goes (two .e 1 2) .none [.r 1, .r 2] (some (.r 3)) 0 ∧
    Goes (edge .e) .both [.r 1, .x 0] (some (.x 1)) 0 ∧ Goes (edge .a) .both [.ro .zero, .r 2] (some (.r 0)) 0 :=
  ⟨⟨rfl, rfl, rfl⟩, ⟨rfl, rfl, rfl⟩, ⟨rfl, rfl, rfl⟩⟩

theorem witness_LogicAndShifts : Goes (edge .e) .both [.r 1, .r 2] (some (.r 3)) 0 ∧ Goes (edge .a) .signal [.r 1] (some (.x 1)) 0 :=
  ⟨⟨rfl, rfl, rfl⟩, ⟨rfl, rfl, rfl⟩⟩

theorem witness_ImmediateForms : Goes (edge .e) .both [.r 1] (some (.r 1)) 0 ∧ Goes (edge .y) .none [] (some (.r 31)) 0 ∧
    Goes (edge .m) .none [.r 1] (some (.r 1)) 0 ∧ (0x0B000000#32).toNat / 2 ^ 23 % 2 ^ 7 = 0x16 ∧ (0x0BFE0000#32).toNat / 2 ^ 23 % 2 ^ 7 = 0x17 ∧
    (0x0BC00000#32).toNat / 2 ^ 17 % 2 ^ 6 = 32 :=
  ⟨⟨rfl, rfl, rfl⟩, ⟨rfl, rfl, rfl⟩, ⟨rfl, rfl, rfl⟩, by decide, by decide, by decide⟩

theorem witness_CompareSelectAndFields : Goes (edge .e) .none [.r 1, .r 2] (some (.r 3)) 0 ∧ Goes (edge .e) .none [.r 3, .r 1, .r 2] (some (.r 3)) 0 ∧
    Goes (edge .e) .none [.r 1] (some (.r 3)) 0 ∧ Goes (edge .e) .none [.r 3, .r 1] (some (.r 3)) 0 ∧
    condMeans .lt (val (edge .e) (.r 1)) (val (edge .e) (.r 2)) ∧ ¬ condMeans .gt (val (edge .e) (.r 1)) (val (edge .e) (.r 2)) :=
  ⟨⟨rfl, rfl, rfl⟩, ⟨rfl, rfl, rfl⟩, ⟨rfl, rfl, rfl⟩, ⟨rfl, rfl, rfl⟩, by unfold condMeans; decide, by unfold condMeans; decide⟩

theorem witness_Division : Goes (edge .e) .both [.r 1, .r 2] (some (.r 3)) 0 ∧ Goes (edge .e) .none [.r 1, .ro .zero] (some (.r 3)) 0 :=
  ⟨⟨rfl, rfl, rfl⟩, ⟨rfl, rfl, rfl⟩⟩

theorem witness_FloatingPoint : Goes (edge .e) .none [.r 1, .r 2] (some (.r 3)) 0 ∧ Goes (edge .e) .none [.r 1, .r 2, .r 3] (some (.r 3)) 0 ∧
    Goes (edge .e) .none [.r 1] (some (.x 2)) 0 :=
  ⟨⟨rfl, rfl, rfl⟩, ⟨rfl, rfl, rfl⟩, ⟨rfl, rfl, rfl⟩⟩

theorem witness_Predicates : Goes (edge .e) .none [.r 1, .r 2] none 0 ∧ Goes (edge .e) .none [.r 1] none 0 ∧ Goes (edge .e) .both [] none 0 ∧
    Goes (edge .e) .none [] (some (.r 3)) 0 ∧ (true = true ↔ condMeans .ltu (val (edge .e) (.r 1)) (val (edge .e) (.r 2))) ∧
    (true = true ↔ condMeans .ne (val (edge .e) (.r 1)) ((0 : BitVec 11).signExtend 64)) :=
  ⟨⟨rfl, rfl, rfl⟩, ⟨rfl, rfl, rfl⟩, ⟨rfl, rfl, rfl⟩, ⟨rfl, rfl, rfl⟩, by unfold condMeans; decide, by unfold condMeans; decide⟩

/-- Seven outcomes wait towards every engine. -/
def outcomes7 : State := on .e (fun a =>
  let l := [true, false, true, false, true, false, true]
  ((a.setOutcomes .a l).setOutcomes .m l).setOutcomes .y l)

theorem witness_Branches : Goes outcomes7 .none [] none 7 ∧ BranchReady outcomes7 7 ∧ Goes outcomes7 .none [] (some (.r 31)) 7 ∧
    Goes outcomes7 .none [.r 1] none 0 ∧ Goes outcomes7 .none [.r 1] (some (.r 2)) 0 ∧ BranchReady outcomes7 0 :=
  ⟨⟨rfl, rfl, rfl⟩, ⟨rfl, rfl⟩, ⟨rfl, rfl, rfl⟩, ⟨rfl, rfl, rfl⟩, ⟨rfl, rfl, rfl⟩, ⟨rfl, rfl⟩⟩

theorem witness_OutcomesAndStatus : Goes outcomes7 .none [] none 7 ∧ pubRoom (outcomes7.tile outcomes7.cur.1) 7 = true ∧ BranchReady outcomes7 7 ∧
    (let s := on .a (fun a => a.setOutcomes .a [true])
     (s.tile 0).outcomes .a = [true] ∧ Goes s .none [] none 0 ∧ ((s.tile 0).eng .a).quiet = true) ∧
    ((on .m id).tile 0).outcomes .m = [] :=
  ⟨⟨rfl, rfl, rfl⟩, rfl, ⟨rfl, rfl⟩, ⟨rfl, ⟨rfl, rfl, rfl⟩, rfl⟩, rfl⟩

/-- System code: MODE.SYS is set. -/
def sysOn (g : Eng) (f : Tile → Tile) : State := on g (fun a => f (a.setSpecial 4 1))

theorem witness_SpecialRegisters : Goes (edge .e) .both [] none 0 ∧ accPending (((edge .e).tile 0).eng .e) = false ∧
    Goes (edge .e) .none [] (some (.r 3)) 0 ∧
    (let s := two .e 6 0
     Goes s .none [.r 1] none 0 ∧ ((s.tile 0).eng .e).quiet = true ∧ (3 < 4 ∨ (s.tile 0).sys = true) ∧ (3 < 4 → selfPartner (Eng.ofNum 3) (val s (.r 1)) = false)) ∧
    (let s := sysOn .e (withRegs .e [(1, 0x60)])
     Goes s .none [.r 1] none 0 ∧ ((s.tile 0).eng .e).quiet = true ∧ (39 < 4 ∨ (s.tile 0).sys = true)) ∧
    selfPartner Eng.e (val (two .e 0 0) (.r 1) ||| (5 : BitVec 17).setWidth 64) = false :=
  ⟨⟨rfl, rfl, rfl⟩, rfl, ⟨rfl, rfl, rfl⟩, ⟨⟨rfl, rfl, rfl⟩, rfl, by decide, by decide⟩, ⟨⟨rfl, rfl, rfl⟩, rfl, by decide⟩, by decide⟩

theorem witness_IcsyncAndEnd : Goes (edge .e) .both [] none 0 ∧ (((edge .e).tile 0).eng .e).quiet = true := ⟨⟨rfl, rfl, rfl⟩, rfl⟩

theorem witness_TrapEntersSystemCode : Goes (edge .e) .both [] none 0 ∧ UserRuns ((edge .e).tile 0) ∧ Calm ((edge .e).tile 0) :=
  ⟨⟨rfl, rfl, rfl⟩, ⟨rfl, rfl, rfl, rfl, rfl, rfl⟩, by intro g; cases g <;> rfl, rfl⟩

theorem witness_RfeReturns : let s := sysOn .e (fun a => a.setSpecial 6 0x43)
    Goes s .none [] none 0 ∧ (s.tile 0).sys = true ∧ Calm (s.tile 0) ∧ (s.tile 0).after = [] :=
  ⟨⟨rfl, rfl, rfl⟩, rfl, ⟨by intro g; cases g <;> rfl, rfl⟩, rfl⟩

theorem witness_PrivilegeAndOwnPartner : UserRuns ((edge .e).tile 0) ∧ Calm ((edge .e).tile 0) ∧ atHead ((edge .e).tile 0) .e = true ∧
    selfPartner (Eng.ofNum 3) (val (two .e 3 0) (.r 1)) = true ∧ Goes (two .e 3 0) .none [.r 1] none 0 ∧
    selfPartner Eng.e (val (two .e 0 0) (.r 1) ||| (4 : BitVec 17).setWidth 64) = true :=
  ⟨⟨rfl, rfl, rfl, rfl, rfl, rfl⟩, ⟨by intro g; cases g <;> rfl, rfl⟩, rfl, by decide, ⟨rfl, rfl, rfl⟩, by decide⟩

/-- A launch record of one page with 64 KiB of TSP a tile and no GSP. -/
def lrec0 : LaunchRec :=
  { entry := 0, image := 0, args := 0, ccaddr := 0, ccinc := 1, bounds := [4, 1, 1, 1], chunks := [1, 1, 1, 1], width := 1, height := 1, walkers := 1,
    order := [0, 1, 2, 3], prio := 0, tsplog := 16, gsplog := 0, ccspace := 0, ccscope := 3, idemp := false, persist := false, siding := 0,
    cadence := 0, seed := 1, imglen := 0, raw := [] }

/-- Region 0, running at position 0 of die 0. -/
def rgn0 : Region :=
  { part := 0, qid := 0, tag := 0, pkt := 0, lrec := lrec0, px := 0, py := 0, st := .running, dom := 100, duty := 64, dutyNext := 64, wd := 0,
    progress := false, budget := 0, reserved := 0, moveTo := none, spans := [(0, (0, 4))], curr := [], regrant := [], frozen := false, reqs := [], img := [], imgFail := none,
    notResumable := false, lostWalker := false, killed := false, why := 0, placedAt := 0, savedAt := 0, owes := true, layout := 0, tiles := [], pages := [] }

/-- Tile 0 belongs to a region. -/
def inRgn (r : Region) (s : State) : State := { s.updTile 0 (fun a => { a with rgn := some 0 }) with regions := [(0, r)] }

/-- A leaf of HBM at frame 1 that may be read and written, held in the tile's TLB: it covers the first 64 KiB. -/
def mapped (s : State) : State :=
  s.updTile 0 (fun a => { a with utlb := [{ part := 0, base := 0, log := 16, leaf := 2 ^ 30 + 0xF, plog := 16, kv := none }] })

theorem witness_SpacesWrap : ((on .e id).tile 0).check = false ∧ gspLog (on .e id) 0 ≠ 0 ∧
    (let s := setMreg (on .e id) 0x2000 0x4000
     (s.tile 0).check = false ∧ (s.tile 0).sys = false ∧ (mreg s (0x2000 + 0x20 * partOf s 0 + 8 * (0 / 512))).toNat / 2 ^ 14 % 2 = 1) ∧
    (let s := sysOn .e id
     (s.tile 0).check = false ∧ (s.tile 0).sys = true ∧ 0x2FFFFFFF < 0x30000000) := by decide +kernel

theorem witness_LoadsRead : Goes (two .e (2 ^ 18 - 4) 1) .none [.r 1, .ro .zero] (some (.r 3)) 0 ∧
    AccessFree (two .e (2 ^ 18 - 4) 1) .t (accessAddr (two .e (2 ^ 18 - 4) 1) (.r 1) (.ro .zero) none 4) false ∧
    Finds (two .e (2 ^ 18 - 4) 1) .t (accessAddr (two .e (2 ^ 18 - 4) 1) (.r 1) (.ro .zero) none 4) .read (two .e (2 ^ 18 - 4) 1) (2 ^ 42 + 2 ^ 18 - 4) 0 ∧
    Finds (two .e (2 ^ 22) 1) .g (2 ^ 22) .read (two .e (2 ^ 22) 1) (2 ^ 41) 0 ∧
    AccessFree (two .e 8 1) .p 8 false ∧ Finds (two .e 8 1) .p 8 .read (two .e 8 1) (2 ^ 42 + 8) 0 ∧
    (let s := setMreg (on .e id) 0x2000 0x4000
     Finds s .y 0xFFFF8 .read s (2 ^ 40 + 0xFFFF8) 0) ∧
    Finds (mapped (two .e 0xFFFC 1)) .d 0xFFFC .read (mapped (two .e 0xFFFC 1)) 0x1FFFC 1 :=
  ⟨⟨rfl, rfl, rfl⟩, ⟨rfl, by decide, by decide⟩, by unfold Finds; decide +kernel, by unfold Finds; decide +kernel,
    ⟨by decide, by decide, by decide⟩, by unfold Finds; decide +kernel, by unfold Finds; decide +kernel, by unfold Finds; decide +kernel⟩

/-- The word at TSP offset 4 is full. -/
def fullAt4 (s : State) : State := { s with st := { s.st with full := [2 ^ 42 + 4] } }

/-- Engine e of tile 0 holds one entry in flight. -/
def waiting (g : Eng) (w : Wait) : State :=
  on g (fun a => a.setEng g { EngSt.reset with queue := [{ entry 0 none with stat := .flight w none none [] }] })

theorem witness_SynchronisingLoads :
    (let s := fullAt4 (two .e 4 0)
     (s.tile 0).check = false ∧ accHeld ((s.tile 0).eng .e) = false ∧ allFull s (2 ^ 42 + 4) 4 = true ∧ aheadAt (s.tile 0) (2 ^ 42 + 4) 4 s.reqNo = false ∧
       allFull (two .e 4 0) (2 ^ 42 + 4) 4 = false) ∧
    Goes (fullAt4 (two .e 4 0)) .none [.r 1, .ro .zero] (some (.r 3)) 0 ∧
    (let w : Wait := .syncLoad (2 ^ 42 + 4) 4 0 false (.r 3)
     let s := fullAt4 (waiting .e w)
     flightAt (s.tile 0) .e Wait.isSync = some (0, w) ∧ InFlight (s.tile 0) .e 0 w none (some (.r 3)) ∧ allFull s (2 ^ 42 + 4) 4 = true ∧
       aheadAt (s.tile 0) (2 ^ 42 + 4) 4 0 = false) :=
  ⟨by decide +kernel, ⟨rfl, rfl, rfl⟩, by decide, ⟨⟨_, _, rfl⟩, rfl, rfl⟩, by decide, by decide⟩

theorem witness_StoresWrite : Goes (two .e 8 5) .none [.r 2, .r 1, .ro .zero] none 0 ∧ AccessFree (two .e 8 5) .t 8 true ∧
    Finds (two .e 8 5) .t 8 .write (two .e 8 5) (2 ^ 42 + 8) 0 ∧ (2 ^ 42 + 8) % 8 = 0 ∧
    Finds (mapped (two .e 8 5)) .d 8 .write (mapped (two .e 8 5)) 0x10008 1 :=
  ⟨⟨rfl, rfl, rfl⟩, ⟨rfl, by decide, by decide⟩, by unfold Finds; decide +kernel, by decide, by unfold Finds; decide +kernel⟩

theorem witness_AtomicsReadModifyWrite : Goes (edge .y) .both [.r 1, .r 2, .r 3] (some (.r 3)) 0 ∧ Goes (two .y 8 5) .none [.r 1, .r 2] (some (.r 3)) 0 ∧ AccessFree (two .y 8 5) .t 8 true ∧
    Finds (two .y 8 5) .t 8 .atomic (two .y 8 5) (2 ^ 42 + 8) 0 ∧ Finds (mapped (two .y 8 5)) .d 8 .atomic (mapped (two .y 8 5)) 0x10008 1 :=
  ⟨⟨rfl, rfl, rfl⟩, ⟨rfl, rfl, rfl⟩, ⟨rfl, by decide, by decide⟩, by unfold Finds; decide +kernel, by unfold Finds; decide +kernel⟩

/-- Tile 0 in CHECK mode in region 0, with register 1 at the end of its allocation. -/
def checked : State := inRgn rgn0 (on .e (fun a => (withRegs .e [(1, 2 ^ 16)] a).setSpecial 4 2))

theorem witness_CheckModeStops : (checked.tile 0).check = true ∧ (checked.tile 0).rgn = some 0 ∧ accHeld ((checked.tile 0).eng .e) = false ∧
    (accessAddr checked (.r 1) (.ro .zero) none 4).toNat ≥ 2 ^ tspLog checked 0 ∧ Goes checked .none [.r 1, .ro .zero] (some (.r 3)) 0 ∧
    Goes checked .none [.r 2, .r 1, .ro .zero] none 0 :=
  ⟨by decide +kernel, by decide +kernel, by decide +kernel, by decide +kernel, ⟨rfl, rfl, rfl⟩, ⟨rfl, rfl, rfl⟩⟩

theorem witness_AccessesThatTrap :
    (let s := inRgn rgn0 (two .e (2 ^ 48) 0)
     UserRuns (s.tile 0) ∧ Calm (s.tile 0) ∧ atHead (s.tile 0) .e = true ∧ (s.tile 0).check = false ∧ Goes s .none [.r 1, .ro .zero] (some (.r 3)) 0 ∧
       accHeld ((s.tile 0).eng .e) = false ∧ gspLog s 0 = 0 ∧ (ywin s (partOf s 0) (0 / 512)).testBit 14 = false ∧
       (accessAddr s (.r 1) (.ro .zero) none 8).toNat ≥ 2 ^ 48 ∧ tlbFind s 0 (partOf s 0) (accessAddr s (.r 1) (.ro .zero) none 8).toNat = none) :=
  ⟨⟨rfl, rfl, rfl, rfl, rfl, rfl⟩, ⟨by intro g; cases g <;> rfl, rfl⟩, rfl, rfl, ⟨rfl, rfl, rfl⟩, rfl, rfl, by decide +kernel, by decide +kernel, by decide +kernel⟩

theorem witness_PageWalk :
    0 % (8 * 2 ^ 9) = 0 ∧ 0 + 8 * 2 ^ 9 ≤ 2 ^ 39 ∧ ({ State.reset with st := { Store.reset with poison := [0] } } : State).st.poisoned 0 8 = true ∧
    State.reset.st.poisoned 0 8 = false ∧ leNat (readRun State.reset (keyIdent State.reset 0) 0 8) % 2 = 0 ∧
    leNat (readRun (put State.reset 0 [3]) (keyIdent State.reset 0) 0 8) % 4 = 3 ∧ leafGood 3 16 = true ∧
    leNat (readRun (put State.reset 0 [1]) (keyIdent State.reset 0) 0 8) % 128 = 1 := by decide +kernel

/-- A ring of two slots of 32 bytes in T at offset 0x100, with 4-byte side-bands, holding what its counters say. -/
def ring0 (claimed filled taken released : Nat) : Ring :=
  { bound := true, spG := false, isRec := false, logn := 1, slot := 1, base := 0x100, side := 1, sbase := 0x180,
    claimed := claimed, filled := filled, taken := taken, released := released }

/-- Stream records at TSP 0x20: none of their fields is wrong, with ESIZE 4 at byte 8. -/
def nest4 (s : State) : State := put s (2 ^ 42 + 0x28) [4]

/-- The A engine with a bound ring 0, a ring 1, a counter on slot 0 and the address of a record in register 1. -/
def streams : State := nest4 (on .a (fun a =>
  { (withRegs .a [(1, 0x20), (2, 0)] a) with rings := [(0, ring0 0 0 0 0), (1, ring0 0 0 0 0)], slots := [(0, { Slot.reset with cv := true })],
                                             chans := [(0, (5, false)), (1, (6, true))] }))

theorem witness_StreamsAccepted :
    Goes streams .none [.r 1, .r 2] none 0 ∧ Goes streams .none [.r 1] none 0 ∧ Goes streams .none [] none 0 ∧
    (let a := streams.tile 0
     let rec_ := recBytes streams { whoOf streams 0 .a with strm := true } (alignDown (val streams (.r 1)) 32) 96
     (a.slot 0).act = false ∧ accHeld (a.eng .a) = false ∧ (a.slot 0).cv = true ∧ noSpace streams 0 .t = false ∧ noSpace streams 0 .g = false ∧
       nestBad rec_.2 = false ∧ rec_.2[8]? = some 4 ∧ ringFault streams 0 0 true false = none ∧ ringFault streams 0 0 false true = none ∧
       (∀ u ∈ maskTiles 0 1, (streams.tile u).started = true ∧ ringFault streams u 0 true false = none) ∧ ringFault streams 0 1 true false = none ∧
       NMap.find? a.chans 0 = some (5, false) ∧ NMap.find? a.chans 1 = some (6, true)) :=
  ⟨⟨rfl, rfl, rfl⟩, ⟨rfl, rfl, rfl⟩, ⟨rfl, rfl, rfl⟩, by decide +kernel⟩

theorem witness_StreamsAccepted_stash :
    (let s := sysOn .a (withRegs .a [(1, 0x20), (2, 0x2000)])
     Goes s .none [.r 1, .r 2] none 0 ∧ (s.tile 0).sys = true ∧ (val s (.r 1)).toNat % 32 = 0 ∧ (val s (.r 2)).toNat % 8192 = 0 ∧
       ((s.tile 0).slot 15).act = false) := ⟨⟨rfl, rfl, rfl⟩, by decide +kernel⟩

theorem witness_StreamsRefused :
    ((on .a (fun a => a.setSlot 3 { Slot.reset with act := true })).tile 0 |>.slot 3 |>.act) = true ∧
    UserRuns (streams.tile 0) ∧ Calm (streams.tile 0) ∧ atHead (streams.tile 0) .a = true ∧ (streams.tile 0).check = false ∧
    Goes streams .none [.r 1, .r 2] none 0 ∧ ((streams.tile 0).ring 31).bound = false ∧
    (let s := streams.updTile 0 (fun a => { a with ports := [(15, 0)] })
     ((s.tile 0).ring 0).bound = true ∧ consumerHeld s 0 0 = true) :=
  ⟨rfl, ⟨rfl, rfl, rfl, rfl, rfl, rfl⟩, ⟨by intro g; cases g <;> rfl, rfl⟩, rfl, rfl, ⟨rfl, rfl, rfl⟩, rfl, by decide +kernel⟩

theorem witness_SlotInstructions : Goes (two .a 0x8000 0) .none [.r 1] none 0 ∧ (∀ n < 16, ((two .a 0x8000 0).tile 0).slot n |>.act = false) ∧
    (let s := on .a (fun a => a.setSlot 15 { Slot.reset with act := true })
     Goes s .none [.r 1] none 0 ∧ ((s.tile 0).slot 15).act = true) ∧
    Goes (two .a 8 1) .none [.r 1, .r 2] none 0 ∧ noSpace (two .a 8 1) 0 (cntSpace .g) = false ∧ Goes (two .a 8 1) .none [] (some (.r 3)) 0 :=
  ⟨⟨rfl, rfl, rfl⟩, by decide +kernel, ⟨⟨rfl, rfl, rfl⟩, rfl⟩, ⟨rfl, rfl, rfl⟩, rfl, ⟨rfl, rfl, rfl⟩⟩

/-- The A engine with a ring in a state of its counters; register 1 holds a count. -/
def ringIn (r : Ring) : State := on .a (fun a => { (withRegs .a [(1, 2)] a) with rings := [(0, r)] })

theorem witness_RingOperations :
    (let s := ringIn (ring0 1 0 0xFFFFFFFF 0xFFFFFFFF)
     let r := (s.tile 0).ring 0
     Goes s .none [] (some (.r 3)) 0 ∧ Goes s .none [.r 1] (some (.r 3)) 0 ∧
       (accHeld ((s.tile 0).eng .a) = false ∧ accPending ((s.tile 0).eng .a) = false ∧ r.bound = true ∧ (val s (.r 1)).toNat % 2 ^ 13 = 2 ∧ 2 ≤ 2 ^ r.logn ∧
        ringFault s 0 0 false true = none ∧ ringFault s 0 0 true false = none ∧
        1 ≤ (r.filled + 2 ^ 32 - r.taken % 2 ^ 32) % 2 ^ 32 ∧ (r.filled + 2 ^ 32 - r.taken % 2 ^ 32) % 2 ^ 32 < 2 ∧
        2 ^ r.logn < (r.claimed + 2 ^ 32 - r.released % 2 ^ 32) % 2 ^ 32 + 1 ∧ 1 ≤ (r.claimed + 2 ^ 32 - r.filled % 2 ^ 32) % 2 ^ 32)) ∧
    (let r := ((ringIn (ring0 0 0 0 0)).tile 0).ring 0
     (r.claimed + 2 ^ 32 - r.released % 2 ^ 32) % 2 ^ 32 + 2 ≤ 2 ^ r.logn) :=
  ⟨⟨⟨rfl, rfl, rfl⟩, ⟨rfl, rfl, rfl⟩, by decide +kernel⟩, by decide +kernel⟩

/-- Slot 15 of tile 0 runs a command. -/
def slot15 (v : Slot) : State := on .a (fun a => a.setSlot 15 { v with act := true })

theorem witness_StreamsComplete :
    (let s := slot15 { Slot.reset with opc := 0x40, cc := true }
     let v := (s.tile 0).slot 15
     s.starved = false ∧ s.jdStarved = false ∧ slotWritesOut s 0 15 = false ∧ (slotServe s 0 15).isSome = true ∧ (∀ m < 15, (slotServe s 0 m).isSome = false) ∧
       (s.tile 0).started = true ∧ (s.tile 0).halted = false ∧ (s.tile 0).ended = false ∧ (∀ m < 16, m ≠ 15 → ((s.tile 0).slot m).act = false) ∧
       v.act = true ∧ v.held = false ∧ v.stopped = false ∧ v.inFlight = false ∧ v.addpend = false ∧ (nestOf v.nest).total ≤ v.pos) ∧
    (let v := ((slot15 { Slot.reset with opc := 0x44 }).tile 0).slot 15
     v.rav.toNat ≤ v.pos) ∧
    (let s := slot15 { Slot.reset with opc := 0x40, addpend := true, csp := .g, caddr := 8, cinc := 1 }
     let v := (s.tile 0).slot 15
     v.addpend = true ∧ v.csp = .g ∧ v.check = false ∧ gspLog s 0 ≠ 0 ∧ 3 ≤ gspLog s 0 ∧ unitOf (2 ^ 41 + 8) ∉ s.st.poison) ∧
    (let s := (slot15 { Slot.reset with opc := 0x49, seq := 1 }).updTile 0 (fun a => a.setSlot 0 { Slot.reset with opc := 0x40, act := true, held := true, seq := 2 })
     let v := (s.tile 0).slot 15
     v.opc = 0x49 ∧ v.cc = false ∧ slotWritesOut s 0 15 = false ∧ (∀ p ∈ (s.tile 0).slots, p.2.seq < v.seq → stillWrites p.2 = false) ∧
       (∀ p ∈ (s.tile 0).slots, p.1 ≠ 15 → p.2.act = true → p.2.opc ≠ 0x49)) := by decide +kernel

/-- Channel 0 with an on-chip part of 4 KiB, holding bytes from RPTR to WPTR, and a stream of one record on slot 15. -/
def channels (opc w r : Nat) (ring : Ring) : State :=
  let s := slot15 { Slot.reset with opc := opc, rav := 1 }
  { s.updTile 0 (fun a => { a with chans := [(0, (0, opc == 0x48))], rings := [(0, ring)] }) with
    chans := [(0, { Chan.reset with en := true, home := true, wptr := w, rptr := r })] }

theorem witness_ChannelRecords :
    (let s := channels 0x48 (4096 - 32) 0 (ring0 1 1 0 0)
     let v := (s.tile 0).slot 15
     let r := (s.tile 0).ring 0
     slotRuns s 0 15 v.opc = true ∧ NMap.find? (s.tile 0).chans (v.extv.toNat / 32 % 16) = some (0, v.opc == 0x48) ∧ handleHere s 0 = true ∧
       v.opened = false ∧ v.inFlight = false ∧ v.pos < v.rav.toNat ∧ r.filled ≠ r.taken ∧ v.extv.getLsbD 9 = false ∧
       (let rec_ := slotRecord s (slotWho 0 v) r r.taken
        let hdr := rec_.2.1
        let e := chan s 0
        4 + 4 * poisonWords (recBlocks hdr) ≤ r.sideLen ∧
        hdr / 2 ^ 24 % 256 < 0xF0 ∧ hdr / 2 ^ 20 % 16 = 0 ∧ rec_.2.2.1.length ≤ r.bytes ∧ recSize hdr ≤ e.cap ∧ e.closed = false ∧
        rec_.2.2.2 = 0 ∧ recPoison hdr = false ∧ e.spill = false ∧ diff32 e.wptr e.rptr + recSize hdr ≤ e.cap ∧ s.st.poison = [])) ∧
    (let s := channels 0x47 32 0 (ring0 1 0 0 0)
     let v := (s.tile 0).slot 15
     let r := (s.tile 0).ring 0
     slotRuns s 0 15 v.opc = true ∧ NMap.find? (s.tile 0).chans (v.extv.toNat / 32 % 16) = some (0, v.opc == 0x48) ∧ v.opc = 0x47 ∧ v.pos < v.rav.toNat ∧
       (chan s 0).spill = false ∧ (chan s 0).rptr ≠ (chan s 0).wptr ∧ diff32 r.claimed r.released < r.n ∧
       (let rec_ := recordAt s 0 false (chan s 0).rptr
        rec_.2.payload.length ≤ r.bytes ∧ 4 + 4 * poisonWords (recBlocks rec_.2.hdr) ≤ r.sideLen)) := by decide +kernel

/-- An M engine with rings 0 and 1 in T that hold one slot of 64 bytes each, without side-bands, and a drain record at TSP
0x20 (R278: PITCH 128 at byte 4, FMT 0x01 at byte 12). -/
def matrix : State :=
  put (on .m (fun a => { (withRegs .m [(1, 0x20), (2, 4)] a) with
    rings := [(0, { ring0 1 1 0 0 with slot := 2, side := 0 }), (1, { ring0 1 1 0 0 with slot := 2, side := 0, base := 0x200 })] }))
    (2 ^ 42 + 0x24) [128, 0, 0, 0, 0, 0, 0, 0, 1]

theorem witness_MatrixCommandsIssue :
    MatFree (matrix.tile 0) { id := 255, p1 := 0, p2 := 1 } ∧ Goes matrix .none [] none 0 ∧ Goes matrix .none [.r 1] none 0 ∧ Goes matrix .none [.r 1, .r 2] none 0 ∧
    (let s := matrix
     let a := s.tile 0
     accHeld (a.eng .m) = false ∧ a.check = false ∧ ringFault s 0 0 false true = none ∧ ringFault s 0 1 false true = none ∧
       (a.ring 0).filled ≠ readPos a 0 ∧ (a.ring 1).filled ≠ readPos a 1 ∧
       (let A := readOperand s 0 0 (readPos a 0)
        let B := readOperand A.1 0 1 (readPos a 1)
        A.2.isSome = true ∧ B.2.isSome = true ∧ A.2.map MOperand.kc = B.2.map MOperand.kc) ∧
       (val s (.r 1)).toNat % 4 = 0 ∧ (val s (.r 2)).toNat % 4 = 0 ∧ 2 ≤ tspLog s 0 ∧
       drainBad false (recBytes s (matWho s 0) (alignDown (val s (.r 1)) 32) 32).2 = false) :=
  ⟨⟨by decide, by decide⟩, ⟨rfl, rfl, rfl⟩, ⟨rfl, rfl, rfl⟩, ⟨rfl, rfl, rfl⟩, by decide +kernel⟩

/-- Rings with side-bands: INT8 in a slot of 128 bytes and T2 in one of 32 bytes, 128 elements each. -/
def ternary : State :=
  put (put (on .m (fun a => { a with
    rings := [(0, { ring0 1 1 0 0 with slot := 4 }), (1, { ring0 1 1 0 0 with base := 0x400, sbase := 0x500 })] }))
    (2 ^ 42 + 0x180) [128, 0, 0x10, 0]) (2 ^ 42 + 0x500) [128, 0, 0x14, 0]

theorem witness_MatrixCommandsIssue_ternary :
    (let s := ternary
     (readOperand s 0 0 0).2.map (fun o => (o.fmt, o.kc, o.odd)) = some (0x10, 4, false) ∧ (readOperand s 0 1 0).2.map (fun o => (o.fmt, o.kc, o.odd)) = some (0x14, 4, false)) := by
  decide +kernel

/-- An operand of one element a row. -/
def ones : MOperand :=
  { fmt := 0x10, kc := 1, g := 0, rows := List.replicate 32 [.num false 1 0], scales := List.replicate 32 [], pois := List.replicate 32 false }

theorem witness_MatrixCommandsIssue_segment : (ones.rows[0]?.getD []).length = ones.kc ∧ (ones.rows[31]?.getD []).length = ones.kc ∧ 0 < ones.kc ∧ ones.kc ≤ segLenOf ones ones 1 := by decide +kernel

/-- ZACC with id 255 is in flight. -/
def matFlight : State := (waiting .m (.matrix 255)).updTile 0 (fun a =>
  { a with cmds := [MCmd.base 255 0x32], retmap := BitVec.allOnes 256 &&& ~~~(BitVec.twoPow 256 255) })

theorem witness_MatrixCommandsRetire :
    ((matFlight.tile 0).cmds.find? (fun c => c.id == 255) = some (MCmd.base 255 0x32) ∧ commandMayRetire (matFlight.tile 0).cmds 255 = true ∧
      flightAt (matFlight.tile 0) .m (Wait.isMatrix 255) = some (0, .matrix 255)) ∧ InFlight (matFlight.tile 0) .m 0 (.matrix 255) none none ∧
    (MCmd.base 255 0x32).ringA = none ∧ (MCmd.base 255 0x32).poisons = [] ∧
    Goes matrix .none [] none 0 ∧ (matrix.tile 0).retmap.getLsbD 255 = true ∧ matQuiet (matrix.tile 0) = true ∧
    (let s := matrix.updTile 0 (fun a => { a with retmap := 0, cmds := [MCmd.base 255 0x32] })
     Goes s .none [] none 0 ∧ (s.tile 0).retmap.getLsbD 255 = false ∧ matQuiet (s.tile 0) = false) :=
  ⟨by decide +kernel, ⟨⟨_, _, rfl⟩, rfl, rfl⟩, rfl, rfl, ⟨rfl, rfl, rfl⟩, by decide +kernel, rfl, ⟨rfl, rfl, rfl⟩, by decide +kernel, rfl⟩

theorem witness_MatrixCommandsRetire_pops :
    (let c : MCmd := { MCmd.base 7 0x30 with ringA := some 0, ringB := some 1 }
     let s := (waiting .m (.matrix 7)).updTile 0 (fun a => { a with cmds := [c], rings := [(0, ring0 1 1 0 0)] })
     (s.tile 0).cmds.find? (fun c => c.id == 7) = some c ∧ commandMayRetire (s.tile 0).cmds 7 = true ∧ c.ringA = some 0 ∧ c.ringB ≠ some 0 ∧
       1 ≤ diff32 ((s.tile 0).ring 0).filled ((s.tile 0).ring 0).taken) := by decide +kernel

/-- A route plane of version 1 whose input port 0 gives one vector a slot and whose output port 0 takes one. -/
def route0 : RoutePlane :=
  { sp := 0, addr := 0, ver := 1, inp := 0x10101 :: List.replicate 15 0, out := 0x101 :: List.replicate 15 0, rte := [] }

/-- An opcode plane of version 1 for it: group 0 reads input port 0, fan-in one marker. -/
def opp0 : OpPlane :=
  { sp := 0, addr := 0, ver := 1, rslot := 0, rver := 1, eotn := 1, groups := (1 + 2 ^ 24) :: List.replicate 7 0, ops := [] }

/-- An array with these planes; input port 0 is ring 0 and output port 0 ring 1. -/
def array (g : Eng) (f : Tile → Tile) : State :=
  on g (fun a => f { (withRegs g [(1, 2 ^ 8), (2, 0x10101)] a) with
    arr := { Arr.reset with routes := [(0, route0)], opps := [(0, opp0)] }, ports := [(0, 0), (16, 1)],
    rings := [(0, ring0 1 1 0 0), (1, { ring0 0 0 0 0 with base := 0x200, sbase := 0x280 })] })

theorem witness_PlaneInstructions :
    ((array .m id).tile 0).arr.swap = none ∧ Goes (array .m id) .none [.r 1, .r 2] none 0 ∧ Goes (array .m id) .none [] (some (.r 3)) 0 ∧
    (let s := array .m id
     let a := s.tile 0
     let sel := (val s (.r 1)).toNat
     accHeld (a.eng .m) = false ∧ noSpace s 0 (planeSpace .g) = false ∧ planesInFlight a = [] ∧ stampedRoute a.arr (sel / 2 ^ 5 % 2) = false ∧ sel / 2 ^ 5 % 2 ∉ a.arr.lost ∧
       NMap.find? a.arr.routes (sel / 2 ^ 5 % 2) = some route0 ∧ sel.testBit 4 = false ∧ inDescGood ((val s (.r 2)).toNat % 2 ^ 32) = true ∧
       routeFits a 0 { route0 with inp := route0.inp.set 0 0x10101, ver := 1 } = true) ∧
    ((array .m (fun a => { a with arr := { a.arr with swap := some (3, 9) } })).tile 0).arr.swap ≠ none :=
  ⟨rfl, ⟨rfl, rfl, rfl⟩, ⟨rfl, rfl, rfl⟩, by decide +kernel, by decide⟩

theorem witness_PlaneInstructions_output :
    (let s := array .m (withRegs .m [(1, 2 ^ 8 + 2 ^ 4), (2, 0x101)])
     let sel := (val s (.r 1)).toNat
     sel.testBit 4 = true ∧ outDescGood ((val s (.r 2)).toNat % 2 ^ 32) = true ∧ NMap.find? (s.tile 0).arr.routes (sel / 2 ^ 5 % 2) = some route0 ∧
       routeFits (s.tile 0) 0 { route0 with out := route0.out.set 0 0x101, ver := 1 } = true) := by decide +kernel

/-- What a read of an entry of n words at TSP 0x1000 of tile 0 gives. -/
def entryAt (s : State) (n : Nat) : List Byte := (range 0 n).flatMap (fun i => readRun s 0 (tspKey 0 ((0x1000 + BitVec.ofNat 64 (8 * i)).toNat % 2 ^ 18)) 8)

/-- A ROUTE entry with no port at TSP 0x1000 for slot 1, version 9, and a load of it in flight. -/
def planeFlight : State :=
  { waiting .m (.plane false .t 0x1000 false false) with
    st := { Store.reset with mem := [(2 ^ 42 + 0x1000, 2), (2 ^ 42 + 0x1004, 37), (2 ^ 42 + 0x1008, 1), (2 ^ 42 + 0x1009, 9)] } }

theorem witness_PlanesChange :
    (flightAt (planeFlight.tile 0) .m Wait.isPlane = some (0, .plane false .t 0x1000 false false) ∧ (planeFlight.tile 0).arr.swap = none ∧
      readEntry planeFlight (planeWho 0 false false) .t 0x1000 148 = (planeFlight, .ok (entryAt planeFlight 148)) ∧ planeFlight.starved = false ∧
      (let bs := entryAt planeFlight 148
       stampedRoute (planeFlight.tile 0).arr (rnum bs 8 1) = false ∧ (placePlane (planeFlight.tile 0) false bs 0 0x1000).isSome = true ∧
         rnum bs 9 1 = 9 ∧ rnum bs 8 1 = 1)) ∧
    InFlight (planeFlight.tile 0) .m 0 (.plane false .t 0x1000 false false) none none ∧
    (let s := array .m (fun a => { a with arr := { a.arr with swap := some (0, 0) } })
     (s.tile 0).started = true ∧ (s.tile 0).arr.swap = some (0, 0) ∧ 0 ≤ domNow s 0 ∧ NMap.find? (s.tile 0).arr.opps 0 = some opp0 ∧
       (NMap.find? (s.tile 0).arr.routes opp0.rslot).map RoutePlane.ver = some opp0.rver) ∧
    (let s := array .m (fun a => { a with arr := { a.arr with swap := some (3, 1) } })
     domNow s 0 < 1) ∧
    (let s := planeFlight.updTile 0 (fun a => { a with arr := { a.arr with routes := [(1, { route0 with ver := 9, addr := 0x1000 })], lost := [1] } })
     1 ∈ (s.tile 0).arr.lost ∧ (NMap.find? (s.tile 0).arr.routes 1).map (fun r => (r.ver, r.addr)) = some (9, 0x1000)) :=
  ⟨⟨by decide +kernel, by decide +kernel, readEntry_tsp planeFlight (planeWho 0 false false) 0x1000 rfl 148 0, by decide +kernel, by decide +kernel⟩,
    ⟨⟨_, _, rfl⟩, rfl, rfl⟩, by decide +kernel, by decide +kernel, by decide +kernel⟩

theorem witness_ArrayMoves :
    (let s := array .e id
     let a := s.tile 0
     a.started = true ∧ a.halted = false ∧ a.arr.current = some (opp0, route0) ∧ inRing a 0 = some 0 ∧ pdEn (route0.inp[0]?.getD 0) = true ∧
       (a.ring 0).filled ≠ (a.ring 0).taken ∧ markerAt s 0 (route0.inp[0]?.getD 0) (a.ring 0) = false ∧
       min (min 2 (8 - (a.inp 0).buf.length)) (pdVps (route0.inp[0]?.getD 0) - (a.inp 0).fetched) ≠ 0) ∧
    (let s := array .e (fun a => a.setInp 0 { buf := [{ lanes := [], vld := 0, pois := 0, rver := 1, ovr := 1 }], fetched := 1, latched := 0 })
     (fireable (s.updTile 0 (fun b => cleanFirings b (domNow s 0))) 0 (domNow s 0) 0) = some (opp0, route0, [])) ∧
    (let s := array .e (fun a => { a with arr := { a.arr with commit := true } })
     (s.tile 0).arr.commit = true ∧ arrayQuiet (s.tile 0).arr (domNow s 0) = true ∧ outRing (s.tile 0) 0 = some 1 ∧ inRing (s.tile 0) 0 = some 0 ∧ ((s.tile 0).inp 0).latched = 0) ∧
    (let s := array .e (fun a => { a with arr := { a.arr with eotFull := true } })
     (s.tile 0).arr.current = some (opp0, route0) ∧ (s.tile 0).started = true ∧ (s.tile 0).halted = false ∧ (s.tile 0).preempt = none ∧ (s.tile 0).sys = false ∧ (s.tile 0).arr.dropped = false ∧ canEmit (s.tile 0) route0 = true) := by
  decide +kernel

theorem witness_ArrayMoves_marker :
    (let rp : RoutePlane := { route0 with inp := 0x10103 :: List.replicate 15 0 }
     let s := put (array .e (fun a => { a with arr := { a.arr with routes := [(0, rp)] } })) (2 ^ 42 + 0x180) [0, 0, 1, 0]
     (s.tile 0).arr.current = some (opp0, rp) ∧ inRing (s.tile 0) 0 = some 0 ∧ markerReady s 0 (domNow s 0) 0 = true) := by decide +kernel

/-- Region 0 with four walkers' worth of chunks, 64 KiB of GSP. -/
def rgnG : Region := { rgn0 with lrec := { lrec0 with gsplog := 16, walkers := 2, persist := true }, spans := [(0, (0, 3)), (1, (3, 3))] }

/-- The Y engine of tile 0 in that region. -/
def sync (f : Tile → Tile) : State := inRgn rgnG (on .y f)

theorem witness_Barriers : Goes (edge .y) .none [.r 0] none 0 ∧ accPending (((edge .y).tile 0).eng .y) = false ∧
    (deliverArrive (edge .y) 0 7 0xFFFF).isSome = true ∧ ((edge .y).tile 0).phase 7 = ((edge .y).group 0 |>.bar 7).p ∧
    (let s := on .y (fun a => { a with ph := [(7, 2)] })
     (s.tile 0).phase 7 ≠ ((s.group 0).bar 7).p ∧ (s.tile 0).phase 7 ≠ (((s.group 0).bar 7).p + 1) % 256 ∧
       ¬ (((s.group 0).bar 7).p + 256 - (s.tile 0).phase 7 % 256) % 256 ≤ 1) ∧
    (((on .y id).group 0 |>.bar 7).p + 256 - ((on .y id).tile 0).phase 7 % 256) % 256 ≤ 1 :=
  ⟨⟨rfl, rfl, rfl⟩, rfl, by decide +kernel, by decide +kernel, by decide +kernel, by decide +kernel⟩

theorem witness_Barriers_completes :
    (let c := ((on .y id).group 0).bar 0
     Nat.land 1 (Nat.lor (Nat.lor c.arr 1) (endedMask (on .y id) 0)) = 1 ∧ c.early = 0 ∧
       Nat.land 3 (Nat.lor (Nat.lor c.arr 1) (endedMask (on .y id) 0)) ≠ 3) := by decide +kernel

theorem witness_Mailboxes :
    (let s := sync (withRegs .y [(1, 2 ^ 10)])
     let aim := tokenAim s 0 (val s (.r 1)) none
     Goes s .none [.r 1, .ro .zero] none 0 ∧ (accPending ((s.tile 0).eng .y) = false ∧ ((s.tile 0).slot 15).act = false ∧
       tokenBad s 0 (val s (.r 1)) none .tile = false ∧ aim.dev = devNo s ∧ tokenTile s aim.rid aim.col aim.row = some 0)) ∧
    (let s := sync (withRegs .y [(1, 0x1F), (2, 9)])
     let aim := tokenAim s 0 (val s (.r 1)) (some (val s (.r 2)))
     Goes s .none [.r 1, .r 2] none 0 ∧ (tokenBad s 0 (val s (.r 1)) (some (val s (.r 2))) .device = false ∧ aim.dev = devNo s ∧
       tokenTile s aim.rid aim.col aim.row = none)) ∧
    (let s := put (two .y (2 ^ 18 - 4) 0) (2 ^ 42 + 2 ^ 18 - 4) [255]
     let off := (val s (.r 1)).toNat % 2 ^ 18
     Goes s .none [.r 1] (some (.r 3)) 0 ∧ (accHeld ((s.tile 0).eng .y) = false ∧ (s.tile 0).check = false ∧ (val s (.r 1)).toNat / 2 ^ 29 = 0 ∧
       off % 4 = 0 ∧ 255 ≤ heldAt s 0 (2 ^ 42 + 0 * 2 ^ 18 + off % 2 ^ tspLog s 0) 4 ∧
       heldAt (two .y (2 ^ 18 - 4) 0) 0 (2 ^ 42 + 0 * 2 ^ 18 + off % 2 ^ tspLog s 0) 4 < 1)) ∧
    (let w : Wait := .trecv 4 1 none (.r 3)
     flightAt ((waiting .y w).tile 0) .y Wait.isTrecv = some (0, w) ∧ InFlight ((waiting .y w).tile 0) .y 0 w none (some (.r 3)) ∧
       heldAt (waiting .y w) 0 (2 ^ 42 + 4) 4 < 1 ∧ 1 ≤ heldAt (put (waiting .y w) (2 ^ 42 + 4) [1]) 0 (2 ^ 42 + 4) 4) :=
  ⟨⟨⟨rfl, rfl, rfl⟩, by decide +kernel⟩, ⟨⟨rfl, rfl, rfl⟩, by decide +kernel⟩, ⟨⟨rfl, rfl, rfl⟩, by decide +kernel⟩,
    ⟨by decide +kernel, ⟨⟨_, _, rfl⟩, rfl, rfl⟩, by decide +kernel, by decide +kernel⟩⟩

theorem witness_CompletionCounters :
    (let s := two .y 8 1
     Goes s .none [.r 1, .r 2] (some (.r 3)) 0 ∧ accHeld ((s.tile 0).eng .y) = false ∧ accPending ((s.tile 0).eng .y) = false ∧
       Finds s .g 8 .atomic s (2 ^ 41 + 8) 0 ∧ Finds s .g 8 .read s (2 ^ 41 + 8) 0 ∧ heldAt s 0 (2 ^ 41 + 8) 8 < (val s (.r 2)).toNat) ∧
    (val (two .y 8 0) (.r 2)).toNat ≤ heldAt (two .y 8 0) 0 (2 ^ 41 + 8) 8 ∧
    (let w : Wait := .cwait .g 8 1 (.r 3)
     let s := put (waiting .y w) (2 ^ 41 + 8) [1]
     flightAt (s.tile 0) .y Wait.isCwait = some (0, w) ∧ InFlight (s.tile 0) .y 0 w none (some (.r 3)) ∧
       locate s (whoOf s 0 .y) .g 8 .read = (s, .at_ (.mem (2 ^ 41 + 8) 0)) ∧ (1 : Word).toNat ≤ heldAt s 0 (2 ^ 41 + 8) 8) :=
  ⟨⟨⟨rfl, rfl, rfl⟩, rfl, rfl, by unfold Finds; decide +kernel, by unfold Finds; decide +kernel, by decide +kernel⟩, by decide +kernel,
    ⟨by decide +kernel, ⟨⟨_, _, rfl⟩, rfl, rfl⟩, by decide +kernel, by decide +kernel⟩⟩

theorem witness_WalkerRequests : Goes (sync id) .none [] none 0 ∧ ((sync id).tile 0).walker = none ∧
    (∀ n, ((sync id).tile 0).x n = XReg.reset) ∧
    (let s := sync (fun a => { a with walker := some 1 })
     Goes s .none [] none 0 ∧ (s.tile 0).walker ≠ none ∧ (s.tile 0).rgn = some 0 ∧ s.region? 0 = some rgnG) :=
  ⟨⟨rfl, rfl, rfl⟩, rfl, fun _ => rfl, ⟨rfl, rfl, rfl⟩, by decide, rfl, rfl⟩

/-- A request of tile index 0 is due, and its instruction waits. -/
def asking (w : Wait) (shunt : Bool) (own : Nat) : State :=
  inRgn { rgnG with reqs := [(100, 0, shunt)] } ((waiting .y w).updTile 0 (fun a => { a with walker := some own }))

theorem witness_WalkerServices :
    (let s := asking .next false 0
     let r : Region := { rgnG with reqs := [(100, 0, false)] }
     s.region? 0 = some r ∧ tileOfTix s r 0 = 0 ∧ r.frozen = false ∧ r.reqs.find? (fun q => q.2.1 == 0 && q.2.2 == false) = some (100, 0, false) ∧ flightAt (s.tile 0) .y (fun v => v == .next) = some (0, .next) ∧
       (s.tile 0).walker = some 0 ∧ r.again 0 = [] ∧ r.span 0 = (0, 3)) ∧
    InFlight ((asking .next false 0).tile 0) .y 0 .next none none ∧
    (let s := asking .next false 1
     (s.tile 0).walker = some 1 ∧ rgnG.exhausted 1 = true) ∧
    (let s := asking .shunt true 1
     let r : Region := { rgnG with reqs := [(100, 0, true)] }
     s.region? 0 = some r ∧ r.frozen = false ∧ r.reqs.find? (fun q => q.2.1 == 0 && q.2.2 == true) = some (100, 0, true) ∧ flightAt (s.tile 0) .y (fun v => v == .shunt) = some (0, .shunt) ∧ (s.tile 0).walker = some 1 ∧
       r.exhausted 1 = true ∧ r.exhausted 0 = false ∧ r.span 0 = (0, 3) ∧ 0 + 2 ≤ 3 ∧ (r.span 1).2 - (r.span 1).1 ≤ (r.span 0).2 - (r.span 0).1) ∧
    (let r : Region := { rgnG with spans := [(0, (2, 3)), (1, (3, 3))] }
     0 < r.lrec.walkers ∧ ∀ v < r.lrec.walkers, (r.span v).2 - (r.span v).1 < 2) ∧
    InFlight ((asking .shunt true 1).tile 0) .y 0 .shunt none none :=
  ⟨by decide +kernel, ⟨⟨_, _, rfl⟩, rfl, rfl⟩, by decide +kernel, by decide +kernel, by decide +kernel, ⟨⟨_, _, rfl⟩, rfl, rfl⟩⟩

/-- A CLST record at TSP 0x20: ESIZE 32 at byte 8 of its nest, SLEN 32 at 0x78; register 1 names it, register 3 is the control word. -/
def collective : State :=
  put (put (sync (withRegs .y [(1, 0x20), (2, 0), (3, 0xF00)])) (2 ^ 42 + 0x28) [32]) (2 ^ 42 + 0x20 + 0x78) [32]

theorem witness_CollectiveInstructions :
    (let s := collective
     let c := val s (.r 3)
     let n := c.toNat / 2 ^ 8 % 2 ^ 4
     let at_ := val s (.r 1) - BitVec.ofNat 64 ((val s (.r 1)).toNat % 32)
     let rec_ := recBytes s { whoOf s 0 .y with strm := true } at_ 128
     accHeld ((s.tile 0).eng .y) = false ∧ n = 15 ∧ ((s.tile 0).slot n).act = false ∧ clstBad rec_.2 c = false ∧ c.getLsbD 12 = false ∧
       noSpace s 0 (colSpace rec_.2) = false ∧ noSpace s 0 .g = false) ∧
    Goes collective .none [.r 3, .r 1, .r 2] none 0 ∧ Goes collective .none [.r 1] (some (.r 3)) 0 ∧ Goes collective .none [.r 1] none 0 ∧
    (collective.tile 0).rgn = some 0 ∧ partActive collective 0 0x20 = false ∧
    (let c : Cent := { granted := true, tag := 0x20, rgn := 0, expw := 1, soff := 0, slen := 32, counts := [(0, 1)] }
     let s := { collective with groups := [(0, { Group.reset with cents := [(7, c)] })] }
     centOf s 0 0x20 = some c ∧ c.expw ≤ NMap.findD c.counts 0 0) :=
  ⟨by decide +kernel, ⟨rfl, rfl, rfl⟩, ⟨rfl, rfl, rfl⟩, ⟨rfl, rfl, rfl⟩, rfl, by decide +kernel, by decide +kernel⟩

/-- A reservation that is asked for. -/
def creq0 : CReq := { rgn := 0, tag := 1, mask := 1, soff := 0, slen := 32, doff := 0, expw := 8, granted := false }

theorem witness_CollectivesMove :
    (let s := { sync id with creqs := [creq0] }
     s.creqs.find? (fun q => !q.granted) = some creq0 ∧ (maskGroups s 0 1).all (pageTakes s creq0) = true) ∧
    (let c : Cent := { granted := true, tag := 2, rgn := 0, expw := 1, soff := 31, slen := 32, counts := [] }
     let s := { sync id with creqs := [creq0], groups := [(0, { Group.reset with cents := [(0, c)] })] }
     (maskGroups s 0 1).all (pageTakes s creq0) = false) ∧
    (let x : CXfer := { rgn := 0, tix := 15, op := 2, off := 0xFFFC, words := [5], pois := [false], src := 0, slot := 15, tag := 1 }
     let s := { sync id with cxfers := [x] }
     s.cxfers[0]? = some x ∧ s.region? x.rgn = some rgnG ∧ x.off % 4 = 0 ∧ ((s.tile x.src).slot x.slot).check = false ∧
       gspLog s (tileOfTix s rgnG x.tix) = 22 ∧ s.st.poison = []) := by decide +kernel

theorem witness_SaveAndRestore :
    (let s := sysOn .y (withRegs .y [(1, 0x2FFFFF00), (2, 0x2FFFFC00)])
     Goes s .none [.r 1] none 0 ∧ Goes s .none [.r 1, .r 2] none 0 ∧ Goes s .none [.r 1, .ro .zero] none 0 ∧
     ((s.tile 0).sys = true ∧ (val s (.r 1)).toNat % 8 = 0 ∧ (val s (.r 1)).toNat + 0x100 ≤ 0x30000000 ∧ (val s (.r 2)).toNat % 8 = 0 ∧
       (val s (.r 2)).toNat + 0x400 ≤ 0x30000000 ∧ sigRoom (unpackToks (s.tile 0) (s.st.bytes (2 ^ 40 + 0x2FFFFF38) 8)) .y (partner s .none) = true)) ∧
    (let a := (edge .y).tile 0
     (∀ p ∈ engines, ∀ q ∈ engines, a.tok p q ≤ 8) ∧ (∀ k ∈ engines, (a.outcomes k).length ≤ 16) ∧ (∀ n < 8, a.phase n < 256)) ∧
    (let b : Bar := { p := 255, opened := true, mask := 0xFFFF, arr := 0xFFFF, early := 0xFFFF, nmask := 0xFFFF }
     b.p < 2 ^ 8 ∧ b.mask < 2 ^ 16 ∧ b.arr < 2 ^ 16 ∧ b.early < 2 ^ 16 ∧ b.nmask < 2 ^ 16) ∧
    (let c : Cent := { granted := true, tag := 255, rgn := 4095, expw := 0xFFFFFFFF, soff := 0, slen := 32, counts := [(15, 0xFFFFFFFF)] }
     c.tag < 2 ^ 8 ∧ c.rgn < 2 ^ 12 ∧ c.expw < 2 ^ 32 ∧ ∀ q < 16, NMap.findD c.counts q 0 < 2 ^ 32) :=
  ⟨⟨⟨rfl, rfl, rfl⟩, ⟨rfl, rfl, rfl⟩, ⟨rfl, rfl, rfl⟩, by decide +kernel⟩, by decide +kernel, by decide +kernel, by decide +kernel⟩

/-- Partition 0 maps the first 512 MiB of HBM one to one (tables at 0x1000 and 0x2000) and may use every page; units are ready; the
queue table lies at 0x80000 and its queues are served. -/
def boot (s : State) : State :=
  let s := put (put s 0x1000 [0x01, 0x20]) 0x2000 [0x1F]
  { s with mgmt := [(0x100, BitVec.allOnes 64), (0x108, BitVec.allOnes 64), (0x2400, 0x1001), (0x100000, 0x80001), (0x100040, 4 + 10 * 2 ^ 8), (0x1000C0, BitVec.allOnes 64)] }

/-- An image of one LAST entry for each of 16 tiles, then PROG for tile 0: entry 0 only is needed here. -/
def lastEntry16 : List Byte := (range 0 16).flatMap (fun i => [15, BitVec.ofNat 8 (i % 4 + i / 4 * 32), 0, 0, 1, 0, 0, 0] ++ List.replicate 24 0)

/-- A request for one page whose image lies at 0x40000. -/
def req0 : Req := { part := 0, qid := 0, pkt := 0, tag := 7, lrec := { lrec0 with image := 0x40000, imglen := 16 }, at_ := 0, seq := 0, owes := true }

/-- It waits at the Marshaller. -/
def launching : State := { put (boot State.reset) 0x40000 lastEntry16 with marsh := [req0] }

theorem witness_LaunchImages_place :
    nextReq launching 0 = some req0 ∧ req0.lrec.idemp = false ∧ launching.region? 4095 = none ∧ savedFirst launching req0 = false ∧
    findOrigin launching 0 1 1 1 = some (0, 0) ∧ moving launching 0 = false ∧ launching.swapped.contains 0 = false := by decide +kernel

theorem witness_LaunchImages_image :
    (match jdReadBeats (placedAs launching req0 4095 0 0) 0 0x40000 16 with
      | (_, .ok bs) => (match parseImage 4 4 17 0 bs with | (es, none) => (imageFault 4 es none).isNone && es.length == 16 | _ => false)
      | _ => false) = true := by decide +kernel

/-- Tile 0 is to be configured by the entries of its row. -/
def configuring (es : List ImgEntry) (f : Tile → Tile) : State :=
  { State.reset with tiles := [(0, f { Tile.reset with rgn := some 0 })], regions := [(0, { rgn0 with st := .configuring, img := [(0, es)] })] }

/-- An entry of a kind with these bytes from 8 on. -/
def imgEntry (kind : Nat) (bs : List Byte) : ImgEntry :=
  { beat := 0, kind := kind, col := 0, row := 0, bytes := [BitVec.ofNat 8 kind, 0, 0, 0, 1, 0, 0, 0] ++ bs }

/-- RING with one binding of ring 31, CHAN with one of port 15, PORT with one, WALK of no walker. -/
def ringImg : ImgEntry := imgEntry 4 ([1, 0, 0, 0, 0, 0, 0, 0] ++ [31, 12, 1, 0] ++ List.replicate 12 0)
def chanImg : ImgEntry := imgEntry 5 ([1, 0, 0, 0, 0, 0, 0, 0] ++ [0x1F, 5, 0, 0, 0, 0, 0, 0])
def portImg : ImgEntry := imgEntry 6 ([1, 0, 0, 0, 0, 0, 0, 0] ++ [31, 3, 0, 0])
def walkImg : ImgEntry := imgEntry 7 ([0xFF, 0, 0, 0, 0, 0, 0, 0])
def progImg : ImgEntry := imgEntry 1 (List.replicate 24 0)
def lastImg : ImgEntry := imgEntry 15 (List.replicate 24 0)

/-- ROUTE of slot 1 and version 9, and OPPLANE of slot 0, each with nothing but its header. -/
def routeImg : ImgEntry := { imgEntry 2 [] with bytes := [2, 0, 0, 0, 37, 0, 0, 0, 1, 9] }
def oppImg : ImgEntry := { imgEntry 3 [] with bytes := [3, 0, 0, 0, 137, 0, 0, 0] }

theorem witness_LaunchImages_planes :
    ∀ e ∈ [routeImg, oppImg],
      let s := configuring [e, lastImg] id
      (dueEntry s 0).map (fun p => (p.1, p.2.2)) = some (0, e, [lastImg]) ∧ e.kind ∈ [2, 3] ∧ (s.tile 0).failed = false ∧
        (s.tile 0).started = false ∧ (s.tile 0).gotLast = false ∧ (takeEntry { rgn0 with st := .configuring, img := [(0, [e, lastImg])] } e (s.tile 0)).isSome = true := by
  decide +kernel

theorem witness_LaunchImages_entries :
    (∀ e ∈ [ringImg, chanImg, portImg, walkImg, progImg],
      let s := configuring [e, lastImg] id
      (dueEntry s 0).map (fun p => (p.1, p.2.2)) = some (0, e, [lastImg]) ∧ e.kind ∈ [1, 4, 5, 6, 7] ∧ (s.tile 0).failed = false ∧
        (s.tile 0).started = false ∧ (s.tile 0).gotLast = false ∧ (takeEntry { rgn0 with st := .configuring, img := [(0, [e, lastImg])] } e (s.tile 0)).isSome = true) ∧
    (let s := configuring [lastImg] (fun a => { a with config := [progImg] })
     (dueEntry s 0).map (fun p => (p.1, p.2.2)) = some (0, lastImg, []) ∧
       lastFailure { s.tile 0 with config := [progImg, lastImg], gotLast := true } = none) ∧
    (let s := configuring [] (fun a => { a with config := [progImg], gotLast := true })
     (s.tile 0).rgn = some 0 ∧ (s.region? 0).map Region.st = some .configuring ∧ (s.tile 0).started = false ∧ (s.tile 0).failed = false ∧ (s.tile 0).gotLast = true ∧
       (s.tile 0).preempt = none ∧ (s.tile 0).config.find? (fun c => c.kind == 1) = some progImg ∧ (match bindAll s 0 (s.tile 0).chans with | .ok _ => true | .error _ => false) = true) := by
  decide +kernel

/-- The entry is the last of its row and every tile of the region has one or takes it. -/
theorem witness_LaunchImages_last :
    (let s : State := { State.reset with
       tiles := (range 0 16).map (fun n => (n, { Tile.reset with rgn := some 0, gotLast := n != 0, config := [progImg] }))
       regions := [(0, { rgn0 with st := .configuring, img := [(0, [lastImg])] })] }
     ∀ n ∈ regionTiles s { rgn0 with st := .configuring, img := [(0, [lastImg])] }, (s.tile n).gotLast = true ∨ n = 0) := by decide +kernel

/-- Region 0 whose sixteen tiles have ended and whose chunks are all granted. -/
def over16 (r : Region) : State :=
  { boot State.reset with tiles := (range 0 16).map (fun n => (n, { Tile.reset with rgn := some 0, started := true, ended := true })), regions := [(0, r)] }

theorem witness_RegionsStop :
    (let r : Region := { rgn0 with spans := [] }
     canRetire (over16 r) r = true ∧ (completionAdd (over16 r) r.part r.lrec (some (pageGroup (over16 r) r.px r.py)) false).2 = none) ∧
    canRetire (over16 rgn0) rgn0 = false ∧ (over16 rgn0).sec.fwState ≠ 3 ∧ ((over16 rgn0).tile 0).preempt = none ∧
    (match translateJd (over16 rgn0) 0 lrec0.ccaddr .atomic false with | (_, .ok (.mem 0 1)) => true | _ => false) = true ∧
    (let r : Region := { rgn0 with lrec := { lrec0 with persist := true, cadence := 1 }, wd := 1024 }
     r.lrec.persist = true ∧ 1024 = r.lrec.cadence * 1024 ∧ 1024 ≤ r.wd) ∧
    (let s := setMreg State.reset 0x100300 1
     rgn0.lrec.persist = false ∧ wfld (mreg s (0x100300 + 8 * rgn0.part)) 0 16 ≠ 0 ∧ rgn0.wd < wfld (mreg s (0x100300 + 8 * rgn0.part)) 0 16 * 2 ^ 16) ∧
    (allOver (over16 rgn0) rgn0 = true ∧ (∀ n ∈ regionTiles (over16 rgn0) rgn0, logHeld ((over16 rgn0).tile n) = false) ∧ (rgn0.span 0).1 < (rgn0.span 0).2 ∧ 0 < rgn0.lrec.walkers) ∧
    ({ rgn0 with lrec := { lrec0 with idemp := true } } : Region).lrec.idemp = true ∧ ({ lrec0 with ccspace := 1 } : LaunchRec).ccspace = 1 ∧
    qState (over16 rgn0) 0 ≠ 4 := by decide +kernel

theorem witness_RegionsAreSaved :
    (let s := on .e (fun a => { a with preempt := some 1 })
     (s.tile 0).preempt = some 1 ∧ (s.tile 0).started = true ∧ (s.tile 0).sys = false ∧ (s.tile 0).halted = false ∧ (s.tile 0).enter = none ∧ Calm (s.tile 0) ∧
       slotsOpen s 0 = false) ∧
    (let r : Region := { rgn0 with st := .stopping }
     let s := { State.reset with regions := [(0, r)] }
     (∀ n ∈ regionTiles s r, tileStopped s n = true) ∧ 0x2FFFC000 % 32 = 0 ∧ 0x2FFFC000 + 16384 ≤ 0x30000000) ∧
    (rgn0.lrec.walkers ≤ 64 ∧ (rgn0.span 0).2 < 2 ^ 64 ∧ rgn0.curr = []) :=
  ⟨⟨rfl, rfl, rfl, rfl, rfl, ⟨by intro g; cases g <;> rfl, rfl⟩, by decide +kernel⟩, by decide +kernel, by decide +kernel⟩

theorem witness_RegionsComeBack :
    (let r : Region := { rgn0 with st := .saved, killed := true, lostWalker := true }
     restoreGood { boot State.reset with regions := [(0, r)] } r 0 0 = true) ∧
    (let a : SavedTile := { started := true, ctx := 0x2FFFC000, img := 0x20000000, order := [], heldTok := [], dieAbs := [] }
     let r : Region := { rgn0 with st := .saved, tiles := [(0, a)], lrec := { lrec0 with tsplog := 4 } }
     let s := { boot State.reset with regions := [(0, r)] }
     restoreGood s r 0 0 = true ∧ r.moveTo = none ∧ (∀ p ∈ r.tiles, p.2.started = true) ∧ r.lrec.imglen = 0 ∧
       (match restoreTiles s 0 r [] r.tiles with | .ok _ => true | .error _ => false) = true ∧
       (match configure r [] { (s.tile 0).fresh with rgn := some 0, col := 0, row := 0 } with | .ok _ => true | .error _ => false) = true) ∧
    (let m : List Host.Cell := [(0, 1), (255, 2)]
     Memory.wf m ∧ ∀ c ∈ m, c.1 < 256) := by decide +kernel

/-- A header of one instruction of E in lane 1 at HBM 0x10000, mapped at address 0. -/
def bundle0 : State := put (mapped (on .e (fun a => a.updEng .e (fun e => { e with queue := [] })))) 0x10000 [1, 0, 0, 0xA0, 3, 0, 2, 0x0B]

/-- The same page may be fetched from. -/
def fetchable : State := bundle0.updTile 0 (fun a => { a with utlb := [{ part := 0, base := 0, log := 16, leaf := 2 ^ 30 + 0x1F, plog := 16, kv := none }] })

theorem witness_FetchWalksAndExceptions :
    ((fetchable.tile 0).live = true ∧ (fetchOrder (fetchable.tile 0)).head? = some .e ∧
      (match readBundle fetchable 0 0 with
        | (_, .ok bs) => wellFormed (leNat (bs.take 4)) && canTake ((fetchable.tile 0).eng .e) (entriesOf .e 0 0 (.ok bs)) && (entriesOf .e 0 0 (.ok bs)).length == 1
        | _ => false) = true) ∧
    (tlbFind (boot (on .e id)) 0 0 0 = none ∧ walk (boot (on .e id)) 0 0 = .leaf 0x1F 29 ∧ leafClass 0x1F ≠ 2 ∧
      walk (on .e id) 0 0 = .fail 1 0) ∧
    (∀ k ∈ [Kind.bad, .xlate 0x31 0, .instr 0 none, .instr (0b00#2 ++ 0x02#7 ++ 3#6 ++ 1#6 ++ 2#6 ++ 0b00010#5) none],
      let s := on .e (fun a => a.updEng .e (fun e => { e with queue := [{ entry 0 none with kind := k }] }))
      atHead (s.tile 0) .e = true ∧ (nextEntry (s.tile 0) .e).map QEntry.kind = some k) ∧
    decodeLane .e 0 none = .illOp ∧
    (let s := on .e (fun a => { a with enter := some { code := 1, sub := 0, eng := .e, impr := false, slot := none, info := 7 } })
     (s.tile 0).started = true ∧ (s.tile 0).ended = false ∧ (s.tile 0).enter.isSome = true ∧ Calm (s.tile 0)) ∧
    (matFlight.tile 0).cmds ≠ [] :=
  ⟨by decide +kernel, by decide +kernel, by decide +kernel, by decide +kernel, ⟨rfl, rfl, rfl, ⟨by intro g; cases g <;> rfl, rfl⟩⟩, by decide +kernel⟩

/-- An Interlocking engine in a state. -/
def il (g : Eng) (l : Il) (f : Tile → Tile) : State := on g (fun a => f { a with il := l })

/-- Tile 0 waits on barrier 0 for tile 1, and its count has reached 4,096. -/
def countFull : State :=
  { (waiting .y (.barrier 0)).updTile 0 (fun a => { a with il := { Il.reset with blk := true, st := .count, count := 4096 } }) with
    groups := [(0, { Group.reset with bars := [(0, { Bar.reset with opened := true, mask := 3, arr := 1 })] })] }

/-- A probe with origin o at tile 0. -/
def probe0 (o hops minid : Nat) (cand : Option Nat) : Probe := { origin := o, epoch := 1, hops := hops, minid := minid, cand := cand, via := none, dest := 0 }

/-- Channel 0 holds a record that waits for room; its writer's region is 0. -/
def fullChan (e : Chan) (budget pool : Nat) (s : State) : State :=
  { s with chans := [(0, { e with en := true, wrgn := some 0, offered := some (UalMsg.base s 0) })], regions := [(0, { rgn0 with budget := budget })],
           mgmt := [(0x2500, BitVec.ofNat 64 (1 + 2 * pool))] }

/-- A growth request of tile 0. -/
def grow0 (reply : Option Nat) : Grow := { tile := 0, handle := 0, reply := reply }

theorem witness_Interlocking :
    ((countFull.tile 0).il.st = .count ∧ (countFull.tile 0).il.blk = true ∧ (countFull.tile 0).sys = false ∧ (countFull.tile 0).enter = none ∧ 4096 ≤ (countFull.tile 0).il.count ∧
      (edgesOf countFull 0).map Edge.dest = [some 1]) ∧
    (let s := { countFull with probes := [probe0 1 62 0 none] }
     s.probes[0]? = some (probe0 1 62 0 none) ∧ agentOf s 0 ≠ 1 ∧ (s.tile 0).il.blk = true ∧ (s.tile 0).sys = false ∧ (s.tile 0).enter = none ∧
       (s.tile 0).il.filter.any (fun f => f.1 == 1 && f.2.1 == 1) = false ∧ 62 < 63 ∧ 63 ≤ (probe0 1 63 0 none).hops) ∧
    (let l : Il := { Il.reset with filter := [(1, 1, 4096)] }
     l.filter.any (fun f => f.1 == 1 && f.2.1 == 1) = true ∧ l.blk = false ∧ (List.replicate 8 (1, 1, 0) : List (Nat × Nat × Nat)).length = 8) ∧
    (let s := il .e { Il.reset with st := .probe, epoch := 1 } id
     agentOf s 0 = 0 ∧ (s.tile 0).il.st = .probe ∧ (s.tile 0).il.epoch = 1 ∧ (probe0 0 1 0 (some 0)).minid = 0 ∧ handleHere s 0 = true ∧
       (s.tile 0).il.armed = false ∧ UserRuns (s.tile 0) ∧ Calm (s.tile 0)) ∧
    (let s := il .e { Il.reset with st := .probe, epoch := 1, armed := true, wait := 4096 } id
     (s.tile 0).il.armed = true ∧ 4096 ≤ (s.tile 0).il.wait) :=
  ⟨by decide +kernel, by decide +kernel, by decide +kernel,
    ⟨by decide +kernel, rfl, rfl, rfl, by decide +kernel, rfl, ⟨rfl, rfl, rfl, rfl, rfl, rfl⟩, ⟨by intro g; cases g <;> rfl, rfl⟩⟩, by decide +kernel⟩

theorem witness_Interlocking_growth :
    (writerFull State.reset 0 = false) ∧
    (∀ budget ∈ [0, 1], let s := fullChan Chan.reset budget 1 (on .e id)
      writerFull s 0 = true ∧ (chan s 0).nseg ≠ 16 ∧ (chan s 0).wrgn = some 0 ∧ (s.region? 0).map Region.budget = some budget) ∧
    (let s := fullChan { Chan.reset with nseg := 16 } 1 1 (on .e id)
     writerFull s 0 = true ∧ (chan s 0).nseg = 16) ∧
    (let s := { fullChan Chan.reset 1 1 (on .e id) with pools := [(0, [0])] }
     (poolFree s 0).length ≤ poolReserved s 0 ∧ rgn0.reserved = 0 ∧ (mreg s 0x2500).toNat.testBit 0 = true ∧ (mreg s 0x2500).toNat / 2 % 2 ^ 10 = 1 ∧ (NMap.findD s.pools 0 []).contains 0 = true) ∧
    (let s := fullChan Chan.reset 1 2 (on .e id)
     0 < (mreg s 0x2500).toNat / 2 % 2 ^ 10 ∧ poolReserved s 0 < (poolFree s 0).length ∧ (NMap.findD s.pools 0 []).contains 0 = false) ∧
    (grow0 none).reply = none ∧ (grow0 (some 0)).reply = some 0 ∧ (grow0 (some 2)).reply = some 2 ∧
    (let s := il .e { Il.reset with st := .grow, blk := true } id
     (s.tile 0).il.st = .grow ∧ (s.tile 0).il.blk = true ∧ UserRuns (s.tile 0) ∧ Calm (s.tile 0)) :=
  ⟨by decide +kernel, by decide +kernel, by decide +kernel, by decide +kernel, by decide +kernel, rfl, rfl, rfl,
    ⟨rfl, rfl, ⟨rfl, rfl, rfl, rfl, rfl, rfl⟩, ⟨by intro g; cases g <;> rfl, rfl⟩⟩⟩

/-- Queue 0 in a state, with its block at 0x80000: BASE 0x10000, LOG 1, PUBN 1, PRIO 5. -/
def queue0 (st : Nat) (s : State) : State := put (put (put (boot s) 0x80000 [0, 0, 1]) 0x80008 [0x50, 0x21]) 0x80020 [BitVec.ofNat 8 st]

/-- It is mapped on thread 0, and this packet stands at RIDX. -/
def packet (bs : List Byte) : State :=
  { put (queue0 3 State.reset) 0x10080 bs with threads := [(0, { Thr.reset with q := some 0 })] }

/-- Eight bytes. -/
def w8 (n : Nat) : List Byte := natLe 8 n

/-- The header of a type, then its words. -/
def pkt (ty : Nat) (ws : List Nat) : List Byte := w8 ty ++ ws.flatMap w8

/-- The packet is read whole and is well formed, or at which offset it fails. -/
def packetReads (bs : List Byte) (ty : Nat) (fault : Option Nat) : Bool :=
  let s := packet bs
  (thr s 0).q == some 0 && serving s && !(thr s 0).blocked && !(thr s 0).siga && !qWaiting s 0 && (thr s 0).hdr == none &&
    match jdRead s (qPart s 0) (packetVa s 0) 64 with
    | (u, .ok b) => hdrType (rnum b 0 8) == ty && packetFault b (qInJump u 0) == fault && u == s
    | _ => false

/-- A launch record that passes R396. -/
def record0 : List Byte :=
  List.replicate 40 0 ++ [1, 0, 0, 0, 1, 0, 0, 0, 1, 0, 0, 0, 1, 0, 0, 0, 1, 0, 0, 0, 1, 0, 0, 0, 1, 0, 0, 0, 1, 0, 0, 0] ++
    [0x11, 1, 0xE4, 0x10, 12, 0, 0, 0] ++ List.replicate 12 0 ++ [1, 0, 0, 0] ++ List.replicate 32 0

theorem witness_Packets :
    packetReads (pkt 7 []) 7 (some 0) = true ∧ packetReads (pkt 3 [4]) 3 (some 8) = true ∧ packetReads (pkt 1 []) 1 none = true ∧
    packetReads (pkt 2 [0x20000]) 2 none = true ∧ packetReads (pkt 3 [0x30000, 1]) 3 none = true ∧ packetReads (pkt 4 [0x30000, 1, 8]) 4 none = true ∧
    packetReads (pkt 5 []) 5 none = true ∧ packetReads (pkt 6 [0x30000, 1]) 6 none = true ∧
    recFail (List.replicate 128 0) = some 0x28 ∧ recFail record0 = none ∧
    (match jdReadBeats (packet (pkt 2 [0x20000])) 0 0x20000 4 with | (_, .ok bs) => bs.length == 128 | _ => false) = true ∧
    (match jdRead (packet (pkt 3 [0x30000, 1])) 0 0x30000 8 with | (_, .ok bs) => leNat bs < 1 && 0 ≤ leNat bs | _ => false) = true ∧
    (match translateJd (packet (pkt 4 [0x30000, 1])) 0 0x30000 .atomic false with | (_, .ok (.mem k _)) => k == 0x30000 | _ => false) = true ∧
    qget (packet (pkt 5 [])) 0 0x50 = 0 ∧ qget (put (packet (pkt 5 [])) 0x80050 [1]) 0 0x50 ≠ 0 := by decide +kernel

theorem witness_Packets_ends :
    (let s := packet (pkt 1 [])
     qInJump s 0 = false ∧ qWaiting s 0 = false ∧ launchKnown s 0 (launchNo s 0) = false ∧ s.cancel.contains 0 = false ∧
       s.lostStacks.contains (qcbAt s 0 / 2 ^ 36) = false ∧ s.st.poison = [] ∧ s.st.ktag = [] ∧
       (match headerAt s 0 with | (_, .ok x) => x == 1 | _ => false) = true ∧
       (match translateJd s 0 (ringVa s 0) .atomic false with
         | (w, .ok _) => (match (publishAt w 0 1 true).2 with | .ok _ => true | _ => false)
         | _ => false) = true) ∧
    (let s := { packet (pkt 1 []) with mgmt := [] }
     qInJump s 0 = false ∧ (match jdRead s 0 (ringVa s 0) 8 with | (_, .error _) => true | _ => false) = true) ∧
    (let s := put (put (packet (pkt 6 [0x30000, 3])) 0x80021 [0x80]) 0x80048 [3]
     qInJump s 0 = true ∧ jumpLeft s 0 = 1 + 2) ∧
    (let s := put (packet (pkt 3 [0x30000, 1])) 0x80021 [0x40]
     qWaiting s 0 = true ∧ barrierWait s 0 = false ∧ (thr s 0).blocked = false) ∧
    (let s := { packet (pkt 4 [0x30000, 1]) with threads := [(0, { Thr.reset with q := some 0, siga := true, hdr := some 4 })] }
     serving s = true ∧ (thr s 0).siga = true ∧ (thr s 0).hdr = some 4) ∧
    (let s := { packet [] with threads := [(0, { Thr.reset with q := some 0, blocked := true, woken := true })] }
     (thr s 0).blocked = true ∧ (thr s 0).woken = true ∧ qHost s 0 = false) := by decide +kernel

/-- A command word with op and queue 0. -/
def cmdWord (op : Nat) : Word := BitVec.ofNat 64 (op * 2 ^ 12)

theorem witness_QueueCommands :
    (let s := { queue0 1 State.reset with kicks := [0] }
     s.kicks.contains 0 = true ∧ qState { s with kicks := [] } 0 = 1) ∧
    (let s := packet []
     qState s 0 = 3 ∧ qThread s 0 = some 0 ∧ atBoundary s 0 = true ∧ atBoundary (put s 0x80021 [0x40]) 0 = false) ∧
    (let s := setMreg (queue0 1 State.reset) 0x800 0x10
     fnOn s 0 = true ∧ qPart s 0 = fnPart s 0) ∧
    (let s := setMreg (queue0 1 State.reset) 0x878 0x11
     fnOn s 15 = true ∧ qPart s 0 ≠ fnPart s 15 ∧ fnOn (setMreg s 0x880 0x10) 16 = true) ∧
    (∀ op < 4, wfld (cmdWord op) 12 4 = op ∧ wfld (cmdWord op) 0 12 = 0) := by decide +kernel

theorem witness_QueueCommands_states :
    (qState (queue0 0 State.reset) 0 = 0 ∧ qState (queue0 1 State.reset) 0 = 1 ∧ qThread (queue0 1 State.reset) 0 = none ∧ qState (queue0 4 State.reset) 0 = 4 ∧
      (queue0 4 State.reset).regions = [] ∧ holdsStops (queue0 4 State.reset) = false ∧ rgn0.qid = 0 ∧ rgn0.st ≠ .saved ∧
      ({ queue0 4 State.reset with cancel := [0] } : State).cancel.contains 0 = true ∧ (queue0 4 State.reset).cancel.contains 0 = false) := by decide +kernel

/-- Queue 0 is PENDING since cycle 0 at cycle 1,024; queue 1 has a priority and is mapped on thread 0, the only one of the budget. -/
def pending0 : State := { queue0 2 State.reset with sbcyc := 1024 }
def mapped1 (prio : Byte) : State :=
  setMreg { put (put pending0 0x80088 [prio]) 0x800A0 [3] with threads := [(0, { Thr.reset with q := some 1 })] } 0x100040 (1 + 10 * 2 ^ 8)

theorem witness_Scheduling_free : (mappedOf pending0 0).length < partBudget pending0 0 ∧ (thr pending0 0).q = none := by decide +kernel
theorem witness_Scheduling_displaced : partBudget (mapped1 0x40) 0 ≤ (mappedOf (mapped1 0x40) 0).length ∧ displaced (mapped1 0x40) 0 = some 1 ∧
    qThread (mapped1 0x40) 1 = some 0 := by decide +kernel
theorem witness_Scheduling_order : qEprio (mapped1 0x40) 1 < qEprio (mapped1 0x40) 0 ∧ displaced (mapped1 0x60) 0 = some 1 ∧
    qEprio (mapped1 0x60) 0 ≤ qEprio (mapped1 0x60) 1 := by decide +kernel

theorem witness_Scheduling_wake :
    serving State.reset = false ∧ serving (boot State.reset) = true ∧
    (qState pending0 0 = 2 ∧ qget pending0 0 0x20 / 2 ^ 8 % 2 ^ 6 ≠ qEprio pending0 0) ∧
    (let s := { packet [] with sbcyc := 64 }
     qState s 0 = 3 ∧ 64 * wfld (mreg s (0x100040 + 8 * qPart s 0)) 16 16 ≤ s.sbcyc - qSince s 0) ∧
    (let s := setMreg (packet []) 0x100040 (1 + 2 ^ 16)
     s.sbcyc - qSince s 0 < 64 * wfld (mreg s (0x100040 + 8 * qPart s 0)) 16 16) ∧
    (let s := setMreg { packet [] with sbcyc := 64, threads := [(0, { Thr.reset with q := some 0, blocked := true })] } 0x100040 (1 + 2 ^ 32)
     (thr s 0).blocked = true ∧ qWaiting s 0 = false ∧ 64 = 64 * wfld (mreg s (0x100040 + 8 * qPart s 0)) 32 16 ∧ 64 ≤ s.sbcyc - (thr s 0).since) ∧
    (let s := { packet [] with sbcyc := 2 ^ 24 }
     2 ^ 24 ≤ s.sbcyc - s.heartbeat ∧ (∀ p ∈ s.threads, (thr s p.1).siga = false ∧ (thr s p.1).q = some 0) ∧ (s.threads.map Prod.fst).Nodup) := by decide +kernel

theorem witness_EffectivePriority : qget pending0 0 0x08 % 2 ^ 4 = 0 ∧ qget pending0 0 0x20 % 8 = 2 ∧ qget (packet []) 0 0x20 % 8 = 3 ∧ qEprio pending0 0 = 6 := by
  decide +kernel


theorem memGet_above (m : List Host.Cell) (k : Nat) (h : ∀ c ∈ m, c.1 < k) : memGet m k = 0 := by
  unfold memGet NMap.findD
  induction m with
  | nil => rfl
  | cons c r ih =>
    have : c.1 ≠ k := Nat.ne_of_lt (h c (by simp))
    simpa [NMap.find?, this] using ih (fun d hd => h d (by simp [hd]))

theorem mem_range_lt (a n x : Nat) (h : x ∈ range a n) : a ≤ x ∧ x < a + n := by
  induction n generalizing a with
  | zero => simp [range] at h
  | succ n ih =>
    simp only [range, List.mem_cons] at h
    rcases h with rfl | h
    · omega
    · have := ih (a + 1) h; omega

/-- Where nothing is written above the blocks of queues 0 and 1, the other queues are free. -/
theorem qState_above (s : State) (q : Nat) (hq : 2 ≤ q) (hl : q < 4096) (hb : mreg s 0x100000 = 0x80001) (hm : ∀ c ∈ s.st.mem, c.1 < 0x80100)
    (hp : s.st.poison = []) (hk : ∀ u, NMap.findD s.st.ktag u (keyIdent s 0) = keyIdent s 0) (hs : s.lostStacks = []) : qState s q = 0 := by
  have ha : qcbAt s q = 0x80000 + 128 * q := by
    unfold qcbAt
    rw [hb, show (0x80001 : Word).toNat / 2 ^ 19 * 2 ^ 19 = 0x80000 from by decide]
    exact Nat.mod_eq_of_lt (by omega)
  have hz : readRun s (keyIdent s 0) (qcbAt s q + 0x20) 8 = List.replicate 8 0 := by
    unfold readRun
    rw [show List.replicate 8 (0 : Byte) = (range (qcbAt s q + 0x20) 8).map (fun _ => 0) from rfl]
    refine List.map_congr_left fun a h => ?_
    have := mem_range_lt _ _ _ h
    have hg : memGet s.st.mem a = 0 := memGet_above _ _ fun c hc => by have := hm c hc; omega
    have hku := hk (unitOf a)
    unfold NMap.findD at hku
    cases ht : NMap.find? s.st.ktag (unitOf a) with
    | none => simp [hbmByte, hs, ht, Store.byte, hp, hg]
    | some w => simp [ht] at hku; simp [hbmByte, hs, ht, hku, Store.byte, hp, hg]
  unfold qState qget
  rw [hz]
  decide

theorem pendingBest_only (s : State) (p : Nat) (h0 : qState s 0 = 2 ∧ qPart s 0 = p) (h1 : qState s 1 ≠ 2) (h : ∀ q, 2 ≤ q → q < 4096 → qState s q = 0) :
    pendingBest s p = some 0 := by
  have hr : (range 2 4094).filter (fun q => qState s q == 2 && qPart s q == p) = [] := by
    refine List.filter_eq_nil_iff.mpr fun q hq => ?_
    have := mem_range_lt _ _ _ hq
    simp [h q (by omega) (by omega)]
  unfold pendingBest
  rw [show range 0 4096 = 0 :: 1 :: range 2 4094 from rfl]
  simp [hr, h0.1, h0.2, h1, bestOf]

theorem witness_Scheduling_pending (s : State) (hs : s = pending0 ∨ s = mapped1 0x40 ∨ s = mapped1 0x60) : pendingBest s 0 = some 0 := by
  have ok : qState s 0 = 2 ∧ qPart s 0 = 0 ∧ qState s 1 ≠ 2 ∧ mreg s 0x100000 = 0x80001 ∧ (∀ c ∈ s.st.mem, c.1 < 0x80100) ∧ s.st.poison = [] ∧
      s.st.ktag = [] ∧ s.lostStacks = [] := by
    rcases hs with rfl | rfl | rfl <;> decide +kernel
  exact pendingBest_only s 0 ⟨ok.1, ok.2.1⟩ ok.2.2.1 fun q a b =>
    qState_above s q a b ok.2.2.2.1 ok.2.2.2.2.1 ok.2.2.2.2.2.1 (by simp [ok.2.2.2.2.2.2.1, NMap.findD, NMap.find?]) ok.2.2.2.2.2.2.2

/-! ### The management space, firmware and links -/

theorem witness_Management :
    (let s := setMreg State.reset 0x108 (BitVec.allOnes 64)
     readyBit s 64 = true ∧ readyBit s (89 + pageDie 7 7) = true ∧ s.repair.contains (pageColumn s 7 7) = false) ∧
    (let s := setMreg State.reset 0x108 1
     readyBit s 64 = true ∧ (∀ die < 4, readyBit s (89 + die) = false ∧ ∀ i ∈ diePages die, readyBit s i = false)) ∧
    retiredOf State.reset 3 = 31 ∧ retiredOf { State.reset with repair := [17 * 3 + 15] } 3 = 15 ∧
    rwMask 0x100 = 0 ∧ isRequest 0x100 = false ∧ rwMask 0x400 ≠ 0 ∧ isRequest 0x400 = false ∧ wfld 0x20 4 2 < 3 ∧ wfld 0x401 10 2 < 2 ∧ wfld 0x401 0 10 ≠ 0 ∧ wfld (cmdWord 3) 12 4 < 4 ∧ 4 ≤ wfld (cmdWord 4) 12 4 := by decide +kernel

theorem witness_Management_checks :
    (let good (v : Word) : Bool := wfld v 10 4 ≤ 9 && wfld v 0 10 + 2 ^ wfld v 10 4 ≤ 768
     good 767 = true ∧ good 768 = false ∧ good (256 + 9 * 1024) = true ∧ good (257 + 9 * 1024) = false ∧ good (10 * 1024) = false) ∧
    (let s := State.reset
     let o := (((range 0 16).filter (· != 0)).map (partBudget s)).sum
     o + wfld 32 0 6 ≤ 32 ∧ 32 < o + wfld 33 0 6) ∧
    (∀ q < 16, q ≠ 0 → mreg State.reset (0x1000C0 + 8 * q) &&& 1 = 0) ∧
    mreg (setMreg State.reset 0x1000C8 3) (0x1000C0 + 8 * 1) &&& 1 ≠ 0 ∧
    (chan State.reset 0).en = false ∧ (chan (fullChan Chan.reset 0 0 State.reset) 0).en = true ∧
    (chan (fullChan Chan.reset 0 0 State.reset) 0).wbound = false ∧ (chan (fullChan Chan.reset 0 0 State.reset) 0).rbound = false := by decide +kernel

/-- The KV unit of partition 0: its record at 0x4000, pool at 1 MiB, map at 0x5000, counts at 0x6000, free ring of 4 at 0x7000 that holds n
entries from block 7 on; index 1 maps block 9, whose count is c. -/
def kvUnit (n c : Nat) : State :=
  setMreg (put (put (put (put State.reset 0x4000 (w8 0x100000 ++ w8 0x5000 ++ w8 0x6000 ++ w8 0x7000 ++ natLe 4 4 ++ natLe 4 2 ++ natLe 4 0 ++ natLe 4 n))
    0x5004 (natLe 4 (9 + 2 ^ 31))) 0x6012 (natLe 2 c)) 0x7000 (natLe 4 7)) 0x2480 0x4001

theorem witness_Translations :
    (let s := { mapped (on .e id) with tlbinv := [tlbinvWord 0 1 0 0] }
     accessesDone s 0 = true ∧ accessesDone { s with remotes := [(0, { tile := 0, eng := .e, host := true, dev := 0, pa := 0, n := 4, isAtomic := false, op := .swap, src := 0, cmp := 0, port := 0, key := 0, isWrite := false, part := 0, unit := 0 })] } 0 = false ∧
       (∃ e ∈ (s.tile 0).utlb, invalidates (tlbinvWord 0 1 0 0) e = true)) ∧
    (let e : Tlb := { part := 0, base := 2 ^ 21, log := 16, leaf := 0, plog := 21, kv := some (5, 0, false) }
     invalidates (tlbinvWord 0 0 1 (wfld (2 ^ 21 + 2 ^ 20) 16 48)) e = true ∧ invalidates (tlbinvWord 0 0 0 (wfld (2 ^ 21 + 2 ^ 20) 16 48)) e = false ∧
       invalidates (tlbinvWord 0 2 0 5) e = true ∧ invalidates (tlbinvWord 0 2 0 4) e = false) := by decide +kernel

theorem witness_Keys_map :
    (let s := kvUnit 1 1
     kvEnabled s 0 = true ∧ 0 < kvField s 0 0x24 4 ∧ (kvPop s 0 (kvField s 0 0x20 4 + 1)).2 = some 7 ∧ (kvField s 0 0x2C 4 + 2 ^ 32 - kvField s 0 0x28 4) % 2 ^ 32 ≠ kvField s 0 0x20 4) ∧
    (let s := kvUnit 4 65535
     (match kvBlock s 0 1 with | .ok q => q == 9 | _ => false) = true ∧ s.st.poisoned (kvRefAt s 0 9) 2 = false ∧ kvCount s 0 9 = 65535 ∧
       (kvField s 0 0x2C 4 + 2 ^ 32 - kvField s 0 0x28 4) % 2 ^ 32 = kvField s 0 0x20 4) ∧
    (kvCountS (kvUnit 1 2) 0 9).2 = 2 ∧ (kvCountS (kvUnit 1 1) 0 9).2 = 1 ∧ (kvPop (kvUnit 0 1) 0 5).2 = none ∧
    (let s := { kvUnit 1 1 with jobs := [(0x2C10, kvopWord 0 2 1 0)] }
     (takeJob s 0x2C10 (kvopWord 0 2 1 0)).isSome = true ∧ jobOpen s 0x2C10 = true ∧ takeJob s 0x2C10 (kvopWord 0 0 1 0) = none ∧ jobOpen s 0x500 = false) := by
  decide +kernel

theorem witness_Keys_write : (match (kvOwn (kvUnit 1 1) 0 1 0).2 with | .ok q => q == 9 | _ => false) = true ∧
    (match (kvOwn (kvUnit 1 2) 0 1 0).2 with | .ok q => q == 7 | _ => false) = true := by decide +kernel

/-- Firmware in a state. -/
def firmware (st : Nat) (f : Sec → Sec) : State := { State.reset with sec := f { State.reset.sec with fwState := st } }

theorem witness_Firmware :
    State.reset.sec.fwState ≠ 2 ∧ State.reset.sec.fwState ≠ 3 ∧ (firmware 1 id).sec.fwState = 1 ∧ (firmware 2 id).sec.fwState = 2 ∧ (firmware 2 id).regions = [] ∧
    (let s := { firmware 2 (fun c => { c with lays := 4 }) with regions := [(0, { rgn0 with st := .saved, layout := 1 })] }
     ∃ p ∈ s.regions, p.2.st = .saved ∧ p.2.layout + 2 < s.sec.lays) ∧
    (let s := firmware 3 (fun c => { c with staged := some [] })
     s.sec.fwState = 3 ∧ s.sec.staged = some [] ∧ s.threads = []) ∧
    quotesOver (firmware 0 (fun c => { c with gen := 255, leaf := 2 ^ 20 - 1 })).sec = true ∧ quotesOver State.reset.sec = false ∧ State.reset.sec.leaf < 2 ^ 20 - 2 ∧
    (takeJob State.reset 0x520 (fwWord 1 0)).isSome = true ∧ (takeJob State.reset 0x530 0).isSome = true ∧ (takeJob State.reset 0x500 1).isSome = true ∧
    quotesOver (firmware 0 (fun c => { c with gen := 254, leaf := 2 ^ 20 - 2 })).sec = false := by decide +kernel

/-- An image that carries a higher index than the machine's is accepted wherever its signature is. -/
theorem witness_Firmware_stage (img : List Byte) (h : Config.signatureGood img = true ∧ 0 < Config.imageLeaf img) :
    Config.signatureGood img = true ∧ State.reset.sec.rollback < Config.imageLeaf img := h

/-- Function 0 of partition 0 is on; the partition's first page maps to HBM. -/
def bar4 : State := setMreg (boot State.reset) 0x800 0x10

theorem witness_HostPort :
    fnOn bar4 0 = true ∧ fnOn State.reset 16 = false ∧
    (match translateJd bar4 0 0x30000 .read false with | (_, .ok (.mem k i)) => k == 0x30000 && i == 1 | _ => false) = true ∧
    (match translateJd bar4 0 0x30000 .write false with | (_, .ok (.mem k _)) => k == 0x30000 | _ => false) = true ∧
    (match translateJd bar4 0 0x30000 .atomic false with | (_, .ok (.mem k _)) => k == 0x30000 | _ => false) = true ∧
    (match translateJd bar4 0 (2 ^ 40) .read false with | (_, .error _) => true | _ => false) = true ∧
    (match translateJd bar4 0 (2 ^ 40) .write false with | (_, .error _) => true | _ => false) = true ∧
    barBusy bar4 = false ∧ hostServes .fadd = false ∧ hostServes .swap = true := by decide +kernel

/-- Request 0 of tile 0's A engine to the host or a peer, of n bytes. -/
def remote0 (host : Bool) : State :=
  { waiting .a (.remote 0 8 true false (.r 3)) with
      remotes := [(0, { tile := 0, eng := .a, host := host, dev := 1, pa := 0x100, n := 8, isAtomic := false, op := .swap, src := 0, cmp := 0, port := 0, key := 0, isWrite := false, part := 0, unit := 0 })] }

theorem witness_remotes (host : Bool) :
    (∃ r, NMap.find? (remote0 host).remotes 0 = some r ∧ r.host = host ∧ r.isAtomic = false ∧ r.isWrite = false ∧ r.tile < 2048 ∧ r.n = 8 ∧
      flightAt ((remote0 host).tile r.tile) r.eng (fun w => match w with | .remote m _ _ _ _ => m == 0 | _ => false) = some (0, .remote 0 8 true false (.r 3)) ∧
      InFlight ((remote0 host).tile r.tile) r.eng 0 (.remote 0 8 true false (.r 3)) none (some (.r 3))) :=
  ⟨_, rfl, rfl, rfl, rfl, (show (0 : Nat) < 2048 by decide), rfl, rfl, ⟨⟨_, _, rfl⟩, rfl, rfl⟩⟩

theorem witness_Links :
    hostUp State.reset = false ∧ hostUp bar4 = true ∧ bar4.remotes = [] ∧ (mreg (setMreg bar4 0x100000 0) 0x100000).getLsbD 0 = false ∧
    (let s := { State.reset with rows := [Config.hbmRow 5] }
     s.rows = [Config.hbmRow 5] ∧ State.reset.rows.contains (Config.hbmRow 5) = false) ∧
    readyBit bar4 69 = true ∧ readyBit bar4 76 = true ∧
    (let s := setMreg State.reset 0x608 0x401
     (mreg s 0x608).getLsbD 10 = true ∧ s.remotes = [] ∧ s.tiles = []) := by
  refine ⟨by decide +kernel, by decide +kernel, rfl, by decide +kernel, ⟨rfl, rfl⟩, by decide +kernel, by decide +kernel, by decide +kernel, rfl, rfl⟩

theorem witness_Peers :
    (let s := State.reset
     keyIdent s 0 ≠ 0 ∧ keyIdent s 1023 = 0 ∧ s.st.poisoned 0x100 256 = false ∧ 2 ^ 39 - 256 + 256 ≤ 2 ^ 39 ∧ ({ s with st := { s.st with poison := [unitOf 0x100] } } : State).st.poisoned 0x100 8 = true ∧
       inWindow 0 = false ∧ (2 ^ 39 - 256) % 256 = 0 ∧ inWindow windowBase = true ∧ s.winIn = [] ∧
       32 + msgLen (packMsg 1 { UalMsg.base s 0 with body := [7] }) ≤ (packMsg 1 { UalMsg.base s 0 with body := [7] }).length) ∧
    handleDev 5 = devNo State.reset := by decide +kernel

/-- A record of one byte for channel 0, from device 1. -/
def record1 : UalMsg := { UalMsg.base State.reset 0 with sdev := 1, seq := 3, body := natLe 4 1 ++ [7] }

theorem witness_Peers_messages :
    (let e := chan (fullChan { Chan.reset with home := true, scope := 3, logcap := 0 } 0 0 State.reset) 0
     e.scope = 3 ∧ e.wbound = false ∧ ({ e with wbound := true, wagent := 2 * 2048 } : Chan).wagent < 2 ^ 21 ∧ agentDev (2 * 2048) ≠ 1 ∧ e.en = true ∧ e.closed = false ∧ recSize 1 ≤ e.cap ∧ e.lastRemote ≠ some (1, 3) ∧ ({ e with lastRemote := some (1, 3) } : Chan).lastRemote = some (record1.sdev, record1.seq)) ∧
    (let s := fullChan { Chan.reset with home := true, scope := 3 } 0 0 State.reset
     ((bindFar s 0 1).bind (fun v => accept v 0 1 [7] 0)).isSome = true) ∧
    (let s := fullChan { Chan.reset with home := true, scope := 3, wptr := (chan State.reset 0).cap } 0 0 State.reset
     ((bindFar s 0 1).map (fun v => (accept v 0 1 [7] 0).isNone)) = some true ∧ (growChan s 0 (writerFull s 0)).2 = 2) ∧
    (growChan State.reset 0 (writerFull State.reset 0)).2 = 0 ∧ (chan State.reset 0).en = false ∧
    agentDev 0 = devNo State.reset ∧
    (let s := on .a (fun a => { a with chans := [(0, (2 ^ 12 + 5, true))] })
     writersOf s (2 ^ 12 + 5) = [0] ∧ handleDev (2 ^ 12 + 5) ≠ devNo s) := by decide +kernel

theorem witness_Peers_answers :
    (let s := on .a (fun a => { (a.setSlot 2 { Slot.reset with act := true, opc := opSchw, inFlight := true, extv := 31 }) with chans := [(0, (2 ^ 12 + 5, true))] })
     (waitersOn s (2 ^ 12 + 5)).head? = some (0, 2) ∧ waitersOn s 5 = []) ∧
    tokenTile (inRgn rgn0 (on .e id)) 0 3 3 ≠ none ∧ tokenTile (inRgn rgn0 (on .e id)) 0 4 0 = none ∧
    (let s := on .a (fun a => { a with il := { Il.reset with st := .grow, blk := true, cand := 5 } })
     (s.tiles.filter (fun p => p.2.il.st == .grow && p.2.il.cand == 5)).map Prod.fst = [0] ∧ (s.tile 0).il.blk = true) := by decide +kernel

/-! ### Encodings and the step -/

theorem witness_EncodeDecodeAgree :
    (let i : Instr := .li .both (.r 31) 0x1FFFF (some 0x7FFF)
     i.wf = true ∧ (encode i).isSome = true ∧ Eng.e ∈ spaces i) ∧
    decodeLane .e 0x0B032345 (some 0) = .ok (.li .none (.r 1) 0x12345 (some 0)) ∧ encode .reset = none := by decide +kernel

theorem witness_StepRunsDecoded :
    (let u := on .e id
     settle u 0 .e = none ∧ nextEntry (u.tile 0) .e = some (entry 0x00800000 none) ∧ (match decodeLane .e 0x00800000 none with | .ok _ => true | _ => false) = true) ∧
    (settle (on .e (fun a => a.setEng .e { EngSt.reset with queue := [entry 0xFF000000 none] })) 0 .e = none ∧
      (match decodeLane .e 0xFF000000 none with | .ok _ => false | _ => true) = true) ∧
    nextEntry (State.reset.tile 0) .e = none ∧
    (settle (waiting .e (.swait 1)) 0 .e).isSome = true ∧
    tileInstr .reset = false := by decide +kernel

theorem witness_StepsKeepMemory : State.reset.memOk ∧ (put (on .e id) (2 ^ 42) [1, 0, 2]).memOk := by
  unfold State.memOk; decide +kernel

/-! ### Witnesses of further clauses -/

/-- An engine of tile 0 in CHECK mode with register 1 at an address. -/
def checkedAt (g : Eng) (n : Nat) : State := inRgn rgn0 (on g (fun a => (withRegs g [(1, n)] a).setSpecial 4 2))

theorem witness_CheckModeStops_spaces :
    (∀ g ∈ [Eng.e, .y], let s := checkedAt g (2 ^ 24)
      (s.tile 0).check = true ∧ (s.tile 0).rgn = some 0 ∧ accHeld ((s.tile 0).eng g) = false ∧ accPending ((s.tile 0).eng g) = false ∧
        (s.tile 0).started = true ∧ 2 ^ 24 ≤ (val s (.r 1)).toNat ∧ gspLog s 0 = 0 ∧
        (mreg s (0x2000 + 0x20 * partOf s 0)).toNat / 2 ^ 14 % 2 = 0) ∧
    (let s := checkedAt .e (2 ^ 20)
     let t := setMreg s 0x2000 0x4000
     2 ^ 20 ≤ (val t (.r 1)).toNat ∧ (mreg t 0x2000).toNat / 2 ^ 14 % 2 = 1 ∧ (mreg t 0x2000).toNat / 2 ^ 10 % 16 = 0) := by decide +kernel

theorem witness_CheckModeStops_atomics : Goes (checkedAt .y (2 ^ 24)) .none [.r 1, .r 2] (some (.r 3)) 0 ∧
    Goes (checkedAt .y (2 ^ 24)) .none [.r 1, .r 2, .r 3] (some (.r 3)) 0 := ⟨⟨rfl, rfl, rfl⟩, ⟨rfl, rfl, rfl⟩⟩

theorem witness_AccessesThatTrap_kinds :
    (∀ g ∈ [Eng.e, .y], let s := inRgn rgn0 (two g (2 ^ 48) 0)
      AccessFree s .d (val s (.r 1)) true ∧ atHead (s.tile 0) g = true ∧ (s.tile 0).check = false) ∧
    Goes (two .e (2 ^ 48) 0) .none [.r 3, .r 1, .r 2] none 0 ∧ Goes (two .y (2 ^ 48) 0) .none [.r 1, .r 2] (some (.r 3)) 0 := by
  refine ⟨?_, ⟨rfl, rfl, rfl⟩, ⟨rfl, rfl, rfl⟩⟩
  unfold AccessFree; decide +kernel

theorem witness_SpecialRegisters_numbers : sregExists 39 = true ∧ sregExists 0 = true ∧ sregExists 24 = false := by decide

/-- Partition 0 has pages 0 to 2; region 0 of PRIO 0 holds one of them, and a request of PRIO 3 waits for two pages in a row. -/
def crowded (px width : Nat) : State :=
  { boot State.reset with
    mgmt := [(0x100, BitVec.allOnes 64), (0x108, BitVec.allOnes 64), (0x100000, 0x80001), (0x1000C0, 7)]
    regions := [(0, { rgn0 with px := px })]
    marsh := [{ req0 with lrec := { lrec0 with width := width, prio := 3 } }] }

theorem witness_RegionsStop_choice :
    (let s := crowded 1 3
     (stuckReq s 0).isSome = true ∧ ((stuckReq s 0).bind (yielder s)) = some 0 ∧ (stuckReq s 0).bind (moves s) = none ∧ canRetire s { rgn0 with px := 1 } = false) ∧
    (let s := crowded 1 2
     ((stuckReq s 0).bind (moves s)) = some [(0, (0, 0))]) ∧
    (let s := crowded 0 2
     stuckReq s 0 = none ∧ rgn0.part < 16 ∧ s.regions.filter (fun p => p.2.part == 0) = [(0, { rgn0 with px := 0 })] ∧ s.threads = [] ∧ holdsStops s = false ∧
       holdsStops { s with sec := { s.sec with fwState := 3 } } = true) := by decide +kernel

theorem witness_RegionsStop_freeze :
    (let s := { packet (pkt 4 [0x30000, 1]) with threads := [(0, { Thr.reset with q := some 0, siga := true, hdr := some 4 })] }
     qState s 0 ≠ 4 ∧ qThread s 0 = some 0 ∧ qPart s 0 = 0 ∧ s.regions = [] ∧ s.threads.length = 1) := by decide +kernel

theorem witness_RegionsAreSaved_pages :
    (let r : Region := { rgn0 with st := .stopping }
     let s := { State.reset with regions := [(0, r)] }
     (∀ n ∈ regionTiles s r, tileStopped s n = true) ∧ ∀ g ∈ regionGroups s r, pageSaved s g = true) ∧
    (let r : Region := { rgn0 with st := .stopping }
     let s := { State.reset with regions := [(0, r)], tiles := [(0, { Tile.reset with rgn := some 0, started := true })] }
     tileStopped s 0 = false ∧ pageSaved s 0 = false ∧ 0 ∈ regionTiles s r ∧ r.killed = false) ∧
    0x2FFFE000 % 8192 = 0 ∧ 0x2FFFE000 + 8192 ≤ 0x30000000 := by decide +kernel

theorem witness_Mailboxes_far :
    (let s := { sync (withRegs .y [(1, 2 ^ 10), (2, 4096)]) with mgmt := [(0x108, BitVec.allOnes 64), (0x608, 0x401)] }
     let aim := tokenAim s 0 (val s (.r 1)) (some (val s (.r 2)))
     Goes s .none [.r 1, .r 2] none 0 ∧ tokenBad s 0 (val s (.r 1)) (some (val s (.r 2))) .system = false ∧ aim.dev ≠ devNo s ∧
       windowFull s 3 aim.dev (aim.col + 32 * aim.row) (UalMsg.base s 0) = false ∧
       (sendAs s 3 aim.dev (aim.col + 32 * aim.row) (UalMsg.base s 0) (Remote.base 0 .y 0 0)).isSome = true) ∧
    (let s := sync (withRegs .y [(1, 3 + 2 ^ 27)])
     let aim := tokenAim s 0 (val s (.r 1)) none
     tokenTile s aim.rid aim.col aim.row = some 3 ∧ (s.tile 3).started = false) ∧
    (let s := (sync (withRegs .y [(1, 2 ^ 27)])).updTile 0 (fun a => a.setSpecial 4 2)
     (s.tile 0).check = true ∧ 2 ^ tspLog s 0 ≤ 4 * ((val s (.r 1)).toNat / 2 ^ 10 % 2 ^ 18)) :=
  ⟨⟨⟨rfl, rfl, rfl⟩, by decide +kernel⟩, by decide +kernel, by decide +kernel⟩

/-! ### Witnesses of clauses on waiting, traps and answers of peers -/

/-- An instruction whose write of predicate 1 waits for room in a token FIFO, and one with an outcome to publish. -/
def predLate : State := waiting .e (.push { dst := none, val := 0, preds := some (2, 2), pub := 1, out := true, post := .none } false)

theorem witness_Predicates_late : predsFree (edge .e) 0xFF = true ∧ predsFree predLate (predMask 1) = false ∧ predsFree predLate (predMask 2) = true := by
  decide

theorem witness_OutcomesAndStatus_pub : predsFree outcomes7 (predMask 7) = true ∧ publishes ((outcomes7.tile 0).eng .e) = false ∧
    publishes ((predLate.tile 0).eng .e) = true ∧
    ((on .e id).tile 0 |>.ring 31).bound = false ∧ ((ringIn (ring0 1 1 0 0)).tile 0 |>.ring 0).bound = true ∧
    NMap.find? (streams.tile 0).chans 1 = some (6, true) ∧ handleHere streams 6 = true ∧ NMap.find? (streams.tile 0).chans 15 = none := by decide +kernel

theorem witness_TrapEntersSystemCode_enters :
    EntersNow (finishS (edge .e) 0 .e .both [] (Result.value none 0) true)
      { code := 1, sub := 0, eng := .e, impr := false, slot := none, info := 7 } :=
  ⟨by decide +kernel, by decide +kernel⟩

theorem witness_PrivilegeAndOwnPartner_enters :
    EntersNow (edge .e) { code := 5, sub := 0, eng := .e, impr := false, slot := none, info := 0 } ∧
    EntersNow (two .e 3 0) { code := 6, sub := 0x0B, eng := .e, impr := false, slot := none, info := 0 } :=
  ⟨⟨by decide +kernel, by decide +kernel⟩, ⟨by decide +kernel, by decide +kernel⟩⟩

theorem witness_AccessesThatTrap_enters (g : Eng) (h : g = .e ∨ g = .y) :
    EntersNow (inRgn rgn0 (two g (2 ^ 48) 0)) { code := 6, sub := 0x0C, eng := g, impr := false, slot := none, info := 0 } ∧
    EntersNow (inRgn rgn0 (two g (2 ^ 48) 0)) { code := 0x12, sub := 4, eng := g, impr := true, slot := none, info := 0 } := by
  rcases h with rfl | rfl <;> exact ⟨⟨by decide +kernel, by decide +kernel⟩, ⟨by decide +kernel, by decide +kernel⟩⟩

theorem witness_StreamsRefused_enters :
    EntersNow streams { code := 6, sub := 1, eng := .a, impr := false, slot := none, info := 0 } ∧
    (let s := on .a (fun a => (a.setSlot 3 { Slot.reset with act := true }).setSpecial 4 1)
     ((s.tile 0).slot 3).act = true ∧ (s.tile 0).sys = true) :=
  ⟨⟨by decide +kernel, by decide +kernel⟩, by decide +kernel⟩

theorem witness_RingOperations_order : ∀ n, (((ringIn (ring0 1 0 0xFFFFFFFF 0xFFFFFFFF)).tile 0).ring n).inOrder := by
  intro n
  by_cases h : n = 0
  · subst h; unfold Ring.inOrder; decide +kernel
  · have : ((ringIn (ring0 1 0 0xFFFFFFFF 0xFFFFFFFF)).tile 0).ring n = Ring.reset := by
      show NMap.findD [(0, _)] n _ = _
      simp [NMap.findD, NMap.find?, Ne.symm h]
    rw [this]; unfold Ring.inOrder; decide +kernel

/-- Slots 2 and 15 can make progress, and 15 was served last. -/
theorem witness_StreamsComplete_turn :
    let s := on .a (fun a => { (a.setSlot 15 { Slot.reset with opc := 0x40, act := true }).setSlot 2 { Slot.reset with opc := 0x40, act := true } with lastSlot := 15 })
    let order := (range 1 16).map (fun i => ((s.tile 0).lastSlot + i) % 16)
    order = [0, 1] ++ 2 :: range 3 13 ∧ (∀ m ∈ [0, 1], slotServe s 0 m = none) ∧ slotServe s 0 2 ≠ none ∧
      ∀ m < 16, slotServe (on .a id) 0 m = none := by decide +kernel

theorem witness_MatrixCommandsRetire_order : ∀ r, 0 < r →
    diff32 ((matFlight.tile 0).ring r).filled ((matFlight.tile 0).ring r).taken = 0 ∧ ((matFlight.tile 0).ring r).inOrder := by
  intro r _
  have h : (matFlight.tile 0).rings = [] := by decide +kernel
  have : (matFlight.tile 0).ring r = Ring.reset := by simp [Tile.ring, h, NMap.findD, NMap.find?]
  rw [this]; unfold Ring.inOrder; decide +kernel

/-- An OPPLANE entry of slot 0 at TSP 0x1000, and a load of it in flight. -/
def oppFlight : State :=
  { waiting .m (.plane true .t 0x1000 false false) with st := { Store.reset with mem := [(2 ^ 42 + 0x1000, 3), (2 ^ 42 + 0x1004, 137)] } }

theorem witness_PlanesChange_opplane :
    flightAt (oppFlight.tile 0) .m Wait.isLoad = some (0, .plane true .t 0x1000 false false) ∧ stampedOpp (oppFlight.tile 0).arr 0 = false ∧
    readEntry oppFlight (planeWho 0 false false) .t 0x1000 546 = (oppFlight, .ok (entryAt oppFlight 546)) ∧ oppFlight.starved = false ∧
    rnum (entryAt oppFlight 546) 8 1 = 0 ∧ (placePlane (oppFlight.tile 0) true (entryAt oppFlight 546) 0 0x1000).isSome = true :=
  ⟨by decide +kernel, by decide +kernel, readEntry_tsp oppFlight (planeWho 0 false false) 0x1000 rfl 546 0, by decide +kernel, by decide +kernel,
    by decide +kernel⟩

theorem witness_LaunchImages_tokens :
    (let a := (configuring [] (fun a => { a with config := [progImg], gotLast := true, heldTok := [(3, 2)] })).tile 0
     a.heldTok = [(3, 2)] ∧ 2 ≤ lrec0.tsplog ∧ ∀ e ∈ NMap.findD [(0, ([] : List ImgEntry))] a.row [], a.col < e.col) ∧
    nextReq launching 0 = some req0 ∧ 4095 < 4096 ∧
    (let s := configuring [lastImg] (fun a => { a with config := [progImg] })
     lastFailure { s.tile 0 with config := [progImg, lastImg], gotLast := true } = none) := by decide +kernel

theorem witness_RegionsStop_waits :
    (let s : State := { over16 rgn0 with remotes := [(0, { Remote.base 0 .e 0 8 with unit := 17 })] }
     canRetire s { rgn0 with spans := [] } = true) ∧
    (let s : State := { over16 rgn0 with remotes := [(0, Remote.base 0 .e 0 8)] }
     canRetire s { rgn0 with spans := [] } = false) ∧
    (let s := crowded 1 3
     (stuckReq s 0).isSome = true ∧ ((stuckReq s 0).bind (yielder s)) ≠ some 1) ∧
    (let s := crowded 1 2
     (stuckReq s 0).isSome = true ∧ ∀ l, (stuckReq s 0).bind (moves s) = some l → ∀ m ∈ l, m.1 ≠ 1) := by
  refine ⟨by decide +kernel, by decide +kernel, by decide +kernel, by decide +kernel, ?_⟩
  intro l h
  rw [show (stuckReq (crowded 1 2) 0).bind (moves (crowded 1 2)) = some [(0, (0, 0))] from by decide +kernel] at h
  cases h; decide

theorem witness_RegionsAreSaved_system :
    (let s := on .e (fun a => { a with preempt := some 1 })
     (entryPcs (withdrawS (preemptWaits (parkTile s 0) 0 1) 0) 0).1.starved = false ∧ 0 % 8192 = 0) ∧
    (let s := { on .e (fun a => { a.setSlot 3 { Slot.reset with act := true } with preempt := some 1 }) with
       remotes := [(0, { Remote.base 0 .a 0 8 with isWrite := true, unit := 4 })] }
     slotsOpen s 0 = true) ∧
    (let s := inRgn rgn0 (sysOn .e (fun a => { a with preempt := some 2, halted := true }))
     (s.tile 0).preempt = some 2 ∧ (s.tile 0).started = true ∧ (s.tile 0).sys = true ∧ (s.tile 0).halted = true ∧ (s.tile 0).enter = none ∧
       slotsOpen s 0 = false ∧ tspLog s 0 = 16 ∧ 8192 % 8192 = 0 ∧ 8192 + 8192 + 2 ^ 16 + 2 ^ 16 / 32 ≤ 0x30000000) := by decide +kernel

theorem witness_RegionsComeBack_parts :
    (let a : SavedTile := { started := false, ctx := 0, img := 0, order := [], heldTok := [(3, 2)], dieAbs := [] }
     let r : Region := { rgn0 with st := .saved, killed := true, tiles := (range 0 16).map (fun i => (i, a)) }
     r.tiles.map Prod.fst = range 0 r.ntiles ∧ (∀ i < r.ntiles, ∀ j < r.ntiles, tileOfTix State.reset r i = tileOfTix State.reset r j → i = j) ∧
       a.started = false) ∧
    12 ≤ 18 ∧ 0x2FFB0000 % 8 = 0 ∧ 0x2FFB0000 + 2 ^ 18 + 2 ^ 18 / 32 ≤ 0x30000000 := by decide +kernel

theorem witness_FetchWalksAndExceptions_waits :
    (readBundle fetchable 0 0).1.starved = false ∧
    (fetchable.tile 0).live = true ∧
    (let s := on .e (fun a => { a with enter := some { code := 1, sub := 0, eng := .e, impr := false, slot := none, info := 7 } })
     s.inCycle = false ∧ (entryPcs (withdrawS s 0) 0).1.starved = false) ∧
    EntersNow (on .e id) { code := 2, sub := 0, eng := .e, impr := false, slot := none, info := 0 } :=
  ⟨by decide +kernel, by decide +kernel, by decide +kernel, ⟨by decide +kernel, by decide +kernel⟩⟩

/-- A tile whose four engines hold an instruction each. -/
def busy (a : Tile) : Tile :=
  let e := { EngSt.reset with queue := [entry 0x00800000 none] }
  { a with e := e, a := e, m := e, y := e }

theorem entryPcs_busy (s : State) (tid : Nat) (h : ∀ g, (pruneQ ((s.tile tid).eng g).queue).isEmpty = false) : (entryPcs s tid).1 = s := by
  have one (g : Eng) : nextPc s tid g = (s, 0) := by simp [nextPc, h g]
  simp [entryPcs, engines, one]

theorem witness_Interlocking_enters :
    (let s := il .e { Il.reset with st := .probe, epoch := 1, armed := true } busy
     UserRuns (s.tile 0) ∧ Calm (s.tile 0) ∧ (s.tile 0).il.st = .probe) ∧
    ∀ (tr : Trap) (i : Il) (ms : NMap Nat),
      EntersAt { updIl (il .e { Il.reset with st := .probe, epoch := 1, armed := true } busy) 0 (fun _ => i) with errcnt := ms } 0 tr :=
  ⟨⟨⟨rfl, rfl, rfl, rfl, rfl, rfl⟩, ⟨by intro g; cases g <;> rfl, rfl⟩, rfl⟩, fun _ _ _ => ⟨rfl, by rw [entryPcs_busy _ _ fun g => by cases g <;> rfl]; rfl⟩⟩

theorem witness_Packets_invalid :
    packetReads [0, 2] 0 (some 0) = true ∧
    (let s := handLaunch (packet (pkt 2 [0x20000])) 0 7 lrec0
     launchKnown s 0 (launchNo s 0) = true) := by decide +kernel

theorem witness_Scheduling_readable :
    (let s := pending0
     match headerAt (setThr (qEnter s 0 3 0 (qPrio s 0)) 0 { Thr.reset with q := some 0 }) 0 with | (_, .ok _) => true | _ => false) = true ∧
    (let s := mapped1 0x40
     let s := afterUnmap (unmap s 1) 1
     match headerAt (setThr (qEnter s 0 3 0 (qPrio s 0)) 0 { Thr.reset with q := some 0 }) 0 with | (_, .ok _) => true | _ => false) = true ∧
    pending0.swapped.contains 0 = false ∧ ({ pending0 with swapped := [0] } : State).swapped.contains 0 = true := by decide +kernel

theorem witness_Scheduling_fault :
    let s := packet []
    (thr s 0).q = some 0 ∧ (thr s 0).siga = false ∧ qThread s 0 = some 0 ∧
      (match publishAt (qFlag (count s 26) 0 14 false) 0 0 true with | (_, .ok ()) => true | _ => false) = true := by decide +kernel

theorem witness_Firmware_saving :
    (let s := { firmware 2 id with regions := [(0, { rgn0 with st := .stopping })] }
     s.sec.fwState = 2 ∧ ∃ p ∈ s.regions, p.2.st = .stopping) ∧
    (∀ p ∈ (firmware 2 id).regions, p.2.st ≠ .stopping) ∧
    (State.reset.jobs.find? (fun j => j.1 == 0x520)).any (fun j => j.2 == fwWord 1 0) = false ∧
    (let s := { firmware 1 id with jobs := [(0x520, fwWord 1 0)] }
     (s.jobs.find? (fun j => j.1 == 0x520)).any (fun j => j.2 == fwWord 1 0) = true ∧ (takeJob s 0x520 (fwWord 1 0)).isSome = true) ∧
    (takeJob (firmware 3 id) 0x520 (fwWord 2 0)).isSome = true ∧
    (let s := { firmware 3 (fun c => { c with staged := some [] }) with threads := [(0, { Thr.reset with siga := true })] }
     s.sec.staged = some [] ∧ ∃ p ∈ s.threads, p.2.siga = true) ∧ State.reset.heldStops = [] := by decide +kernel

theorem witness_HostPort_waits :
    (let s := { bar4 with remotes := [(0, { Remote.base barWaiter .e 0 8 with unit := 1 })] }
     fnOn s 0 = true ∧ barBusy s = true) ∧ hostServes .add = true := by decide +kernel

theorem witness_Peers_window :
    (let s := State.reset
     let ds := packMsg 1 { UalMsg.base s 0 with body := List.replicate 256 7 }
     32 ≤ (ds.take 256).length ∧ (ds.take 256).length < 32 + msgLen (ds.take 256) ∧ windowBase % 256 = 0) ∧
    (NMap.find? (remote0 false).remotes 0).map (fun r => (r.unit, r.isWrite)) = some (0, false) := by decide +kernel

/-! ### The entries of a cycle -/

/-- Engine A of tile 0 has an END, a RPOP of a filled slot, or a STD to a KV page as its next instruction. -/
theorem witness_StepRunsDecoded_cycle :
    (let s := { on .e id with agenda := [.cycle 2, .run 0 .a, .run 0 .m, .pulses 1] }
     s.agenda.head? = some (.cycle 2) ∧ s.inCycle = false ∧
       orderCycle { s with agenda := s.agenda.tail } [.run 0 .a, .run 0 .m, .run 0 .e] = [.run 0 .e, .event (.fetchBundle 0)]) ∧
    ({ on .e id with agenda := [.cycleEnd] } : State).agenda.head? = some .cycleEnd ∧
    ({ on .e id with agenda := [.pulses 1] } : State).agenda.head? = some (.pulses 1) ∧
    ({ on .e id with agenda := [.event .schedulerWake] } : State).agenda.head? = some (.event .schedulerWake) ∧ tileInstr .schedulerWake = false ∧
    ({ on .e id with agenda := [.again 5 (.event .schedulerWake)] } : State).agenda.head? = some (.again 5 (.event .schedulerWake)) := by decide +kernel

/-- The state that engine g of tile 0 leaves as it runs in a cycle. -/
def ranIn (s : State) (g : Eng) (p : State → Bool) : Bool := after (runEngine { s with inCycle := true } 0 g) p

/-- Tile 0 runs one lane on an engine. -/
def lane (g : Eng) (w : Lane) (f : Tile → Tile) : State := on g (fun a => f (a.setEng g { EngSt.reset with queue := [entry w none] }))

/-- What encodes to one lane. -/
def laneFor (i : Instr) : Lane := ((encode i).map Prod.fst).getD 0

theorem witness_StepRunsDecoded_keys :
    (let s := lane .e (laneFor (.rfe .none 0)) id
     (s.tile 0).enter = none ∧ ranIn s .e (fun t => (t.tile 0).enter == some { code := 5, sub := 0, eng := .e, impr := false, slot := none, info := 0 }) = true) ∧
    (let s := lane .e (laneFor (.endTile .none 0)) id
     ranIn s .e (fun t => (t.tile 0).enter == none && (kvWrites s t (.run 0 .e)).isNone && nextInstr (s.tile 0) .e == some (.endTile .none 0)) = true) ∧
    (let s := lane .e (laneFor (.stP .none (.r 2) (.r 1) (.ro .zero) .w .plain none)) (withRegs .e [(1, 2 ^ 20)])
     ranIn s .e (fun t => (t.tile 0).enter == none && (kvWrites s t (.run 0 .e)).isNone && overMesh s (.run 0 .e)) = true) ∧
    (let s := lane .a (laneFor (.rpop .none (.r 3) (.imm 1) 0)) (fun a => { a with rings := [(0, ring0 1 1 0 0)] })
     ranIn s .a (fun t => ringRank s t == 1 && s.st == t.st && !overMesh s (.run 0 .a)) = true) ∧
    (let s := lane .a (laneFor (.radv .none (.r 3) (.imm 1) 0)) (fun a => { a with rings := [(0, ring0 1 0 0 0)] })
     ranIn s .a (fun t => ringRank s t == 2) = true) ∧
    ranIn (on .m id) .m (fun t => ringRank (on .m id) t == 5) = true := by decide +kernel

theorem witness_TokensStayBounded : ∃ t, step (two .e 1 2) = .next t := ⟨_, rfl⟩

/-! ### Witnesses of further clauses -/

theorem witness_StreamsRefused_rings :
    (let s := streams.updTile 0 (fun a => { a with ports := [(15, 0), (16, 1)] })
     (s.tile 0).check = false ∧ ((s.tile 0).slot 0).act = false ∧ accHeld ((s.tile 0).eng .a) = false ∧
       Goes s .none [.r 1, .r 2] none 0 ∧ Goes s .none [.r 1] none 0 ∧ Goes s .none [] (some (.r 3)) 0 ∧ Goes s .none [.r 1] (some (.r 3)) 0 ∧
       (∀ q ∈ [0, 1], ((s.tile 0).ring q).bound = true) ∧ ((s.tile 0).ring 2).bound = false ∧ consumerHeld s 0 0 = true ∧ producerHeld s 0 1 = true ∧
       maskTiles 0 1 = [0] ∧ ∀ u ∈ maskTiles 0 1, (s.tile u).started = true) ∧
    (let s := matrix.updTile 0 (fun a => { a with ports := [(15, 1)] })
     Goes s .none [] none 0 ∧ UserRuns (s.tile 0) ∧ Calm (s.tile 0) ∧ atHead (s.tile 0) .m = true ∧ (s.tile 0).check = false ∧
       accHeld ((s.tile 0).eng .m) = false ∧ ((s.tile 0).ring 0).bound = true ∧ consumerHeld s 0 1 = true ∧ ((s.tile 0).ring 2).bound = false) :=
  ⟨⟨rfl, by decide +kernel, by decide +kernel, ⟨rfl, rfl, rfl⟩, ⟨rfl, rfl, rfl⟩, ⟨rfl, rfl, rfl⟩, ⟨rfl, rfl, rfl⟩, by decide +kernel⟩,
    ⟨⟨rfl, rfl, rfl⟩, ⟨rfl, rfl, rfl, rfl, rfl, rfl⟩, ⟨by intro g; cases g <;> rfl, rfl⟩, by decide +kernel⟩⟩

theorem witness_StreamsComplete_round :
    (let s := slot15 { Slot.reset with opc := 0x40, cc := true }
     roundOf s (afterRings s 0) 0 = [15] ∧ slotServe s 0 15 ≠ none ∧
       ∀ p ∈ roundActs s (afterRings s 0) 0 [15], p.2 = .serve 0 15) ∧
    (∀ m < 16, slotServe (on .a id) 0 m = none) ∧
    recordOut ((channels 0x48 (4096 - 32) 0 (ring0 1 1 0 0)).tile 0) 0 = false ∧ recordOut ((channels 0x47 32 0 (ring0 1 0 0 0)).tile 0) 0 = false := by
  decide +kernel

theorem witness_PlanesChange_runs :
    (let s := array .m (fun a => { a with arr := { a.arr with swap := some (0, 0) } })
     (s.tile 0).halted = false ∧ (s.tile 0).sys = false) := by decide

/-- R255, R256, R258: an add that wraps, one that saturates, a sum of FP32, and a gate that closes, on lane 0 of vectors (7FFFFFFF, 1). -/
theorem witness_ArrayMoves_operators :
    (let v (x : Nat) : Vec := { Vec.zero with lanes := [x, 0, 0, 0, 0, 0, 0, 0] }
     let out (op x y : Nat) : Nat := ((evalOp op (v x) (v y) Vec.zero Vec.zero 1).res).lane 0
     out 0x02 0x7FFFFFFF 1 = 0x80000000 ∧ out 0x0A 0x7FFFFFFF 1 = 0x7FFFFFFF ∧ out 0x20 0x3F800000 0x40000000 = 0x40400000 ∧
       (evalOp 0x41 (v 5) (v 0) Vec.zero Vec.zero 1).res.valid 0 = false ∧ (∀ j < 8, (v 0x7FFFFFFF).lane j < 2 ^ 32)) := by decide +kernel

theorem witness_WalkerServices_again :
    (let r : Region := { rgnG with reqs := [(100, 0, false)], regrant := [(0, [7])] }
     r.again 0 ≠ [] ∧ r.span 0 = (0, 3)) := by decide

theorem witness_RegionsAreSaved_slots :
    (let s := on .e (fun a => { (a.setSlot 3 { Slot.reset with act := true, opc := 0x40, cc := true }).setSlot 4
        { Slot.reset with act := true, opc := 0x40, pos := 5, held := true } with preempt := some 1 })
     ((s.tile 0).slot 3).unfinished = false ∧ ((s.tile 0).slot 3).cc = true ∧ ((s.tile 0).slot 4).held = true ∧ slotsOpen s 0 = false ∧
       (entryPcs (withdrawS (preemptWaits (dropArray (parkTile s 0) 0) 0 1) 0) 0).1.starved = false) ∧
    (let s := inRgn rgn0 (sysOn .e (fun a => { a with preempt := some 2, halted := true, cmds := [MCmd.base 255 0x32] }))
     (s.tile 0).cmds ≠ [] ∧ slotsOpen s 0 = false) ∧
    planesInFlight ((inRgn rgn0 (sysOn .e (fun a => { a with preempt := some 2, halted := true }))).tile 0) = [] := by decide +kernel

/-- The E engine stands at a bundle of a peer's memory, and the others at one that can be read. -/
def halfAfar : State :=
  fetchable.updTile 0 (fun a =>
    { (a.updEng .e (fun e => { e with fetch := 2 ^ 16 })) with
        utlb := a.utlb ++ [{ part := 0, base := 2 ^ 16, log := 16, leaf := 2 ^ 54 + 0x19F, plog := 16, kv := none }] })

theorem witness_FetchWalksAndExceptions_starved :
    (let s := { halfAfar with mgmt := [(0x108, BitVec.allOnes 64), (0x608, 0x401)] }
     let asked := (readBundle s 0 (2 ^ 16)).1
     (s.tile 0).live = true ∧ (fetchOrder (s.tile 0)).take 2 = [.e, .a] ∧ asked.starved = true ∧ (keepAsked s asked).remotes ≠ [] ∧
       (match readBundle (keepAsked s asked) 0 0 with
         | (u, .ok bs) => !u.starved && canTake ((s.tile 0).eng .a) (entriesOf .a 0 0 (.ok bs))
         | _ => false) = true) ∧
    (let s := { halfAfar.updTile 0 (fun a => engines.foldl (fun a g => a.updEng g (fun e => { e with fetch := 2 ^ 16 })) a) with
       mgmt := [(0x108, BitVec.allOnes 64), (0x608, 0x401)] }
     (∀ g ∈ engines, ((s.tile 0).eng g).fetch = 2 ^ 16) ∧ (readBundle s 0 (2 ^ 16)).1.starved = true) := by decide +kernel

theorem witness_Packets_jump :
    (let s := put (put (packet (pkt 6 [0x30000, 1])) 0x80021 [0x80]) 0x80048 [1]
     qInJump s 0 = true ∧ jumpLeft s 0 = 1) ∧
    (let s := packet (pkt 1 [])
     match translateJd s 0 (ringVa s 0) .atomic false with
       | (v, .ok p) => leNat (physRead v 0 p 8).2 == 1 && leNat (physRead v 0 p 8).2 != 2
       | _ => false) = true ∧
    (let s := { packet (pkt 1 []) with mgmt := [] }
     match translateJd s 0 (ringVa s 0) .atomic false with | (_, .error _) => true | _ => false) = true := by decide +kernel

theorem witness_QueueCommands_frozen : qState (queue0 4 State.reset) 0 = 4 ∧ atBoundary (put (queue0 4 State.reset) 0x80021 [0x40]) 0 = false ∧
    qState (put (queue0 4 State.reset) 0x80021 [0x40]) 0 = 4 := by decide +kernel

theorem pendingBest_none (s : State) (p : Nat) (h : ∀ q < 4096, ¬ (qState s q = 2 ∧ qPart s q = p)) : pendingBest s p = none := by
  have hr : (range 0 4096).filter (fun q => qState s q == 2 && qPart s q == p) = [] := by
    refine List.filter_eq_nil_iff.mpr fun q hq => ?_
    have := mem_range_lt _ _ _ hq
    simpa using h q (by omega)
  simp [pendingBest, hr, bestOf]

theorem schedStep_none (s : State) (p : Nat) (h : ∀ q < 4096, ¬ (qState s q = 2 ∧ qPart s q = p)) : schedStep s p = none := by
  unfold schedStep
  rw [pendingBest_none s p h]
  cases s.swapped.contains p <;> rfl

theorem nonePending (s : State) (h0 : qState s 0 ≠ 2) (h1 : qState s 1 ≠ 2) (hb : mreg s 0x100000 = 0x80001) (hm : ∀ c ∈ s.st.mem, c.1 < 0x80100)
    (hp : s.st.poison = []) (hk : ∀ u, NMap.findD s.st.ktag u (keyIdent s 0) = keyIdent s 0) (hs : s.lostStacks = []) (r : Nat) : schedStep s r = none := by
  refine schedStep_none s r fun q hq h => ?_
  by_cases e0 : q = 0
  · subst e0; exact h0 h.1
  · by_cases e1 : q = 1
    · subst e1; exact h1 h.1
    · have := qState_above s q (by omega) hq hb hm hp hk hs
      omega

theorem schedStep_maps (s : State) (c t : Nat) (hs : s.swapped.contains 0 = false) (hc : pendingBest s 0 = some c)
    (hb : (mappedOf s 0).length < partBudget s 0) (ht : freeThread s = some t) : schedStep s 0 = some (mapOn s c t) := by
  simp only [schedStep, hs, hc, ht, Bool.false_eq_true, if_false, if_pos hb]

/-- Queue 0 is mapped on thread 0, and no partition has another decision. -/
def mapped0 : State := mapOn pending0 0 0

theorem mapped0_tags (u : Nat) : NMap.findD mapped0.st.ktag u (keyIdent mapped0 0) = keyIdent mapped0 0 := by
  rw [show mapped0.st.ktag = [(0x80000, 1)] from by decide +kernel, show keyIdent mapped0 0 = 1 from by decide +kernel]
  simp only [NMap.findD, NMap.find?]
  split <;> rfl

theorem witness_Scheduling_decides : serving pending0 = true ∧ schedStep pending0 0 = some mapped0 ∧ ∀ r, schedStep mapped0 r = none :=
  ⟨by decide +kernel,
    schedStep_maps pending0 0 0 (by decide +kernel) (witness_Scheduling_pending pending0 (.inl rfl)) witness_Scheduling_free.1 (by decide +kernel),
    nonePending mapped0 (by decide +kernel) (by decide +kernel) (by decide +kernel) (by decide +kernel) (by decide +kernel) mapped0_tags
      (by decide +kernel)⟩

theorem witness_Management_disable :
    (let s : State := { State.reset with chans := [(0, { Chan.reset with en := true, wbound := true, wagent := 2048 })] }
     (chan s 0).en = true ∧ (0 : Word).getLsbD 0 = false ∧ (chan s 0).wagent / 2048 ≠ devNo s) := by decide +kernel

/-- A record whose header has POISON. -/
theorem witness_Peers_poison :
    let s := fullChan { Chan.reset with home := true, scope := 3 } 0 0 State.reset
    ((bindFar s 0 1).bind (fun v => accept v 0 0x40001 [7] 1)).isSome = true := by decide +kernel

theorem witness_Peers_poison_marks : (0x40001).testBit 18 = true ∧ 2 ^ recBlocks 0x40001 - 1 = 1 := by decide +kernel

/-- A slot whose record the home answers for. -/
def answered (cc : Bool) (rav : Word) : State :=
  on .a (fun a => { (a.setSlot 2 { Slot.reset with act := true, opc := opSchw, inFlight := true, rav := rav, cc := cc }) with
    chans := [(0, (2 ^ 12 + 5, true))], rings := [(0, ring0 1 1 1 0)] })

theorem witness_Peers_accepted : (waitersOn (answered true 1) (2 ^ 12 + 5)).head? = some (0, 2) ∧ (waitersOn (answered false 2) (2 ^ 12 + 5)).head? = some (0, 2) := by
  decide +kernel

theorem witness_Peers_accepted_slot (cc : Bool) (rav : Word) :
    let v := ((answered cc rav).tile 0).slot 2
    v.act = true ∧ v.opc = 0x48 ∧ v.inFlight = true ∧ v.pos = 0 ∧ v.rav = rav ∧ v.cc = cc ∧ slotWritesOut (answered cc rav) 0 2 = false ∧
      ((answered cc rav).tile 0).ended = false := ⟨rfl, rfl, rfl, rfl, rfl, rfl, rfl, rfl⟩

theorem witness_Peers_completion : (remote0 false).remotes.map (fun r => r.2.pa % 64) = [0] := by decide +kernel

/-! ### The entries of a cycle and of the host -/

/-- An access of the host is set aside. -/
def hostLate : State := { bar4 with deferred := [.again 8192 (.event (.bar4Read 0 0 1))] }

theorem witness_StepRunsDecoded_host :
    fromHost (.hostDoorbellWrite 0 0) = true ∧ tileInstr (.hostDoorbellWrite 0 0) = false ∧ hostHeld (begun bar4 0) = false ∧
    hostHeld (begun hostLate 0) = true ∧ fromHost .schedulerWake = false ∧
    ({ hostLate with agenda := [.event (.hostDoorbellWrite 0 0)] } : State).agenda.head? = some (.event (.hostDoorbellWrite 0 0)) ∧
    ({ hostLate with agenda := [.again 3 (.event (.hostDoorbellWrite 0 0))] } : State).agenda.head? = some (.again 3 (.event (.hostDoorbellWrite 0 0))) ∧
    (∀ a ∈ [Act.serve 0 1, .own 0 0, .resend 0, .upset (.corrected 0 8), .cycle 1, .cycleEnd], ({ bar4 with agenda := [a] } : State).agenda.head? = some a) ∧
    bar4.inCycle = false := by decide +kernel

/-- Accesses of the host in one cycle keep their order, and a round of services is ordered slot by slot. -/
theorem witness_StepRunsDecoded_rounds :
    (let s := slot15 { Slot.reset with opc := 0x40, cc := true }
     cycleRounds s (afterEarly s [.event (.streamService 0)]) [.event (.streamService 0)] = [(0, [15])] ∧
       orderCycle s [.run 0 .a, .event (.streamService 0), .event (.nextService 0 0)] = [.serve 0 15, .run 0 .a, .event (.nextService 0 0)]) ∧
    hostAct (.event (.hostDoorbellWrite 0 0)) = true ∧ mayTake State.reset (.event (.channelTake 0 0)) = false := by decide +kernel

theorem witness_StepRunsDecoded_places :
    (let s := on .e id
     let calm (i : Instr) : Bool := after (actPlain { s with inCycle := true } (.event i)) (fun t => (raisedBy s t).isNone)
     [Instr.growthRequest 0, .channelAccept 0 0, .channelTake 0 0, .nextService 0 0, .shuntService 0 0, .preemptTrap ⟨0, 0⟩,
       .walkerStateError 0 0].all calm = true) ∧
    (let s := { lane .e 0 (fun a => (a.setSpecial 4 1)) with regions := [(0, rgn0)] }
     let s := s.updTile 0 (fun a => { a with rgn := some 0 })
     ranIn s .e (fun t => (raisedBy s t).isNone && (kvWrites s t (.run 0 .e)).isNone && stopsTile s t &&
       (match nextInstr (s.tile 0) .e with | some (.endTile _ _) => false | _ => true)) = true) ∧
    (let s := lane .e (laneFor (.rfe .none 0)) id
     ranIn s .e (fun t => raisedBy s t == some (0, 0) && t.tiles.all (fun p => p.1 == 0 && p.2 == t.tile 0)) = true) := by decide +kernel

end Sys2Proof.Tests
end

section
/-! What the machine holds right after reset (R17, R20, R36, R85, R128, R163, R312, R351, R354): one lemma for each way to read it. -/

namespace Sys2Proof.Machine

@[simp] theorem NMap.findD_nil {α : Type} (k : Nat) (d : α) : NMap.findD ([] : NMap α) k d = d := rfl

/-! ### Storage -/

@[simp] theorem Store.reset_byte (k : Nat) : Store.reset.byte k = 0 := by
  simp [Store.byte, Store.reset, memGet]

@[simp] theorem Store.reset_poisoned (k n : Nat) : Store.reset.poisoned k n = false := by
  simp [Store.poisoned, Store.reset]

@[simp] theorem State.reset_st : State.reset.st = Store.reset := rfl

/-! ### Tiles and channels -/

@[simp] theorem State.reset_tile (tid : Nat) : State.reset.tile tid = Tile.reset := rfl

@[simp] theorem State.reset_chan (c : Nat) : chan State.reset c = Chan.reset := rfl

/-- TOKSEL is the one special register that a reset does not clear (R163). -/
@[simp] theorem Tile.reset_special (n : Nat) : Tile.reset.special n = if n = 0 then 5 else 0 := by
  by_cases hn : n = 0
  · subst hn; rfl
  · simp [Tile.special, Tile.reset, NMap.findD, NMap.find?, hn, Ne.symm hn]

@[simp] theorem Tile.reset_pred (k : Fin 8) : Tile.reset.pred k = (k == 0) := by
  revert k; decide

@[simp] theorem Tile.reset_x (n : Nat) : Tile.reset.x n = XReg.reset := rfl

@[simp] theorem Tile.reset_tok (p q : Eng) : Tile.reset.tok p q = 0 := rfl

@[simp] theorem Tile.reset_ring (n : Nat) : Tile.reset.ring n = Ring.reset := rfl

@[simp] theorem Tile.reset_slot (n : Nat) : Tile.reset.slot n = Slot.reset := rfl

/-! ### Management registers -/

@[simp] theorem State.reset_mreg (off : Nat) : mreg State.reset off = mgmtReset off := rfl

theorem mgmtReset_pwrctl : mgmtReset 0x400 = BitVec.ofNat 64 (2000 + 64 * 2 ^ 24 + 105 * 2 ^ 32) := rfl

/-- No register between PWRCTL and COLTHERM has a reset value other than 0. -/
theorem mgmtReset_of_between (off : Nat) (hlo : 0x400 < off) (hhi : off < 0x1000) : mgmtReset off = 0 := by
  have hcolmap : ¬ off < 0x310 := by omega
  have hpwrctl : off ≠ 0x400 := by omega
  have hcoltherm : ¬ 0x1000 ≤ off := by omega
  simp [mgmtReset, hcolmap, hpwrctl, hcoltherm]

/-- COLTHERM of a column: CEIL, and SPARE at the last position of a die or INUSE at another (R20). -/
theorem mgmtReset_coltherm (m p : Nat) (hm : m < 4) (hp : p < 17) :
    mgmtReset (0x1000 + 8 * (17 * m + p)) = BitVec.ofNat 64 (1023 * 2 ^ 32 + (if p = 16 then 2 ^ 49 else 2 ^ 50)) := by
  have hcolmap : ¬ 0x1000 + 8 * (17 * m + p) < 0x310 := by omega
  have hpwrctl : 0x1000 + 8 * (17 * m + p) ≠ 0x400 := by omega
  have hcoltherm : 0x1000 + 8 * (17 * m + p) < 0x1220 := by omega
  simp [mgmtReset, hcolmap, hpwrctl, hcoltherm, Nat.mod_eq_of_lt hp]

/-- No sample stands in a column's COLTHERM yet: CTEMP, YTEMP, HOT, SEQ and the reserved bits are 0 (R20). -/
theorem coltherm_reset_fields (m p : Nat) (hm : m < 4) (hp : p < 17) :
    let v := mgmtReset (0x1000 + 8 * (17 * m + p))
    wfld v 0 32 = 0 ∧ wfld v 42 7 = 0 ∧ wfld v 51 13 = 0 := by
  rw [mgmtReset_coltherm m p hm hp]
  by_cases hspare : p = 16
  · rw [if_pos hspare]; decide
  · rw [if_neg hspare]; decide

/-- Settles O54: what storage, a tile, a channel and a management register give at reset, part by part. -/
theorem resetState : Obligations.ResetState := by
  unfold Obligations.ResetState
  refine ⟨reset_wf, Store.reset_byte, Store.reset_poisoned, rfl, fun tid => ?tile, ?chans, ?functions, ?power, ?temperature, ?columns,
    rfl, rfl, rfl⟩
  case tile =>
    rw [State.reset_tile]
    exact ⟨rfl, rfl, rfl, rfl, Tile.reset_special, Tile.reset_pred, fun n => by rw [Tile.reset_x]; rfl, Tile.reset_tok,
      fun n => by rw [Tile.reset_ring]; rfl, fun n => by rw [Tile.reset_slot]; rfl, rfl⟩
  case chans => exact fun c => by rw [State.reset_chan]; rfl
  case functions => exact fun f hf => by rw [State.reset_mreg]; exact mgmtReset_of_between _ (by omega) (by omega)
  case power => rw [State.reset_mreg, mgmtReset_pwrctl]; decide
  case temperature => rw [State.reset_mreg, mgmtReset_pwrctl]; decide
  case columns => exact fun m p hm hp => coltherm_reset_fields m p hm hp

end Sys2Proof.Machine
end
